-- ==== Sys2Proof/Word.lean ====
section
/-! DEFINITION. The two word types of the CX-26 and the pair of things the part keeps once per zone.

Block numbers, bucket numbers, counts and addresses are plain `Nat`: the data book adds and compares them but
never reads their bits. Only link bytes and audio samples are words. -/

namespace Sys2Proof

/-- One byte on the Control Link (R172). -/
abbrev Byte := BitVec 8

/-- One 16-bit two's-complement audio sample (R1, R3). -/
abbrev Sample := BitVec 16

/-- A listening zone. -/
inductive ZoneId where
  | a
  | b
  deriving DecidableEq, Repr

/-- The other zone. -/
def ZoneId.other : ZoneId → ZoneId
  | .a => .b
  | .b => .a

/-- What the part keeps once for zone A and once for zone B. -/
structure Pair (α : Type) where
  a : α
  b : α
  deriving DecidableEq, Repr

/-- The value of zone `z`. -/
def Pair.get {α : Type} (p : Pair α) : ZoneId → α
  | .a => p.a
  | .b => p.b

/-- Change the value of zone `z` and leave the other zone's. -/
def Pair.mod {α : Type} (p : Pair α) (z : ZoneId) (f : α → α) : Pair α :=
  match z with
  | .a => { p with a := f p.a }
  | .b => { p with b := f p.b }

/-- Replace the value of zone `z`. -/
def Pair.set {α : Type} (p : Pair α) (z : ZoneId) (v : α) : Pair α := p.mod z fun _ => v

/-- The same value for both zones. -/
def Pair.both {α : Type} (v : α) : Pair α := ⟨v, v⟩

end Sys2Proof
end

