-- ==== Sys2Proof/Syntax.lean ====
section
/-! DEFINITION. The commands of the CX-26: one constructor of `Instr` for each row of the table of operations and
events, with what comes in at the part's connections as its operands.

A host request is a request frame that has just been received whole (R174, R175): its operand is the frame's body,
byte by byte, so that every length and every value a host can send is a command. -/

namespace Sys2Proof

/-- The status of a block's address stamp as the decoder presents it (chapter 1, The Delivered Block). -/
inductive StampStatus where
  | good
  | doubtful
  | missing
  deriving DecidableEq, Repr

/-- The decoder status of a block (chapter 1, The Delivered Block). -/
inductive DecoderStatus where
  | clean
  | corrected
  | flagged
  | lost
  deriving DecidableEq, Repr

/-- A block at the block data port: its header, its payload and its erasure flags (chapter 1, The Delivered Block).
`samples` is absent when the decoder status is LOST (R3); sample n is the left sample of frame n/2 when n is even
and the right sample of frame (n − 1)/2 when n is odd. -/
structure PortBlock where
  stamp       : Option Nat
  stampStatus : StampStatus
  track       : Nat
  decoder     : DecoderStatus
  samples     : Option (List Sample)
  flags       : List Bool
  deriving DecidableEq, Repr

/-- The name of a servo command, as a completion names it (R57, R185). -/
inductive ServoName where
  | load
  | unload
  | spin
  | seek
  | read
  | pause
  | latchOpen
  | abort
  deriving DecidableEq, Repr

/-- The reason of a FAILED completion (section 4.2). -/
inductive FailReason where
  | noDisc
  | jam
  | notFound
  | speed
  deriving DecidableEq, Repr

/-- What wakes the part (R164, R169). -/
inductive WakeSource where
  | run
  | link
  | magazine
  deriving DecidableEq, Repr

/-- The link-rate strap (R171). -/
inductive LinkRate where
  | r57600
  | r115200
  deriving DecidableEq, Repr

/-- The three straps (R171): the link rate, whether there is zone A only, and whether there is slot 1 only. -/
structure Straps where
  rate       : LinkRate
  singleZone : Bool
  singleSlot : Bool
  deriving DecidableEq, Repr

/-- The levels of the part's input pins: the strap pins, the magazine switch, the run line and the shock line
(Pins and Electrical Summary). -/
structure Pins where
  straps    : Straps
  magClosed : Bool
  runHigh   : Bool
  shockHigh : Bool
  deriving DecidableEq, Repr

/-- One byte received on the Control Link and whether it was well framed (R174). -/
structure RxByte where
  value  : Byte
  framed : Bool
  deriving DecidableEq, Repr

/-- The commands: one constructor for each row of spec/opcode_table.json, in the table's order. -/
inductive Instr where
  | echo (body : List Byte)
  | identify (body : List Byte)
  | configure (body : List Byte)
  | queryParam (body : List Byte)
  | reset (body : List Byte)
  | standby (body : List Byte)
  | hush (body : List Byte)
  | deviceStatus (body : List Byte)
  | setRotation (body : List Byte)
  | select (body : List Byte)
  | play (body : List Byte)
  | pause (body : List Byte)
  | resume (body : List Byte)
  | stop (body : List Byte)
  | seek (body : List Byte)
  | zoneStatus (body : List Byte)
  | holdPickup (body : List Byte)
  | releasePickup (body : List Byte)
  | eject (body : List Byte)
  | resetDrive (body : List Byte)
  | discRecord (body : List Byte)
  | defectList (body : List Byte)
  | trackList (body : List Byte)
  | forgetDisc (body : List Byte)
  /-- A completed frame of another kind than a request kind. -/
  | unknownKindFrame (kind : Byte) (body : List Byte)
  /-- Bytes on the line that complete no frame: a bad length, a bad check or a framing error among them. -/
  | frameDiscarded (bytes : List RxByte)
  /-- Bytes on the line and then the expiry of the gap timer. -/
  | linkGapTimeout (bytes : List RxByte)
  | transmitFrameDone
  | blockPresented (block : PortBlock)
  /-- The frame event of one zone's output. -/
  | frameEvent (z : ZoneId)
  | loadDone
  | unloadDone
  | spinDone
  | seekDone
  | pauseDone
  | latchOpenDone
  | abortDone
  /-- A FAILED completion: the command it names and its reason. -/
  | commandFailed (cmd : ServoName) (reason : FailReason)
  | trackLost
  | commandTimeout
  | blockTimerExpiry
  | graceTimerExpiry
  | idleTimerExpiry
  | shockRise
  | shockFall
  | settleTimerExpiry
  | windowTimerExpiry
  | magazineSwitchCloses
  | magazineSwitchOpens
  | debounceTimerExpiry
  | slotTimerExpiry
  | ejectButton
  | latchTimerExpiry
  | runLineFalls
  | runLineRises
  | enterParked
  /-- The event that wakes the part, with the strap pins' levels at that moment. -/
  | wake (source : WakeSource) (straps : Straps)
  | softStart
  /-- Power is applied, with the levels of the input pins at that moment. -/
  | powerUp (pins : Pins)
  deriving DecidableEq, Repr

end Sys2Proof
end

