-- ==== Sys2Proof/Decode.lean ====
section
/-! DEFINITION. The CX-26 has no instruction words: spec/opcode_table.json gives no row a bit (INVENTORY.md,
'Instructions'), so no word spells a command. -/

namespace Sys2Proof

/-- The command that a word spells by the table's bits: none, since no row of the table gives bits. -/
def decodeTableWord (_nbits _w : Nat) : Option Instr := none

end Sys2Proof
end

