-- ==== Sys2Proof/Config.lean ====
section
/-! DEFINITION. What is fixed for every CX-26 or kept in its retention memory: the nineteen parameters with their
defaults, the disc records, the rotation table, and the values the data book leaves open. -/

namespace Sys2Proof

/-- The nineteen parameters (R180); ids 1 and 2 are the two quotas, ids 3, 4 and 5 are held per zone. -/
structure Params where
  quota         : Pair Nat
  lowWater      : Pair Nat
  startThr      : Pair Nat
  restartThr    : Pair Nat
  burstLimit    : Nat
  refillSpeed   : Nat
  interpLimit   : Nat
  patchLimit    : Nat
  rereadMargin  : Nat
  luBackoff     : Nat
  luWindow      : Nat
  luAttempts    : Nat
  auditInterval : Nat
  idleSpinDown  : Nat
  shockSettle   : Nat
  magDebounce   : Nat
  holdGrace     : Nat
  autoResume    : Nat
  deriving DecidableEq, Repr

/-- The defaults of R180. -/
def Params.default : Params where
  quota         := .both 2046
  lowWater      := .both 800
  startThr      := .both 150
  restartThr    := .both 300
  burstLimit    := 64
  refillSpeed   := 4
  interpLimit   := 16
  patchLimit    := 24
  rereadMargin  := 40
  luBackoff     := 8
  luWindow      := 24
  luAttempts    := 3
  auditInterval := 512
  idleSpinDown  := 20
  shockSettle   := 6
  magDebounce   := 50
  holdGrace     := 20
  autoResume    := 1

/-- An entry of the rotation table (R56, R65). -/
inductive RotEntry where
  | a
  | b
  | any
  deriving DecidableEq, Repr

/-- The rotation table after a cold start: A, B, A, B, … (R56). -/
def rotationDefault : List RotEntry :=
  [.a, .b, .a, .b, .a, .b, .a, .b, .a, .b, .a, .b, .a, .b, .a, .b]

/-- The kind of a defect region (R144). -/
inductive DefectKind where
  | unreadable
  | skipProne
  | both
  deriving DecidableEq, Repr

/-- A defect region [first..last] (R144). -/
structure Region where
  first : Nat
  last  : Nat
  kind  : DefectKind
  hits  : Nat
  deriving DecidableEq, Repr

/-- A disc's fingerprint (R138). -/
structure Fingerprint where
  tracks     : Nat
  programEnd : Nat
  startSum   : Nat
  deriving DecidableEq, Repr

/-- A resume point: an address and a sample-frame offset (R35, R135). -/
structure ResumePt where
  addr   : Nat
  offset : Nat
  deriving DecidableEq, Repr

/-- The state of a disc record (R135). -/
inductive RecState where
  | free
  | present
  | departed
  deriving DecidableEq, Repr

/-- A disc record (R135). -/
structure DiscRecord where
  state    : RecState
  slot     : Option Nat
  lastSlot : Option Nat
  print    : Option Fingerprint
  tracks   : List Nat
  defects  : List Region
  resume   : Option ResumePt
  rank     : Nat
  deriving DecidableEq, Repr

/-- A FREE record: every field absent or empty and last-seen rank 0 (R135, R151). -/
def DiscRecord.blank : DiscRecord where
  state    := .free
  slot     := none
  lastSlot := none
  print    := none
  tracks   := []
  defects  := []
  resume   := none
  rank     := 0

/-- The retained state that the retention check sum covers (R168). -/
structure Retained where
  records  : List DiscRecord
  sequence : Nat
  params   : Params
  selected : Pair (Option Nat)
  rotation : List RotEntry
  rotPtr   : Nat
  straps   : Straps
  deriving DecidableEq, Repr

/-- FREE VALUE (log entry 3). The bytes of the retained state (R168): the data book totals them but does not say how
the state is laid out in bytes. -/
opaque Config.retainedBytes : Retained → List Byte

/-- FREE VALUE (log entry 4). The n-th value that the data book leaves open in a two-byte reply field: the start sum
that DISC-RECORD carries for a FREE record, whose start sum is absent (R149, R185). -/
opaque Config.freeWord : Nat → BitVec 16

/-- FREE VALUE (log entry 7). The n-th choice of the one cause that a ZONE notice carries when one event changes both of a
zone's states (R43): true takes the cause of the supply change, false that of the play state's change. -/
opaque Config.supplyCause : Nat → Bool

/-- FREE VALUE (log entry 47). Whether a link-up in LOCATE mode takes as its start, the address `start`, the block that follows the
GOOD stamp start − 1 when the block's own stamp is GOOD and is `stamp`, another address: R77, R82 and R89 take and commit it, and R18
has no such block committed. -/
opaque Config.startDespiteStamp (start stamp : Nat) : Bool

/-- The revision number of the parts the data book describes (R179). -/
def Config.revision : Nat := 1

/-- The straps that `Machine.State.reset` has read (log entry 1). -/
def Config.resetStraps : Straps := ⟨.r57600, false, false⟩

/-- The levels of the input pins at `Machine.State.reset` (log entry 1). -/
def Config.resetPins : Pins := ⟨Config.resetStraps, false, true, false⟩

end Sys2Proof
end

