-- ==== Sys2Proof/Machine/State.lean ====
section
/-! DEFINITION. The state of the CX-26, block by block as the data book's table of functional blocks lists them, the
reasons a step can stop, and the state after reset. -/

namespace Sys2Proof.Machine

/-! ## Why a step can stop -/

/-- The part has no fault that stops it: every command the data book lists has an effect in every state, and what the
book calls FAULT is a drive state (R61). No constructor, so no meaning can stop a run this way. -/
inductive Fault : Type
  deriving DecidableEq, Repr

/-- Why a step is refused. -/
inductive Refusal where
  /-- Raised by an arm of `exec` whose command has no meaning yet. Safe: the machine stops. No arm raises it. -/
  | notModelled (mnemonic : String)
  deriving DecidableEq, Repr

/-! ## Timers -/

/-- A timer: stopped, or running with the time it was started for, in nanoseconds. Its expiry is a command; the count
of time between is not modelled (log entry 2). -/
inductive Timer where
  | stopped
  | running (ns : Nat)
  deriving DecidableEq, Repr

/-! ## BS: the Bucket Store (chapter 2) -/

/-- The block record (R21). -/
structure BlockRec where
  expected    : Option Nat
  stamp       : Option Nat
  stampStatus : StampStatus
  track       : Nat
  decoder     : DecoderStatus
  erasures    : Nat
  readCount   : Nat
  featureless : Bool
  confirmed   : Bool
  listed      : Bool
  deriving DecidableEq, Repr

/-- What a bucket holds: a block record, 960 samples and 960 erasure flags (R19). -/
structure Bucket where
  info    : BlockRec
  samples : List Sample
  flags   : List Bool
  deriving DecidableEq, Repr

/-- What a bucket reads as that nothing has written since power-up or since the part last parked: no block at all
(R19, log entry 5). -/
def Bucket.blank : Bucket :=
  ⟨⟨none, none, .missing, 0, .lost, 960, 1, true, false, false⟩, [], []⟩

/-- A zone chain's head, tail and length (R20, R24, R35). -/
structure Chain where
  head   : Nat
  tail   : Nat
  length : Nat
  deriving DecidableEq, Repr

/-- The store: the next-pointer table, the free list, the chains, the anchors, the intake bucket and the block memory
(R19, R20, R23, R24, R25). `next` and `mem` list, in ascending bucket number, the entries that differ from what an
unlisted entry reads as (`nextDefault`, `Bucket.blank`). Bucket number 0 stands for none. -/
structure Store where
  next      : List (Nat × Nat)
  freeHead  : Nat
  freeCount : Nat
  chain     : Pair Chain
  anchor    : Pair Nat
  intake    : Nat
  mem       : List (Nat × Bucket)
  deriving DecidableEq, Repr

/-- What an unlisted entry of the next-pointer table reads as: the entry of the free list as a cold start builds it
(R23). -/
def nextDefault (n : Nat) : Nat := if 1 ≤ n ∧ n ≤ 4094 then n + 1 else 0

/-- The store after a cold start (R23, R34). -/
def Store.cold : Store where
  next      := []
  freeHead  := 1
  freeCount := 4095
  chain     := .both ⟨0, 0, 0⟩
  anchor    := .both 0
  intake    := 0
  mem       := []

/-! ## BI: the Block Intake (chapter 1) -/

/-- The kind of a claim (section 4.1). -/
inductive ClaimKind where
  | linkUp
  | refill
  | ident
  | reread
  | audit
  | hold
  deriving DecidableEq, Repr

/-- The phase of a LINK-UP or REFILL claim (R7). -/
inductive Phase where
  | joining
  | appending
  deriving DecidableEq, Repr

/-- The standing of a claim (R7). -/
inductive Standing where
  | live
  | ended
  | cancelled
  deriving DecidableEq, Repr

/-- The current-claim tag (R7). -/
structure Tag where
  kind     : ClaimKind
  zone     : Option ZoneId
  phase    : Option Phase
  standing : Standing
  target   : Option Nat
  deriving DecidableEq, Repr

/-- What BI holds beside the intake bucket (section 1.4, R7, R13). -/
structure Intake where
  tag      : Option Tag
  nonGood  : Nat
  lastGood : Option Nat
  deriving DecidableEq, Repr

/-! ## ZC: the Zone Controllers (chapter 3) -/

/-- The play states (section 3.3). -/
inductive Play where
  | stopped
  | priming
  | playing
  | paused
  | starved
  deriving DecidableEq, Repr

/-- The supply states (section 3.4). -/
inductive Supply where
  | idle
  | feeding
  | rejoining
  | resync
  | absent
  | lost
  | fault
  | ended
  deriving DecidableEq, Repr

/-- The target of a pending seek (R35). -/
structure SeekTarget where
  addr  : Nat
  track : Nat
  deriving DecidableEq, Repr

/-- The zone record (R35), less the chain and the anchor bucket, which stand in the store (R20). -/
structure Zone where
  selected     : Option Nat
  play         : Play
  supply       : Supply
  offset       : Nat
  nextRead     : Option Nat
  track        : Nat
  resume       : Option ResumePt
  pausePending : Bool
  stopPending  : Bool
  seekPending  : Option SeekTarget
  deriving DecidableEq, Repr

/-- The zone record after a cold start (R36). -/
def Zone.cold : Zone := ⟨none, .stopped, .idle, 0, none, 0, none, false, false, none⟩

/-! ## DA: the Drive Arbiter (chapter 4) -/

/-- The drive states (section 4.1). -/
inductive DriveState where
  | down
  | ready
  | loading
  | spinning
  | seeking
  | reading
  | stopping
  | held
  | fault
  deriving DecidableEq, Repr

/-- The loaded slot (R56). -/
inductive Loaded where
  | slot (n : Nat)
  | none
  | unknown
  deriving DecidableEq, Repr

/-- The current speed (R56). -/
inductive Speed where
  | known (n : Nat)
  | unknown
  deriving DecidableEq, Repr

/-- Where a SEEK places the pickup (section 4.1). -/
inductive Place where
  | address (a : Nat)
  | directory
  deriving DecidableEq, Repr

/-- The servo commands (R57). -/
inductive Servo where
  | load (slot : Nat)
  | unload
  | spin (speed : Nat)
  | seek (place : Place)
  | read
  | pause
  | latchOpen
  | abort
  deriving DecidableEq, Repr

/-- The outstanding command with its retry mark and its command timer; for ABORT, the command it aborts (R56, R59). -/
structure Outstanding where
  cmd     : Servo
  retry   : Bool
  timer   : Timer
  aborted : Option Servo
  deriving DecidableEq, Repr

/-- A claim record (section 4.1). `seek` is absent until the claim's SEEK is sent. `standing` is the claim's own, which
the tag mirrors once READ is issued (R7, R71, log entry 6). -/
structure Claim where
  kind     : ClaimKind
  zone     : Option ZoneId
  slot     : Option Nat
  target   : Option Nat
  seek     : Option Place
  speed    : Nat
  swap     : Bool
  commits  : Nat
  standing : Standing
  deriving DecidableEq, Repr

/-- The hold states (R56, R74). -/
inductive Hold where
  | none
  | queued
  | granted
  | revoking
  | lapsed
  deriving DecidableEq, Repr

/-- How far the parking sequence has come (R166, log entry 6): not asked for; asked for and waiting for an eject
sequence to end; begun and waiting until no command is outstanding; UNLOAD sent; SPIN 0 sent. -/
inductive ParkStage where
  | none
  | waiting
  | settling
  | unloading
  | spinning
  deriving DecidableEq, Repr

/-- What DA holds (R56). `removalDue` is the removal effect of R71 that waits until no command is outstanding, and
`startDue` the start values of R56 that wait for the outstanding command (log entry 6). -/
structure Drive where
  state      : DriveState
  slot       : Loaded
  speed      : Speed
  claim      : Option Claim
  out        : Option Outstanding
  blockTimer : Timer
  rotation   : List RotEntry
  rotPtr     : Nat
  idleTimer  : Timer
  hold       : Hold
  graceTimer : Timer
  parkStage  : ParkStage
  removalDue : Bool
  startDue   : Bool
  deriving DecidableEq, Repr

/-- DA after a cold start (R56). -/
def Drive.cold : Drive :=
  ⟨.down, .unknown, .unknown, none, none, .stopped, rotationDefault, 0, .stopped, .none, .stopped, .none, false, false⟩

/-! ## LU: the Link-up Unit, and SM: the Shock Monitor (chapter 5) -/

/-- The stage of a link-up context (R79). -/
inductive LinkStage where
  | waiting
  | searching
  | verifying
  deriving DecidableEq, Repr

/-- The mode of a link-up context (R79). -/
inductive LinkMode where
  | anchor
  | locate
  deriving DecidableEq, Repr

/-- The anchor of a link-up context: absent, a chain block by expected address, or the anchor bucket (R79). -/
inductive AnchorRef where
  | none
  | chain (addr : Nat)
  | bucket
  deriving DecidableEq, Repr

/-- A link-up context (R79). `window` is the link-up window the context was made with, to which every attempt's window
left is set (R80, R81, log entry 6). -/
structure LinkCtx where
  stage      : LinkStage
  mode       : LinkMode
  anchor     : AnchorRef
  d          : Nat
  verify     : Option Nat
  failed     : Nat
  backoff    : Nat
  windowLeft : Nat
  window     : Nat
  deriving DecidableEq, Repr

/-- The audit context of a zone (R96). -/
structure Audit where
  commits    : Nat
  start      : Option Nat
  target     : Option Nat
  misses     : Nat
  unverified : Bool
  deriving DecidableEq, Repr

/-- LU: a link-up context and an audit context per zone, and the blocks an AUDIT claim may still test (R98). -/
structure LinkUp where
  ctx       : Pair (Option LinkCtx)
  audit     : Pair Audit
  auditLeft : Nat
  deriving DecidableEq, Repr

/-- LU after any start (R79, R96). -/
def LinkUp.start : LinkUp := ⟨.both none, .both ⟨0, none, none, 0, false⟩, 0⟩

/-- The shocked zone and the phase of its cancelled claim (R93). -/
structure Shocked where
  zone  : ZoneId
  phase : Phase
  deriving DecidableEq, Repr

/-- SM (R93). -/
structure Shock where
  count       : Nat
  roughRoad   : Bool
  windowTimer : Timer
  settleTimer : Timer
  shocked     : Option Shocked
  deriving DecidableEq, Repr

/-- SM after any start: the window timer started for 10 s (R93). -/
def Shock.start : Shock := ⟨0, false, .running 10000000000, .stopped, none⟩

/-! ## RU: the Re-read Unit (chapter 6) -/

/-- An entry of a re-read list (R103). -/
structure Entry where
  addr  : Nat
  reads : Nat
  deriving DecidableEq, Repr

/-- RU: a re-read list per zone, and the blocks a RE-READ claim may still test (R103, R109). -/
structure Reread where
  lists : Pair (List Entry)
  left  : Nat
  deriving DecidableEq, Repr

/-- RU after any start (R103). -/
def Reread.start : Reread := ⟨.both [], 0⟩

/-! ## OC: the Output Concealers (chapter 7) -/

/-- The run state of a channel (R118, R121). `cut` marks a SHORT run whose samples after the head block a cut has
released (R125). -/
inductive Run where
  | none
  | short (g0 g1 : Int) (len k : Nat) (cut : Bool)
  | long (g0 : Int)
  deriving DecidableEq, Repr

/-- A channel's concealer state (R118). -/
structure Channel where
  gain         : Nat
  target       : Nat
  lastGood     : Int
  lastRepaired : Int
  run          : Run
  deriving DecidableEq, Repr

/-- A channel after any start (R118). -/
def Channel.start : Channel := ⟨0, 0, 0, 0, .none⟩

/-- A zone's concealer (R118). `drawAtOnce` is set when the zone becomes PLAYING from STARVED or PAUSED and cleared when
it becomes PLAYING from PRIMING (R120, log entry 6). `outL` and `outR` are the samples the output last placed on DATA
(R117). `cutAt` is the first address that the last cut right behind the head block released (R125, log entry 6). -/
structure Concealer where
  left       : Channel
  right      : Channel
  drawing    : Bool
  fresh      : Bool
  drawAtOnce : Bool
  outL       : Int
  outR       : Int
  cutAt      : Option Nat
  deriving DecidableEq, Repr

/-- A concealer after any start (R118). -/
def Concealer.start : Concealer := ⟨.start, .start, false, false, false, 0, 0, none⟩

/-! ## DD: the Disc Directory (chapter 8) -/

/-- The identification context (R139). -/
structure IdentCtx where
  slot     : Nat
  verdicts : Nat
  deriving DecidableEq, Repr

/-- DD: eight disc records, the sequence value and the identification context (R135, R136, R139). -/
structure Directory where
  records  : List DiscRecord
  sequence : Nat
  ident    : Option IdentCtx
  deriving DecidableEq, Repr

/-- DD after a cold start (R135, R136, R139). -/
def Directory.cold : Directory := ⟨List.replicate 8 .blank, 0, none⟩

/-! ## LM: the Loader Monitor (chapter 9) -/

/-- The magazine states (R152). -/
inductive Magazine where
  | absent
  | settling
  | present
  | ejecting
  deriving DecidableEq, Repr

/-- The eject stages (R152). -/
inductive EjectStage where
  | none
  | waitingHold
  | unloading
  | unlatching
  | latchWait
  deriving DecidableEq, Repr

/-- The slot timer (R152, R155): stopped at 0, which is how it stands until the head of the queue is first granted;
running; or standing still with the time used kept. -/
inductive SlotTimer where
  | zero
  | running
  | standing
  deriving DecidableEq, Repr

/-- LM (R152). `fromSettling` tells whether the eject under way was taken in SETTLING (R159, log entry 6). -/
structure Loader where
  magazine     : Magazine
  debounce     : Timer
  ejectStage   : EjectStage
  fromSettling : Bool
  latchTimer   : Timer
  queue        : List Nat
  slotTimer    : SlotTimer
  failedStarts : Nat
  deriving DecidableEq, Repr

/-! ## PC: Power Control (chapter 10) -/

/-- The power states (R164). -/
inductive PowerState where
  | active
  | parking
  | parked
  deriving DecidableEq, Repr

/-- PC (R164). `silence` is the order of silence (R134). `runFell` keeps a fall of the run line that came while a RESET
was being carried out (R165). -/
structure Power where
  state       : PowerState
  checkSum    : Nat
  wakePending : Option WakeSource
  driveDone   : Bool
  silenceDone : Bool
  silence     : Bool
  runFell     : Bool
  deriving DecidableEq, Repr

/-- PC after a cold start (R164). -/
def Power.cold : Power := ⟨.active, 0, none, false, false, false, false⟩

/-! ## CL: the Control Link (chapter 11) -/

/-- The stage of the receive assembler (R173, R174). -/
inductive RxStage where
  | hunt
  | length
  | kind
  | body
  | check
  deriving DecidableEq, Repr

/-- The receive assembler (R173): its stage, the LEN received, the body bytes still due, the running sum, the gap timer,
and the KIND and BODY bytes received so far. -/
structure Assembler where
  stage : RxStage
  len   : Nat
  due   : Nat
  sum   : Nat
  gap   : Timer
  kind  : Byte
  body  : List Byte
  deriving DecidableEq, Repr

/-- The assembler in HUNT. -/
def Assembler.hunting : Assembler := ⟨.hunt, 0, 0, 0, .stopped, 0, []⟩

/-- A frame to be sent: its KIND and its BODY (R172). -/
structure Frame where
  kind : Byte
  body : List Byte
  deriving DecidableEq, Repr

/-- What the transmitter is sending (R173, R176). -/
inductive Sending where
  | refusal (f : Frame)
  | reply (f : Frame)
  | notice (f : Frame)
  deriving DecidableEq, Repr

/-- The pending request (R173): its frame, its own reply once formed, and how many of the refusals in the list were
formed before that reply (R176). -/
structure PendingReq where
  frame : Frame
  reply : Option Frame
  ahead : Nat
  deriving DecidableEq, Repr

/-- CL (R173). -/
structure Link where
  rx          : Assembler
  request     : Option PendingReq
  refusals    : List Frame
  notices     : List Frame
  hush        : Bool
  lost        : Bool
  transmitter : Option Sending
  deriving DecidableEq, Repr

/-- CL after a cold or warm start (R173). -/
def Link.start : Link := ⟨.hunting, none, [], [], false, false, none⟩

/-! ## The part -/

/-- The whole part: its input pins, the straps read at the last cold start, the parameters, its blocks, and the model's
own two fields: the queue of commands that are waiting, first in, first out, and the count of free values used. -/
structure State where
  pins    : Pins
  straps  : Straps
  params  : Params
  bs      : Store
  bi      : Intake
  zc      : Pair Zone
  da      : Drive
  lu      : LinkUp
  sm      : Shock
  ru      : Reread
  oc      : Pair Concealer
  dd      : Directory
  lm      : Loader
  pc      : Power
  cl      : Link
  free    : Nat
  pending : List Instr
  deriving DecidableEq, Repr

/-- The debounce time of the default parameter: 50 units of 8 ms (R152). -/
def debounceDefault : Timer := .running 400000000

/-- LM after a start: what the magazine switch makes it (R152). -/
def Loader.start (closed : Bool) (debounce : Timer) : Loader :=
  if closed then ⟨.settling, debounce, .none, false, .stopped, [], .zero, 0⟩
  else ⟨.absent, .stopped, .none, false, .stopped, [], .zero, 0⟩

/-- The part after a cold start with these levels on its input pins (R171 and the start rule of each chapter). -/
def State.cold (pins : Pins) : State where
  pins    := pins
  straps  := pins.straps
  params  := .default
  bs      := .cold
  bi      := ⟨none, 1, none⟩
  zc      := .both .cold
  da      := .cold
  lu      := .start
  sm      := .start
  ru      := .start
  oc      := .both .start
  dd      := .cold
  lm      := .start pins.magClosed debounceDefault
  pc      := .cold
  cl      := .start
  free    := 0
  pending := []

/-- The part right after reset: the cold start at power-up (R171), with the pin levels of log entry 1. -/
def State.reset : State := .cold Config.resetPins

end Sys2Proof.Machine
end

