-- ==== Sys2Proof/Machine/Operands.lean ====
section
/-! DEFINITION. The fields of request, reply and notice bodies: byte order, codes and optional fields (R172, R185), and
the fields of a delivered block as BI records them (R2, R3). -/

namespace Sys2Proof.Machine

/-! ## Bytes -/

/-- A one-byte field. -/
def byte (n : Nat) : Byte := BitVec.ofNat 8 n

/-- A two-byte field, most significant byte first (R172). -/
def be2 (n : Nat) : List Byte := [byte (n / 256), byte n]

/-- A three-byte field, most significant byte first (R172). -/
def be3 (n : Nat) : List Byte := [byte (n / 65536), byte (n / 256), byte n]

/-- The value of a two-byte field. -/
def nat2 (h l : Byte) : Nat := h.toNat * 256 + l.toNat

/-- The value of a three-byte field. -/
def nat3 (h m l : Byte) : Nat := h.toNat * 65536 + m.toNat * 256 + l.toNat

/-- An optional address: 0xFFFFFF when absent (R185). -/
def optAddr : Option Nat → List Byte
  | some a => be3 a
  | none => [0xFF, 0xFF, 0xFF]

/-- An optional one-byte field: 0xFF when absent (R185). -/
def optByte : Option Nat → Byte
  | some n => byte n
  | none => 0xFF

/-- An optional resume point: address and frame offset, 0xFFFFFF and 0xFFFF when absent (R185). -/
def optResume : Option ResumePt → List Byte
  | some p => be3 p.addr ++ be2 p.offset
  | none => [0xFF, 0xFF, 0xFF, 0xFF, 0xFF]

/-- A set-or-clear field. -/
def flagByte (b : Bool) : Byte := if b then 1 else 0

/-! ## Codes -/

/-- The code of a zone (R185). -/
def zoneCode : ZoneId → Byte
  | .a => 0
  | .b => 1

/-- The zone a zone byte names: 0 A, 1 B; none for any other byte, and for B in single-zone strap (R45, R185). -/
def zoneOf (straps : Straps) (z : Byte) : Option ZoneId :=
  if z = 0 then some .a else if z = 1 ∧ straps.singleZone = false then some .b else none

/-- Play state codes (R185). -/
def playCode : Play → Byte
  | .stopped => 0
  | .priming => 1
  | .playing => 2
  | .paused => 3
  | .starved => 4

/-- Supply state codes (R185). -/
def supplyCode : Supply → Byte
  | .idle => 0
  | .feeding => 1
  | .rejoining => 2
  | .resync => 3
  | .absent => 4
  | .lost => 5
  | .fault => 6
  | .ended => 7

/-- Record state codes (R185). -/
def recStateCode : RecState → Byte
  | .free => 0
  | .present => 1
  | .departed => 2

/-- Defect kind codes (R185). -/
def defectCode : DefectKind → Byte
  | .unreadable => 1
  | .skipProne => 2
  | .both => 3

/-- Servo command codes (R185). -/
def servoCode : ServoName → Byte
  | .load => 1
  | .unload => 2
  | .spin => 3
  | .seek => 4
  | .read => 5
  | .pause => 6
  | .latchOpen => 7
  | .abort => 8

/-- Drive state codes (R182). -/
def driveCode : DriveState → Byte
  | .down => 0
  | .ready => 1
  | .loading => 2
  | .spinning => 3
  | .seeking => 4
  | .reading => 5
  | .stopping => 6
  | .held => 7
  | .fault => 8

/-- Loaded slot codes (R182). -/
def loadedCode : Loaded → Byte
  | .slot n => byte n
  | .none => 0
  | .unknown => 0xFF

/-- Magazine state codes (R182). -/
def magazineCode : Magazine → Byte
  | .absent => 0
  | .settling => 1
  | .present => 2
  | .ejecting => 3

/-- Hold state codes (R182). -/
def holdCode : Hold → Byte
  | .none => 0
  | .queued => 1
  | .granted => 2
  | .revoking => 3
  | .lapsed => 4

/-- Power state codes (R182); a PARKED part answers nothing. -/
def powerCode : PowerState → Byte
  | .active => 0
  | .parking => 1
  | .parked => 2

/-- Rotation entry codes (R184). -/
def rotCode : RotEntry → Byte
  | .a => 0
  | .b => 1
  | .any => 2

/-- The rotation entry a byte codes: an entry outside 0..2, or B in single-zone strap, is none (R65, R184). -/
def rotOf (straps : Straps) (b : Byte) : Option RotEntry :=
  if b = 0 then some .a
  else if b = 1 ∧ straps.singleZone = false then some .b
  else if b = 2 then some .any
  else none

/-- Wake source codes (R169). -/
def wakeCode : WakeSource → Byte
  | .run => 1
  | .link => 2
  | .magazine => 3

/-- The refusal reasons (R175). -/
inductive Reason where
  | unknownKind
  | badLength
  | badValue
  | wrongState
  | busy
  deriving DecidableEq, Repr

/-- Refusal reason codes (R175). -/
def reasonCode : Reason → Byte
  | .unknownKind => 1
  | .badLength => 2
  | .badValue => 3
  | .wrongState => 4
  | .busy => 5

/-- The causes of a ZONE notice (R43, R101). -/
inductive ZoneCause where
  | requestDone
  | primed
  | dry
  | refilled
  | skip
  | trackLost
  | shock
  | entryFailed
  | linked
  | noAnchor
  | attemptsExhausted
  | magazineOut
  | discFound
  | discNotFound
  | driveFault
  | driveReset
  | programEnd
  | auditFailed
  deriving DecidableEq, Repr

/-- ZONE cause codes (R43, R101). -/
def zoneCauseCode : ZoneCause → Byte
  | .requestDone => 1
  | .primed => 2
  | .dry => 3
  | .refilled => 4
  | .skip => 5
  | .trackLost => 6
  | .shock => 7
  | .entryFailed => 8
  | .linked => 9
  | .noAnchor => 10
  | .attemptsExhausted => 11
  | .magazineOut => 12
  | .discFound => 13
  | .discNotFound => 14
  | .driveFault => 15
  | .driveReset => 16
  | .programEnd => 17
  | .auditFailed => 18

/-- The causes of a MAGAZINE notice (R162). -/
inductive MagCause where
  | inserted
  | button
  | ejected
  | removed
  | ejectFailed
  | ejectAbandoned
  | scanDone
  deriving DecidableEq, Repr

/-- MAGAZINE cause codes (R162). -/
def magCauseCode : MagCause → Byte
  | .inserted => 1
  | .button => 2
  | .ejected => 3
  | .removed => 4
  | .ejectFailed => 5
  | .ejectAbandoned => 6
  | .scanDone => 7

/-- The causes of a drive FAULT (R61). -/
inductive FaultCause where
  | timeout
  | abortFailed
  | jam
  | unloadFailed
  | spinFailed
  deriving DecidableEq, Repr

/-- Fault cause codes (R185). -/
def faultCauseCode : FaultCause → Byte
  | .timeout => 1
  | .abortFailed => 2
  | .jam => 3
  | .unloadFailed => 4
  | .spinFailed => 5

/-- The outcomes of a slot's identification (R142). -/
inductive IdentOutcome where
  | matched
  | new
  | unreadable
  | empty
  | fault
  deriving DecidableEq, Repr

/-- IDENT outcome codes (R185). -/
def identCode : IdentOutcome → Byte
  | .matched => 1
  | .new => 2
  | .unreadable => 3
  | .empty => 4
  | .fault => 5

/-- The name by which a completion names a servo command (R57). -/
def Servo.name : Servo → ServoName
  | .load _ => .load
  | .unload => .unload
  | .spin _ => .spin
  | .seek _ => .seek
  | .read => .read
  | .pause => .pause
  | .latchOpen => .latchOpen
  | .abort => .abort

/-! ## The fields of a delivered block -/

/-- The stamp and stamp status that BI records for a presented stamp (R2). -/
def correctStamp : Option Nat → StampStatus → Option Nat × StampStatus
  | _, .missing => (none, .missing)
  | none, _ => (none, .missing)
  | some a, .good => if 479999 < a then (none, .doubtful) else (some a, .good)
  | some _, .doubtful => (none, .doubtful)

/-- The 960 samples BI writes into the bucket: 0 throughout when no payload is presented (R3). -/
def portSamples (b : PortBlock) : List Sample :=
  if b.decoder = .lost then List.replicate 960 0
  else ((b.samples.getD []) ++ List.replicate 960 0).take 960

/-- The 960 erasure flags BI writes into the bucket: all set when no payload is presented (R3). -/
def portFlags (b : PortBlock) : List Bool :=
  if b.decoder = .lost then List.replicate 960 true
  else (b.flags ++ List.replicate 960 true).take 960

/-- The erasure count: the number of set flags (R11). -/
def erasureCount (flags : List Bool) : Nat := flags.count true

/-- The values of the unerased samples of a block. -/
def unerased : List Sample → List Bool → List Int
  | v :: vs, f :: fs => if f then unerased vs fs else v.toInt :: unerased vs fs
  | _, _ => []

/-- The featureless mark: the unerased samples, of both channels together, span a range of 16 or less (R11). -/
def isFeatureless (samples : List Sample) (flags : List Bool) : Bool :=
  match unerased samples flags with
  | [] => true
  | v :: vs => decide (vs.foldl max v - vs.foldl min v ≤ 16)

/-- The sequence of bytes a payload is read as: in each sample the high byte first (R5). -/
def payloadBytes (samples : List Sample) : List Nat :=
  samples.flatMap fun v => [v.toNat / 256, v.toNat % 256]

/-- The n-th byte of a payload. -/
def byteAt (l : List Nat) (n : Nat) : Nat := l.getD n 0

/-- A three-byte quantity of a payload, most significant byte first (R5). -/
def threeAt (l : List Nat) (n : Nat) : Nat := byteAt l n * 65536 + byteAt l (n + 1) * 256 + byteAt l (n + 2)

/-- A directory as a readable directory block states it (R5, R6). -/
structure DiscInfo where
  programEnd : Nat
  tracks     : List Nat
  deriving DecidableEq, Repr

/-- The list ascends strictly. -/
def ascends : List Nat → Bool
  | a :: b :: l => decide (a < b) && ascends (b :: l)
  | _ => true

/-- The verdict of R6 on a block read under an identification claim: its directory when it is readable. -/
def readDirectory (track : Nat) (decoder : DecoderStatus) (samples : List Sample) (flags : List Bool) :
    Option DiscInfo :=
  let bytes := payloadBytes (samples.take 152)
  let n := byteAt bytes 0
  let used := if 1 ≤ n ∧ n ≤ 99 then (3 * n + 7) / 2 else 1
  let pend := threeAt bytes 1
  let starts := (List.range n).map fun i => threeAt bytes (4 + 3 * i)
  let check := byteAt bytes (3 * n + 4) * 256 + byteAt bytes (3 * n + 5)
  if track = 0 ∧ decoder ≠ .lost ∧ (flags.take used).all (fun f => !f) = true ∧ 1 ≤ n ∧ n ≤ 99 ∧
      1 ≤ pend ∧ pend ≤ 479999 ∧ ascends starts = true ∧ starts.getLast?.getD 0 ≤ pend ∧
      check = (bytes.take (3 * n + 4)).sum % 65536 then
    some ⟨pend, starts⟩
  else none

end Sys2Proof.Machine
end

