-- ==== Sys2Proof/Machine/Store.lean ====
section
/-! DEFINITION. The Bucket Store: the sparse tables it is kept in, and its operations on its lists (chapter 2). Every
operation moves buckets between the free list, a zone's chain, a zone's anchor and the intake. -/

namespace Sys2Proof.Machine

/-! ## Tables in canonical form

A table lists, in ascending key, the entries that differ from what an unlisted key reads as. -/

/-- Read entry `k`; `d` is what an unlisted entry reads as. -/
def tableGet {α : Type} (d : Nat → α) : List (Nat × α) → Nat → α
  | [], k => d k
  | (a, v) :: t, k => if a = k then v else tableGet d t k

/-- Take entry `k` out of the list. -/
def tableErase {α : Type} : List (Nat × α) → Nat → List (Nat × α)
  | [], _ => []
  | (a, v) :: t, k => if a = k then t else (a, v) :: tableErase t k

/-- List `v` at key `k`, in its place. -/
def tableInsert {α : Type} : List (Nat × α) → Nat → α → List (Nat × α)
  | [], k, v => [(k, v)]
  | (a, w) :: t, k, v =>
    if k < a then (k, v) :: (a, w) :: t else if k = a then (k, v) :: t else (a, w) :: tableInsert t k v

/-- Write entry `k`, keeping the canonical form. -/
def tableSet {α : Type} [DecidableEq α] (d : Nat → α) (t : List (Nat × α)) (k : Nat) (v : α) : List (Nat × α) :=
  if v = d k then tableErase t k else tableInsert t k v

/-- The keys rise strictly from `lo` on, and no entry equals what an unlisted one reads as. -/
def tableWfFrom {α : Type} [DecidableEq α] (d : Nat → α) : Nat → List (Nat × α) → Bool
  | _, [] => true
  | lo, (a, v) :: t => decide (lo ≤ a) && decide (v ≠ d a) && tableWfFrom d (a + 1) t

/-- A table in canonical form. -/
def tableWf {α : Type} [DecidableEq α] (d : Nat → α) (t : List (Nat × α)) : Bool := tableWfFrom d 0 t

/-! ## Reading the store -/

/-- The bucket that bucket `b` points to (R20). -/
def Store.nextOf (st : Store) (b : Nat) : Nat := tableGet nextDefault st.next b

/-- Write the next-pointer entry of bucket `b` (R20). -/
def Store.setNext (st : Store) (b v : Nat) : Store := { st with next := tableSet nextDefault st.next b v }

/-- What an unlisted bucket reads as. -/
def bucketDefault (_ : Nat) : Bucket := .blank

/-- What bucket `b` holds (R19). -/
def Store.bucket (st : Store) (b : Nat) : Bucket := tableGet bucketDefault st.mem b

/-- Write bucket `b` (R19). -/
def Store.setBucket (st : Store) (b : Nat) (v : Bucket) : Store := { st with mem := tableSet bucketDefault st.mem b v }

/-- Change the block record of bucket `b` (R21). -/
def Store.modInfo (st : Store) (b : Nat) (f : BlockRec → BlockRec) : Store :=
  let v := st.bucket b
  st.setBucket b { v with info := f v.info }

/-- The `n` buckets from bucket `b` on, as their next-pointer entries join them. -/
def Store.walk (st : Store) : Nat → Nat → List Nat
  | 0, _ => []
  | n + 1, b => b :: st.walk n (st.nextOf b)

/-- A zone's chain, head first (R24). -/
def Store.chainOf (st : Store) (z : ZoneId) : List Nat := st.walk (st.chain.get z).length (st.chain.get z).head

/-- The block memory and the next-pointer table are in canonical form. -/
def Store.wf (st : Store) : Bool := tableWf nextDefault st.next && tableWf bucketDefault st.mem

/-- The number of buckets in their places (R22): the free count, both chain lengths, the anchors held and the intake
bucket. -/
def Store.total (st : Store) : Nat :=
  st.freeCount + st.chain.a.length + st.chain.b.length + (if st.anchor.a = 0 then 0 else 1) +
    (if st.anchor.b = 0 then 0 else 1) + (if st.intake = 0 then 0 else 1)

/-! ## The store operations -/

/-- Release bucket `b` to the free head (R23). -/
def Store.release (st : Store) (b : Nat) : Store :=
  { st.setNext b st.freeHead with freeHead := b, freeCount := st.freeCount + 1 }

/-- Release buckets one at a time, in the order given (R23). -/
def Store.releaseAll (st : Store) (l : List Nat) : Store := l.foldl Store.release st

/-- Allocate: the free head becomes the intake bucket (R23, R26). It is not begun while an intake bucket is held or
the free list is empty (R22). -/
def Store.allocate (st : Store) : Option Store :=
  if st.intake ≠ 0 ∨ st.freeHead = 0 ∨ st.freeCount = 0 then none
  else
    some { st.setNext st.freeHead 0 with
      freeHead := st.nextOf st.freeHead, freeCount := st.freeCount - 1, intake := st.freeHead }

/-- Discard: the intake bucket returns to the free head (R26). -/
def Store.discard (st : Store) : Store :=
  if st.intake = 0 then st else { st.release st.intake with intake := 0 }

/-- Release the anchor of zone `z`, if it holds one (R25, R27, R31). -/
def Store.releaseAnchor (st : Store) (z : ZoneId) : Store :=
  if st.anchor.get z = 0 then st else { st.release (st.anchor.get z) with anchor := st.anchor.set z 0 }

/-- Link the intake bucket at the tail of zone `z` (R27). -/
def Store.link (st : Store) (z : ZoneId) : Store :=
  let c := st.chain.get z
  if c.length = 0 then { st with chain := st.chain.set z ⟨st.intake, st.intake, 1⟩, intake := 0 }
  else
    { st.setNext c.tail st.intake with
      chain := st.chain.set z ⟨c.head, st.intake, c.length + 1⟩, intake := 0 }

/-- Append the intake bucket to zone `z` at expected address `e`, releasing the anchor (R17, R27). The caller has
tested the quota. -/
def Store.append (st : Store) (z : ZoneId) (e : Nat) : Store :=
  if st.intake = 0 then st
  else
    let st1 := st.modInfo st.intake fun r =>
      { r with expected := some e, confirmed := decide (r.stampStatus = .good) }
    (st1.link z).releaseAnchor z

/-- Hear the head block of zone `z` (R29, steps 1 and 2): it becomes the anchor when the chain is now empty and `keep`
holds, and is released otherwise. -/
def Store.hear (st : Store) (z : ZoneId) (keep : Bool) : Store :=
  let c := st.chain.get z
  if c.length = 0 then st
  else
    let st1 := { st with
      chain := st.chain.set z (if c.length = 1 then ⟨0, 0, 0⟩ else ⟨st.nextOf c.head, c.tail, c.length - 1⟩) }
    if c.length = 1 ∧ keep = true then { st1.setNext c.head 0 with anchor := st1.anchor.set z c.head }
    else st1.release c.head

/-- Cut the chain of zone `z` from position `p`, which is 1 or more, to the tail (R30). -/
def Store.cut (st : Store) (z : ZoneId) (p : Nat) : Store :=
  let c := st.chain.get z
  if p = 0 ∨ c.length ≤ p then st
  else
    let l := st.chainOf z
    let last := l.getD (p - 1) 0
    let st1 := (st.releaseAll (l.drop p)).setNext last 0
    { st1 with chain := st1.chain.set z ⟨c.head, last, p⟩ }

/-- Flush zone `z`: its chain from head to tail, then its anchor (R31). -/
def Store.flush (st : Store) (z : ZoneId) : Store :=
  let st1 := st.releaseAll (st.chainOf z)
  ({ st1 with chain := st1.chain.set z ⟨0, 0, 0⟩ }).releaseAnchor z

/-- The return of every bucket at a warm or soft start: the intake bucket, zone A, zone B (R34). -/
def Store.returnAll (st : Store) : Store := (st.discard.flush .a).flush .b

end Sys2Proof.Machine
end

