-- ==== Sys2Proof/Machine/Ops.lean ====
section
/-! DEFINITION. How a part of the state is changed (one change function per block), and the Control Link operations that
every block calls to send a notice (R176, R177). -/

namespace Sys2Proof.Machine

/-! ## Changing one block of the state -/

/-- Change the input pins. -/
def State.modPins (s : State) (f : Pins → Pins) : State := { s with pins := f s.pins }

/-- Change the parameters. -/
def State.modParams (s : State) (f : Params → Params) : State := { s with params := f s.params }

/-- Change the Bucket Store. -/
def State.modBs (s : State) (f : Store → Store) : State := { s with bs := f s.bs }

/-- Change the Block Intake. -/
def State.modBi (s : State) (f : Intake → Intake) : State := { s with bi := f s.bi }

/-- Change the zone record of zone `z`. -/
def State.modZone (s : State) (z : ZoneId) (f : Zone → Zone) : State := { s with zc := s.zc.mod z f }

/-- Change the Drive Arbiter. -/
def State.modDa (s : State) (f : Drive → Drive) : State := { s with da := f s.da }

/-- Change the Link-up Unit. -/
def State.modLu (s : State) (f : LinkUp → LinkUp) : State := { s with lu := f s.lu }

/-- Change the Shock Monitor. -/
def State.modSm (s : State) (f : Shock → Shock) : State := { s with sm := f s.sm }

/-- Change the Re-read Unit. -/
def State.modRu (s : State) (f : Reread → Reread) : State := { s with ru := f s.ru }

/-- Change the concealer of zone `z`. -/
def State.modOc (s : State) (z : ZoneId) (f : Concealer → Concealer) : State := { s with oc := s.oc.mod z f }

/-- Change the Disc Directory. -/
def State.modDd (s : State) (f : Directory → Directory) : State := { s with dd := f s.dd }

/-- Change the Loader Monitor. -/
def State.modLm (s : State) (f : Loader → Loader) : State := { s with lm := f s.lm }

/-- Change Power Control. -/
def State.modPc (s : State) (f : Power → Power) : State := { s with pc := f s.pc }

/-- Change the Control Link. -/
def State.modCl (s : State) (f : Link → Link) : State := { s with cl := f s.cl }

/-- Change the link-up context of zone `z`. -/
def State.setCtx (s : State) (z : ZoneId) (c : Option LinkCtx) : State :=
  s.modLu fun u => { u with ctx := u.ctx.set z c }

/-- Change the audit context of zone `z`. -/
def State.modAudit (s : State) (z : ZoneId) (f : Audit → Audit) : State :=
  s.modLu fun u => { u with audit := u.audit.mod z f }

/-- Change the re-read list of zone `z`. -/
def State.modList (s : State) (z : ZoneId) (f : List Entry → List Entry) : State :=
  s.modRu fun u => { u with lists := u.lists.mod z f }

/-- The zone record of zone `z`. -/
def State.zone (s : State) (z : ZoneId) : Zone := s.zc.get z

/-- The link-up context of zone `z`. -/
def State.ctx (s : State) (z : ZoneId) : Option LinkCtx := s.lu.ctx.get z

/-- The block record of bucket `b`. -/
def State.info (s : State) (b : Nat) : BlockRec := (s.bs.bucket b).info

/-! ## Timer limits, in nanoseconds -/

/-- `n` milliseconds. -/
def ms (n : Nat) : Timer := .running (n * 1000000)

/-- The time limit of a servo command (R57, R59); for READ, to its first block. -/
def Servo.limit : Servo → Timer
  | .load _ => ms 12000
  | .unload => ms 12000
  | .spin _ => ms 4000
  | .seek _ => ms 1500
  | .read => ms 1000
  | .pause => ms 300
  | .latchOpen => ms 2000
  | .abort => ms 1000

/-- Four byte times at the strapped link rate (R172, R174). -/
def gapTime (straps : Straps) : Timer :=
  match straps.rate with
  | .r57600 => .running 694444
  | .r115200 => .running 347222

/-! ## The transmitter and the notice queue -/

/-- An idle transmitter begins the oldest formed frame among the refusals and the pending request's reply, or, when no
request is unanswered, the notice at the head of the queue (R176). -/
def Link.pump (l : Link) : Link :=
  match l.transmitter with
  | some _ => l
  | none =>
    match l.request, l.refusals with
    | some ⟨_, some f, 0⟩, _ => { l with transmitter := some (.reply f) }
    | some ⟨k, r, n⟩, f :: fs => { l with transmitter := some (.refusal f), refusals := fs, request := some ⟨k, r, n - 1⟩ }
    | some _, [] => l
    | none, f :: fs => { l with transmitter := some (.refusal f), refusals := fs }
    | none, [] =>
      match l.notices with
      | [] => l
      | f :: fs => { l with transmitter := some (.notice f), notices := fs }

/-- A notice is made: it is discarded while the hush flag is set, joins the end of the queue while that holds fewer than
16, and is otherwise dropped, setting the notices-lost flag (R177). -/
def Link.notice (l : Link) (f : Frame) : Link :=
  if l.hush then l
  else if l.notices.length < 16 then Link.pump { l with notices := l.notices ++ [f] }
  else { l with lost := true }

/-- Place a notice of kind `kind` (R177). -/
def State.notice (s : State) (kind : Byte) (body : List Byte) : State := s.modCl fun l => l.notice ⟨kind, body⟩

/-- ZONE: the zone and its states as they stand after the change, and the cause (R43). -/
def State.zoneNotice (s : State) (z : ZoneId) (c : ZoneCause) : State :=
  s.notice 0x70 [zoneCode z, playCode (s.zone z).play, supplyCode (s.zone z).supply, zoneCauseCode c]

/-- TRACK: the zone, the new track and the block's expected address (R44). -/
def State.trackNotice (s : State) (z : ZoneId) (track addr : Nat) : State :=
  s.notice 0x71 ([zoneCode z, byte track] ++ be3 addr)

/-- END: the zone (R41). -/
def State.endNotice (s : State) (z : ZoneId) : State := s.notice 0x72 [zoneCode z]

/-- IDENT: the slot, the outcome and the record index (R142). -/
def State.identNotice (s : State) (slot : Nat) (o : IdentOutcome) (rec : Option Nat) : State :=
  s.notice 0x73 [byte slot, identCode o, optByte rec]

/-- MAGAZINE: the magazine state after the change, and the cause (R162). -/
def State.magNotice (s : State) (c : MagCause) : State :=
  s.notice 0x74 [magazineCode s.lm.magazine, magCauseCode c]

/-- HOLD: 1 GRANTED, 2 REVOKED, 3 ENDED (R75, R76). -/
def State.holdNotice (s : State) (code : Byte) : State := s.notice 0x75 [code]

/-- DRIVE-FAULT: the command that failed and the cause (R61). -/
def State.faultNotice (s : State) (cmd : ServoName) (c : FaultCause) : State :=
  s.notice 0x76 [servoCode cmd, faultCauseCode c]

/-- MISSTITCH-HEARD: the zone and the target address (R100). -/
def State.misstitchNotice (s : State) (z : ZoneId) (addr : Nat) : State :=
  s.notice 0x77 (zoneCode z :: be3 addr)

/-- UNVERIFIED: the zone (R102). -/
def State.unverifiedNotice (s : State) (z : ZoneId) : State := s.notice 0x78 [zoneCode z]

/-- WAKE: the source, and the start: 1 WARM, 2 COLD (R169). -/
def State.wakeNotice (s : State) (src : WakeSource) (start : Byte) : State := s.notice 0x79 [wakeCode src, start]

end Sys2Proof.Machine
end

