-- ==== Sys2Proof/Machine/Flags.lean ====
section
/-! DEFINITION. The tests and quantities the rules read from the state: fill and room, quality classes, the matching
primitives, claimant conditions, readiness, defect-list questions. None of them changes anything. -/

namespace Sys2Proof.Machine

/-! ## Fill, room and frames ahead (R33) -/

/-- A zone's fill: its chain length (R33). -/
def State.fill (s : State) (z : ZoneId) : Nat := (s.bs.chain.get z).length

/-- A zone's quota (R32). -/
def State.quota (s : State) (z : ZoneId) : Nat := s.params.quota.get z

/-- A zone's room: quota less fill (R33). -/
def State.room (s : State) (z : ZoneId) : Nat := s.quota z - s.fill z

/-- A zone's frames ahead, which are also its available frames (R33, R128). -/
def State.framesAhead (s : State) (z : ZoneId) : Nat := s.fill z * 480 - (s.zone z).offset

/-! ## The selected record -/

/-- Disc record `i` (R135). -/
def State.record (s : State) (i : Nat) : Option DiscRecord := s.dd.records[i]?

/-- A zone's selected disc record (R35). -/
def State.selRec (s : State) (z : ZoneId) : Option DiscRecord := (s.zone z).selected.bind s.record

/-- A zone's selected record is PRESENT. -/
def State.selPresent (s : State) (z : ZoneId) : Bool :=
  match s.selRec z with
  | some r => decide (r.state = .present)
  | none => false

/-- The slot of a zone's selected record. -/
def State.selSlot (s : State) (z : ZoneId) : Option Nat := (s.selRec z).bind (·.slot)

/-- The program end of a zone's selected record (R1, R138). -/
def State.programEnd (s : State) (z : ZoneId) : Nat :=
  match s.selRec z with
  | some r => (r.print.map (·.programEnd)).getD 0
  | none => 0

/-- The track list of a zone's selected record (R143). -/
def State.tracks (s : State) (z : ZoneId) : List Nat := ((s.selRec z).map (·.tracks)).getD []

/-- The defect list of a zone's selected record (R147). -/
def State.defects (s : State) (z : ZoneId) : List Region := ((s.selRec z).map (·.defects)).getD []

/-- The track of an address: the track with the greatest start at or below it, and track 1 below the start of track 1
(R44). -/
def trackOf (tracks : List Nat) (a : Nat) : Nat := max 1 (tracks.countP fun t => decide (t ≤ a))

/-- The start of track `n` (R143). -/
def startOf (tracks : List Nat) (n : Nat) : Nat := tracks.getD (n - 1) 0

/-- The start of the last track. -/
def lastStart (tracks : List Nat) : Nat := tracks.getLast?.getD 0

/-- Record `i` is referenced by zone `z` (R135). -/
def State.references (s : State) (z : ZoneId) (i : Nat) : Bool := decide ((s.zone z).selected = some i)

/-- Record `i` is referenced (R135). -/
def State.referenced (s : State) (i : Nat) : Bool := s.references .a i || s.references .b i

/-! ## The chain -/

/-- The position in zone `z`'s chain of the block at expected address `e`. -/
def State.posOf (s : State) (z : ZoneId) (e : Nat) : Option Nat :=
  (s.bs.chainOf z).findIdx? fun b => decide ((s.info b).expected = some e)

/-- The bucket at position `p` of zone `z`'s chain; 0 when there is none. -/
def State.bucketAt (s : State) (z : ZoneId) (p : Nat) : Nat := (s.bs.chainOf z).getD p 0

/-- The expected address of the block at the head of zone `z`'s chain. -/
def State.headAddr (s : State) (z : ZoneId) : Option Nat :=
  if s.fill z = 0 then none else (s.info (s.bs.chain.get z).head).expected

/-- The zone's current track number of R4: the tail block's, and with an empty chain the zone record's. -/
def State.tailTrack (s : State) (z : ZoneId) : Nat :=
  if s.fill z = 0 then (s.zone z).track else (s.info (s.bs.chain.get z).tail).track

/-- The zone's next read address; 0 where it is absent. -/
def State.nextAddr (s : State) (z : ZoneId) : Nat := (s.zone z).nextRead.getD 0

/-! ## Quality classes (R12) -/

/-- The quality classes (R12). -/
inductive Quality where
  | lost
  | clean
  | patchable
  | poor
  deriving DecidableEq, Repr

/-- The quality class of a block against a patchable limit (R12). -/
def quality (limit : Nat) (r : BlockRec) : Quality :=
  if r.decoder = .lost then .lost
  else if r.erasures = 0 then .clean
  else if r.erasures ≤ limit then .patchable
  else .poor

/-- Class POOR or LOST. -/
def isBad (limit : Nat) (r : BlockRec) : Bool :=
  match quality limit r with
  | .lost => true
  | .poor => true
  | .clean => false
  | .patchable => false

/-! ## The matching primitives (R77, R78) -/

/-- What a search makes of an arriving block. -/
inductive Found where
  | taken
  | overshoot
  | notTaken
  deriving DecidableEq, Repr

/-- Stamp-locate of target `x`; `prev` is the block's preceding GOOD stamp (R77). -/
def stampLocate (x : Nat) (status : StampStatus) (stamp prev : Option Nat) : Found :=
  if status = .good ∧ stamp = some x then .taken
  else if 0 < x ∧ prev = some (x - 1) then .taken
  else
    match status, stamp with
    | .good, some v => if x < v then .overshoot else .notTaken
    | _, _ => .notTaken

/-- The compared and equal counts of a data compare (R78). -/
def compareCounts : List Sample → List Bool → List Sample → List Bool → Nat × Nat
  | v :: vs, f :: fs, w :: ws, g :: gs =>
    let (c, e) := compareCounts vs fs ws gs
    if f || g then (c, e) else (c + 1, if v = w then e + 1 else e)
  | _, _, _, _ => (0, 0)

/-- Data compare of two blocks (R78). -/
def dataCompare (x y : Bucket) : Nat × Nat := compareCounts x.samples x.flags y.samples y.flags

/-- The two blocks agree (R78). -/
def agrees (ce : Nat × Nat) : Bool := decide (240 ≤ ce.1) && decide (15 * ce.1 ≤ 16 * ce.2)

/-- Anchor-match of a candidate against an anchor (R78). -/
def anchorMatch (anchor cand : Bucket) : Found :=
  if anchor.info.stampStatus = .good ∧ cand.info.stampStatus = .good then
    if cand.info.stamp = anchor.info.expected then .taken
    else if anchor.info.expected.getD 0 < cand.info.stamp.getD 0 then .overshoot
    else .notTaken
  else if anchor.info.featureless = false ∧ agrees (dataCompare anchor cand) = true then .taken
  else .notTaken

/-- A block qualifies as an anchor (R81). -/
def qualifies (r : BlockRec) : Bool :=
  decide (r.stampStatus = .good) || (!r.featureless && decide (r.erasures ≤ 720))

/-! ## Claimant conditions (R38, R69) -/

/-- A zone with neither a stop nor a seek pending, whose selected record is PRESENT. -/
def State.offered (s : State) (z : ZoneId) : Bool :=
  s.selPresent z && !(s.zone z).stopPending && (s.zone z).seekPending.isNone

/-- A rejoin claimant (R38). -/
def State.rejoinClaimant (s : State) (z : ZoneId) : Bool :=
  s.offered z && decide ((s.zone z).supply = .rejoining)

/-- A refill claimant (R38). -/
def State.refillClaimant (s : State) (z : ZoneId) : Bool :=
  s.offered z && decide ((s.zone z).supply = .feeding) && decide (32 ≤ s.room z)

/-- An urgent zone (R38). -/
def State.urgent (s : State) (z : ZoneId) : Bool :=
  s.refillClaimant z && (decide ((s.zone z).play = .priming) || decide ((s.zone z).play = .playing)) &&
    decide (s.fill z < s.params.lowWater.get z)

/-- A zone is pressing (R69). -/
def State.pressing (s : State) (z : ZoneId) : Bool :=
  s.urgent z ||
    (s.rejoinClaimant z &&
      (decide ((s.zone z).play = .priming) || decide ((s.zone z).play = .playing) ||
        decide ((s.zone z).play = .starved)) &&
      decide (s.fill z < s.params.lowWater.get z))

/-- The claimant conditions of a zone, at whose changes DA tests R69 (R38, R69, log entry 15). -/
def State.conditions (s : State) (z : ZoneId) : Bool × Bool × Bool :=
  (s.rejoinClaimant z, s.refillClaimant z, s.urgent z)

/-! ## Readiness (R39, R40) -/

/-- No more blocks are coming: RESYNC, LOST, FAULT or ENDED. -/
def supplyOver : Supply → Bool
  | .resync => true
  | .lost => true
  | .fault => true
  | .ended => true
  | .idle => false
  | .feeding => false
  | .rejoining => false
  | .absent => false

/-- A zone is ready at its start threshold (R39). -/
def State.readyToStart (s : State) (z : ZoneId) : Bool :=
  decide (s.params.startThr.get z ≤ s.fill z) || decide (s.room z < 32) ||
    (supplyOver (s.zone z).supply && decide (1 ≤ s.fill z))

/-- A STARVED zone may sound again (R40). -/
def State.readyToRestart (s : State) (z : ZoneId) : Bool :=
  (decide ((s.zone z).supply = .feeding) &&
      (decide (s.params.restartThr.get z ≤ s.fill z) || decide (s.room z < 32))) ||
    (supplyOver (s.zone z).supply && decide (1 ≤ s.fill z))

/-! ## Audible and pending (R39, R131) -/

/-- A zone is audible while either channel's gain is above 0. -/
def State.audible (s : State) (z : ZoneId) : Bool :=
  decide (0 < (s.oc.get z).left.gain) || decide (0 < (s.oc.get z).right.gain)

/-- A zone has a pause, stop or seek pending. -/
def Zone.pendingAny (r : Zone) : Bool := r.pausePending || r.stopPending || r.seekPending.isSome

/-- The pending action as a reply reports it: 0 none, 1 pause, 2 seek, 3 pause and seek, 4 stop (R185). -/
def Zone.pendingCode (r : Zone) : Byte :=
  if r.stopPending then 4
  else
    match r.pausePending, r.seekPending with
    | false, none => 0
    | true, none => 1
    | false, some _ => 2
    | true, some _ => 3

/-- The next unheard frame of a zone, where its resume point is written (R51). -/
def State.unheard (s : State) (z : ZoneId) : Option ResumePt :=
  if s.fill z ≠ 0 then (s.headAddr z).map fun a => ⟨a, (s.zone z).offset⟩
  else if (s.zone z).resume.isSome then (s.zone z).resume
  else (s.zone z).nextRead.map fun a => ⟨a, 0⟩

/-! ## Questions about a defect list (R147) -/

/-- A range of addresses meets a region, counting the 50 blocks before its first (R67). -/
def regionMet (r : Region) (lo hi : Nat) : Bool := decide (r.first - 50 ≤ hi) && decide (lo ≤ r.last)

/-- The cap of a block at address `a` (R106). -/
def capIn (defects : List Region) (a : Nat) : Nat :=
  if defects.any fun r =>
      decide (r.kind ≠ .skipProne) && decide (3 ≤ r.hits) && decide (r.first ≤ a) && decide (a ≤ r.last)
  then 2 else 4

/-- The cap of a block of zone `z` at address `a` (R106). -/
def State.cap (s : State) (z : ZoneId) (a : Nat) : Nat := capIn (s.defects z) a

/-- The read speed left by the limits of R67 over the reach lo..hi. -/
def limitSpeed (refill : Nat) (rough : Bool) (defects : List Region) (lo hi : Nat) : Nat :=
  let met := defects.filter fun r => regionMet r lo hi
  let v1 := if rough then min refill 2 else refill
  let v2 := if met.any fun r => decide (r.kind = .unreadable) then min v1 2 else v1
  if met.any fun r => decide (r.kind ≠ .unreadable) then min v2 1 else v2

/-- A speed stepped down `n` times (R67). -/
def stepDown : Nat → Nat → Nat
  | 0, v => v
  | n + 1, v => stepDown n (if v = 4 then 2 else 1)

/-! ## The drive -/

/-- The mechanism is unsettled: from a rise of the shock line until the settle timer expires (R94). -/
def State.unsettled (s : State) : Bool := s.pins.shockHigh || decide (s.sm.settleTimer ≠ .stopped)

/-- The current claim, when its standing is LIVE. -/
def State.liveClaim (s : State) : Option Claim :=
  match s.da.claim with
  | some c => if c.standing = .live then some c else none
  | none => none

/-- The tag's standing is LIVE. -/
def State.tagLive (s : State) : Bool :=
  match s.bi.tag with
  | some t => decide (t.standing = .live)
  | none => false

/-- The tag's phase is APPENDING. -/
def State.tagAppending (s : State) : Bool :=
  match s.bi.tag with
  | some t => decide (t.phase = some .appending)
  | none => false

/-- The current LIVE claim is of kind `k`, for zone `z` and for target `a`. That an AUDIT claim which is ended or cancelled and waits
for its outstanding command is not the current claim of R102 is the model's choice (log entry 54). -/
def State.claimOn (s : State) (k : ClaimKind) (z : ZoneId) (a : Nat) : Bool :=
  match s.liveClaim with
  | some c => decide (c.kind = k) && decide (c.zone = some z) && decide (c.target = some a)
  | none => false

/-- The current claim is the LIVE link-up, refill, re-read or audit of zone `z` (R38). -/
def State.ownsClaim (s : State) (z : ZoneId) : Bool :=
  match s.liveClaim with
  | some c => decide (c.zone = some z)
  | none => false

/-- An eject sequence is under way (R63, R158). -/
def Loader.ejecting (l : Loader) : Bool := decide (l.ejectStage ≠ .none)

end Sys2Proof.Machine
end

