-- ==== Sys2Proof/Machine/Directory.lean ====
section
/-! DEFINITION. The Disc Directory's own operations: defect lists, ranks, fingerprints, and the choice of a record
(chapter 8). -/

namespace Sys2Proof.Machine

/-! ## Defect lists (R144 to R146) -/

/-- Two regions overlap, or the gap between them is 4 or less (R145). -/
def near (r x : Region) : Bool := decide (r.first ≤ x.last + 5) && decide (x.first ≤ r.last + 5)

/-- Two regions merged (R145). -/
def mergeRegions (r x : Region) : Region where
  first := min r.first x.first
  last  := max r.last x.last
  kind  := if r.kind = x.kind then r.kind else .both
  hits  := min 15 (r.hits + x.hits)

/-- Place a region in ascending order of first block (R145). -/
def placeRegion (r : Region) : List Region → List Region
  | [] => [r]
  | x :: l => if r.first < x.first then r :: x :: l else x :: placeRegion r l

/-- Take out of the list, one after the other, the regions within 4 blocks of the growing region `r` (R145); `n` bounds
how many there are. -/
def absorb : Nat → Region → List Region → Region × List Region
  | 0, r, l => (r, l)
  | n + 1, r, l =>
    match l.find? (near r) with
    | none => (r, l)
    | some x => absorb n (mergeRegions r x) (l.erase x)

/-- Insert a region, merging it with its neighbours (R145). -/
def insertMerging (l : List Region) (r : Region) : List Region :=
  let (m, rest) := absorb l.length r l
  placeRegion m rest

/-- The gaps between neighbouring regions (R144). -/
def regionGaps : List Region → List Nat
  | x :: y :: l => (y.first - x.last - 1) :: regionGaps (y :: l)
  | _ => []

/-- Merge the neighbouring pair at index `n` with its successor. -/
def mergePairAt : List Region → Nat → List Region
  | x :: y :: l, 0 => mergeRegions x y :: l
  | x :: l, n + 1 => x :: mergePairAt l n
  | l, _ => l

/-- Merge the neighbouring pair with the smallest gap, the lowest of several (R146). -/
def mergeClosest (l : List Region) : List Region :=
  match regionGaps l with
  | [] => l
  | g :: gs =>
    let least := gs.foldl min g
    mergePairAt l ((g :: gs).findIdx fun x => decide (x = least))

/-- Insert a region into a defect list that holds at most 32 (R145, R146). -/
def insertRegion (l : List Region) (r : Region) : List Region :=
  if 32 ≤ l.length ∧ l.any (near r) = false then insertMerging (mergeClosest l) r else insertMerging l r

/-! ## Records -/

/-- Change disc record `i`. -/
def Directory.modRecord (d : Directory) (i : Nat) (f : DiscRecord → DiscRecord) : Directory :=
  { d with records := d.records.modify i f }

/-- A PRESENT record becomes DEPARTED, its slot becoming its last slot (R135, R137). -/
def departRecord (r : DiscRecord) : DiscRecord :=
  if r.state = .present then { r with state := .departed, slot := none, lastSlot := r.slot } else r

/-- Every PRESENT record becomes DEPARTED, and the identification context is dropped (R135, R137). -/
def Directory.departAll (d : Directory) : Directory := { d with records := d.records.map departRecord, ident := none }

/-- How many records that are not FREE come before record `i` in ascending order of last-seen rank (R136). -/
def ranksBelow (l : List DiscRecord) (i : Nat) (r : DiscRecord) : Nat :=
  (l.zipIdx.filter fun (x, j) =>
    decide (x.state ≠ .free) && (decide (x.rank < r.rank) || (decide (x.rank = r.rank) && decide (j < i)))).length

/-- The records that are not FREE receive the ranks 0, 1, 2 and so on in the order of their ranks (R136, step 1). -/
def renumber (l : List DiscRecord) : List DiscRecord :=
  l.mapIdx fun i r => if r.state = .free then r else { r with rank := ranksBelow l i r }

/-- Refresh the last-seen rank of record `i` (R136). -/
def Directory.refresh (d : Directory) (i : Nat) : Directory :=
  let d1 :=
    if d.sequence = 255 then
      { d with records := renumber d.records, sequence := d.records.countP fun r => decide (r.state ≠ .free) }
    else d
  { d1.modRecord i fun r => { r with rank := d1.sequence } with sequence := d1.sequence + 1 }

/-- The fingerprint of a readable directory (R138). -/
def DiscInfo.print (i : DiscInfo) : Fingerprint := ⟨i.tracks.length, i.programEnd, i.tracks.sum % 65536⟩

/-- The record that matches a fingerprint (R140). -/
def Directory.find (d : Directory) (p : Fingerprint) : Option Nat :=
  d.records.findIdx? fun r => decide (r.state ≠ .free) && decide (r.print = some p)

/-- The index of the record with the smallest last-seen rank among those that `ok` admits. -/
def smallestRank (l : List DiscRecord) (ok : Nat → DiscRecord → Bool) : Option Nat :=
  (l.zipIdx.foldl
    (fun (best : Option (Nat × Nat)) (x, j) =>
      if ok j x then
        match best with
        | none => some (j, x.rank)
        | some (_, r) => if x.rank < r then some (j, x.rank) else best
      else best)
    none).map (·.1)

/-- The record a NEW disc takes: the FREE record with the lowest index, otherwise the DEPARTED record that no zone
references with the smallest last-seen rank (R141). -/
def State.recordForNew (s : State) : Option Nat :=
  match s.dd.records.findIdx? fun r => decide (r.state = .free) with
  | some i => some i
  | none => smallestRank s.dd.records fun i r => decide (r.state = .departed) && !s.references .a i && !s.references .b i

/-- The record written for a NEW disc in `slot` (R141). -/
def newRecord (slot : Nat) (info : DiscInfo) : DiscRecord where
  state    := .present
  slot     := some slot
  lastSlot := some slot
  print    := some info.print
  tracks   := info.tracks
  defects  := []
  resume   := none
  rank     := 0

/-! ## Writing the selected record -/

/-- Change the selected record of zone `z`. -/
def State.modSelRec (s : State) (z : ZoneId) (f : DiscRecord → DiscRecord) : State :=
  match (s.zone z).selected with
  | some i => s.modDd fun d => d.modRecord i f
  | none => s

/-- Insert a region of one block with hit count 1 into the defect list of a zone's selected record (R92, R116). Address 480,000
is no block's (R1), and a region holds none above 479,999 (R144), so nothing is inserted there (log entry 39). -/
def State.markDefect (s : State) (z : ZoneId) (k : DefectKind) (a : Nat) : State :=
  if a ≤ 479999 then s.modSelRec z fun r => { r with defects := insertRegion r.defects ⟨a, a, k, 1⟩ } else s

/-- Write the next unheard frame of a zone as its selected record's resume point (R51, R148). -/
def State.writeResume (s : State) (z : ZoneId) (p : Option ResumePt) : State :=
  match p with
  | some _ => s.modSelRec z fun r => { r with resume := p }
  | none => s

end Sys2Proof.Machine
end

