-- ==== Sys2Proof/Machine/DriveOps.lean ====
section
/-! DEFINITION. What DA does to the drive command bus and to its current claim: sending a command, ending and cancelling
a claim, the end of a hold (chapter 4). -/

namespace Sys2Proof.Machine

/-- Send a servo command afresh: it becomes the outstanding command with its retry mark clear and its full limit, the
drive takes the state of R57, and the timers stop that run in READY and READING only (R57, R58, R73). -/
def Drive.send (d : Drive) (c : Servo) (st : DriveState) : Drive :=
  { d with
    out := some ⟨c, false, c.limit, none⟩, state := st, idleTimer := .stopped, blockTimer := .stopped }

/-- Send a servo command afresh (R57, R58). -/
def State.send (s : State) (c : Servo) (st : DriveState) : State := s.modDa fun d => d.send c st

/-- The claim is gone (R70, R71). -/
def State.dropClaim (s : State) : State := s.modDa fun d => { d with claim := none }

/-- Give the tag its final standing, if it is LIVE (R7). -/
def Intake.close (b : Intake) (st : Standing) : Intake :=
  match b.tag with
  | some t => if t.standing = .live then { b with tag := some { t with standing := st } } else b
  | none => b

/-- The slot timer stands still when an identification claim ends or is cancelled (R155). -/
def Loader.standStill (l : Loader) : Loader :=
  match l.slotTimer with
  | .running => { l with slotTimer := .standing }
  | .zero => l
  | .standing => l

/-- The context of a cancelled or interrupted attempt returns to WAITING, keeping its failed attempts and attempt
backoff (R71, R90). -/
def LinkCtx.wait (c : LinkCtx) : LinkCtx := { c with stage := .waiting, anchor := .none, d := 0, verify := none }

/-- The context of zone `z` returns to WAITING (R82, R83, R90). -/
def State.ctxWait (s : State) (z : ZoneId) : State :=
  match s.ctx z with
  | some c => s.setCtx z (some c.wait)
  | none => s

/-- The standing of a LIVE claim becomes `st`: the tag follows, the block timer stops, and an identification's slot
timer stands still. A cancelled link-up attempt returns its context to WAITING (R7, R57, R70, R71, R155). -/
def State.markClaim (s : State) (c : Claim) (st : Standing) : State :=
  let s1 := (s.modDa fun d => { d with claim := some { c with standing := st }, blockTimer := .stopped }).modBi
    fun b => b.close st
  match c.kind, c.zone with
  | .ident, _ => s1.modLm Loader.standStill
  | .linkUp, some z => if st = .cancelled then s1.ctxWait z else s1
  | .refill, some z => if st = .cancelled then s1.ctxWait z else s1
  | _, _ => s1

/-- What DA does with a claim whose standing has just become final: with no command outstanding the claim is gone, and
reading in progress is stopped with PAUSE; otherwise the outstanding command is awaited (R70, R71). -/
def State.releasePickup (s : State) : State :=
  match s.da.out with
  | some _ => s
  | none => if s.da.state = .reading then s.dropClaim.send .pause .stopping else s.dropClaim

/-- A LIVE claim other than HOLD ends (`.ended`, R70) or is cancelled (`.cancelled`, R71); a claim that has ended is not
cancelled afterwards, and a hold is not disturbed. -/
def State.closeClaim (s : State) (st : Standing) : State :=
  match s.liveClaim with
  | some c => if c.kind = .hold then s else (s.markClaim c st).releasePickup
  | none => s

/-- The LIVE claim of zone `z` ends or is cancelled (R38, R83). -/
def State.closeZoneClaim (s : State) (z : ZoneId) (st : Standing) : State :=
  if s.ownsClaim z then s.closeClaim st else s

/-- DA drives the bus again after a hold: READY, with the loaded slot and the speed UNKNOWN, and the HOLD claim gone; an
eject sequence that waited for the hold begins (R76, R157). -/
def State.endHold (s : State) (h : Hold) : State :=
  let s1 := s.modDa fun d =>
    { d with
      claim := none, state := .ready, slot := .unknown, speed := .unknown, hold := h, graceTimer := .stopped }
  if s1.lm.ejectStage = .waitingHold then s1.modLm fun l => { l with ejectStage := .unloading } else s1

/-- A granted hold is revoked: REVOKING, a HOLD notice REVOKED, and the grace timer (R76). -/
def State.revokeHold (s : State) : State :=
  (s.modDa fun d => { d with hold := .revoking, graceTimer := ms (s.params.holdGrace * 100) }).holdNotice 2

/-- The part takes the bus back: the hold is LAPSED, with a HOLD notice ENDED (R76). -/
def State.lapseHold (s : State) : State := (s.endHold .lapsed).holdNotice 3

/-- The start values of DA; the rotation table and its pointer are kept (R56). -/
def Drive.restart (d : Drive) : Drive := { Drive.cold with rotation := d.rotation, rotPtr := d.rotPtr }

end Sys2Proof.Machine
end

