-- ==== Sys2Proof/Machine/ZoneOps.lean ====
section
/-! DEFINITION. What happens to a zone: a block comes to its head, its supply state changes, it is flushed, heard, cut,
stopped, or a pending action takes effect (chapters 2, 3, 5 and 6). -/

namespace Sys2Proof.Machine

/-! ## Re-read entries that leave (R113 to R116) -/

/-- The block at expected address `a` in zone `z`'s chain is no longer marked as listed (R103). -/
def State.clearListed (s : State) (z : ZoneId) (a : Nat) : State :=
  match s.posOf z a with
  | some p => s.modBs fun st => st.modInfo (s.bucketAt z p) fun r => { r with listed := false }
  | none => s

/-- The entry at address `a` leaves zone `z`'s list; if it is the entry of the current RE-READ claim, RU ends the claim
(R114, R115). -/
def State.dropEntry (s : State) (z : ZoneId) (a : Nat) : State :=
  let s1 := (s.clearListed z a).modList z fun l => l.filter fun e => decide (e.addr ≠ a)
  if s1.claimOn .reread z a then s1.closeClaim .ended else s1

/-- The entry at address `a` leaves as exhausted, inserting an UNREADABLE region (R113, R116). -/
def State.exhaustEntry (s : State) (z : ZoneId) (a : Nat) : State := (s.dropEntry z a).markDefect z .unreadable a

/-- The entries of zone `z` at or above `a` leave, with no region; a RE-READ claim on one of them ends (R115). -/
def State.dropEntriesFrom (s : State) (z : ZoneId) (a : Nat) : State :=
  let s1 := s.modList z fun l => l.filter fun e => decide (e.addr < a)
  match s1.liveClaim with
  | some c =>
    if c.kind = .reread ∧ c.zone = some z ∧ a ≤ c.target.getD 0 then s1.closeClaim .ended else s1
  | none => s1

/-! ## A block comes to position 0 (R29, R44, R102, R114) -/

/-- Zone `z`'s audit has been missed (R102). -/
def State.missAudit (s : State) (z : ZoneId) : State :=
  let u := s.lu.audit.get z
  let n := min 3 (u.misses + 1)
  let s1 := s.modAudit z fun x => { x with target := none, misses := n }
  if n = 3 ∧ u.unverified = false then (s1.modAudit z fun x => { x with unverified := true }).unverifiedNotice z else s1

/-- RU hears that the block at address `e` has come to the head: its entry is dropped, and a region is inserted if it is
POOR or LOST (R114). -/
def State.rereadAtHead (s : State) (z : ZoneId) (e : Nat) (r : BlockRec) : State :=
  if (s.ru.lists.get z).any fun x => decide (x.addr = e) then
    let s1 := s.dropEntry z e
    if isBad s.params.patchLimit r then s1.markDefect z .unreadable e else s1
  else s

/-- LU hears that the block at address `e` has come to the head: a pending audit of it is missed, unless its own AUDIT
claim is current (R102). -/
def State.auditAtHead (s : State) (z : ZoneId) (e : Nat) : State :=
  if (s.lu.audit.get z).target = some e ∧ s.claimOn .audit z e = false then s.missAudit z else s

/-- ZC tests the track of the block that has come to the head (R44). -/
def State.trackAtHead (s : State) (z : ZoneId) (e : Nat) (track : Nat) : State :=
  if track = (s.zone z).track then s
  else (s.modZone z fun r => { r with track := track }).trackNotice z track e

/-- A block has come to position 0 of zone `z`'s chain (R29 step 4, R44, R102, R114). -/
def State.newHead (s : State) (z : ZoneId) : State :=
  if s.fill z = 0 then s
  else
    let r := s.info (s.bs.chain.get z).head
    let e := r.expected.getD 0
    ((s.rereadAtHead z e r).auditAtHead z e).trackAtHead z e r.track

/-! ## Flush (R31) -/

/-- A decided run ends at a flush (R125). -/
def Channel.flushRun (c : Channel) : Channel := { c with run := .none }

/-- Flush zone `z`: BS releases its blocks, RU empties its list, LU drops its context and audit target, and the
concealer treats the chain as empty (R31, R79, R96, R115, R125). -/
def State.flushZone (s : State) (z : ZoneId) : State :=
  let s1 := (s.modBs fun st => st.flush z).dropEntriesFrom z 0
  let s2 := (s1.setCtx z none).modAudit z fun u => { u with commits := 0, start := none, target := none }
  s2.modOc z fun c => { c with left := c.left.flushRun, right := c.right.flushRun, cutAt := none }

/-! ## Supply and play state changes (R39 to R43) -/

/-- Zone `z` becomes PLAYING, from PRIMING or not (R39, R40, R49, R120). -/
def State.becomePlaying (s : State) (z : ZoneId) (fromPriming : Bool) : State :=
  (s.modZone z fun r => { r with play := .playing }).modOc z fun c => { c with drawAtOnce := !fromPriming }

/-- The tests of R39 and R40 on zone `z`. -/
def State.testReady (s : State) (z : ZoneId) : State :=
  match (s.zone z).play with
  | .priming => if s.readyToStart z then (s.becomePlaying z true).zoneNotice z .primed else s
  | .starved => if s.readyToRestart z then (s.becomePlaying z false).zoneNotice z .refilled else s
  | .stopped => s
  | .playing => s
  | .paused => s

/-- Zone `z` has played its program to the end: STOPPED and IDLE, with the selected record's resume point cleared and an
END notice (R41). -/
def State.endOfProgram (s : State) (z : ZoneId) : State :=
  let s1 := s.modZone z fun r =>
    { r with
      play := .stopped, supply := .idle, nextRead := none, track := 0, pausePending := false, resume := none }
  ((s1.setCtx z none).modSelRec z fun r => { r with resume := none }).endNotice z

/-- The supply states whose coming drops the zone's link-up context (R79). -/
def dropsCtx : Supply → Bool
  | .resync => true
  | .absent => true
  | .lost => true
  | .fault => true
  | .idle => true
  | .feeding => false
  | .rejoining => false
  | .ended => false

/-- The supply state of zone `z` becomes `to`, without a notice (R42, R79). -/
def State.putSupply (s : State) (z : ZoneId) (v : Supply) : State :=
  let s1 := s.modZone z fun r => { r with supply := v }
  if dropsCtx v then s1.setCtx z none else s1

/-- A change of supply state of zone `z` with cause `c` has made the zone PLAYING too, which alone has cause `d`: one ZONE
notice, with one of the two causes, which one the data book does not say (R43, log entry 7). -/
def State.jointNotice (s : State) (z : ZoneId) (c d : ZoneCause) : State :=
  { s with free := s.free + 1 }.zoneNotice z (if Config.supplyCause s.free then c else d)

/-- What follows a change of supply state with cause `c`: R39 and R40 are tested, and a ZONE notice reports the change
(R39, R40, R42, R43). -/
def State.supplyChanged (s : State) (z : ZoneId) (c : ZoneCause) : State :=
  if (s.zone z).play = .priming ∧ s.readyToStart z = true then (s.becomePlaying z true).jointNotice z c .primed
  else if (s.zone z).play = .starved ∧ s.readyToRestart z = true then
    (s.becomePlaying z false).jointNotice z c .refilled
  else s.zoneNotice z c

/-- The supply state of zone `z` becomes `v`, with a ZONE notice with cause `c`, unless it is `v` already; an ENDED zone with
an empty chain has then ended its program (R41, R42, R43). -/
def State.setSupply (s : State) (z : ZoneId) (v : Supply) (c : ZoneCause) : State :=
  if (s.zone z).supply = v then s
  else
    let s1 := s.putSupply z v
    if v = .ended ∧ s1.fill z = 0 then ((s1.zoneNotice z c).flushZone z).endOfProgram z else s1.supplyChanged z c

/-! ## Hear (R29) -/

/-- LU hears that the block at address `e` has been heard: an attempt that searches for it takes the anchor bucket when
the chain is now empty, and otherwise ends without being counted (R82). -/
def State.anchorHeard (s : State) (z : ZoneId) (e : Nat) : State :=
  match s.ctx z with
  | some c =>
    if c.stage = .searching ∧ c.anchor = .chain e then
      if s.fill z = 0 then s.setCtx z (some { c with anchor := .bucket, d := 0 })
      else (s.closeZoneClaim z .ended).ctxWait z
    else s
  | none => s

/-- A pending audit target heard out of the chain is missed (R102). That it is missed also when an AUDIT claim has compared it at
position 0 without a decision (R98) and no claim is current any more is the model's choice (log entry 52). -/
def State.auditHeard (s : State) (z : ZoneId) (e : Nat) : State :=
  if (s.lu.audit.get z).target = some e then s.missAudit z else s

/-- What ZC does at a hear that empties the chain: the end of the program, or STARVED when no mark is pending (R40,
R41). -/
def State.ranDry (s : State) (z : ZoneId) : State :=
  let r := s.zone z
  if r.supply = .ended then s.endOfProgram z
  else if r.play = .playing ∧ r.pendingAny = false then
    (s.modZone z fun r => { r with play := .starved }).zoneNotice z .dry
  else s

/-- Hear the head block of zone `z` (R29). -/
def State.hearZone (s : State) (z : ZoneId) : State :=
  if s.fill z = 0 then s
  else
    let r := s.zone z
    let e := (s.info (s.bs.chain.get z).head).expected.getD 0
    let keep := !r.stopPending && decide (r.supply ≠ .ended)
    let s1 := (s.modBs fun st => st.hear z keep).modZone z fun r => { r with offset := 0 }
    let s2 := ((s1.auditHeard z e).anchorHeard z e).newHead z
    if s2.fill z = 0 then s2.ranDry z else s2

/-! ## Cut (R30) -/

/-- A cut from position 1 releases the block that holds the rest of a decided SHORT run that reaches past the head block
(R125); `offset` is the head frame offset. -/
def Channel.cutRun (c : Channel) (offset : Nat) : Channel :=
  match c.run with
  | .short g0 g1 len k _ => if 480 < offset + (len - k + 1) then { c with run := .short g0 g1 len k true } else c
  | .none => c
  | .long _ => c

/-- The position a cut at expected address `e` is performed from, when it releases anything: never position 0, which is
also taken for a block that has been heard (R30). -/
def State.cutPos (s : State) (z : ZoneId) (e : Nat) : Option Nat :=
  let p := match s.headAddr z with
    | some h => if e ≤ h then 1 else e - h
    | none => 0
  if p = 0 ∨ s.fill z ≤ p then none else some p

/-- Cut the chain of zone `z` from expected address `e`. RU removes the entries from the first released block on, LU
drops an audit target at or above it, and drops the link-up context unless the zone's own attempt asked for the cut
(`own`) (R30, R79, R102, R115, R125). -/
def State.cutZone (s : State) (z : ZoneId) (e : Nat) (own : Bool) : State :=
  match s.cutPos z e with
  | none => s
  | some p =>
    let first := (s.headAddr z).getD 0 + p
    let s1 := (s.modBs fun st => st.cut z p).modZone z fun r => { r with nextRead := some first }
    let s2 := s1.dropEntriesFrom z first
    let s3 := s2.modAudit z fun u =>
      match u.target with
      | some t => if first ≤ t then { u with target := none } else u
      | none => u
    let s4 := if own then s3 else s3.setCtx z none
    if p = 1 then
      s4.modOc z fun c =>
        { c with
          left := c.left.cutRun (s.zone z).offset, right := c.right.cutRun (s.zone z).offset, cutAt := some first }
    else s4

/-! ## Stop, seek and pause taking effect (R50, R53) -/

/-- The stop of zone `z` takes effect (R53, R96). -/
def State.stopEffect (s : State) (z : ZoneId) : State :=
  let s1 := (s.writeResume z (s.unheard z)).flushZone z
  let s2 := s1.modZone z fun r =>
    { r with
      play := .stopped, nextRead := none, resume := none, track := 0, offset := 0, pausePending := false,
      stopPending := false, seekPending := none }
  s2.modAudit z fun u => { u with misses := 0, unverified := false }

/-- The seek of zone `z` to `t` takes effect (R50, R120). -/
def State.seekEffect (s : State) (z : ZoneId) (t : SeekTarget) : State :=
  let s1 := (s.flushZone z).modZone z fun r =>
    { r with
      nextRead := some t.addr, offset := 0, resume := some ⟨t.addr, 0⟩, track := t.track,
      play := if r.pausePending = true ∨ r.play = .paused then .paused else .priming,
      pausePending := false, seekPending := none }
  (s1.modOc z fun c => { c with fresh := true }).testReady z

/-- The pending action of zone `z` takes effect: a stop before a seek, a seek before a pause (R50). -/
def State.pendingEffect (s : State) (z : ZoneId) : State :=
  let r := s.zone z
  if r.stopPending then s.stopEffect z
  else
    match r.seekPending with
    | some t => s.seekEffect z t
    | none =>
      if r.pausePending then s.modZone z fun r => { r with play := .paused, pausePending := false } else s

/-- A pending action takes effect at acceptance when the zone is not audible (R48, R50, R52, R53). -/
def State.effectIfSilent (s : State) (z : ZoneId) : State := if s.audible z then s else s.pendingEffect z

/-- Stop zone `z`, as an accepted STOP does (R53); a stop already pending is not changed. -/
def State.beginStop (s : State) (z : ZoneId) : State :=
  if (s.zone z).stopPending then s
  else
    let s1 := (s.closeZoneClaim z .cancelled).putSupply z .idle
    let s2 := s1.modZone z fun r => { r with stopPending := true, pausePending := false, seekPending := none }
    s2.effectIfSilent z

end Sys2Proof.Machine
end

