-- ==== Sys2Proof/Machine/RereadUnit.lean ====
section
/-! DEFINITION. The Re-read Unit: listing, naming an entry, the two merges and what follows an attempt (chapter 6). -/

namespace Sys2Proof.Machine

/-! ## Listing (R105, R107) -/

/-- Place an entry in ascending address order (R103, R105). -/
def placeEntry (e : Entry) : List Entry → List Entry
  | [] => [e]
  | x :: l => if e.addr < x.addr then e :: x :: l else x :: placeEntry e l

/-- The tests of R105 for the block with record `r` at position `p` of zone `z`. -/
def State.listable (s : State) (z : ZoneId) (p : Nat) (r : BlockRec) : Bool :=
  isBad s.params.patchLimit r && decide (s.params.rereadMargin ≤ p) && !r.listed &&
    decide ((s.ru.lists.get z).length < 16) && decide (r.readCount < s.cap z (r.expected.getD 0))

/-- List the block at position `p` of zone `z` if the tests of R105 hold. -/
def State.listBlock (s : State) (z : ZoneId) (p : Nat) : State :=
  let b := s.bucketAt z p
  let r := s.info b
  if s.listable z p r then
    (s.modBs fun st => st.modInfo b fun r => { r with listed := true }).modList z
      (placeEntry ⟨r.expected.getD 0, r.readCount⟩)
  else s

/-- RU classes again the block at position `p` of zone `z` after a verify-merge (R107). -/
def State.reclass (s : State) (z : ZoneId) (p : Nat) : State :=
  let r := s.info (s.bucketAt z p)
  if r.listed then
    if isBad s.params.patchLimit r then s else s.dropEntry z (r.expected.getD 0)
  else s.listBlock z p

/-! ## The merges (R86, R110, R111) -/

/-- Fill the erased samples of a chain block from a copy; every other sample is left as it is (R86, R110). -/
def fillSamples : List Sample → List Bool → List Sample → List Bool → List Sample × List Bool
  | v :: vs, f :: fs, w :: ws, g :: gs =>
    let (rs, hs) := fillSamples vs fs ws gs
    if f && !g then (w :: rs, false :: hs) else (v :: rs, f :: hs)
  | vs, fs, _, _ => (vs, fs)

/-- The number of fill positions (R110). -/
def fillCount : List Bool → List Bool → Nat
  | f :: fs, g :: gs => (if f && !g then 1 else 0) + fillCount fs gs
  | _, _ => 0

/-- The number of disagreements (R110). -/
def disagreements : List Sample → List Bool → List Sample → List Bool → Nat
  | v :: vs, f :: fs, w :: ws, g :: gs =>
    (if !f && !g && decide (v ≠ w) then 1 else 0) + disagreements vs fs ws gs
  | _, _, _, _ => 0

/-- The decoder status after a merge that wrote a sample and left `n` erasures (R111). -/
def mergedStatus (d : DecoderStatus) (n : Nat) : DecoderStatus :=
  match d with
  | .clean => .clean
  | .corrected => .corrected
  | .flagged => if n = 0 then .corrected else .flagged
  | .lost => if n = 0 then .corrected else .flagged

/-- The chain block after a merge of a copy: its samples filled and its record amended when a sample was written (R86,
R110, R111). -/
def mergeBlock (chain copy : Bucket) : Bucket :=
  if fillCount chain.flags copy.flags = 0 then chain
  else
    let (vs, fs) := fillSamples chain.samples chain.flags copy.samples copy.flags
    let n := erasureCount fs
    ⟨{ chain.info with
        erasures := n, featureless := isFeatureless vs fs, decoder := mergedStatus chain.info.decoder n }, vs, fs⟩

/-- Discard the intake bucket (R26). -/
def State.discard (s : State) : State := s.modBs Store.discard

/-- Merge the intake bucket into bucket `b` and release it (R28). -/
def State.mergeInto (s : State) (b : Nat) : State :=
  (s.modBs fun st => st.setBucket b (mergeBlock (st.bucket b) (st.bucket st.intake))).discard

/-! ## After an attempt (R112, R113) -/

/-- A counted attempt on the entry of zone `z` at address `a`: both counts rise, and the entry is recovered, exhausted or
kept (R112, R113). -/
def State.countAttempt (s : State) (z : ZoneId) (a : Nat) : State :=
  match s.posOf z a with
  | none => s
  | some p =>
    let b := s.bucketAt z p
    let s1 := (s.modBs fun st => st.modInfo b fun r => { r with readCount := r.readCount + 1 }).modList z fun l =>
      l.map fun e => if e.addr = a then { e with reads := e.reads + 1 } else e
    let r := s1.info b
    if !isBad s.params.patchLimit r then s1.dropEntry z a
    else if s.cap z a ≤ r.readCount then s1.exhaustEntry z a
    else s1

/-! ## Naming an entry (R108) -/

/-- RU names an entry of zone `z`, from the lowest address up: an entry at or above its cap leaves as exhausted, and the
first below its cap is named (R108). -/
def nameEntry (z : ZoneId) : List Entry → State → State × Option Entry
  | [], s => (s, none)
  | e :: l, s => if s.cap z e.addr ≤ e.reads then nameEntry z l (s.exhaustEntry z e.addr) else (s, some e)

/-! ## The blocks of a RE-READ claim (R109, R110, R114, R115) -/

/-- The merge of a copy taken for the target `a` of zone `z` (R28, R110, R112, R114, R115). -/
def State.mergeCopy (s : State) (z : ZoneId) (a : Nat) : State :=
  match s.posOf z a with
  | none => s.discard.dropEntry z a
  | some 0 =>
    let r := s.info (s.bucketAt z 0)
    s.discard.rereadAtHead z a r
  | some (p + 1) =>
    let b := s.bucketAt z (p + 1)
    let chain := s.bs.bucket b
    let copy := s.bs.bucket s.bs.intake
    if 8 < disagreements chain.samples chain.flags copy.samples copy.flags then s.discard.countAttempt z a
    else (s.mergeInto b).countAttempt z a

/-- A block routed to RU under a RE-READ claim for target `a` of zone `z`; `prev` is its preceding GOOD stamp (R109). -/
def State.rereadBlock (s : State) (z : ZoneId) (a : Nat) (prev : Option Nat) : State :=
  let r := s.info s.bs.intake
  let s1 := s.modRu fun u => { u with left := u.left - 1 }
  match stampLocate a r.stampStatus r.stamp prev with
  | .taken => (s1.mergeCopy z a).closeClaim .ended
  | .overshoot => (s1.discard.countAttempt z a).closeClaim .ended
  | .notTaken => if s1.ru.left = 0 then (s1.discard.countAttempt z a).closeClaim .ended else s1.discard

end Sys2Proof.Machine
end

