-- ==== Sys2Proof/Machine/LinkUpUnit.lean ====
section
/-! DEFINITION. The Link-up Unit: contexts, attempts, verification and completion, commits to a chain, and audits
(chapter 5). -/

namespace Sys2Proof.Machine

/-! ## Contexts (R80) -/

/-- A fresh link-up context for zone `z` (R80). -/
def State.freshCtx (s : State) (z : ZoneId) : LinkCtx where
  stage      := .waiting
  mode       := if (s.zone z).resume.isSome then .locate else .anchor
  anchor     := .none
  d          := 0
  verify     := none
  failed     := 0
  backoff    := s.params.luBackoff
  windowLeft := s.params.luWindow
  window     := s.params.luWindow

/-- Give zone `z` a fresh context (R80). -/
def State.makeCtx (s : State) (z : ZoneId) : State := s.setCtx z (some (s.freshCtx z))

/-- Give zone `z` a fresh context if it has none (R80). DA asks so for a LINK-UP grant too, for a REJOINING zone that has lost its
context, which R80 does not list (log entry 49). -/
def State.ensureCtx (s : State) (z : ZoneId) : State :=
  match s.ctx z with
  | some _ => s
  | none => s.makeCtx z

/-- Zone `z` enters REJOINING with a fresh context (R80, R91, R101). -/
def State.rejoin (s : State) (z : ZoneId) (c : ZoneCause) : State := (s.setSupply z .rejoining c).makeCtx z

/-! ## The start of an attempt (R81) -/

/-- The anchor an attempt chooses, with the number of chain blocks after it (R81). -/
def State.chooseAnchor (s : State) (z : ZoneId) : Option (AnchorRef × Nat) :=
  if s.fill z = 0 then
    let b := s.bs.anchor.get z
    if b ≠ 0 ∧ qualifies (s.info b) = true then some (.bucket, 0) else none
  else
    let newest := ((s.bs.chainOf z).reverse.take 16).zipIdx
    (newest.find? fun (b, d) =>
      decide (d = 0 ∨ d + 1 ≠ s.fill z) && qualifies (s.info b)).map fun (b, d) =>
        (.chain ((s.info b).expected.getD 0), d)

/-- What an attempt of zone `z` with context `c` begins from: the anchor, d and the current backoff (R81). -/
def State.attemptStart (s : State) (z : ZoneId) (c : LinkCtx) : Option (AnchorRef × Nat × Nat) :=
  match c.mode with
  | .locate => some (.none, 0, c.backoff)
  | .anchor => (s.chooseAnchor z).map fun (a, d) => (a, d, c.backoff + (d + 1))

/-- The seek address LU names to DA: the next read address less the current backoff, not below 0 (R66, R81). -/
def State.linkUpSeek (s : State) (z : ZoneId) (c : LinkCtx) : Option Nat :=
  (s.attemptStart z c).map fun (_, _, n) => s.nextAddr z - n

/-- The seek address LU would name at a grant, or the next read address less the attempt backoff when no block would
qualify (R67). -/
def State.reachStart (s : State) (z : ZoneId) (c : LinkCtx) : Nat :=
  (s.linkUpSeek z c).getD (s.nextAddr z - c.backoff)

/-- DA asks for the link-up start of zone `z` at its SEEK step: the attempt begins and the seek address is named, or, when
no block qualifies, there is none (R81). -/
def State.beginAttempt (s : State) (z : ZoneId) : Option (State × Nat) :=
  let c := (s.ctx z).getD (s.freshCtx z)
  (s.attemptStart z c).map fun (a, d, n) =>
    (s.setCtx z (some { c with stage := .searching, anchor := a, d := d, verify := none, windowLeft := c.window }),
      s.nextAddr z - n)

/-! ## Failure and interruption (R83, R90, R91) -/

/-- A link-up attempt of zone `z` has failed (R83). -/
def State.attemptFailed (s : State) (z : ZoneId) : State :=
  let s1 := s.closeZoneClaim z .ended
  match s1.ctx z with
  | none => s1
  | some c =>
    let c1 := { c.wait with failed := min 7 (c.failed + 1), backoff := min 64 (2 * c.backoff) }
    if s1.params.luAttempts ≤ c1.failed then (s1.setCtx z (some c1)).setSupply z .resync .attemptsExhausted
    else
      let s2 := s1.setCtx z (some c1)
      if (s2.zone z).supply = .feeding then s2.setSupply z .rejoining .entryFailed else s2

/-- LU takes a loss of tracking during a LINK-UP or REFILL claim of zone `z` in phase `ph` (R72, R90, R91). -/
def State.linkTrackLost (s : State) (z : ZoneId) (ph : Phase) : State :=
  match ph with
  | .joining =>
    let s1 := (s.ctxWait z).markDefect z .skipProne (s.nextAddr z)
    if (s1.zone z).supply = .feeding then s1.setSupply z .rejoining .trackLost else s1
  | .appending =>
    if (s.zone z).supply = .feeding then (s.markDefect z .skipProne (s.nextAddr z)).rejoin z .trackLost else s

/-! ## Audit targets (R96, R97) -/

/-- The newest block of zone `z` that an audit may be made of (R97). -/
def State.auditCandidate (s : State) (z : ZoneId) (start : Nat) : Option Nat :=
  let blocks := (s.bs.chainOf z).drop 1
  let ok := blocks.filter fun b =>
    let r := s.info b
    decide (start ≤ r.expected.getD 0) && !r.confirmed && !r.featureless && decide (r.erasures ≤ 720)
  (ok.getLast?).bind fun b => (s.info b).expected

/-- LU counts an append at address `e` to zone `z` and, at the audit interval, looks for a target (R96, R97). -/
def State.countAppend (s : State) (z : ZoneId) (e : Nat) : State :=
  let u := s.lu.audit.get z
  let start := if u.commits = 0 then some e else u.start
  let n := u.commits + 1
  if s.params.auditInterval ≤ n then
    let target := match u.target with
      | some t => some t
      | none => s.auditCandidate z (start.getD 0)
    s.modAudit z fun x => { x with commits := 0, start := none, target := target }
  else s.modAudit z fun x => { x with commits := n, start := start }

/-! ## Commit by append (R17, R27, R68, R69) -/

/-- Count a commit of the current LINK-UP or REFILL claim, up to 4,095 (R68). -/
def State.countCommit (s : State) (z : ZoneId) : State :=
  match s.liveClaim with
  | some c =>
    if c.zone = some z ∧ (c.kind = .linkUp ∨ c.kind = .refill) then
      s.modDa fun d => { d with claim := some { c with commits := min 4095 (c.commits + 1) } }
    else s
  | none => s

/-- The burst ends of R68: the burst limit, when no LOAD was issued, and room 0. -/
def State.burstTest (s : State) (z : ZoneId) : State :=
  match s.liveClaim with
  | some c =>
    if (c.swap = false ∧ s.params.burstLimit ≤ c.commits) ∨ s.room z = 0 then s.closeZoneClaim z .ended else s
  | none => s

/-- The other zone is pressing and zone `z` stands at or above its floor (R69). -/
def State.floorReached (s : State) (z : ZoneId) : Bool :=
  s.pressing z.other && decide (s.params.lowWater.get z + 200 ≤ s.fill z)

/-- The burst end of R69, made in the APPENDING phase. -/
def State.pressTest (s : State) (z : ZoneId) : State :=
  match s.liveClaim with
  | some c =>
    if (c.kind = .linkUp ∨ c.kind = .refill) ∧ c.zone = some z ∧ s.floorReached z = true then
      s.closeClaim .ended
    else s
  | none => s

/-- Commit the intake bucket to zone `z` at expected address `e` by append, with everything that follows an append: the
reports to ZC, RU, LU and DA. An append to a full chain is refused: the bucket is discarded and DA ends the burst
(R17, R27, R35, R44, R68, R96, R105). -/
def State.commit (s : State) (z : ZoneId) (e : Nat) : State :=
  if s.quota z ≤ s.fill z then s.discard.closeZoneClaim z .ended
  else
    let first := decide (s.fill z = 0)
    let s1 := (s.modBs fun st => st.append z e).modZone z fun r => { r with nextRead := some (e + 1), resume := none }
    let s2 := if first then s1.newHead z else s1
    let s3 := (s2.listBlock z (s2.fill z - 1)).countAppend z e
    ((s3.countCommit z).burstTest z).testReady z

/-! ## Completion (R88, R89) -/

/-- The join of zone `z` is complete: the phase becomes APPENDING, the context is dropped, and a REJOINING zone becomes
FEEDING (R88). -/
def State.completeJoin (s : State) (z : ZoneId) : State :=
  let s1 := (s.modBi fun b => { b with tag := b.tag.map fun t => { t with phase := some .appending } }).setCtx z none
  if (s1.zone z).supply = .rejoining then s1.setSupply z .feeding .linked else s1

/-- A block beyond the program end of zone `z`: it is discarded, the claim ends, and the supply becomes ENDED (R15). -/
def State.beyondEnd (s : State) (z : ZoneId) : State :=
  let s1 := s.closeZoneClaim z .ended
  if (s1.zone z).supply = .feeding then s1.setSupply z .ended .programEnd else s1

/-- The block that completes a link-up of zone `z` in ANCHOR mode (R88). -/
def State.completeBlock (s : State) (z : ZoneId) : State :=
  let r := s.info s.bs.intake
  let e := s.nextAddr z
  if s.programEnd z < e then (s.discard.completeJoin z).beyondEnd z
  else if r.stampStatus = .good ∧ r.stamp ≠ some e then
    (s.discard.markDefect z .skipProne e).attemptFailed z
  else (s.commit z e).completeJoin z

/-! ## Searching and verifying (R82, R84 to R87) -/

/-- Verify-merge the intake bucket into the block at position `p` of zone `z`, whose expected address is `e`, and let RU
class it again (R86, R107). -/
def State.verifyMerge (s : State) (z : ZoneId) (p e : Nat) : State :=
  let b := s.bucketAt z p
  let r := s.info s.bs.intake
  let s1 := s.mergeInto b
  let s2 :=
    if r.stampStatus = .good ∧ r.stamp = some e then
      s1.modBs fun st => st.modInfo b fun x => { x with confirmed := true }
    else s1
  s2.reclass z p

/-- Verify-merge into the block at expected address `e` when it stands at position 1 or more; otherwise discard (R28,
R84, R86). -/
def State.verifyMergeAt (s : State) (z : ZoneId) (e : Nat) : State :=
  match s.posOf z e with
  | some (p + 1) => s.verifyMerge z (p + 1) e
  | some 0 => s.discard
  | none => s.discard

/-- The bucket an anchor names. -/
def State.anchorBucket (s : State) (z : ZoneId) : AnchorRef → Nat
  | .none => 0
  | .bucket => s.bs.anchor.get z
  | .chain a =>
    match s.posOf z a with
    | some p => s.bucketAt z p
    | none => 0

/-- The anchor of zone `z` has matched: its copy is merged or discarded, and verification begins behind it (R84). -/
def State.anchorMatched (s : State) (z : ZoneId) (c : LinkCtx) : State :=
  let a := ((s.info (s.anchorBucket z c.anchor)).expected).getD 0
  let s1 := match c.anchor with
    | .chain _ => s.verifyMergeAt z a
    | .bucket => s.discard
    | .none => s.discard
  s1.setCtx z (some { c with stage := .verifying, verify := some (a + 1) })

/-- The start that a link-up in LOCATE mode must find: the zone's resume point address (R79, R81). -/
def State.resumeAddr (s : State) (z : ZoneId) : Nat :=
  match (s.zone z).resume with
  | some p => p.addr
  | none => 0

/-- The preceding GOOD stamp that counts in the search for the start `x` (R77, R82, R89). Where the block's own stamp is GOOD, and so
another than `x` when it matters, the block would be committed with a GOOD stamp that is not its address, which R18 excludes; the
rules leave open which of them gives way there, and a free value decides (log entry 47). -/
def startPreceding (x : Nat) (status : StampStatus) (stamp prev : Option Nat) : Option Nat :=
  match status, stamp with
  | .good, some v => if Config.startDespiteStamp x v then prev else none
  | _, _ => prev

/-- A block routed to LU in the SEARCHING stage of zone `z`; `prev` is its preceding GOOD stamp (R18, R77, R82, R89). -/
def State.searchBlock (s : State) (z : ZoneId) (c : LinkCtx) (prev : Option Nat) : State :=
  let r := s.info s.bs.intake
  let c1 := { c with windowLeft := c.windowLeft - 1 }
  let s1 := s.setCtx z (some c1)
  let found := match c.mode with
    | .locate =>
      let x := s.resumeAddr z
      stampLocate x r.stampStatus r.stamp (startPreceding x r.stampStatus r.stamp prev)
    | .anchor =>
      if s.anchorBucket z c.anchor = 0 then .notTaken
      else anchorMatch (s.bs.bucket (s.anchorBucket z c.anchor)) (s.bs.bucket s.bs.intake)
  match found with
  | .taken =>
    match c.mode with
    | .locate => (s1.commit z (s.nextAddr z)).completeJoin z
    | .anchor => s1.anchorMatched z c1
  | .overshoot => s1.discard.attemptFailed z
  | .notTaken => if c1.windowLeft = 0 then s1.discard.attemptFailed z else s1.discard

/-- The block at the verify address stands at position 0 or has been heard (R85). -/
def State.heardUpTo (s : State) (z : ZoneId) (e : Nat) : Bool :=
  match s.headAddr z with
  | some h => decide (e ≤ h)
  | none => true

/-- A block routed to LU in the VERIFYING stage of zone `z`: it completes the link-up when no verification remains, and
is otherwise tested against the chain block at the verify address `e` (R85, R87, R88). -/
def State.verifyBlock (s : State) (z : ZoneId) (c : LinkCtx) : State :=
  let r := s.info s.bs.intake
  let e := c.verify.getD 0
  let on := some { c with verify := some (e + 1) }
  if s.nextAddr z ≤ e then s.completeBlock z
  else if s.heardUpTo z e then s.discard.setCtx z on
  else if r.stampStatus = .good ∧ r.stamp = some e then (s.verifyMergeAt z e).setCtx z on
  else if r.stampStatus = .good then (s.discard.markDefect z .skipProne e).attemptFailed z
  else if agrees (dataCompare (s.bs.bucket (s.anchorBucket z (.chain e))) (s.bs.bucket s.bs.intake)) then
    (s.verifyMergeAt z e).setCtx z on
  else
    let s1 := s.cutZone z e true
    if s1.nextAddr z = e then s1.completeBlock z
    else s1.discard.setCtx z (some { c with verify := some (s1.nextAddr z) })

/-- A block routed to LU in the JOINING phase of a claim of zone `z` (R14, R82, R84). -/
def State.joinBlock (s : State) (z : ZoneId) (prev : Option Nat) : State :=
  match s.ctx z with
  | none => s.discard
  | some c =>
    match c.stage with
    | .searching => s.searchBlock z c prev
    | .verifying => s.verifyBlock z c
    | .waiting => s.discard

/-! ## Audits (R98 to R102) -/

/-- What a failed audit of target `t` does to zone `z`'s supply; `atHead` tells that the target stood at position 0
(R101). -/
def State.auditFailedSupply (s : State) (z : ZoneId) (atHead : Bool) : State :=
  if (s.zone z).supply = .feeding ∨ (s.zone z).supply = .ended then
    if atHead then s.setSupply z .resync .noAnchor else s.rejoin z .auditFailed
  else s

/-- The audit of target `t` of zone `z` has failed (R100, R101). -/
def State.auditFails (s : State) (z : ZoneId) (t : Nat) : State :=
  let atHead := decide (s.headAddr z = some t)
  let s1 := (s.cutZone z t false).modAudit z fun u => { u with target := none, commits := 0 }
  let s2 := if atHead then s1.misstitchNotice z t else s1
  s2.auditFailedSupply z atHead

/-- The audit of zone `z` passes; `b` is the chain block at the target (R99). -/
def State.auditPasses (s : State) (z : ZoneId) (b : Nat) : State :=
  (s.modBs fun st => st.modInfo b fun r => { r with confirmed := true }).modAudit z fun u =>
    { u with target := none, misses := 0, unverified := false }

/-- The taken copy of target `t` is compared with the chain block in bucket `b`; the copy is discarded (R98 to R101). -/
def State.auditCompare (s : State) (z : ZoneId) (t b : Nat) : State :=
  let ce := dataCompare (s.bs.bucket b) (s.bs.bucket s.bs.intake)
  let s1 := s.discard.closeClaim .ended
  if ce.1 < 240 then s1 else if agrees ce then s1.auditPasses z b else s1.auditFails z t

/-- A block routed to LU under an AUDIT claim for target `t` of zone `z` (R98). A claim whose target has left the chain by being
heard ends here, at the next block it reads (log entry 48). -/
def State.auditBlock (s : State) (z : ZoneId) (t : Nat) (prev : Option Nat) : State :=
  let r := s.info s.bs.intake
  match s.posOf z t with
  | none =>
    (s.discard.closeClaim .ended).modAudit z fun u => if u.target = some t then { u with target := none } else u
  | some p =>
    let s1 := s.modLu fun u => { u with auditLeft := u.auditLeft - 1 }
    match stampLocate t r.stampStatus r.stamp prev with
    | .taken => s1.auditCompare z t (s.bucketAt z p)
    | .overshoot => s1.discard.closeClaim .ended
    | .notTaken => if s1.lu.auditLeft = 0 then s1.discard.closeClaim .ended else s1.discard

end Sys2Proof.Machine
end

