-- ==== Sys2Proof/Machine/LoaderOps.lean ====
section
/-! DEFINITION. Identification outcomes, the magazine's states, the drive FAULT, claims that fail to start, removal, and
the beginning of the two service sequences (chapters 4, 8, 9 and 10). -/

namespace Sys2Proof.Machine

/-! ## Identification outcomes (R142, R156) -/

/-- A zone whose selected record `i` has been found again (R156, step 2). -/
def State.discFound (s : State) (z : ZoneId) (i : Nat) : State :=
  if s.references z i = true ∧ ((s.zone z).supply = .absent ∨ (s.zone z).supply = .lost) then
    if s.params.autoResume = 0 then s.setSupply z .resync .discFound else s.rejoin z .discFound
  else s

/-- An ABSENT zone whose disc the scan has not found (R156, step 3). -/
def State.discNotFound (s : State) (z : ZoneId) : State :=
  if (s.zone z).supply = .absent then s.setSupply z .lost .discNotFound else s

/-- LM removes the head of the identification queue (R156, step 1). -/
def Loader.nextSlot (l : Loader) : Loader := { l with queue := l.queue.tail, slotTimer := .zero, failedStarts := 0 }

/-- The queue has emptied: ABSENT zones become LOST, and SCAN-DONE is placed (R156, step 3). That zone A is moved, and its notice
placed, before zone B's is the model's choice (log entry 13). -/
def State.scanDone (s : State) : State :=
  if s.lm.queue = [] then ((s.discNotFound .a).discNotFound .b).magNotice .scanDone else s

/-- A slot's identification ends with an outcome; `rec` is the record of MATCHED and NEW, and `found` tells that a MATCHED
record has become PRESENT now (R140, R142, R156). -/
def State.identOutcome (s : State) (slot : Nat) (o : IdentOutcome) (rec : Option Nat) (found : Bool) : State :=
  let s1 := ((s.modDd fun d => { d with ident := none }).identNotice slot o rec).modLm Loader.nextSlot
  let s2 := match rec with
    | some i => if found then (s1.discFound .a i).discFound .b i else s1
    | none => s1
  s2.scanDone

/-- A readable directory for `slot` (R138, R140, R141). -/
def State.readableDisc (s : State) (slot : Nat) (info : DiscInfo) : State :=
  match s.dd.find info.print with
  | some i =>
    match s.record i with
    | some r =>
      if r.state = .departed then
        (s.modDd fun d =>
          (d.modRecord i fun r => { r with state := .present, slot := some slot, lastSlot := some slot }).refresh
            i).identOutcome slot .matched (some i) true
      else s.identOutcome slot .matched (some i) false
    | none => s
  | none =>
    match s.recordForNew with
    | some i =>
      (s.modDd fun d => (d.modRecord i fun _ => newRecord slot info).refresh i).identOutcome slot .new (some i) false
    | none => s.identOutcome slot .unreadable none false

/-- DD takes a verdict of BI for the slot being identified (R139). -/
def State.verdict (s : State) (info : Option DiscInfo) : State :=
  match s.dd.ident with
  | none => s
  | some x =>
    let s1 := s.modDd fun d => { d with ident := some ⟨x.slot, x.verdicts + 1⟩ }
    match info with
    | some i => (s1.closeClaim .ended).readableDisc x.slot i
    | none =>
      if 32 ≤ x.verdicts + 1 then (s1.closeClaim .ended).identOutcome x.slot .unreadable none false else s1

/-! ## The magazine (R153, R154, R159) -/

/-- The slots of the magazine (R154). -/
def magazineSlots (straps : Straps) : List Nat := if straps.singleSlot then [1] else [1, 2, 3, 4, 5, 6]

/-- The last slot of a zone's selected record, when that record is DEPARTED (R154). -/
def State.soughtSlot (s : State) (z : ZoneId) : List Nat :=
  match s.selRec z with
  | some r => if r.state = .departed then r.lastSlot.toList else []
  | none => []

/-- The identification queue as LM builds it (R154). -/
def State.identQueue (s : State) : List Nat :=
  let all := magazineSlots s.straps
  let first := ((s.soughtSlot .a ++ s.soughtSlot .b).eraseDups).filter fun n => all.contains n
  first ++ all.filter fun n => !first.contains n

/-- The magazine is counted as seated: a MAGAZINE notice INSERTED, and the identification queue is built (R153, R154). -/
def State.inserted (s : State) : State :=
  let s1 := (s.modLm fun l => { l with magazine := .present, debounce := .stopped }).magNotice .inserted
  s1.modLm fun l => { l with queue := s.identQueue, slotTimer := .zero, failedStarts := 0 }

/-- The eject sequence fails or runs out of time: the magazine is PRESENT again, and when the eject was taken in SETTLING
it is then counted as seated (R159). -/
def State.ejectOver (s : State) (c : MagCause) : State :=
  let s1 := (s.modLm fun l =>
    { l with magazine := .present, ejectStage := .none, latchTimer := .stopped, fromSettling := false }).magNotice c
  if s.lm.fromSettling then s1.inserted else s1

/-! ## The drive FAULT (R61, R163) -/

/-- A zone whose supply is FEEDING or REJOINING becomes FAULT (R42, R61). -/
def State.zoneFault (s : State) (z : ZoneId) : State :=
  if (s.zone z).supply = .feeding ∨ (s.zone z).supply = .rejoining then s.setSupply z .fault .driveFault else s

/-- RU empties the list of zone `z`, whose blocks stay in the chain (R61, R103, R115). -/
def State.emptyList (s : State) (z : ZoneId) : State :=
  (s.ru.lists.get z).foldl (fun (t : State) (e : Entry) => t.dropEntry z e.addr) s

/-- LU cancels zone `z`'s pending audit without counting a miss and drops its context (R61, R79, R102). -/
def State.dropLink (s : State) (z : ZoneId) : State :=
  (s.setCtx z none).modAudit z fun u => { u with target := none }

/-- LM hears of the drive FAULT: an eject sequence that uses the drive ends, and then a slot that has been granted ends
with outcome FAULT (R159, R163). -/
def State.loaderFault (s : State) : State :=
  let s1 := match s.lm.ejectStage with
    | .unloading => s.ejectOver .ejectFailed
    | .unlatching => s.ejectOver .ejectFailed
    | .none => s
    | .waitingHold => s
    | .latchWait => s
  match s1.lm.queue with
  | [] => s1
  | slot :: _ => if s1.lm.slotTimer = .zero then s1 else s1.identOutcome slot .fault none false

/-- A parking sequence ends in a drive FAULT with the drive-done mark set (R166). R166 names a FAULT at the entry to PARKING and one
during the sequence; that a sequence asked for, which still waits for an eject sequence when that sequence's UNLOAD or LATCH-OPEN
brings the FAULT, ends at once in the same way is the model's choice (log entry 56). -/
def State.parkFault (s : State) : State :=
  if s.da.parkStage = .none then s
  else (s.modDa fun d => { d with parkStage := .none }).modPc fun p => { p with driveDone := true }

/-- The drive enters FAULT on a failure of command `cmd` with cause `c` (R61, R139, R163). A removal that waited for that command
takes no effect on the drive, which stays in FAULT (log entry 50). -/
def State.enterFault (s : State) (cmd : ServoName) (c : FaultCause) : State :=
  let s1 := s.modDa fun d =>
    { d with
      state := .fault, slot := .unknown, speed := .unknown, out := none, idleTimer := .stopped,
      blockTimer := .stopped, removalDue := false, startDue := false }
  let s2 := (s1.closeClaim .cancelled).dropClaim
  let s3 := (((s2.zoneFault .a).zoneFault .b).emptyList .a).emptyList .b
  let s4 := ((s3.dropLink .a).dropLink .b).loaderFault.parkFault
  (s4.modDd fun d => { d with ident := none }).faultNotice cmd c

/-! ## A claim fails to start (R60, R155) -/

/-- The owner of a claim that fails to start receives the failure; `empty` tells that LOAD failed with NO-DISC (R60, R83,
R112, R115, R155). -/
def State.ownerFailure (s : State) (c : Claim) (empty : Bool) : State :=
  match c.kind, c.zone with
  | .linkUp, some z => s.attemptFailed z
  | .refill, some z => s.attemptFailed z
  | .reread, some z => if empty then s.dropEntry z (c.target.getD 0) else s.countAttempt z (c.target.getD 0)
  | .audit, some z => if empty then s.modAudit z fun u => { u with target := none } else s
  | .ident, _ =>
    let slot := c.slot.getD 0
    if empty then s.identOutcome slot .empty none false
    else
      let s1 := s.modLm fun l => { l with failedStarts := min 3 (l.failedStarts + 1) }
      if 3 ≤ s1.lm.failedStarts then s1.identOutcome slot .unreadable none false else s1
  | _, _ => s

/-- The current claim fails to start: it ends, and its owner receives the failure. A claim that was ended or cancelled
while its command was outstanding is gone, and nobody is told (R60, R71). -/
def State.failStart (s : State) (empty : Bool) : State :=
  match s.liveClaim with
  | some c => (s.closeClaim .ended).ownerFailure c empty
  | none => s.dropClaim

/-! ## Removal (R71, R160, R161) -/

/-- A zone whose disc has left (R161, step 3). -/
def State.zoneOut (s : State) (z : ZoneId) : State :=
  if (s.zone z).supply = .feeding ∨ (s.zone z).supply = .rejoining ∨ (s.zone z).supply = .resync then
    s.setSupply z .absent .magazineOut
  else s

/-- The removal effects of R161, in their order, for a magazine that has become ABSENT. -/
def State.removalEffects (s : State) (c : MagCause) : State :=
  let s1 := (s.closeClaim .cancelled).magNotice c
  let s2 := ((s1.zoneOut .a).zoneOut .b).modDd Directory.departAll
  let s3 := s2.modLm fun l => { l with queue := [], slotTimer := .zero, failedStarts := 0 }
  (s3.modAudit .a fun u => { u with target := none }).modAudit .b fun u => { u with target := none }

/-- A removal makes the drive DOWN with the loaded slot and the speed UNKNOWN, once no command is outstanding; not while
the drive is HELD or FAULT (R71, R160). -/
def Drive.removed (d : Drive) : Drive :=
  if d.state = .held ∨ d.state = .fault then d else { d with removalDue := true }

/-- LM takes the magazine to ABSENT (R160). -/
def State.magazineGone (s : State) : State :=
  s.modLm fun l =>
    { l with
      magazine := .absent, debounce := .stopped, ejectStage := .none, fromSettling := false, latchTimer := .stopped }

/-! ## The service sequences begin (R158, R166) -/

/-- The eject sequence begins: the current claim is cancelled and the idle timer stops (R63, R73, R158). -/
def State.beginEject (s : State) : State :=
  ((s.closeClaim .cancelled).modLm fun l => { l with ejectStage := .unloading }).modDa fun d =>
    { d with idleTimer := .stopped }

/-- An eject is taken: the magazine state becomes EJECTING and the debounce timer stops (R157). -/
def State.takeEject (s : State) : State :=
  s.modLm fun l =>
    { l with
      magazine := .ejecting, debounce := .stopped, fromSettling := decide (l.magazine = .settling) }

/-- The next step of an eject that has been taken, by the hold state: the hold is revoked or its grace runs on, or the
eject sequence begins at once (R157). -/
def State.ejectOrWait (s : State) : State :=
  match s.da.hold with
  | .granted => (s.modLm fun l => { l with ejectStage := .waitingHold }).revokeHold
  | .revoking => s.modLm fun l => { l with ejectStage := .waitingHold }
  | .none => s.beginEject
  | .queued => s.beginEject
  | .lapsed => s.beginEject

/-- The conditions under which an eject is taken (R157). -/
def State.canEject (s : State) : Bool :=
  (decide (s.lm.magazine = .present) || decide (s.lm.magazine = .settling)) && decide (s.da.state ≠ .fault) &&
    decide (s.pc.state = .active)

/-- A zone's part in the entry to PARKING: its resume point is written, and its pending marks are cleared (R165). -/
def State.parkZone (s : State) (z : ZoneId) : State :=
  let r := s.zone z
  if r.play = .stopped then s
  else
    let point := match r.seekPending with
      | some t => some ⟨t.addr, 0⟩
      | none => s.unheard z
    (s.writeResume z point).modZone z fun r =>
      { r with pausePending := false, stopPending := false, seekPending := none }

/-- All four gains stand at 0 (R134). -/
def State.allSilent (s : State) : Bool := !s.audible .a && !s.audible .b

/-- The concealers report silence when all four gains stand at 0 after the order of silence (R134, R165). -/
def State.reportSilence (s : State) : State :=
  if s.pc.silence = true ∧ s.allSilent = true then s.modPc fun p => { p with silenceDone := true } else s

/-- DA is asked for the parking sequence: in FAULT it is done at once; a hold is ended or withdrawn; an eject sequence
under way is waited for (R76, R166). -/
def State.askParking (s : State) : State :=
  if s.da.state = .fault then
    (s.modDa fun d => { d with hold := if d.hold = .queued then .none else d.hold }).modPc fun p =>
      { p with driveDone := true }
  else
    let s1 := match s.da.hold with
      | .granted => s.lapseHold
      | .revoking => s.lapseHold
      | .queued => s.modDa fun d => { d with hold := .none }
      | .none => s
      | .lapsed => s
    s1.modDa fun d => { d with parkStage := .waiting }

/-- Parking begins (R165); the window timer runs in ACTIVE only (R93). -/
def State.beginParking (s : State) : State :=
  let s1 := s.modPc fun p => { p with state := .parking, driveDone := false, silenceDone := false }
  let s2 := (s1.parkZone .a).parkZone .b
  let s3 := (s2.modPc fun p => { p with silence := true }).modSm fun m => { m with windowTimer := .stopped }
  s3.reportSilence.askParking

end Sys2Proof.Machine
end

