-- ==== Sys2Proof/Machine/Arbiter.lean ====
section
/-! DEFINITION. The Drive Arbiter's choice: arbitration, grants, the preparation of a claim, the service sequences, and
what every command ends with (`finish`): the revocation of a hold, the press test, and the next use of a free pickup
(chapter 4, R76, R158, R166). -/

namespace Sys2Proof.Machine

/-! ## The speed of a claim (R67) -/

/-- The reach and so the speed of a LINK-UP or REFILL claim of zone `z` on the disc in `slot` (R67). -/
def State.burstSpeed (s : State) (z : ZoneId) (slot : Nat) : Nat :=
  let c := (s.ctx z).getD (s.freshCtx z)
  let n := if s.da.slot = .slot slot then min (s.room z) s.params.burstLimit else s.room z
  limitSpeed s.params.refillSpeed s.sm.roughRoad (s.defects z) (s.reachStart z c) (s.nextAddr z + max 1 n - 1)

/-- The speed of a claim on one target, stepped down `reads` times (R67). -/
def State.targetSpeed (s : State) (z : ZoneId) (target reads : Nat) : Nat :=
  stepDown reads (limitSpeed s.params.refillSpeed s.sm.roughRoad (s.defects z) (target - 4) target)

/-- The speed of an IDENTIFICATION claim, to which no region applies (R67). -/
def State.identSpeed (s : State) : Nat := limitSpeed s.params.refillSpeed s.sm.roughRoad [] 0 0

/-! ## Grants (R64, R66, R75) -/

/-- A granted claim becomes current, and the idle timer stops (R63, R73). -/
def State.grant (s : State) (c : Claim) : State :=
  s.modDa fun d => { d with claim := some c, idleTimer := .stopped }

/-- Grant a LINK-UP or REFILL claim to zone `z` (R64, R66, R80); that a LINK-UP of a zone without a context is given a fresh one
is log entry 49. -/
def State.grantBurst (s : State) (k : ClaimKind) (z : ZoneId) : State :=
  let slot := (s.selSlot z).getD 0
  let s1 := s.ensureCtx z
  s1.grant ⟨k, some z, some slot, none, none, s1.burstSpeed z slot, false, 0, .live⟩

/-- Grant an IDENTIFICATION claim for `slot`; DD keeps or starts its context, and the slot timer runs (R139, R155). -/
def State.grantIdent (s : State) (slot : Nat) : State :=
  let s1 := s.modDd fun d =>
    match d.ident with
    | some x => if x.slot = slot then d else { d with ident := some ⟨slot, 0⟩ }
    | none => { d with ident := some ⟨slot, 0⟩ }
  (s1.modLm fun l => { l with slotTimer := .running }).grant
    ⟨.ident, none, some slot, none, none, s.identSpeed, false, 0, .live⟩

/-- Grant a RE-READ or AUDIT claim of zone `z` for `target` (R64, R98, R108). -/
def State.grantTarget (s : State) (k : ClaimKind) (z : ZoneId) (target reads : Nat) : State :=
  s.grant
    ⟨k, some z, some ((s.selSlot z).getD 0), some target, none, s.targetSpeed z target reads, false, 0, .live⟩

/-- Grant the hold (R75). A HOLD claim is not prepared, and the book gives its record no speed (R56); the 0 in it is the model's
choice, and nothing reads it (log entry 57). -/
def State.grantHold (s : State) : State :=
  let s1 := s.grant ⟨.hold, none, none, none, none, 0, false, 0, .live⟩
  (s1.modDa fun d => { d with state := .held, slot := .unknown, speed := .unknown, hold := .granted }).holdNotice 1

/-! ## Choosing (R64, R65) -/

/-- Of the zones that `p` admits, the one with the lower fill; with equal fills A (R64). -/
def State.lowerFill (s : State) (p : ZoneId → Bool) : Option ZoneId :=
  match p .a, p .b with
  | true, true => if s.fill .b < s.fill .a then some .b else some .a
  | true, false => some .a
  | false, true => some .b
  | false, false => none

/-- Of the zones that `p` admits, first the one whose record's slot is the loaded slot; otherwise, or if both, A (R64). -/
def State.loadedFirst (s : State) (p : ZoneId → Bool) : List ZoneId :=
  let on := fun z => decide ((s.selSlot z).map Loaded.slot = some s.da.slot)
  let order := if on .b = true ∧ on .a = false then [ZoneId.b, .a] else [.a, .b]
  order.filter p

/-- The zone an entry of the rotation table names, if it names a refill claimant (R65). -/
def State.rotNames (s : State) : RotEntry → Option ZoneId
  | .a => if s.refillClaimant .a then some .a else none
  | .b => if s.refillClaimant .b then some .b else none
  | .any => s.lowerFill s.refillClaimant

/-- Read the rotation table from `ptr` on, visiting at most `n` entries: the zone named and the pointer after it (R65). -/
def State.rotate (s : State) : Nat → Nat → Option ZoneId × Nat
  | 0, ptr => (none, ptr)
  | n + 1, ptr =>
    match s.rotNames (s.da.rotation.getD ptr .any) with
    | some z => (some z, (ptr + 1) % 16)
    | none => s.rotate n ((ptr + 1) % 16)

/-- Order 5 of R64: a RE-READ claim for the entry RU names, zone after zone (R108). -/
def grantReread : List ZoneId → State → State
  | [], s => s
  | z :: l, s =>
    match nameEntry z (s.ru.lists.get z) s with
    | (s1, some e) => s1.grantTarget .reread z e.addr e.reads
    | (s1, none) => grantReread l s1

/-- Order 7 of R64 and order 8: the rotation table, and with no claimant the idle timer (R65, R73). -/
def State.grantRotation (s : State) : State :=
  let (z, ptr) := s.rotate 16 s.da.rotPtr
  let s1 := s.modDa fun d => { d with rotPtr := ptr }
  match z with
  | some z => s1.grantBurst .refill z
  | none =>
    if s1.da.state = .ready ∧ s1.da.idleTimer = .stopped then
      s1.modDa fun d => { d with idleTimer := ms (s.params.idleSpinDown * 1000) }
    else s1

/-- Order 6 of R64: an AUDIT claim for a pending target (R98); otherwise orders 7 and 8. -/
def State.grantAudit (s : State) : State :=
  match s.loadedFirst fun z => s.offered z && (s.lu.audit.get z).target.isSome with
  | z :: _ => s.grantTarget .audit z ((s.lu.audit.get z).target.getD 0) 0
  | [] => s.grantRotation

/-- The zones with a re-read entry that DA may grant (R64, R103). -/
def State.rereadClaimant (s : State) (z : ZoneId) : Bool := s.offered z && !(s.ru.lists.get z).isEmpty

/-- An arbitration: the first claimant of R64 is granted. -/
def State.arbitrate (s : State) : State :=
  match s.lowerFill s.rejoinClaimant with
  | some z => s.grantBurst .linkUp z
  | none =>
    match s.lowerFill s.urgent with
    | some z => s.grantBurst .refill z
    | none =>
      match s.lm.queue with
      | slot :: _ => s.grantIdent slot
      | [] =>
        if s.da.hold = .queued then s.grantHold
        else
          let s1 := grantReread (s.loadedFirst s.rereadClaimant) s
          match s1.da.claim with
          | some _ => s1
          | none => s1.grantAudit

/-! ## Preparing a claim (R66) -/

/-- READ is sent for claim `c`: BI's tag is set, the consecutive-non-GOOD count becomes 1 with no last GOOD stamp, the
claim's commit count becomes 0, and a search for a target may test 8 blocks (R7, R13, R66, R98, R109). -/
def State.sendRead (s : State) (c : Claim) : State :=
  let phase := if c.kind = .linkUp ∨ c.kind = .refill then some Phase.joining else none
  let s1 := s.modBi fun _ => ⟨some ⟨c.kind, c.zone, phase, .live, c.target⟩, 1, none⟩
  let s2 := (s1.modRu fun u => { u with left := 8 }).modLu fun u => { u with auditLeft := 8 }
  (s2.modDa fun d => { d with claim := some { c with commits := 0 } }).send .read .reading

/-- The seek address of a claim (R66); for LINK-UP and REFILL, LU begins an attempt, and there is no address when no block
qualifies as an anchor (R81). -/
def State.seekPlace (s : State) (c : Claim) : Option (State × Place) :=
  match c.kind, c.zone with
  | .linkUp, some z => (s.beginAttempt z).map fun (t, a) => (t, .address a)
  | .refill, some z => (s.beginAttempt z).map fun (t, a) => (t, .address a)
  | .ident, _ => some (s, .directory)
  | _, _ => some (s, .address (c.target.getD 0 - 4))

/-- No block of zone `z` qualifies as an anchor: the supply becomes RESYNC, and the claim ends without SEEK (R81). -/
def State.noAnchor (s : State) (c : Claim) : State :=
  match c.zone with
  | some z => (s.setSupply z .resync .noAnchor).closeClaim .ended
  | none => s.closeClaim .ended

/-- The next preparation command of the LIVE claim `c`: LOAD, SPIN or SEEK, each where it is needed (R66). READ follows
SEEK DONE. -/
def State.prepare (s : State) (c : Claim) : State :=
  if s.da.slot ≠ .slot (c.slot.getD 0) then
    (s.modDa fun d => { d with claim := some { c with swap := true } }).send (.load (c.slot.getD 0)) .loading
  else if s.da.speed ≠ .known c.speed then s.send (.spin c.speed) .spinning
  else
    match s.seekPlace c with
    | some (t, p) => (t.modDa fun d => { d with claim := some { c with seek := some p } }).send (.seek p) .seeking
    | none => s.noAnchor c

/-! ## The service sequences (R158, R166) -/

/-- The eject sequence goes on when no command is outstanding: UNLOAD when the loaded slot is other than NONE, and
LATCH-OPEN (R158). -/
def State.ejectNext (s : State) : State :=
  match s.lm.ejectStage with
  | .unloading =>
    if s.da.slot = .none then
      (s.modLm fun l => { l with ejectStage := .unlatching }).send .latchOpen .loading
    else s.send .unload .loading
  | .unlatching => s.send .latchOpen .loading
  | .latchWait => s
  | .waitingHold => s
  | .none => s

/-- The parking sequence ends with the drive-done mark set (R166). -/
def State.parkDone (s : State) : State :=
  (s.modDa fun d => { d with parkStage := .none }).modPc fun p => { p with driveDone := true }

/-- The parking sequence sends SPIN 0 (R166). -/
def State.parkSpin (s : State) : State :=
  (s.modDa fun d => { d with parkStage := .spinning }).send (.spin 0) .spinning

/-- The parking sequence begins: the current claim is cancelled and the idle timer stops; with no command outstanding it
sends UNLOAD when the loaded slot is other than NONE, and SPIN 0 (R63, R166). -/
def State.parkNext (s : State) : State :=
  let s1 := s.modDa fun d => { d with parkStage := .settling, idleTimer := .stopped }
  if s1.da.slot = .none then s1.parkSpin
  else (s1.modDa fun d => { d with parkStage := .unloading }).send .unload .loading

/-! ## What follows when the drive stands still -/

/-- The pickup cannot be used now: a command is outstanding, or the drive is neither DOWN nor READY (R58, R63). -/
def State.driveBusy (s : State) : Bool :=
  s.da.out.isSome || (decide (s.da.state ≠ .down) && decide (s.da.state ≠ .ready))

/-- A removal that waited for the last command takes effect (R71, R160). -/
def Drive.settleRemoval (d : Drive) : Drive :=
  if d.removalDue then
    { d with state := .down, slot := .unknown, speed := .unknown, idleTimer := .stopped, removalDue := false }
  else d

/-- An eject sequence is under way and does not wait for a hold (R158). -/
def State.ejectRuns (s : State) : Bool := s.lm.ejecting && decide (s.lm.ejectStage ≠ .waitingHold)

/-- DA's next act when no command is outstanding and the drive is DOWN or READY: a removal takes effect, a claim that is
no longer LIVE is gone, a service sequence goes on, a LIVE claim is prepared, or the pickup is free and DA arbitrates,
unless the mechanism is unsettled or the part is parking (R63, R66, R71, R94, R158, R166). `n` bounds the claims that end
for want of an anchor and so free the pickup again: one of each zone at most (R81). -/
def State.proceed : Nat → State → State
  | 0, s => s
  | n + 1, s =>
    if s.driveBusy then s
    else
      let s1 := s.modDa Drive.settleRemoval
      let s2 := if s1.liveClaim = none then s1.dropClaim else s1
      if s2.ejectRuns then s2.ejectNext
      else if s2.da.parkStage ≠ .none then s2.parkNext
      else if s2.pc.state ≠ .active then s2
      else
        match s2.liveClaim with
        | some c => State.proceed n (s2.prepare c)
        | none =>
          if s2.unsettled then s2
          else
            let s3 := s2.arbitrate
            if s3.da.claim = none then s3 else State.proceed n s3

/-! ## What every command ends with -/

/-- A parking sequence that waits begins once no eject sequence is under way: it cancels the current claim (R71,
R166). -/
def State.parkBegins (s : State) : State :=
  if s.da.parkStage = .waiting ∧ s.lm.ejectStage = .none then
    (s.closeClaim .cancelled).modDa fun d => { d with parkStage := .settling, idleTimer := .stopped }
  else s

/-- A granted hold is revoked when a zone is urgent or a rejoin claimant (R76). -/
def State.revokeTest (s : State) : State :=
  if s.da.hold = .granted ∧
      (s.urgent .a || s.urgent .b || s.rejoinClaimant .a || s.rejoinClaimant .b) = true then s.revokeHold
  else s

/-- DA tests R69 against zone `z`'s burst when the other zone's conditions have changed since `old`. -/
def State.pressChanged (old s : State) (z : ZoneId) : State :=
  if s.tagLive = true ∧ s.tagAppending = true ∧ old.conditions z.other ≠ s.conditions z.other then s.pressTest z else s

/-- What every command ends with: R76, R69 and R63, on the state `s` the command has made of `old`. -/
def State.finish (old s : State) : State :=
  let s1 := (State.pressChanged old s .a)
  let s2 := (State.pressChanged old s1 .b).revokeTest
  s2.parkBegins.proceed 8

end Sys2Proof.Machine
end

