-- ==== Sys2Proof/Machine/PowerOps.lean ====
section
/-! DEFINITION. The kinds of start, the retention check sum and the wake (chapter 10, R34, R36, R56, R135, R152, R173). -/

namespace Sys2Proof.Machine

/-- The bytes of the retained state that the check sum covers are those of this (R168). -/
def State.retained (s : State) : Retained where
  records  := s.dd.records
  sequence := s.dd.sequence
  params   := s.params
  selected := ⟨s.zc.a.selected, s.zc.b.selected⟩
  rotation := s.da.rotation
  rotPtr   := s.da.rotPtr
  straps   := s.straps

/-- The total of a list of bytes, modulo 65,536 (R168). -/
def byteSum (l : List Byte) : Nat := (l.map (·.toNat)).sum % 65536

/-- The retention check sum (R168). -/
def State.checkSum (s : State) : Nat := byteSum (Config.retainedBytes s.retained)

/-- A zone record at a warm or soft start: the selection is kept (R36). -/
def Zone.restart (r : Zone) : Zone := { Zone.cold with selected := r.selected }

/-- The start values that DA takes when it does not, or no longer, wait for a command (R56). -/
def Drive.takeStart (d : Drive) : Drive :=
  { d with
    state := .down, slot := .unknown, speed := .unknown, claim := none, out := none, blockTimer := .stopped,
    idleTimer := .stopped, removalDue := false, startDue := false }

/-- DA at a soft start: the hold becomes NONE and the current claim is gone; a command outstanding is awaited before the
start values are taken (R56). -/
def Drive.softStart (d : Drive) : Drive :=
  let d1 := { d with claim := none, hold := .none, graceTimer := .stopped, parkStage := .none }
  match d.out with
  | some _ => { d1 with blockTimer := .stopped, idleTimer := .stopped, removalDue := false, startDue := true }
  | none => d1.takeStart

/-- The warm-start changes of every block but DA and CL (R10, R34, R36, R79, R93, R96, R103, R118, R135, R152, R164). -/
def State.restartBlocks (s : State) : State :=
  { s with
    bs := s.bs.returnAll
    bi := ⟨none, 1, none⟩
    zc := ⟨s.zc.a.restart, s.zc.b.restart⟩
    lu := .start
    sm := .start
    ru := .start
    oc := .both .start
    dd := s.dd.departAll
    lm := .start s.pins.magClosed (ms (8 * s.params.magDebounce))
    pc := { Power.cold with checkSum := s.pc.checkSum } }

/-- A warm start (R169). -/
def State.warmStart (s : State) : State :=
  let s1 := s.restartBlocks
  (s1.modDa Drive.restart).modCl fun _ => .start

/-- CL at a soft start: the pending request, the refusal list, the assembler and the frame being sent are kept, the notice
queue is emptied, and both flags are cleared (R173). -/
def Link.softStart (l : Link) : Link := { l with notices := [], hush := false, lost := false }

/-- The warm-start changes as a soft start makes them (R56, R170, R173). -/
def State.softChanges (s : State) : State := (s.restartBlocks.modDa Drive.softStart).modCl Link.softStart

/-- A cold start with the levels its input pins have; the queue of waiting commands and the count of free values are the
model's and are kept (R171). -/
def State.coldStart (s : State) : State := { State.cold s.pins with free := s.free, pending := s.pending }

/-- PC wakes the part: a warm start when the check sum agrees with the stored sum, a cold start otherwise, and a WAKE
notice (R169, R171). That nothing changes the retained state in PARKED, so that a part parked by ENTER_PARKED wakes warm, is the
model's choice (log entry 51). -/
def State.wakeUp (s : State) (src : WakeSource) : State :=
  if s.checkSum = s.pc.checkSum then s.warmStart.wakeNotice src 1 else s.coldStart.wakeNotice src 2

/-- What a command does when the part is powered: nothing in PARKED, and otherwise `f` and what every command ends
with. -/
def State.whenPowered (s : State) (f : State → State) : Host.Outcome State Fault Refusal :=
  if s.pc.state = .parked then .next s else .next (State.finish s (f s))

/-- A wake event: in PARKED it wakes the part, and otherwise it does `f` (R169). -/
def State.orWake (s : State) (src : WakeSource) (f : State → State) : Host.Outcome State Fault Refusal :=
  if s.pc.state = .parked then .next (State.finish s (s.wakeUp src)) else .next (State.finish s (f s))

end Sys2Proof.Machine
end

