-- ==== Sys2Proof/Machine/LinkOps.lean ====
section
/-! DEFINITION. The Control Link: frames, the receive assembler, and the tests a completed frame meets (chapter 11). -/

namespace Sys2Proof.Machine

/-! ## Frames (R172) -/

/-- The CHECK byte that makes LEN + KIND + BODY + CHECK a multiple of 256 (R172). -/
def checkByte (kind : Byte) (body : List Byte) : Byte := -(byte (body.length + 1) + kind + body.sum)

/-- The bytes of a frame on the line: SYNC, LEN, KIND, BODY, CHECK (R172). -/
def frameBytes (f : Frame) : List Byte :=
  [0xC3, byte (f.body.length + 1), f.kind] ++ f.body ++ [checkByte f.kind f.body]

/-! ## The receive assembler (R174) -/

/-- The assembler takes one byte: its next state, and the frame that the byte completes (R174); `gap` is four byte
times. -/
def Assembler.take (a : Assembler) (gap : Timer) (b : RxByte) : Assembler × Option Frame :=
  let n := b.value.toNat
  match a.stage, b.framed with
  | .hunt, true => if n = 0xC3 then ({ Assembler.hunting with stage := .length, gap := gap }, none) else (a, none)
  | .hunt, false => (a, none)
  | _, false => (.hunting, none)
  | .length, true =>
    if 1 ≤ n ∧ n ≤ 64 then ({ a with stage := .kind, len := n, due := n - 1, sum := n, gap := gap }, none)
    else (.hunting, none)
  | .kind, true =>
    ({ a with
        stage := if 1 < a.len then .body else .check
        sum := (a.sum + n) % 256, gap := gap, kind := b.value }, none)
  | .body, true =>
    ({ a with
        stage := if a.due = 1 then .check else .body
        due := a.due - 1, sum := (a.sum + n) % 256, gap := gap, body := a.body ++ [b.value] }, none)
  | .check, true => (.hunting, if (a.sum + n) % 256 = 0 then some ⟨a.kind, a.body⟩ else none)

/-! ## Requests (R175) -/

/-- What the owning block makes of a request: it acts and forms the reply's body, it acts and leaves the request
unanswered, or it refuses the request and changes nothing (R175). -/
inductive Answer where
  | accepted (s : State) (body : List Byte)
  | unanswered (s : State)
  | rejected (r : Reason)

/-- The pending request's own reply is formed, and an idle transmitter begins it (R175, R176). -/
def Link.formReply (l : Link) (f : Frame) : Link :=
  match l.request with
  | some q => Link.pump { l with request := some { q with reply := some f, ahead := l.refusals.length } }
  | none => l

/-- The pending request is answered with a normal reply: the kind of the request plus 0x40 (R175). -/
def State.reply (s : State) (kind : Byte) (body : List Byte) : State :=
  s.modCl fun l => l.formReply ⟨kind + 0x40, body⟩

/-- The body of a refusal: the KIND of the refused frame and the reason (R175). -/
def refusalFrame (kind : Byte) (r : Reason) : Frame := ⟨0x7F, [kind, reasonCode r]⟩

/-- The pending request is refused (R175). -/
def State.refuse (s : State) (kind : Byte) (r : Reason) : State := s.modCl fun l => l.formReply (refusalFrame kind r)

/-- The frame becomes the pending request (R173, R175). -/
def State.openRequest (s : State) (f : Frame) : State := s.modCl fun l => { l with request := some ⟨f, none, 0⟩ }

/-- A frame completed while a request is unanswered: a BUSY refusal joins the refusal list, unless that holds 4 (R175). -/
def Link.busy (l : Link) (kind : Byte) : Link :=
  if l.refusals.length < 4 then Link.pump { l with refusals := l.refusals ++ [refusalFrame kind .busy] } else l

/-- What the tests of R175 read of a request kind: the body length it requires, if one, and whether PARKING refuses it
(R167, R186). -/
structure Form where
  length  : Option Nat
  refused : Bool

/-- The owning block's answer is given to the pending request (R175). -/
def State.answer (s : State) (kind : Byte) : Answer → State
  | .accepted t body => t.reply kind body
  | .unanswered t => t
  | .rejected r => s.refuse kind r

/-- The tests of R175, from the second on, on a frame of a request kind; `owner` is the owning block. -/
def State.handle (s : State) (kind : Byte) (body : List Byte) (form : Form) (owner : State → List Byte → Answer) : State :=
  let s1 := s.openRequest ⟨kind, body⟩
  if form.length.isSome = true ∧ form.length ≠ some body.length then s1.refuse kind .badLength
  else if form.refused = true ∧ s1.pc.state = .parking then s1.refuse kind .wrongState
  else s1.answer kind (owner s1 body)

/-- A completed frame of a request kind (R175); a LEN over 64 is no frame's and is discarded (R172, R174). -/
def State.takeRequest (s : State) (kind : Byte) (body : List Byte) (form : Form) (owner : State → List Byte → Answer) :
    State :=
  if 63 < body.length then s
  else
    match s.cl.request with
    | some _ => s.modCl fun l => l.busy kind
    | none => s.handle kind body form owner

/-- A completed frame of another kind: UNKNOWN-KIND (R175). -/
def State.takeUnknown (s : State) (kind : Byte) (body : List Byte) : State :=
  if 63 < body.length then s
  else
    match s.cl.request with
    | some _ => s.modCl fun l => l.busy kind
    | none => (s.openRequest ⟨kind, body⟩).refuse kind .unknownKind

/-- The frame's last byte has been received: the assembler stands in HUNT (R174). -/
def State.rxDone (s : State) : State := s.modCl fun l => { l with rx := .hunting }

/-- What a request's command does: in PARKED its start bit wakes the part and the frame is lost; otherwise the frame is
complete and is tested by R175 (R169, R173, R174). -/
def State.request (s : State) (kind : Byte) (body : List Byte) (form : Form) (owner : State → List Byte → Answer) :
    Host.Outcome State Fault Refusal :=
  s.orWake .link fun t => t.rxDone.takeRequest kind body form owner

end Sys2Proof.Machine
end

