-- ==== Sys2Proof/Machine/Device.lean ====
section
/-! DEFINITION. The device-wide requests: ECHO, IDENTIFY, CONFIGURE, QUERY-PARAM, RESET, STANDBY, HUSH, DEVICE-STATUS and
SET-ROTATION (R32, R37, R65, R165, R170, R178 to R184). -/

namespace Sys2Proof.Machine

/-- The n-th byte of a body. -/
def bodyAt (body : List Byte) (n : Nat) : Byte := body.getD n 0

/-! ## ECHO and IDENTIFY (R179) -/

/-- ECHO: the reply carries the body unchanged (R179). -/
def ownEcho (s : State) (body : List Byte) : Answer := .accepted s body

/-- The meaning of ECHO (R179). -/
def execEcho (body : List Byte) (s : State) : Host.Outcome State Fault Refusal :=
  s.request 0x01 body ⟨none, false⟩ ownEcho

/-- The body of the IDENTIFY reply (R179): the straps are those read at the last cold start. -/
def identifyBody (straps : Straps) : List Byte :=
  [0x43, 0x58, 0x32, 0x36, byte Config.revision,
   match straps.rate with
   | .r57600 => 1
   | .r115200 => 2,
   if straps.singleZone then 1 else 2, if straps.singleSlot then 1 else 6]

/-- IDENTIFY (R179). -/
def ownIdentify (s : State) (_ : List Byte) : Answer := .accepted s (identifyBody s.straps)

/-- The meaning of IDENTIFY (R179). -/
def execIdentify (body : List Byte) (s : State) : Host.Outcome State Fault Refusal :=
  s.request 0x02 body ⟨some 0, false⟩ ownIdentify

/-! ## Parameters (R32, R37, R180, R181) -/

/-- A value clamped to a range. -/
def clampTo (lo hi v : Nat) : Nat := max lo (min hi v)

/-- The upper end of the low-water range for a quota (R37). -/
def lowWaterMax (quota : Nat) : Nat := max 50 (quota - 64)

/-- The thresholds of zone `z` clamped again after its quota has changed (R32, R37). -/
def reclamp (p : Params) (z : ZoneId) : Params :=
  let q := p.quota.get z
  { p with
    lowWater   := p.lowWater.mod z (clampTo 50 (lowWaterMax q))
    startThr   := p.startThr.mod z (clampTo 10 q)
    restartThr := p.restartThr.mod z (clampTo 10 q) }

/-- The quota of zone `z` becomes `v` (R32). -/
def setQuota (p : Params) (z : ZoneId) (v : Nat) : Params := reclamp { p with quota := p.quota.set z v } z

/-- The refill speed that a value is applied as (R67). -/
def mapSpeed (v : Nat) : Nat := if v ≤ 1 then 1 else if v ≤ 3 then 2 else 4

/-- What CONFIGURE makes of a parameter: a refusal, or the parameters and the value applied. -/
inductive Applied where
  | refused (r : Reason)
  | applied (p : Params) (v : Nat)

/-- The tests of R32 and the value a quota takes; `other` is what the other zone's quota counts for. -/
def State.applyQuota (s : State) (z : ZoneId) (other v : Nat) : Applied :=
  if s.zc.a.play ≠ .stopped ∨ s.zc.b.play ≠ .stopped then .refused .wrongState
  else
    let w := clampTo 64 4028 v
    if 4092 < w + other then .refused .badValue else .applied (setQuota s.params z w) w

/-- The quota of zone B as the sum of R32 counts it: nothing in single-zone strap. -/
def State.countedQuotaB (s : State) : Nat := if s.straps.singleZone then 0 else s.params.quota.b

/-- The value of a per-zone threshold, with `id` 3, 4 or 5, applied to zone `z` (R37). -/
def setThreshold (p : Params) (id : Nat) (z : ZoneId) (v : Nat) : Applied :=
  let q := p.quota.get z
  match id with
  | 3 => let w := clampTo 50 (lowWaterMax q) v; .applied { p with lowWater := p.lowWater.set z w } w
  | 4 => let w := clampTo 10 q v; .applied { p with startThr := p.startThr.set z w } w
  | 5 => let w := clampTo 10 q v; .applied { p with restartThr := p.restartThr.set z w } w
  | _ => .refused .badValue

/-- The value of a parameter that is not per zone, with `id` 6 to 19, clamped or mapped (R37, R67, R68, R73, R76, R80, R93,
R96, R104, R124, R152, R180). -/
def setSingle (p : Params) (id v : Nat) : Applied :=
  match id with
  | 6 => let w := clampTo 8 512 v; .applied { p with burstLimit := w } w
  | 7 => let w := mapSpeed v; .applied { p with refillSpeed := w } w
  | 8 => let w := clampTo 1 32 v; .applied { p with interpLimit := w } w
  | 9 => let w := clampTo 0 960 v; .applied { p with patchLimit := w } w
  | 10 => let w := clampTo 10 400 v; .applied { p with rereadMargin := w } w
  | 11 => let w := clampTo 2 32 v; .applied { p with luBackoff := w } w
  | 12 => let w := clampTo 8 64 v; .applied { p with luWindow := w } w
  | 13 => let w := clampTo 1 7 v; .applied { p with luAttempts := w } w
  | 14 => let w := clampTo 128 4096 v; .applied { p with auditInterval := w } w
  | 15 => let w := clampTo 1 255 v; .applied { p with idleSpinDown := w } w
  | 16 => let w := clampTo 1 50 v; .applied { p with shockSettle := w } w
  | 17 => let w := clampTo 1 255 v; .applied { p with magDebounce := w } w
  | 18 => let w := clampTo 1 100 v; .applied { p with holdGrace := w } w
  | 19 => let w := min 1 v; .applied { p with autoResume := w } w
  | _ => .refused .badValue

/-- The tests and the value of CONFIGURE (R180). -/
def State.applyParam (s : State) (id : Nat) (zone : Byte) (v : Nat) : Applied :=
  match id with
  | 1 => s.applyQuota .a s.countedQuotaB v
  | 2 => if s.straps.singleZone then .refused .badValue else s.applyQuota .b s.params.quota.a v
  | 3 | 4 | 5 =>
    match zoneOf s.straps zone with
    | some z => setThreshold s.params id z v
    | none => .refused .badValue
  | _ => setSingle s.params id v

/-- CONFIGURE (R180). A change of a quota or threshold tests R39 and R40 again at once (R37, R39, R40). -/
def ownConfigure (s : State) (body : List Byte) : Answer :=
  let id := (bodyAt body 0).toNat
  let zone := bodyAt body 1
  match s.applyParam id zone (nat2 (bodyAt body 2) (bodyAt body 3)) with
  | .refused r => .rejected r
  | .applied p v =>
    let s1 := s.modParams fun _ => p
    let s2 := if id ≤ 5 then (s1.testReady .a).testReady .b else s1
    .accepted s2 ([bodyAt body 0, zone] ++ be2 v)

/-- The meaning of CONFIGURE (R180). -/
def execConfigure (body : List Byte) (s : State) : Host.Outcome State Fault Refusal :=
  s.request 0x03 body ⟨some 4, true⟩ ownConfigure

/-- The value in force of a parameter that is not per zone (R181). -/
def singleParam (p : Params) : Nat → Option Nat
  | 6 => some p.burstLimit
  | 7 => some p.refillSpeed
  | 8 => some p.interpLimit
  | 9 => some p.patchLimit
  | 10 => some p.rereadMargin
  | 11 => some p.luBackoff
  | 12 => some p.luWindow
  | 13 => some p.luAttempts
  | 14 => some p.auditInterval
  | 15 => some p.idleSpinDown
  | 16 => some p.shockSettle
  | 17 => some p.magDebounce
  | 18 => some p.holdGrace
  | 19 => some p.autoResume
  | _ => none

/-- The value in force of the parameter that an id and a zone name; none where QUERY-PARAM refuses them (R181). -/
def State.queryParam (s : State) (id : Nat) (zone : Byte) : Option Nat :=
  match id with
  | 1 => some s.params.quota.a
  | 2 => if s.straps.singleZone then none else some s.params.quota.b
  | 3 => (zoneOf s.straps zone).map s.params.lowWater.get
  | 4 => (zoneOf s.straps zone).map s.params.startThr.get
  | 5 => (zoneOf s.straps zone).map s.params.restartThr.get
  | _ => singleParam s.params id

/-- QUERY-PARAM (R181). -/
def ownQueryParam (s : State) (body : List Byte) : Answer :=
  match s.queryParam (bodyAt body 0).toNat (bodyAt body 1) with
  | some v => .accepted s ([bodyAt body 0, bodyAt body 1] ++ be2 v)
  | none => .rejected .badValue

/-- The meaning of QUERY-PARAM (R181). -/
def execQueryParam (body : List Byte) (s : State) : Host.Outcome State Fault Refusal :=
  s.request 0x04 body ⟨some 2, false⟩ ownQueryParam

/-! ## RESET and STANDBY (R165, R170, R183) -/

/-- A zone that is not STOPPED is stopped as STOP does (R53, R170). -/
def State.resetZone (s : State) (z : ZoneId) : State := if (s.zone z).play = .stopped then s else s.beginStop z

/-- RESET: every zone is stopped, and the request stays unanswered until the soft start (R170, R183). That zone A is stopped before
zone B is the model's choice (log entry 53). -/
def ownReset (s : State) (_ : List Byte) : Answer := .unanswered ((s.resetZone .a).resetZone .b)

/-- The meaning of RESET (R170). -/
def execReset (body : List Byte) (s : State) : Host.Outcome State Fault Refusal :=
  s.request 0x05 body ⟨some 0, true⟩ ownReset

/-- STANDBY: parking begins, and the reply carries the power state PARKING (R165, R183). -/
def ownStandby (s : State) (_ : List Byte) : Answer := .accepted s.beginParking [powerCode .parking]

/-- The meaning of STANDBY (R165). -/
def execStandby (body : List Byte) (s : State) : Host.Outcome State Fault Refusal :=
  s.request 0x06 body ⟨some 0, true⟩ ownStandby

/-! ## HUSH and DEVICE-STATUS (R178, R182) -/

/-- The hush flag is set, which discards every queued notice, or cleared; a flag already as asked changes nothing
(R178). -/
def Link.setHush (l : Link) (on : Bool) : Link :=
  if l.hush = on then l else if on then { l with hush := true, notices := [] } else { l with hush := false }

/-- HUSH (R178). -/
def ownHush (s : State) (body : List Byte) : Answer :=
  let v := bodyAt body 0
  if v = 0 ∨ v = 1 then .accepted (s.modCl fun l => l.setHush (decide (v = 1))) [v] else .rejected .badValue

/-- The meaning of HUSH (R178). -/
def execHush (body : List Byte) (s : State) : Host.Outcome State Fault Refusal :=
  s.request 0x07 body ⟨some 1, false⟩ ownHush

/-- The eight bytes of the DEVICE-STATUS reply (R182). -/
def State.statusBody (s : State) : List Byte :=
  [driveCode s.da.state, loadedCode s.da.slot, magazineCode s.lm.magazine, holdCode s.da.hold, byte s.sm.count,
   flagByte s.sm.roughRoad, powerCode s.pc.state, flagByte s.cl.lost]

/-- DEVICE-STATUS: forming the reply clears the notices-lost flag (R182). -/
def ownDeviceStatus (s : State) (_ : List Byte) : Answer :=
  .accepted (s.modCl fun l => { l with lost := false }) s.statusBody

/-- The meaning of DEVICE-STATUS (R182). -/
def execDeviceStatus (body : List Byte) (s : State) : Host.Outcome State Fault Refusal :=
  s.request 0x08 body ⟨some 0, false⟩ ownDeviceStatus

/-! ## SET-ROTATION (R65, R184) -/

/-- The entries that a body codes, if every byte codes one (R65, R184). -/
def rotEntries (straps : Straps) : List Byte → Option (List RotEntry)
  | [] => some []
  | b :: l =>
    match rotOf straps b, rotEntries straps l with
    | some e, some es => some (e :: es)
    | _, _ => none

/-- SET-ROTATION: the table is replaced whole and the pointer becomes 0 (R65, R184). -/
def ownSetRotation (s : State) (body : List Byte) : Answer :=
  match rotEntries s.straps body with
  | some t => .accepted (s.modDa fun d => { d with rotation := t, rotPtr := 0 }) (t.map rotCode)
  | none => .rejected .badValue

/-- The meaning of SET-ROTATION (R65, R184). -/
def execSetRotation (body : List Byte) (s : State) : Host.Outcome State Fault Refusal :=
  s.request 0x09 body ⟨some 16, true⟩ ownSetRotation

end Sys2Proof.Machine
end

