-- ==== Sys2Proof/Machine/ZoneRequests.lean ====
section
/-! DEFINITION. The zone requests: SELECT, PLAY, PAUSE, RESUME, STOP, SEEK and ZONE-STATUS (R45 to R55). Each is tested in
the order of R45: zone, coded values, state, values checked against the selected record. -/

namespace Sys2Proof.Machine

/-- A request that names a zone in its first byte (R45, test 1). -/
def State.onZone (s : State) (body : List Byte) (f : ZoneId → Answer) : Answer :=
  match zoneOf s.straps (bodyAt body 0) with
  | some z => f z
  | none => .rejected .badValue

/-! ## SELECT (R46) -/

/-- The PRESENT record in a slot (R46). -/
def Directory.inSlot (d : Directory) (slot : Nat) : Option Nat :=
  d.records.findIdx? fun r => decide (r.state = .present) && decide (r.slot = some slot)

/-- The body of the SELECT reply (R46, R186). -/
def selectBody (zone : Byte) (i : Nat) (r : DiscRecord) : List Byte :=
  [zone, byte i, byte r.tracks.length] ++ optResume r.resume

/-- SELECT of slot `slot` for zone `z` (R46). -/
def State.select (s : State) (z : ZoneId) (slot : Nat) : Answer :=
  if (magazineSlots s.straps).contains slot = false then .rejected .badValue
  else if (s.zone z).play ≠ .stopped then .rejected .wrongState
  else
    match s.dd.inSlot slot with
    | none => .rejected .wrongState
    | some i =>
      .accepted (s.modZone z fun r => { r with selected := some i })
        (selectBody (zoneCode z) i ((s.record i).getD .blank))

/-- SELECT (R46). -/
def ownSelect (s : State) (body : List Byte) : Answer := s.onZone body fun z => s.select z (bodyAt body 1).toNat

/-- The meaning of SELECT (R46). -/
def execSelect (body : List Byte) (s : State) : Host.Outcome State Fault Refusal :=
  s.request 0x10 body ⟨some 2, true⟩ ownSelect

/-! ## PLAY (R47) -/

/-- An address at or below the program end as given; above it, the start of the last track (R47, R52). -/
def State.clampAddr (s : State) (z : ZoneId) (a : Nat) : Nat :=
  if s.programEnd z < a then lastStart (s.tracks z) else a

/-- The start point of a PLAY of kind `kind` with value `v`; none for a track outside the disc (R47). -/
def State.startPoint (s : State) (z : ZoneId) (kind v : Nat) : Option ResumePt :=
  match kind with
  | 1 => if 1 ≤ v ∧ v ≤ (s.tracks z).length then some ⟨startOf (s.tracks z) v, 0⟩ else none
  | 2 => some ⟨s.clampAddr z v, 0⟩
  | _ =>
    match (s.selRec z).bind (·.resume) with
    | some p => if s.programEnd z < p.addr then some ⟨lastStart (s.tracks z), 0⟩ else some p
    | none => some ⟨startOf (s.tracks z) 1, 0⟩

/-- An accepted PLAY of zone `z` from `p` (R47, R120). -/
def State.startZone (s : State) (z : ZoneId) (p : ResumePt) : State :=
  let s1 := (s.putSupply z .feeding).modZone z fun r =>
    { r with
      nextRead := some p.addr, offset := p.offset, resume := some p, track := trackOf (s.tracks z) p.addr,
      play := .priming }
  s1.modOc z fun c => { c with fresh := true }

/-- PLAY of zone `z` (R45, R47). -/
def State.play (s : State) (z : ZoneId) (kind v : Nat) : Answer :=
  if kind < 1 ∨ 3 < kind then .rejected .badValue
  else if (s.zone z).play ≠ .stopped ∨ s.selPresent z = false then .rejected .wrongState
  else
    match s.startPoint z kind v with
    | none => .rejected .badValue
    | some p =>
      .accepted (s.startZone z p)
        ([zoneCode z] ++ be3 p.addr ++ be2 p.offset ++ [byte (trackOf (s.tracks z) p.addr)])

/-- The three-byte value of PLAY and SEEK (R186). -/
def value3 (body : List Byte) : Nat := nat3 (bodyAt body 2) (bodyAt body 3) (bodyAt body 4)

/-- PLAY (R47). -/
def ownPlay (s : State) (body : List Byte) : Answer :=
  s.onZone body fun z => s.play z (bodyAt body 1).toNat (value3 body)

/-- The meaning of PLAY (R47). -/
def execPlay (body : List Byte) (s : State) : Host.Outcome State Fault Refusal :=
  s.request 0x11 body ⟨some 5, true⟩ ownPlay

/-! ## PAUSE (R48) -/

/-- The reply of PAUSE and STOP: zone, play state and pending action as they stand (R186). -/
def State.pendingBody (s : State) (z : ZoneId) : List Byte :=
  [zoneCode z, playCode (s.zone z).play, (s.zone z).pendingCode]

/-- PAUSE of a PLAYING zone (R48). -/
def State.pausePlaying (s : State) (z : ZoneId) : State :=
  if (s.zone z).pausePending then s
  else (s.modZone z fun r => { r with pausePending := true }).effectIfSilent z

/-- The change that PAUSE makes to zone `z`, if it is accepted (R48). -/
def State.pause (s : State) (z : ZoneId) : Option State :=
  if (s.zone z).stopPending then none
  else
    match (s.zone z).play with
    | .playing => some (s.pausePlaying z)
    | .priming => some (s.modZone z fun r => { r with play := .paused })
    | .starved => some (s.modZone z fun r => { r with play := .paused })
    | .paused => none
    | .stopped => none

/-- PAUSE (R48). -/
def ownPause (s : State) (body : List Byte) : Answer :=
  s.onZone body fun z =>
    match s.pause z with
    | some t => .accepted t (t.pendingBody z)
    | none => .rejected .wrongState

/-- The meaning of PAUSE (R48). -/
def execPause (body : List Byte) (s : State) : Host.Outcome State Fault Refusal :=
  s.request 0x12 body ⟨some 1, true⟩ ownPause

/-! ## RESUME (R49) -/

/-- The change that RESUME makes to a PAUSED zone (R49). -/
def State.unpause (s : State) (z : ZoneId) : State :=
  if s.readyToStart z then s.becomePlaying z false else s.modZone z fun r => { r with play := .priming }

/-- RESUME: accepted in PAUSED, whatever is pending, and refused in every other play state (R49, log entry 9). -/
def ownResume (s : State) (body : List Byte) : Answer :=
  s.onZone body fun z =>
    if (s.zone z).play ≠ .paused then .rejected .wrongState
    else
      let t := s.unpause z
      .accepted t [zoneCode z, playCode (t.zone z).play]

/-- The meaning of RESUME (R49). -/
def execResume (body : List Byte) (s : State) : Host.Outcome State Fault Refusal :=
  s.request 0x13 body ⟨some 1, true⟩ ownResume

/-! ## STOP (R53) -/

/-- STOP (R53). -/
def ownStop (s : State) (body : List Byte) : Answer :=
  s.onZone body fun z =>
    if (s.zone z).play = .stopped then .rejected .wrongState
    else
      let t := s.beginStop z
      .accepted t (t.pendingBody z)

/-- The meaning of STOP (R53). -/
def execStop (body : List Byte) (s : State) : Host.Outcome State Fault Refusal :=
  s.request 0x14 body ⟨some 1, true⟩ ownStop

/-! ## SEEK (R52) -/

/-- The target of a SEEK of kind `kind` with value `v`, clamped (R52). -/
def State.seekTarget (s : State) (z : ZoneId) (kind v : Nat) : SeekTarget :=
  let tracks := s.tracks z
  let a := if kind = 1 then startOf tracks (max 1 (min v tracks.length)) else s.clampAddr z v
  ⟨a, trackOf tracks a⟩

/-- The state conditions of SEEK (R52). -/
def State.canSeek (s : State) (z : ZoneId) : Bool :=
  let r := s.zone z
  decide (r.play ≠ .stopped) && !r.stopPending &&
    match r.supply with
    | .absent => false
    | .fault => false
    | .resync => s.selPresent z
    | .lost => s.selPresent z
    | .ended => s.selPresent z
    | .idle => true
    | .feeding => true
    | .rejoining => true

/-- R39 and R40 are tested at the change of supply state that an accepted SEEK makes; such a change issues no notice
(R39, R40, R43, log entry 8). -/
def State.readyQuietly (s : State) (z : ZoneId) : State :=
  if (s.zone z).play = .priming ∧ s.readyToStart z = true then s.becomePlaying z true
  else if (s.zone z).play = .starved ∧ s.readyToRestart z = true then s.becomePlaying z false
  else s

/-- An accepted SEEK of zone `z` to `t` (R38, R52). -/
def State.beginSeek (s : State) (z : ZoneId) (t : SeekTarget) : State :=
  let s1 := s.closeZoneClaim z .cancelled
  let s2 := if (s1.zone z).supply = .feeding then s1 else (s1.putSupply z .feeding).readyQuietly z
  (s2.modZone z fun r => { r with seekPending := some t }).effectIfSilent z

/-- The body of the SEEK reply; `t` is the state after acceptance (R52, R186). -/
def State.seekBody (t : State) (z : ZoneId) (x : SeekTarget) : List Byte :=
  [zoneCode z] ++ be3 x.addr ++ [byte x.track, if (t.zone z).seekPending.isSome then 0 else 1]

/-- SEEK (R45, R52). -/
def ownSeek (s : State) (body : List Byte) : Answer :=
  s.onZone body fun z =>
    let kind := (bodyAt body 1).toNat
    if kind < 1 ∨ 2 < kind then .rejected .badValue
    else if s.canSeek z then
      let x := s.seekTarget z kind (value3 body)
      let t := s.beginSeek z x
      .accepted t (t.seekBody z x)
    else .rejected .wrongState

/-- The meaning of SEEK (R52). -/
def execSeek (body : List Byte) (s : State) : Host.Outcome State Fault Refusal :=
  s.request 0x15 body ⟨some 5, true⟩ ownSeek

/-! ## ZONE-STATUS (R55) -/

/-- The failed attempts of the link-up under way, 0 when the zone has no context (R55, R79). -/
def State.attempts (s : State) (z : ZoneId) : Nat :=
  match s.ctx z with
  | some c => c.failed
  | none => 0

/-- The body of the ZONE-STATUS reply (R55, R186). -/
def State.zoneStatusBody (s : State) (z : ZoneId) : List Byte :=
  let r := s.zone z
  [zoneCode z, playCode r.play, supplyCode r.supply, r.pendingCode] ++ be2 (s.fill z) ++ be2 (s.room z) ++
    optAddr (s.headAddr z) ++ be2 r.offset ++
    [byte r.track, byte (s.ru.lists.get z).length, byte (s.attempts z), byte (s.lu.audit.get z).misses,
     flagByte (s.lu.audit.get z).unverified, optByte r.selected]

/-- ZONE-STATUS (R55). -/
def ownZoneStatus (s : State) (body : List Byte) : Answer := s.onZone body fun z => .accepted s (s.zoneStatusBody z)

/-- The meaning of ZONE-STATUS (R55). -/
def execZoneStatus (body : List Byte) (s : State) : Host.Outcome State Fault Refusal :=
  s.request 0x16 body ⟨some 1, false⟩ ownZoneStatus

end Sys2Proof.Machine
end

