-- ==== Sys2Proof/Machine/DriveRequests.lean ====
section
/-! DEFINITION. The requests about the pickup and the drive: HOLD-PICKUP, RELEASE-PICKUP, EJECT and RESET-DRIVE (R62, R74,
R157). -/

namespace Sys2Proof.Machine

/-- HOLD-PICKUP: queued from NONE and LAPSED, unless the drive is in FAULT (R74). -/
def ownHoldPickup (s : State) (_ : List Byte) : Answer :=
  if s.da.state = .fault then .rejected .wrongState
  else
    match s.da.hold with
    | .none => .accepted (s.modDa fun d => { d with hold := .queued }) [1]
    | .lapsed => .accepted (s.modDa fun d => { d with hold := .queued }) [1]
    | .queued => .rejected .wrongState
    | .granted => .rejected .wrongState
    | .revoking => .rejected .wrongState

/-- The meaning of HOLD-PICKUP (R74). -/
def execHoldPickup (body : List Byte) (s : State) : Host.Outcome State Fault Refusal :=
  s.request 0x20 body ⟨some 0, true⟩ ownHoldPickup

/-- RELEASE-PICKUP: 1 withdrawn, 2 released, 3 already ended (R74, R76, R186). -/
def ownReleasePickup (s : State) (_ : List Byte) : Answer :=
  match s.da.hold with
  | .none => .rejected .wrongState
  | .queued => .accepted (s.modDa fun d => { d with hold := .none }) [1]
  | .granted => .accepted (s.endHold .none) [2]
  | .revoking => .accepted (s.endHold .none) [2]
  | .lapsed => .accepted (s.modDa fun d => { d with hold := .none }) [3]

/-- The meaning of RELEASE-PICKUP (R74). -/
def execReleasePickup (body : List Byte) (s : State) : Host.Outcome State Fault Refusal :=
  s.request 0x21 body ⟨some 0, true⟩ ownReleasePickup

/-- The body of the EJECT reply: 1 started, 2 waiting for hold (R157, R186). -/
def ejectReply : Hold → Byte
  | .none => 1
  | .queued => 1
  | .granted => 2
  | .revoking => 2
  | .lapsed => 1

/-- EJECT (R157). -/
def ownEject (s : State) (_ : List Byte) : Answer :=
  if s.canEject then .accepted s.takeEject.ejectOrWait [ejectReply s.da.hold] else .rejected .wrongState

/-- The meaning of EJECT (R157). -/
def execEject (body : List Byte) (s : State) : Host.Outcome State Fault Refusal :=
  s.request 0x22 body ⟨some 0, true⟩ ownEject

/-- A zone in supply FAULT leaves it at RESET-DRIVE (R42, R62, R80). -/
def State.zoneReset (s : State) (z : ZoneId) : State :=
  if (s.zone z).supply = .fault then
    if s.selPresent z then s.rejoin z .driveReset else s.setSupply z .absent .driveReset
  else s

/-- RESET-DRIVE: the drive leaves FAULT for DOWN (R62). That zone A is moved, and its notice placed, before zone B's is the model's
choice (log entry 13). -/
def ownResetDrive (s : State) (_ : List Byte) : Answer :=
  if s.da.state = .fault then
    let s1 := s.modDa fun d => { d with state := .down, slot := .unknown, speed := .unknown }
    .accepted ((s1.zoneReset .a).zoneReset .b) [driveCode .down]
  else .rejected .wrongState

/-- The meaning of RESET-DRIVE (R62). -/
def execResetDrive (body : List Byte) (s : State) : Host.Outcome State Fault Refusal :=
  s.request 0x23 body ⟨some 0, true⟩ ownResetDrive

end Sys2Proof.Machine
end

