-- ==== Sys2Proof/Machine/DirectoryRequests.lean ====
section
/-! DEFINITION. The directory requests: DISC-RECORD, DEFECT-LIST, TRACK-LIST and FORGET-DISC (R149 to R151). -/

namespace Sys2Proof.Machine

/-- A request that names a record in its first byte; an index outside 0..7 is refused (R149 to R151). -/
def State.onRecord (s : State) (body : List Byte) (f : Nat → DiscRecord → Answer) : Answer :=
  let i := (bodyAt body 0).toNat
  if 7 < i then .rejected .badValue else f i ((s.record i).getD .blank)

/-! ## DISC-RECORD (R149) -/

/-- The track count, program end and start sum of the DISC-RECORD reply. The start sum of a FREE record is absent, for which
the data book gives no two-byte code: `w` is the free value (R149, R185, log entry 4). -/
def printBytes (w : BitVec 16) : Option Fingerprint → List Byte
  | some p => [byte p.tracks] ++ be3 p.programEnd ++ be2 p.startSum
  | none => [0xFF, 0xFF, 0xFF, 0xFF] ++ be2 w.toNat

/-- The body of the DISC-RECORD reply (R149, R186). -/
def State.recordBody (s : State) (i : Nat) (r : DiscRecord) : List Byte :=
  [byte i, recStateCode r.state, optByte r.slot, optByte r.lastSlot] ++ printBytes (Config.freeWord s.free) r.print ++
    [byte r.defects.length] ++ optResume r.resume ++ [flagByte (s.references .a i), flagByte (s.references .b i)]

/-- DISC-RECORD (R149). -/
def ownDiscRecord (s : State) (body : List Byte) : Answer :=
  s.onRecord body fun i r =>
    .accepted (if r.print = none then { s with free := s.free + 1 } else s) (s.recordBody i r)

/-- The meaning of DISC-RECORD (R149). -/
def execDiscRecord (body : List Byte) (s : State) : Host.Outcome State Fault Refusal :=
  s.request 0x30 body ⟨some 1, false⟩ ownDiscRecord

/-! ## DEFECT-LIST and TRACK-LIST (R150) -/

/-- The bytes of one region (R186). -/
def regionBytes (r : Region) : List Byte := be3 r.first ++ be3 r.last ++ [defectCode r.kind, byte r.hits]

/-- The body of the DEFECT-LIST reply: up to 6 regions from the start index on (R150, R186). -/
def defectBody (i start : Nat) (r : DiscRecord) : List Byte :=
  let l := (r.defects.drop start).take 6
  [byte i, byte start, byte r.defects.length, byte l.length] ++ l.flatMap regionBytes

/-- DEFECT-LIST (R150). -/
def ownDefectList (s : State) (body : List Byte) : Answer :=
  s.onRecord body fun i r =>
    let start := (bodyAt body 1).toNat
    if 31 < start then .rejected .badValue else .accepted s (defectBody i start r)

/-- The meaning of DEFECT-LIST (R150). -/
def execDefectList (body : List Byte) (s : State) : Host.Outcome State Fault Refusal :=
  s.request 0x31 body ⟨some 2, false⟩ ownDefectList

/-- The body of the TRACK-LIST reply: up to 20 start addresses from the start index on (R150, R186). -/
def trackBody (i start : Nat) (r : DiscRecord) : List Byte :=
  let l := (r.tracks.drop start).take 20
  [byte i, byte start, byte l.length] ++ l.flatMap be3

/-- TRACK-LIST (R150). -/
def ownTrackList (s : State) (body : List Byte) : Answer :=
  s.onRecord body fun i r =>
    let start := (bodyAt body 1).toNat
    if 98 < start then .rejected .badValue else .accepted s (trackBody i start r)

/-- The meaning of TRACK-LIST (R150). -/
def execTrackList (body : List Byte) (s : State) : Host.Outcome State Fault Refusal :=
  s.request 0x32 body ⟨some 2, false⟩ ownTrackList

/-! ## FORGET-DISC (R151) -/

/-- FORGET-DISC: a referenced record is refused, a FREE one is left as it is, and any other is cleared (R151). -/
def ownForgetDisc (s : State) (body : List Byte) : Answer :=
  s.onRecord body fun i r =>
    if s.referenced i then .rejected .wrongState
    else if r.state = .free then .accepted s [byte i, 1]
    else .accepted (s.modDd fun d => d.modRecord i fun _ => .blank) [byte i, 0]

/-- The meaning of FORGET-DISC (R151). -/
def execForgetDisc (body : List Byte) (s : State) : Host.Outcome State Fault Refusal :=
  s.request 0x33 body ⟨some 1, true⟩ ownForgetDisc

end Sys2Proof.Machine
end

