-- ==== Sys2Proof/Machine/LinkEvents.lean ====
section
/-! DEFINITION. The events of the Control Link that are no requests: a frame of an unknown kind, discarded bytes, the gap
timer, and the end of a transmitted frame (R174 to R176). -/

namespace Sys2Proof.Machine

/-- A completed frame of any kind goes to the owner of its request kind, and is UNKNOWN-KIND when it has none (R175,
R186). -/
def State.takeFrame (s : State) (f : Frame) : State :=
  match f.kind.toNat with
  | 0x01 => s.takeRequest f.kind f.body ⟨none, false⟩ ownEcho
  | 0x02 => s.takeRequest f.kind f.body ⟨some 0, false⟩ ownIdentify
  | 0x03 => s.takeRequest f.kind f.body ⟨some 4, true⟩ ownConfigure
  | 0x04 => s.takeRequest f.kind f.body ⟨some 2, false⟩ ownQueryParam
  | 0x05 => s.takeRequest f.kind f.body ⟨some 0, true⟩ ownReset
  | 0x06 => s.takeRequest f.kind f.body ⟨some 0, true⟩ ownStandby
  | 0x07 => s.takeRequest f.kind f.body ⟨some 1, false⟩ ownHush
  | 0x08 => s.takeRequest f.kind f.body ⟨some 0, false⟩ ownDeviceStatus
  | 0x09 => s.takeRequest f.kind f.body ⟨some 16, true⟩ ownSetRotation
  | 0x10 => s.takeRequest f.kind f.body ⟨some 2, true⟩ ownSelect
  | 0x11 => s.takeRequest f.kind f.body ⟨some 5, true⟩ ownPlay
  | 0x12 => s.takeRequest f.kind f.body ⟨some 1, true⟩ ownPause
  | 0x13 => s.takeRequest f.kind f.body ⟨some 1, true⟩ ownResume
  | 0x14 => s.takeRequest f.kind f.body ⟨some 1, true⟩ ownStop
  | 0x15 => s.takeRequest f.kind f.body ⟨some 5, true⟩ ownSeek
  | 0x16 => s.takeRequest f.kind f.body ⟨some 1, false⟩ ownZoneStatus
  | 0x20 => s.takeRequest f.kind f.body ⟨some 0, true⟩ ownHoldPickup
  | 0x21 => s.takeRequest f.kind f.body ⟨some 0, true⟩ ownReleasePickup
  | 0x22 => s.takeRequest f.kind f.body ⟨some 0, true⟩ ownEject
  | 0x23 => s.takeRequest f.kind f.body ⟨some 0, true⟩ ownResetDrive
  | 0x30 => s.takeRequest f.kind f.body ⟨some 1, false⟩ ownDiscRecord
  | 0x31 => s.takeRequest f.kind f.body ⟨some 2, false⟩ ownDefectList
  | 0x32 => s.takeRequest f.kind f.body ⟨some 2, false⟩ ownTrackList
  | 0x33 => s.takeRequest f.kind f.body ⟨some 1, true⟩ ownForgetDisc
  | _ => s.takeUnknown f.kind f.body

/-- The meaning of a completed frame whose kind is no request kind (R175). -/
def execUnknownKindFrame (kind : Byte) (body : List Byte) (s : State) : Host.Outcome State Fault Refusal :=
  s.orWake .link fun t => t.rxDone.takeFrame ⟨kind, body⟩

/-- The assembler takes one byte from the line; a frame that the byte completes is tested by R175 (R174). -/
def State.rxByte (s : State) (b : RxByte) : State :=
  let (a, f) := s.cl.rx.take (gapTime s.straps) b
  let s1 := s.modCl fun l => { l with rx := a }
  match f with
  | some f => State.finish s1 (s1.takeFrame f)
  | none => s1

/-- The assembler takes bytes from the line (R174). -/
def State.rxBytes (s : State) (l : List RxByte) : State := l.foldl State.rxByte s

/-- The meaning of bytes on the line that complete no frame (R174). In PARKED the first start bit wakes the part and the
bytes are lost (R169). -/
def execFrameDiscarded (bytes : List RxByte) (s : State) : Host.Outcome State Fault Refusal :=
  match bytes with
  | [] => .next s
  | _ :: _ => s.orWake .link fun t => t.rxBytes bytes

/-- The gap timer expires: a frame under assembly is discarded (R174). -/
def State.gapExpires (s : State) : State := s.modCl fun l => { l with rx := .hunting }

/-- The meaning of bytes on the line and then the expiry of the gap timer, which does nothing in HUNT (R174). -/
def execLinkGapTimeout (bytes : List RxByte) (s : State) : Host.Outcome State Fault Refusal :=
  match bytes with
  | [] => s.whenPowered State.gapExpires
  | _ :: _ => s.orWake .link fun t => (t.rxBytes bytes).gapExpires

/-- The transmitter has sent the last byte of its frame: a reply answers the pending request, and the next frame begins
(R176). -/
def Link.sent (l : Link) : Link :=
  match l.transmitter with
  | none => l
  | some (.reply _) => Link.pump { l with transmitter := none, request := none }
  | some (.refusal _) => Link.pump { l with transmitter := none }
  | some (.notice _) => Link.pump { l with transmitter := none }

/-- The meaning of the end of a transmitted frame (R176). -/
def execTransmitFrameDone (s : State) : Host.Outcome State Fault Refusal := s.whenPowered fun t => t.modCl Link.sent

end Sys2Proof.Machine
end

