-- ==== Sys2Proof/Machine/BlockIntake.lean ====
section
/-! DEFINITION. The Block Intake: acceptance, measurement, routing, the two checks of an appending zone, and the count of
non-GOOD stamps (chapter 1). One command presents one block and is whole: the block has left the intake when it ends. -/

namespace Sys2Proof.Machine

/-! ## READ completes (R57, R71) -/

/-- The first block at the port completes READ; a claim that was ended or cancelled meanwhile is then gone, and reading is
stopped with PAUSE (R57, R71). -/
def State.readComplete (s : State) : State :=
  match s.da.out with
  | some o =>
    if o.cmd = .read then
      if s.da.startDue then s.modDa Drive.takeStart
      else
        let s1 := s.modDa fun d => { d with out := none }
        if s1.liveClaim = none then s1.releasePickup else s1
    else s
  | none => s

/-! ## Acceptance and measurement (R2 to R4, R8, R10, R11) -/

/-- The tag under which a presented block is accepted; none for a trailing block (R8). -/
def State.acceptTag (s : State) : Option Tag :=
  match s.bi.tag with
  | some t => if s.da.state = .reading ∧ t.standing = .live then some t else none
  | none => none

/-- The track number recorded for a block read under a tag (R4). -/
def State.recordedTrack (s : State) (t : Tag) (track : Nat) : Nat :=
  match t.zone with
  | some z => if track = 0 ∨ (s.tracks z).length < track then s.tailTrack z else track
  | none => track

/-- The bucket that BI writes for an accepted block (R2, R3, R10, R11). -/
def measured (b : PortBlock) (track : Nat) : Bucket :=
  let st := correctStamp b.stamp b.stampStatus
  let samples := portSamples b
  let flags := portFlags b
  ⟨{ expected    := none
     stamp       := st.1
     stampStatus := st.2
     track       := track
     decoder     := b.decoder
     erasures    := erasureCount flags
     readCount   := 1
     featureless := isFeatureless samples flags
     confirmed   := false
     listed      := false }, samples, flags⟩

/-- The preceding GOOD stamp (R13). -/
def Intake.preceding (b : Intake) : Option Nat := if b.nonGood = 0 then b.lastGood else none

/-- The count after a routed block (R13). -/
def Intake.count (b : Intake) (status : StampStatus) (stamp : Option Nat) : Intake :=
  match status with
  | .good => { b with nonGood := 0, lastGood := stamp }
  | .doubtful => { b with nonGood := min 255 (b.nonGood + 1) }
  | .missing => { b with nonGood := min 255 (b.nonGood + 1) }

/-! ## Appending (R15 to R17) -/

/-- A skip of zone `z` at expected address `e` (R16, R91, R92). -/
def State.skip (s : State) (z : ZoneId) (e : Nat) : State :=
  let s1 := s.discard.closeZoneClaim z .ended
  if (s1.zone z).supply = .feeding then (s1.markDefect z .skipProne e).rejoin z .skip else s1

/-- A block of zone `z` in the APPENDING phase: the program-end check, the discontinuity check, then the commit with the
burst ends of R68 and R69 (R15, R16, R17). -/
def State.appendBlock (s : State) (z : ZoneId) : State :=
  let r := s.info s.bs.intake
  let e := s.nextAddr z
  if s.programEnd z < e then s.discard.beyondEnd z
  else if r.stampStatus = .good ∧ r.stamp ≠ some e then s.skip z e
  else (s.commit z e).pressTest z

/-! ## Routing (R14) -/

/-- An identification block is judged, its bucket is discarded, and DD takes the verdict (R6, R14). -/
def State.judge (s : State) : State :=
  let b := s.bs.bucket s.bs.intake
  s.discard.verdict (readDirectory b.info.track b.info.decoder b.samples b.flags)

/-- The block in the intake bucket is routed by the tag (R14). -/
def State.route (s : State) (t : Tag) : State :=
  match t.kind, t.zone with
  | .linkUp, some z => if t.phase = some .appending then s.appendBlock z else s.joinBlock z s.bi.preceding
  | .refill, some z => if t.phase = some .appending then s.appendBlock z else s.joinBlock z s.bi.preceding
  | .reread, some z => s.rereadBlock z (t.target.getD 0) s.bi.preceding
  | .audit, some z => s.auditBlock z (t.target.getD 0) s.bi.preceding
  | .ident, _ => s.judge
  | _, _ => s.discard

/-- While reading is in progress under a LIVE claim, the block timer runs for 1 s from each block presented (R57). -/
def State.runBlockTimer (s : State) : State :=
  if s.da.state = .reading ∧ s.da.out = none ∧ s.tagLive = true then
    s.modDa fun d => { d with blockTimer := ms 1000 }
  else s

/-- A block accepted under tag `t`: it takes the intake bucket, is written and measured, and is routed; then the count of
non-GOOD stamps is updated. With no bucket free, which R22 excludes, the block is thrown away (R10, R13, R14, R26). -/
def State.acceptBlock (s : State) (t : Tag) (b : PortBlock) : State :=
  match s.bs.allocate with
  | none => s
  | some st =>
    let v := measured b (s.recordedTrack t b.track)
    let s1 := s.modBs fun _ => st.setBucket st.intake v
    (s1.route t).modBi fun i => i.count v.info.stampStatus v.info.stamp

/-- A block is presented at the port (R8). -/
def State.present (s : State) (b : PortBlock) : State :=
  let s1 := s.readComplete
  let s2 := match s1.acceptTag with
    | some t => s1.acceptBlock t b
    | none => s1
  s2.runBlockTimer

/-- The meaning of a block at the block data port (R8). -/
def execBlockPresented (block : PortBlock) (s : State) : Host.Outcome State Fault Refusal :=
  s.whenPowered fun t => t.present block

end Sys2Proof.Machine
end

