-- ==== Sys2Proof/Machine/Output.lean ====
section
/-! DEFINITION. The Output Concealers: erased runs, the gain envelope and the frame event (chapter 7). -/

namespace Sys2Proof.Machine

/-- A channel of a frame. -/
inductive Side where
  | left
  | right
  deriving DecidableEq, Repr

/-- The number of a channel's sample within its frame (R3). -/
def sideIndex : Side → Nat
  | .left => 0
  | .right => 1

/-! ## Looking ahead (R119, R121) -/

/-- The sample of a channel `n` frames after the head frame offset of zone `z`, with its erasure flag; none beyond the tail
block (R3, R119, R121). -/
def State.ahead (s : State) (z : ZoneId) (d : Side) (n : Nat) : Option (Sample × Bool) :=
  let f := (s.zone z).offset + n
  if f / 480 < s.fill z then
    let b := s.bs.bucket (s.bucketAt z (f / 480))
    let i := 2 * (f % 480) + sideIndex d
    some (b.samples.getD i 0, b.flags.getD i true)
  else none

/-- From the `k`-th sample on, the number of erased samples before the first unerased one and that one's value, if it stands
within the next `n` samples (R121). -/
def State.lookahead (s : State) (z : ZoneId) (d : Side) : Nat → Nat → Option (Nat × Int)
  | 0, _ => none
  | n + 1, k =>
    match s.ahead z d k with
    | none => none
    | some (v, erased) => if erased then s.lookahead z d n (k + 1) else some (k, v.toInt)

/-- The run decided at an erased sample with bounding value `g0` (R121). -/
def State.decideRun (s : State) (z : ZoneId) (d : Side) (g0 : Int) : Run :=
  match s.lookahead z d (s.params.interpLimit + 1) 0 with
  | some (len, g1) => .short g0 g1 len 1 false
  | none => .long g0

/-! ## Repair (R119, R122, R123, R125) -/

/-- The repaired value of the k-th sample of a SHORT run of length `len` (R122). -/
def interpolate (g0 g1 : Int) (len k : Nat) : Int :=
  g0 + Int.fdiv (2 * (g1 - g0) * (k : Int) + ((len : Int) + 1)) (2 * ((len : Int) + 1))

/-- An unerased sample is repaired as itself (R119). -/
def Channel.good (c : Channel) (v : Int) : Channel := { c with lastGood := v, lastRepaired := v, run := .none }

/-- The next sample of a SHORT run takes its value; the run state becomes NONE after the last (R122). -/
def Channel.shortStep (c : Channel) (g0 g1 : Int) (len k : Nat) (cut : Bool) : Channel :=
  { c with
    lastRepaired := interpolate g0 g1 len k
    run := if len ≤ k then .none else .short g0 g1 len (k + 1) cut }

/-- The next sample of a LONG run holds g0 (R123). -/
def Channel.longStep (c : Channel) (g0 : Int) : Channel := { c with lastRepaired := g0, run := .long g0 }

/-- The first sample of a run is repaired by the rule of its class (R121). -/
def Channel.begin (c : Channel) : Run → Channel
  | .short g0 g1 len k cut => c.shortStep g0 g1 len k cut
  | .long g0 => c.longStep g0
  | .none => c

/-- A drawn sample of a channel in run state NONE: itself when unerased, and otherwise the first of a run that `decide`
decides from `g0` (R121). -/
def Channel.fromNone (c : Channel) (v : Int) (erased : Bool) (g0 : Int) (decide : Int → Run) : Channel :=
  if erased then c.begin (decide g0) else c.good v

/-- The cut of R125 has released the rest of the run, and this is the channel's first sample after the head block. -/
def Channel.cutHere (c : Channel) (offset : Nat) : Bool :=
  match c.run with
  | .short _ _ _ _ cut => cut && decide (offset = 0)
  | .none => false
  | .long _ => false

/-- A channel repairs a drawn sample with head frame offset `offset` (R119, R121 to R123, R125). -/
def Channel.repair (c : Channel) (offset : Nat) (v : Int) (erased : Bool) (decide : Int → Run) : Channel :=
  if c.cutHere offset then c.fromNone v erased c.lastRepaired decide
  else
    match c.run with
    | .none => c.fromNone v erased c.lastGood decide
    | .short g0 g1 len k cut => c.shortStep g0 g1 len k cut
    | .long g0 => if erased then c.longStep g0 else c.good v

/-- The channel's part of a fresh start (R120). -/
def Channel.freshen (c : Channel) : Channel := { c with lastGood := 0, lastRepaired := 0 }

/-- The channel's run state is LONG. -/
def Channel.isLong (c : Channel) : Bool :=
  match c.run with
  | .long _ => true
  | .none => false
  | .short _ _ _ _ _ => false

/-! ## The gain envelope (R126 to R128) -/

/-- A gain steps one place toward its target (R126). -/
def stepGain (g t : Nat) : Nat := if g < t then g + 1 else if t < g then g - 1 else g

/-- The output value of a repaired value at a gain, rounding toward zero (R126). -/
def scale (v : Int) (g : Nat) : Int := Int.tdiv (v * (g : Int)) 256

/-- A channel decides its target and steps its gain; `hush` tells that a condition of R127 that holds for the whole zone
holds (R126, R127). -/
def Channel.envelope (c : Channel) (hush : Bool) : Channel :=
  let t := if hush || c.isLong then 0 else 256
  { c with target := t, gain := stepGain c.gain t }

/-- The value a channel outputs (R126, R129). -/
def Channel.output (c : Channel) : Int := scale c.lastRepaired c.gain

/-- The starvation rule holds for zone `z` (R128). -/
def State.starving (s : State) (z : ZoneId) : Bool :=
  decide ((s.zone z).supply ≠ .ended) &&
    decide (s.framesAhead z ≤ max (s.oc.get z).left.gain (s.oc.get z).right.gain)

/-- A condition of R127 that holds for the whole of zone `z`; `drawing` is the drawing mark at this frame event. -/
def State.silenced (s : State) (z : ZoneId) (drawing : Bool) : Bool :=
  decide ((s.zone z).play ≠ .playing) || (s.zone z).pendingAny || !drawing || decide (s.fill z = 0) || s.starving z ||
    s.pc.silence

/-! ## The frame event (R117, R119, R120, R129, R131, R134) -/

/-- The drawing mark at this frame event (R120). -/
def State.drawingNow (s : State) (z : ZoneId) : Bool :=
  let c := s.oc.get z
  decide ((s.zone z).play = .playing) &&
    (c.drawing || (decide (c.left.gain = 0) && decide (c.right.gain = 0)) || c.drawAtOnce)

/-- The concealer of zone `z` draws from the chain at this frame event (R119, R134). -/
def State.draws (s : State) (z : ZoneId) : Bool :=
  s.drawingNow z && decide (s.fill z ≠ 0) && !s.pc.silenceDone

/-- The frame to be drawn is the first of a block that carries a new read of the address the last cut right behind the head
block released: a run decided here is decided across that cut (R125). -/
def State.acrossCut (s : State) (z : ZoneId) : Bool :=
  decide ((s.zone z).offset = 0) && (s.oc.get z).cutAt.isSome && decide (s.headAddr z = (s.oc.get z).cutAt)

/-- Channel `d` of zone `z` draws its sample of the frame (R119). A new run decided across a cut takes the last repaired value
as its g0, and any other the last good value (R121, R125). -/
def State.drawChannel (s : State) (z : ZoneId) (d : Side) (c : Channel) : Channel :=
  match s.ahead z d 0 with
  | some (v, erased) =>
    let decided := fun g0 => s.decideRun z d g0
    if s.acrossCut z = true ∧ c.run = .none then c.fromNone v.toInt erased c.lastRepaired decided
    else c.repair (s.zone z).offset v.toInt erased decided
  | none => c

/-- A channel of zone `z` at a frame event, but for its gain: after a fresh start where the mark asks for one, its sample is
drawn and repaired; when no frame is drawn it keeps its held value (R119, R120, R129). -/
def State.channelValue (s : State) (z : ZoneId) (d : Side) (c : Channel) : Channel :=
  if s.draws z then s.drawChannel z d (if (s.oc.get z).fresh then c.freshen else c) else c

/-- The concealer of zone `z` after a frame event (R119, R120, R126, R127). -/
def State.concealed (s : State) (z : ZoneId) : Concealer :=
  let c := s.oc.get z
  let drawing := s.drawingNow z
  let l := (s.channelValue z .left c.left).envelope (s.silenced z drawing)
  let r := (s.channelValue z .right c.right).envelope (s.silenced z drawing)
  { c with
    left := l, right := r, drawing := drawing, fresh := c.fresh && !s.draws z, outL := l.output, outR := r.output }

/-- What follows a drawn frame: the head frame offset rises, and after frame 479 the head block is heard (R29, R119). -/
def State.afterDraw (s : State) (z : ZoneId) : State :=
  if 479 ≤ (s.zone z).offset then s.hearZone z else s.modZone z fun r => { r with offset := r.offset + 1 }

/-- Both gains stand at 0 while an action is pending: it takes effect, with a ZONE notice REQUEST-DONE (R43, R50, R131). -/
def State.reportZero (s : State) (z : ZoneId) : State :=
  if !s.audible z && (s.zone z).pendingAny then (s.pendingEffect z).zoneNotice z .requestDone else s

/-- A frame event of zone `z` (R117). -/
def State.frame (s : State) (z : ZoneId) : State :=
  let s1 := s.modOc z fun _ => s.concealed z
  let s2 := if s.draws z then s1.afterDraw z else s1
  (s2.reportZero z).reportSilence

/-- In single-zone strap AUDIO B carries zero samples (R117, R130). -/
def State.frameEvent (s : State) (z : ZoneId) : State :=
  if z = .b ∧ s.straps.singleZone = true then s.modOc .b fun c => { c with outL := 0, outR := 0 } else s.frame z

/-- The meaning of a frame event of zone `z`'s output (R117, R119, R126, R131). -/
def execFrameEvent (z : ZoneId) (s : State) : Host.Outcome State Fault Refusal := s.whenPowered fun t => t.frameEvent z

end Sys2Proof.Machine
end

