-- ==== Sys2Proof/Machine/ServoEvents.lean ====
section
/-! DEFINITION. The completions of the drive command bus, their failures and timeouts, tracking loss, and the timers of the
Drive Arbiter (R57 to R61, R70 to R73, R76). -/

namespace Sys2Proof.Machine

/-! ## Completions (R57, R58) -/

/-- The outstanding command that a completion naming `n` completes: none while the drive is HELD or in FAULT, when no command
is outstanding, and when the completion names another command (R58). -/
def State.completes (s : State) (n : ServoName) : Option Outstanding :=
  match s.da.out with
  | some o => if s.da.state ≠ .held ∧ s.da.state ≠ .fault ∧ o.cmd.name = n then some o else none
  | none => none

/-- A completion naming `n` has arrived: an ignored one changes nothing; after a soft start DA takes its start values; and
otherwise no command is outstanding, `f` is done, and a removal that waited takes effect when `f` leaves no command
outstanding (R56, R58, R71). -/
def State.complete (s : State) (n : ServoName) (f : Outstanding → State → State) : State :=
  match s.completes n with
  | none => s
  | some o =>
    if s.da.startDue then s.modDa Drive.takeStart
    else f o (s.modDa fun d => { d with out := none })

/-- A removal that waited for the last command takes effect (R71, R160). -/
def State.settle (s : State) : State := if s.da.out = none then s.modDa Drive.settleRemoval else s

/-- LOAD DONE (R57). -/
def State.loadCompletes (o : Outstanding) (s : State) : State :=
  match o.cmd with
  | .load n => (s.modDa fun d => { d with state := .down, slot := .slot n, speed := .known 0 }).settle
  | _ => s

/-- The meaning of LOAD DONE (R57). -/
def execLoadDone (s : State) : Host.Outcome State Fault Refusal := s.whenPowered fun t => t.complete .load State.loadCompletes

/-- UNLOAD DONE; in the parking sequence SPIN 0 follows (R57, R166). That a removal which waited takes effect between the two, and
not only after SPIN 0, is the model's choice (log entry 58). -/
def State.unloadCompletes (_ : Outstanding) (s : State) : State :=
  let s1 := (s.modDa fun d => { d with state := .down, slot := .none, speed := .known 0 }).settle
  if s1.da.parkStage = .unloading then s1.parkSpin else s1

/-- The meaning of UNLOAD DONE (R57). -/
def execUnloadDone (s : State) : Host.Outcome State Fault Refusal :=
  s.whenPowered fun t => t.complete .unload State.unloadCompletes

/-- SPIN DONE: DOWN after SPIN 0, which ends the parking sequence, and READY otherwise (R57, R166). -/
def State.spinCompletes (o : Outstanding) (s : State) : State :=
  match o.cmd with
  | .spin 0 =>
    let s1 := (s.modDa fun d => { d with state := .down, speed := .known 0 }).settle
    if s1.da.parkStage = .spinning then s1.parkDone else s1
  | .spin n => (s.modDa fun d => { d with state := .ready, speed := .known n }).settle
  | _ => s

/-- The meaning of SPIN DONE (R57). -/
def execSpinDone (s : State) : Host.Outcome State Fault Refusal := s.whenPowered fun t => t.complete .spin State.spinCompletes

/-- SEEK DONE: READY, and the READ of a claim that is still LIVE follows (R57, R66). -/
def State.seekCompletes (_ : Outstanding) (s : State) : State :=
  let s1 := (s.modDa fun d => { d with state := .ready }).settle
  match s1.liveClaim with
  | some c => s1.sendRead c
  | none => s1

/-- The meaning of SEEK DONE (R57). -/
def execSeekDone (s : State) : Host.Outcome State Fault Refusal := s.whenPowered fun t => t.complete .seek State.seekCompletes

/-- PAUSE DONE: READY (R57, R70). -/
def State.pauseCompletes (_ : Outstanding) (s : State) : State := (s.modDa fun d => { d with state := .ready }).settle

/-- The meaning of PAUSE DONE (R57, R70). -/
def execPauseDone (s : State) : Host.Outcome State Fault Refusal :=
  s.whenPowered fun t => t.complete .pause State.pauseCompletes

/-- LATCH-OPEN DONE: DOWN, and an eject sequence goes to LATCH-WAIT with the latch timer started for 10 s (R57, R158). -/
def State.latchCompletes (_ : Outstanding) (s : State) : State :=
  let s1 := (s.modDa fun d => { d with state := .down }).settle
  if s1.lm.ejectStage = .unlatching then
    s1.modLm fun l => { l with ejectStage := .latchWait, latchTimer := ms 10000 }
  else s1

/-- The meaning of LATCH-OPEN DONE (R57, R158). -/
def execLatchOpenDone (s : State) : Host.Outcome State Fault Refusal :=
  s.whenPowered fun t => t.complete .latchOpen State.latchCompletes

/-- ABORT DONE: the aborted command is sent again with its full limit and the retry mark set; the drive state stays
(R59). -/
def State.abortCompletes (o : Outstanding) (s : State) : State :=
  match o.aborted with
  | some c => s.modDa fun d => { d with out := some ⟨c, true, c.limit, none⟩ }
  | none => s.settle

/-- The meaning of ABORT DONE (R59). -/
def execAbortDone (s : State) : Host.Outcome State Fault Refusal :=
  s.whenPowered fun t => t.complete .abort State.abortCompletes

/-! ## Failures and timeouts (R59, R60) -/

/-- The outstanding command `o` is treated as expired: it is aborted, or, with its retry mark set, the drive enters FAULT
with cause TIMEOUT; an expired ABORT gives FAULT with cause ABORT-FAILED (R59). -/
def State.expired (o : Outstanding) (s : State) : State :=
  if o.cmd = .abort then s.enterFault .abort .abortFailed
  else if o.retry then s.enterFault o.cmd.name .timeout
  else s.modDa fun d => { d with out := some ⟨.abort, false, Servo.abort.limit, some o.cmd⟩, blockTimer := .stopped }

/-- The current claim fails to start, with the drive left in `st` (R60). -/
def State.failedStart (s : State) (f : Drive → Drive) (empty : Bool) : State := ((s.modDa f).failStart empty).settle

/-- A failure for another reason than JAM and NO-DISC, or a NO-DISC of a command that has no row of its own (R60). -/
def State.failedOther (o : Outstanding) (s : State) : State :=
  match o.cmd with
  | .spin _ => s.failedStart (fun d => { d with state := .down, speed := .unknown }) false
  | .load _ => s.failedStart (fun d => { d with state := .down, slot := .unknown, speed := .unknown }) false
  | .seek _ => s.failedStart (fun d => { d with state := .ready }) false
  | .read => s.failedStart (fun d => { d with state := .ready }) false
  | .latchOpen =>
    let s1 := (s.modDa fun d => { d with state := .down }).settle
    if s1.lm.ejectStage = .unlatching then s1.ejectOver .ejectFailed else s1
  | .unload => s.enterFault .unload .unloadFailed
  | .pause => s.expired o
  | .abort => s.expired o

/-- NO-DISC: DOWN with no slot loaded and speed 0, and the claim fails to start (R60). -/
def State.failedEmpty (s : State) (empty : Bool) : State :=
  s.failedStart (fun d => { d with state := .down, slot := .none, speed := .known 0 }) empty

/-- The outstanding command `o` has completed FAILED for reason `r`: the first row of R60 that applies (R59, R60). -/
def State.failed (r : FailReason) (o : Outstanding) (s : State) : State :=
  match o.cmd, r with
  | .abort, _ => s.expired o
  | .pause, _ => s.expired o
  | _, .jam => s.enterFault o.cmd.name .jam
  | .unload, _ => s.enterFault .unload .unloadFailed
  | .spin 0, _ => s.enterFault .spin .spinFailed
  | .load _, .noDisc => s.failedEmpty true
  | .spin _, .noDisc => s.failedEmpty false
  | .seek _, .noDisc => s.failedEmpty false
  | .read, .noDisc => s.failedEmpty false
  | _, _ => s.failedOther o

/-- The meaning of a FAILED completion (R59, R60). -/
def execCommandFailed (cmd : ServoName) (reason : FailReason) (s : State) : Host.Outcome State Fault Refusal :=
  s.whenPowered fun t => t.complete cmd (State.failed reason)

/-- The command timer of the outstanding command expires (R56, R59). -/
def State.timeout (s : State) : State :=
  match s.da.out with
  | some o => if s.da.startDue then s.modDa Drive.takeStart else s.expired o
  | none => s

/-- The meaning of the expiry of the command timer (R59). -/
def execCommandTimeout (s : State) : Host.Outcome State Fault Refusal := s.whenPowered State.timeout

/-! ## Tracking loss (R57, R72) -/

/-- The owner of a claim takes the loss: LU for a link-up or refill in phase `ph`; a re-read, an audit and an identification
stay as they are (R72, R90, R91). -/
def State.lossToOwner (s : State) (c : Claim) (ph : Phase) : State :=
  match c.kind, c.zone with
  | .linkUp, some z => s.linkTrackLost z ph
  | .refill, some z => s.linkTrackLost z ph
  | _, _ => s

/-- The phase of the current tag (R7). -/
def State.tagPhase (s : State) : Phase := if s.tagAppending then .appending else .joining

/-- Tracking is lost: taken when the drive is READING under a LIVE claim (R72). -/
def State.trackingLost (s : State) : State :=
  match s.liveClaim with
  | some c => if s.da.state = .reading then (s.closeClaim .ended).lossToOwner c s.tagPhase else s
  | none => s

/-- The meaning of a TRACK-LOST report (R72). -/
def execTrackLost (s : State) : Host.Outcome State Fault Refusal := s.whenPowered State.trackingLost

/-- The block timer expires, which is taken as a TRACK-LOST report (R57, R72). -/
def State.blockTimeout (s : State) : State := if s.da.blockTimer = .stopped then s else s.trackingLost

/-- The meaning of the expiry of the block timer (R57). -/
def execBlockTimerExpiry (s : State) : Host.Outcome State Fault Refusal := s.whenPowered State.blockTimeout

/-! ## The grace timer and the idle timer (R73, R76) -/

/-- The grace timer expires: the part takes the bus back (R76). -/
def State.graceExpires (s : State) : State :=
  if s.da.hold = .revoking ∧ s.da.graceTimer ≠ .stopped then s.lapseHold else s

/-- The meaning of the expiry of the grace timer (R76). -/
def execGraceTimerExpiry (s : State) : Host.Outcome State Fault Refusal := s.whenPowered State.graceExpires

/-- The idle timer expires: DA sends SPIN 0 (R73). -/
def State.idleExpires (s : State) : State :=
  if s.da.idleTimer ≠ .stopped ∧ s.da.out = none ∧ s.da.state = .ready then s.send (.spin 0) .spinning else s

/-- The meaning of the expiry of the idle timer (R73). -/
def execIdleTimerExpiry (s : State) : Host.Outcome State Fault Refusal := s.whenPowered State.idleExpires

end Sys2Proof.Machine
end

