-- ==== Sys2Proof/Machine/ShockEvents.lean ====
section
/-! DEFINITION. The Shock Monitor's events (R93 to R95). -/

namespace Sys2Proof.Machine

/-- A claim that is READING is cancelled by a shock; a link-up or refill makes its zone the shocked zone, with its phase
(R94). -/
def State.shockCancels (s : State) : State :=
  match s.liveClaim with
  | some c =>
    if s.da.state = .reading then
      let s1 := s.closeClaim .cancelled
      match c.kind, c.zone with
      | .linkUp, some z => s1.modSm fun m => { m with shocked := some ⟨z, s.tagPhase⟩ }
      | .refill, some z => s1.modSm fun m => { m with shocked := some ⟨z, s.tagPhase⟩ }
      | _, _ => s1
    else s
  | none => s

/-- SM at a rise of the shock line (R94, steps 1 to 3). -/
def Shock.rise (m : Shock) : Shock :=
  let n := min 15 (m.count + 1)
  { m with count := n, roughRoad := m.roughRoad || decide (6 ≤ n), settleTimer := .stopped }

/-- The shock line's level. -/
def State.setShock (s : State) (high : Bool) : State := s.modPins fun p => { p with shockHigh := high }

/-- The meaning of a rise of the shock line (R94). -/
def execShockRise (s : State) : Host.Outcome State Fault Refusal :=
  if s.pc.state = .parked then .next (s.setShock true)
  else .next (State.finish s ((s.setShock true).modSm Shock.rise).shockCancels)

/-- The settle timer starts for the shock settle time (R93, R94). -/
def State.startSettle (s : State) : State :=
  s.modSm fun m => { m with settleTimer := ms (10 * s.params.shockSettle) }

/-- The meaning of a fall of the shock line (R94). -/
def execShockFall (s : State) : Host.Outcome State Fault Refusal :=
  if s.pc.state = .parked then .next (s.setShock false) else .next (State.finish s (s.setShock false).startSettle)

/-- LU takes the shocked zone: a FEEDING zone becomes REJOINING, with a fresh context when its cancelled claim was APPENDING
(R90, R91, R94). -/
def State.rejoinShocked (s : State) (x : Shocked) : State :=
  if (s.zone x.zone).supply = .feeding then
    match x.phase with
    | .appending => s.rejoin x.zone .shock
    | .joining => s.setSupply x.zone .rejoining .shock
  else s

/-- The settle timer expires: the mechanism is settled, and the shocked zone is handed to LU and cleared (R94). -/
def State.settled (s : State) : State :=
  if s.sm.settleTimer = .stopped then s
  else
    let s1 := s.modSm fun m => { m with settleTimer := .stopped, shocked := none }
    match s.sm.shocked with
    | some x => s1.rejoinShocked x
    | none => s1

/-- The meaning of the expiry of the settle timer (R94). -/
def execSettleTimerExpiry (s : State) : Host.Outcome State Fault Refusal := s.whenPowered State.settled

/-- SM judges the window just ended, and starts the next (R95). -/
def Shock.window (m : Shock) : Shock :=
  { m with
    roughRoad := if 6 ≤ m.count then true else if m.count ≤ 1 then false else m.roughRoad
    count := 0, windowTimer := ms 10000 }

/-- The window timer expires (R95); it runs in power state ACTIVE only (R93). -/
def State.windowEnds (s : State) : State := if s.sm.windowTimer = .stopped then s else s.modSm Shock.window

/-- The meaning of the expiry of the window timer (R95). -/
def execWindowTimerExpiry (s : State) : Host.Outcome State Fault Refusal := s.whenPowered State.windowEnds

end Sys2Proof.Machine
end

