-- ==== Sys2Proof/Machine/LoaderEvents.lean ====
section
/-! DEFINITION. The Loader Monitor's events: the magazine switch, its debounce timer, the slot timer, the eject button and
the latch timer (R153 to R161). -/

namespace Sys2Proof.Machine

/-- The magazine switch's level. -/
def State.setSwitch (s : State) (closed : Bool) : State := s.modPins fun p => { p with magClosed := closed }

/-- The switch closes: an ABSENT magazine is SETTLING, with the debounce timer started (R152, R153). -/
def State.switchCloses (s : State) : State :=
  if s.lm.magazine = .absent then
    s.modLm fun l => { l with magazine := .settling, debounce := ms (8 * s.params.magDebounce) }
  else s

/-- A magazine switch that stands at `closed` already changes nothing (R153); in PARKED a change wakes the part, and
otherwise `f` is done (R169). -/
def State.onSwitch (s : State) (closed : Bool) (f : State → State) : Host.Outcome State Fault Refusal :=
  if s.pins.magClosed = closed then .next s
  else
    let s1 := s.setSwitch closed
    if s.pc.state = .parked then .next (State.finish s (s1.wakeUp .magazine)) else .next (State.finish s (f s1))

/-- The meaning of the magazine switch closing (R153, R169). -/
def execMagazineSwitchCloses (s : State) : Host.Outcome State Fault Refusal := s.onSwitch true State.switchCloses

/-- The switch opens, and the magazine becomes ABSENT: with no removal effects from SETTLING, and otherwise with them; a
removal that does not end a completed eject makes the drive DOWN once no command is outstanding (R71, R160, R161). -/
def State.switchOpens (s : State) : State :=
  match s.lm.magazine with
  | .absent => s
  | .settling => s.magazineGone
  | .present => (s.magazineGone.removalEffects .removed).modDa Drive.removed
  | .ejecting =>
    if s.lm.ejectStage = .latchWait then s.magazineGone.removalEffects .ejected
    else (s.magazineGone.removalEffects .removed).modDa Drive.removed

/-- The meaning of the magazine switch opening (R153, R160, R169). -/
def execMagazineSwitchOpens (s : State) : Host.Outcome State Fault Refusal := s.onSwitch false State.switchOpens

/-- The debounce timer expires: a SETTLING magazine is seated (R153). -/
def State.debounced (s : State) : State :=
  if s.lm.magazine = .settling ∧ s.lm.debounce ≠ .stopped then s.inserted else s

/-- The meaning of the expiry of the debounce timer (R153). -/
def execDebounceTimerExpiry (s : State) : Host.Outcome State Fault Refusal := s.whenPowered State.debounced

/-- The current claim, when it is the LIVE identification, is ended by LM (R70, R155). -/
def State.endIdent (s : State) : State :=
  match s.liveClaim with
  | some c => if c.kind = .ident then s.closeClaim .ended else s
  | none => s

/-- The slot timer reaches 8 s: the slot ends with outcome UNREADABLE (R155). -/
def State.slotExpires (s : State) : State :=
  match s.lm.slotTimer, s.lm.queue with
  | .running, slot :: _ => s.endIdent.identOutcome slot .unreadable none false
  | _, _ => s

/-- The meaning of the expiry of the slot timer (R155). -/
def execSlotTimerExpiry (s : State) : Host.Outcome State Fault Refusal := s.whenPowered State.slotExpires

/-- The eject button is pressed: taken with a MAGAZINE notice BUTTON, or ignored (R157, R162). -/
def State.pressButton (s : State) : State :=
  if s.canEject then (s.takeEject.magNotice .button).ejectOrWait else s

/-- The meaning of a press of the eject button (R157). -/
def execEjectButton (s : State) : Host.Outcome State Fault Refusal := s.whenPowered State.pressButton

/-- The latch timer expires with the switch still closed: the eject is abandoned (R159). -/
def State.latchExpires (s : State) : State :=
  if s.lm.ejectStage = .latchWait ∧ s.lm.latchTimer ≠ .stopped then s.ejectOver .ejectAbandoned else s

/-- The meaning of the expiry of the latch timer (R159). -/
def execLatchTimerExpiry (s : State) : Host.Outcome State Fault Refusal := s.whenPowered State.latchExpires

end Sys2Proof.Machine
end

