-- ==== Sys2Proof/Machine/PowerEvents.lean ====
section
/-! DEFINITION. Power Control's events: the run line, the entry to PARKED, the wake, the soft start and power-up (chapter
10). -/

namespace Sys2Proof.Machine

/-- The run line's level. -/
def State.setRun (s : State) (high : Bool) : State := s.modPins fun p => { p with runHigh := high }

/-- A RESET is being carried out: it is the pending request and its reply is not formed (R170, R183). -/
def State.resetting (s : State) : Bool :=
  match s.cl.request with
  | some q => decide (q.frame.kind = 0x05) && decide (q.reply = none)
  | none => false

/-- The run line falls in ACTIVE: parking begins, or the fall is kept while a RESET is being carried out (R165). -/
def State.runFalls (s : State) : State :=
  if s.pc.state = .active then
    if s.resetting then s.modPc fun p => { p with runFell := true } else s.beginParking
  else s

/-- The meaning of a fall of the run line (R164, R165, R169). -/
def execRunLineFalls (s : State) : Host.Outcome State Fault Refusal :=
  if s.pc.state = .parked then .next (s.setRun false) else .next (State.finish s (s.setRun false).runFalls)

/-- The run line rises: in PARKING the wake pending mark is set with source RUN, unless it is set already (R164, R167). -/
def State.runRises (s : State) : State :=
  if s.pc.state = .parking ∧ s.pc.wakePending = none then s.modPc fun p => { p with wakePending := some .run } else s

/-- The meaning of a rise of the run line; in PARKED it wakes the part (R164, R167, R169). -/
def execRunLineRises (s : State) : Host.Outcome State Fault Refusal :=
  let s1 := s.setRun true
  if s.pc.state = .parked then .next (State.finish s (s1.wakeUp .run)) else .next (State.finish s s1.runRises)

/-- The conditions for entering PARKED (R168). -/
def State.canPark (s : State) : Bool :=
  decide (s.pc.state = .parking) && s.pc.driveDone && s.pc.silenceDone && decide (s.cl.transmitter = none) &&
    decide (s.cl.notices = [])

/-- In PARKED the outputs hold their lines low (R117, R168). -/
def Concealer.park (c : Concealer) : Concealer := { c with outL := 0, outR := 0 }

/-- The part enters PARKED: the check sum is stored, and the block memory is no longer kept (R19, R168). -/
def State.park (s : State) : State :=
  let s1 := s.modPc fun p => { p with state := .parked, checkSum := s.checkSum }
  (((s1.modBs fun st => { st with mem := [] }).modOc .a Concealer.park).modOc .b Concealer.park)

/-- The part enters PARKED, and wakes at once if the wake pending mark is set (R168). -/
def State.parkOrWake (s : State) : State :=
  let s1 := s.park
  match s.pc.wakePending with
  | some src => State.finish s (s1.wakeUp src)
  | none => s1

/-- The meaning of the entry to PARKED: nothing while a condition of R168 does not hold. -/
def execEnterParked (s : State) : Host.Outcome State Fault Refusal := if s.canPark then .next s.parkOrWake else .next s

/-- The input pins at a wake: the strap pins as presented, and the line that woke the part as its event leaves it (R169,
R171). -/
def wokenPins (p : Pins) (src : WakeSource) (straps : Straps) : Pins :=
  match src with
  | .run => { p with straps := straps, runHigh := true }
  | .link => { p with straps := straps }
  | .magazine => { p with straps := straps, magClosed := !p.magClosed }

/-- The meaning of a wake event, which finds a part that is not PARKED already awake (R169). -/
def execWake (source : WakeSource) (straps : Straps) (s : State) : Host.Outcome State Fault Refusal :=
  if s.pc.state = .parked then
    .next (State.finish s ((s.modPins fun p => wokenPins p source straps).wakeUp source))
  else .next s

/-- A soft start is due: a RESET is being carried out and every zone is STOPPED (R170). That the fade after an end of program (R41)
is not waited for, so that the start cuts such a gain to 0 (R118), is the model's choice (log entry 55). -/
def State.softDue (s : State) : Bool :=
  s.resetting && decide (s.zc.a.play = .stopped) && decide (s.zc.b.play = .stopped) && decide (s.pc.state = .active)

/-- The soft start: the warm-start changes of every block, the reply of RESET, and then the parking that a fall of the run
line has asked for (R165, R170, R183). -/
def State.softStart (s : State) : State :=
  let s1 := s.softChanges.reply 0x05 [powerCode .active]
  if s.pc.runFell then s1.beginParking else s1

/-- The meaning of the soft start (R170). -/
def execSoftStart (s : State) : Host.Outcome State Fault Refusal :=
  if s.softDue then .next (State.finish s s.softStart) else .next s

/-- The meaning of power being applied: a cold start, with no notice (R171). -/
def execPowerUp (pins : Pins) (s : State) : Host.Outcome State Fault Refusal :=
  .next { State.cold pins with free := s.free, pending := s.pending }

end Sys2Proof.Machine
end

