-- ==== Sys2Proof/Machine/Dispatch.lean ====
section
/-! DEFINITION. The meaning of every command: one arm per constructor. -/

namespace Sys2Proof.Machine

/-- The effect of one command on everything but the queue of waiting commands. -/
def exec (i : Instr) (s : State) : Host.Outcome State Fault Refusal :=
  match i with
  | .echo body => Sys2Proof.Machine.execEcho body s
  | .identify body => Sys2Proof.Machine.execIdentify body s
  | .configure body => Sys2Proof.Machine.execConfigure body s
  | .queryParam body => Sys2Proof.Machine.execQueryParam body s
  | .reset body => Sys2Proof.Machine.execReset body s
  | .standby body => Sys2Proof.Machine.execStandby body s
  | .hush body => Sys2Proof.Machine.execHush body s
  | .deviceStatus body => Sys2Proof.Machine.execDeviceStatus body s
  | .setRotation body => Sys2Proof.Machine.execSetRotation body s
  | .select body => Sys2Proof.Machine.execSelect body s
  | .play body => Sys2Proof.Machine.execPlay body s
  | .pause body => Sys2Proof.Machine.execPause body s
  | .resume body => Sys2Proof.Machine.execResume body s
  | .stop body => Sys2Proof.Machine.execStop body s
  | .seek body => Sys2Proof.Machine.execSeek body s
  | .zoneStatus body => Sys2Proof.Machine.execZoneStatus body s
  | .holdPickup body => Sys2Proof.Machine.execHoldPickup body s
  | .releasePickup body => Sys2Proof.Machine.execReleasePickup body s
  | .eject body => Sys2Proof.Machine.execEject body s
  | .resetDrive body => Sys2Proof.Machine.execResetDrive body s
  | .discRecord body => Sys2Proof.Machine.execDiscRecord body s
  | .defectList body => Sys2Proof.Machine.execDefectList body s
  | .trackList body => Sys2Proof.Machine.execTrackList body s
  | .forgetDisc body => Sys2Proof.Machine.execForgetDisc body s
  | .unknownKindFrame kind body => Sys2Proof.Machine.execUnknownKindFrame kind body s
  | .frameDiscarded bytes => Sys2Proof.Machine.execFrameDiscarded bytes s
  | .linkGapTimeout bytes => Sys2Proof.Machine.execLinkGapTimeout bytes s
  | .transmitFrameDone => Sys2Proof.Machine.execTransmitFrameDone s
  | .blockPresented block => Sys2Proof.Machine.execBlockPresented block s
  | .frameEvent z => Sys2Proof.Machine.execFrameEvent z s
  | .loadDone => Sys2Proof.Machine.execLoadDone s
  | .unloadDone => Sys2Proof.Machine.execUnloadDone s
  | .spinDone => Sys2Proof.Machine.execSpinDone s
  | .seekDone => Sys2Proof.Machine.execSeekDone s
  | .pauseDone => Sys2Proof.Machine.execPauseDone s
  | .latchOpenDone => Sys2Proof.Machine.execLatchOpenDone s
  | .abortDone => Sys2Proof.Machine.execAbortDone s
  | .commandFailed cmd reason => Sys2Proof.Machine.execCommandFailed cmd reason s
  | .trackLost => Sys2Proof.Machine.execTrackLost s
  | .commandTimeout => Sys2Proof.Machine.execCommandTimeout s
  | .blockTimerExpiry => Sys2Proof.Machine.execBlockTimerExpiry s
  | .graceTimerExpiry => Sys2Proof.Machine.execGraceTimerExpiry s
  | .idleTimerExpiry => Sys2Proof.Machine.execIdleTimerExpiry s
  | .shockRise => Sys2Proof.Machine.execShockRise s
  | .shockFall => Sys2Proof.Machine.execShockFall s
  | .settleTimerExpiry => Sys2Proof.Machine.execSettleTimerExpiry s
  | .windowTimerExpiry => Sys2Proof.Machine.execWindowTimerExpiry s
  | .magazineSwitchCloses => Sys2Proof.Machine.execMagazineSwitchCloses s
  | .magazineSwitchOpens => Sys2Proof.Machine.execMagazineSwitchOpens s
  | .debounceTimerExpiry => Sys2Proof.Machine.execDebounceTimerExpiry s
  | .slotTimerExpiry => Sys2Proof.Machine.execSlotTimerExpiry s
  | .ejectButton => Sys2Proof.Machine.execEjectButton s
  | .latchTimerExpiry => Sys2Proof.Machine.execLatchTimerExpiry s
  | .runLineFalls => Sys2Proof.Machine.execRunLineFalls s
  | .runLineRises => Sys2Proof.Machine.execRunLineRises s
  | .enterParked => Sys2Proof.Machine.execEnterParked s
  | .wake source straps => Sys2Proof.Machine.execWake source straps s
  | .softStart => Sys2Proof.Machine.execSoftStart s
  | .powerUp pins => Sys2Proof.Machine.execPowerUp pins s

end Sys2Proof.Machine
end

