-- ==== Sys2Proof/Safety.lean ====
section
/-! DEFINITION. What a safe run of the part is: the laws of the data book that hold in every state, one predicate each. No
meaning ends in a fault or a refusal, so a run is safe when these laws hold all along it. -/

namespace Sys2Proof.Machine

/-! ## The bucket pool (R20, R22, R23, R24, R25) -/

/-- The list of buckets that starts at bucket `h` and that the next-pointer entries join is `l`: the last bucket's entry is 0,
and an empty list starts at 0 (R20, R23, R24). -/
def Store.lists (st : Store) : Nat → List Nat → Prop
  | h, [] => h = 0
  | h, b :: l => h = b ∧ b ≠ 0 ∧ st.lists (st.nextOf b) l

/-- The chain of zone `z` is `l`, head first: its length and its tail are those of the zone record (R24). -/
def Store.chained (st : Store) (z : ZoneId) (l : List Nat) : Prop :=
  st.lists (st.chain.get z).head l ∧ l.length = (st.chain.get z).length ∧ (st.chain.get z).tail = l.getLast?.getD 0

/-- How often a field that holds a bucket number, 0 for none, holds bucket `b`. -/
def heldCount (field b : Nat) : Nat := if field ≠ 0 ∧ field = b then 1 else 0

/-- In how many places bucket `b` stands, when the free list is `fl`, the chains are `ch` and the buckets `ex` are in the
middle of a move (section 2.3). -/
def Store.placesOf (st : Store) (fl : List Nat) (ch : Pair (List Nat)) (ex : List Nat) (b : Nat) : Nat :=
  fl.count b + ch.a.count b + ch.b.count b + heldCount st.anchor.a b + heldCount st.anchor.b b + heldCount st.intake b +
    ex.count b

/-- The free list is `fl` and the chains are `ch`; every bucket 1..4,095 stands in exactly one place and no other number
stands in any; and the entries of the intake bucket, of the anchors and of bucket 0 hold 0 (R20, R22, R23, R24). -/
def Store.pooledAs (st : Store) (fl : List Nat) (ch : Pair (List Nat)) (ex : List Nat) : Prop :=
  st.lists st.freeHead fl ∧ fl.length = st.freeCount ∧ st.chained .a ch.a ∧ st.chained .b ch.b ∧
    (∀ b, st.placesOf fl ch ex b = if 1 ≤ b ∧ b ≤ 4095 then 1 else 0) ∧
    st.nextOf 0 = 0 ∧ st.nextOf st.anchor.a = 0 ∧ st.nextOf st.anchor.b = 0 ∧ st.nextOf st.intake = 0

/-- A zone holds an anchor bucket only while its chain is empty (R25). -/
def Store.anchored (st : Store) : Prop := ∀ z, (st.chain.get z).length ≠ 0 → st.anchor.get z = 0

/-- The bucket pool is sound: its tables are in canonical form, every bucket stands in exactly one place, and anchors stand
beside empty chains only (R20, R22, R23, R24, R25). -/
def Store.sound (st : Store) : Prop :=
  st.wf = true ∧ (∃ fl ch, st.pooledAs fl ch []) ∧ st.anchored

/-! ## Defect lists (R144) -/

/-- A defect list keeps the law of R144: at most 32 regions, in ascending order with at least 5 blocks between any two, each with
a hit count 1..15 and its first block at or below its last. -/
def lawfulRegions (l : List Region) : Prop :=
  l.length ≤ 32 ∧ (∀ r ∈ l, r.first ≤ r.last ∧ 1 ≤ r.hits ∧ r.hits ≤ 15) ∧
    l.Pairwise fun r x => r.last + 6 ≤ x.first

/-- A record's defect list keeps the law of R144, and no region of it reaches above address 479,999, the last of a disc (R1,
R144). -/
def discRegions (l : List Region) : Prop := lawfulRegions l ∧ ∀ r ∈ l, r.last ≤ 479999

/-- Every record's defect list keeps the law of R144, and there are eight records (R135). -/
def Directory.lawful (d : Directory) : Prop := d.records.length = 8 ∧ ∀ r ∈ d.records, discRegions r.defects

/-! ## The Control Link (R173) -/

/-- The bounds of the Control Link: at most 4 refusals and 16 notices wait, and no notice waits while the hush flag is set
(R173, R177, R178). -/
def Link.bounded (l : Link) : Prop :=
  l.refusals.length ≤ 4 ∧ l.notices.length ≤ 16 ∧ (l.hush = true → l.notices = [])

/-! ## The gains (R118, R126) -/

/-- The gain of channel `d` of zone `z` (R118). -/
def State.gain (s : State) (z : ZoneId) : Side → Nat
  | .left => (s.oc.get z).left.gain
  | .right => (s.oc.get z).right.gain

/-! ## The drive command bus and the rotation table (R58, R65) -/

/-- No command is outstanding while the drive is HELD or in FAULT, and the rotation table has sixteen entries, with the pointer at
one of them (R56, R58, R65). -/
def Drive.kept (d : Drive) : Prop :=
  ((d.state = .held ∨ d.state = .fault) → d.out = none) ∧ d.rotation.length = 16 ∧ d.rotPtr < 16

/-- The drive with servo command `c` sent afresh: it is outstanding for `limit` nanoseconds with its retry mark clear, the drive is
in state `st`, and the idle and block timers stop (R57, R58, R73). -/
def Drive.sending (d : Drive) (c : Servo) (limit : Nat) (st : DriveState) : Drive :=
  { d with out := some ⟨c, false, .running limit, none⟩, state := st, idleTimer := .stopped, blockTimer := .stopped }

/-! ## Disc records (R136, R140) -/

/-- Of the disc records, only the one that zone `z` has selected in `s` may differ in `t`: it has the SKIP-PRONE region [a..a] with
hit count 1 inserted into its defect list (R92, R145); at 480,000 nothing is inserted (log entry 39). -/
def State.marksSkip (s t : State) (z : ZoneId) (a : Nat) : Prop :=
  ∀ i, t.record i = (s.record i).map fun r =>
    if (s.zone z).selected = some i ∧ a ≤ 479999 then { r with defects := insertRegion r.defects ⟨a, a, .skipProne, 1⟩ } else r

/-- There are eight records, every record that is not FREE has a rank below the sequence value, which is at most 255, and no two
of them have the same fingerprint (R135, R136, R140). -/
def Directory.ranked (d : Directory) : Prop :=
  d.records.length = 8 ∧ d.sequence ≤ 255 ∧ (∀ r ∈ d.records, r.state ≠ .free → r.rank < d.sequence) ∧
    d.records.Pairwise fun r x => r.state ≠ .free → x.state ≠ .free → r.print ≠ x.print

/-! ## Parameters (R32, R37, R180) -/

/-- The range of a parameter that is not per zone and is clamped (R180). -/
def singleRange : Nat → Option (Nat × Nat)
  | 6 => some (8, 512)
  | 8 => some (1, 32)
  | 9 => some (0, 960)
  | 10 => some (10, 400)
  | 11 => some (2, 32)
  | 12 => some (8, 64)
  | 13 => some (1, 7)
  | 14 => some (128, 4096)
  | 15 => some (1, 255)
  | 16 => some (1, 50)
  | 17 => some (1, 255)
  | 18 => some (1, 100)
  | 19 => some (0, 1)
  | _ => none

/-- Every parameter stands in its range, the thresholds in theirs for the zone's quota; and the two quotas together do not exceed
4,092 while there are two zones (R26, R32, R37, R67, R180). -/
def lawfulParams (p : Params) (straps : Straps) : Prop :=
  (∀ z, 64 ≤ p.quota.get z ∧ p.quota.get z ≤ 4028) ∧ (straps.singleZone = false → p.quota.a + p.quota.b ≤ 4092) ∧
    (∀ z, 50 ≤ p.lowWater.get z ∧ p.lowWater.get z ≤ max 50 (p.quota.get z - 64)) ∧
    (∀ z, 10 ≤ p.startThr.get z ∧ p.startThr.get z ≤ p.quota.get z) ∧
    (∀ z, 10 ≤ p.restartThr.get z ∧ p.restartThr.get z ≤ p.quota.get z) ∧
    (p.refillSpeed = 1 ∨ p.refillSpeed = 2 ∨ p.refillSpeed = 4) ∧
    ∀ id lo hi v, singleRange id = some (lo, hi) → singleParam p id = some v → lo ≤ v ∧ v ≤ hi

/-! ## Requests (R175, R186) -/

/-- The table of request kinds: KIND, the body length that test 3 of R175 requires (none for ECHO), whether PARKING refuses the
request (R167), and its command (R186). -/
def requestTable : List (Byte × Option Nat × Bool × (List Byte → Instr)) :=
  [(0x01, none, false, .echo), (0x02, some 0, false, .identify), (0x03, some 4, true, .configure),
   (0x04, some 2, false, .queryParam), (0x05, some 0, true, .reset), (0x06, some 0, true, .standby),
   (0x07, some 1, false, .hush), (0x08, some 0, false, .deviceStatus), (0x09, some 16, true, .setRotation),
   (0x10, some 2, true, .select), (0x11, some 5, true, .play), (0x12, some 1, true, .pause), (0x13, some 1, true, .resume),
   (0x14, some 1, true, .stop), (0x15, some 5, true, .seek), (0x16, some 1, false, .zoneStatus),
   (0x20, some 0, true, .holdPickup), (0x21, some 0, true, .releasePickup), (0x22, some 0, true, .eject),
   (0x23, some 0, true, .resetDrive), (0x30, some 1, false, .discRecord), (0x31, some 2, false, .defectList),
   (0x32, some 2, false, .trackList), (0x33, some 1, true, .forgetDisc)]

/-- The part takes a request: it is ACTIVE, and no request is unanswered (R164, R175). -/
def State.listening (s : State) : Prop := s.pc.state = .active ∧ s.cl.request = none

/-- The link with the request frame `f` received and pending, and not yet answered (R173, R174, R175). -/
def Link.asking (l : Link) (f : Frame) : Link := { l with rx := .hunting, request := some ⟨f, none, 0⟩ }

/-- The link once the pending request, frame `f`, has its normal reply with body `body` (R175, R176). -/
def State.afterReply (s : State) (f : Frame) (body : List Byte) : Link :=
  (s.cl.asking f).formReply ⟨f.kind + 0x40, body⟩

/-- The link once the pending request, frame `f`, is refused for reason `r` (R175, R176). -/
def State.afterRefusal (s : State) (f : Frame) (r : Reason) : Link :=
  (s.cl.asking f).formReply ⟨0x7F, [f.kind, reasonCode r]⟩

/-! ## The line (R172, R174) -/

/-- The assembler takes bytes one after the other: its state after them, and the frames that they complete, in order (R174). -/
def Assembler.feed (a : Assembler) (gap : Timer) : List RxByte → Assembler × List Frame
  | [] => (a, [])
  | b :: l =>
    let (a1, f) := a.take gap b
    let (a2, fs) := Assembler.feed a1 gap l
    (a2, f.toList ++ fs)

/-- Bytes on the line, each well framed. -/
def lineBytes (l : List Byte) : List RxByte := l.map fun b => ⟨b, true⟩

end Sys2Proof.Machine
end

