-- ==== Sys2Proof/WellFormed.lean ====
section
/-! DEFINITION. Which commands can come in at the part's connections at all. `Machine.exec` is total: it has a
meaning for an ill-formed command too, and no meaning reads this check. -/

namespace Sys2Proof

/-- A frame body is 0..63 bytes (R172). -/
def bodyWf (body : List Byte) : Bool := decide (body.length ≤ 63)

/-- The 24 request kinds (R186). -/
def requestKinds : List Nat :=
  [0x01, 0x02, 0x03, 0x04, 0x05, 0x06, 0x07, 0x08, 0x09, 0x10, 0x11, 0x12, 0x13, 0x14, 0x15, 0x16, 0x20, 0x21, 0x22,
   0x23, 0x30, 0x31, 0x32, 0x33]

/-- A delivered block has 960 erasure flags, 960 samples unless it is LOST, and a track number 0..99 (R3, chapter 1,
The Delivered Block). -/
def PortBlock.wf (b : PortBlock) : Bool :=
  decide (b.track ≤ 99) && decide (b.flags.length = 960) &&
    match b.samples with
    | none => decide (b.decoder = .lost)
    | some l => decide (l.length = 960) && decide (b.decoder ≠ .lost)

/-- The well-formed commands. -/
def Instr.wf : Instr → Bool
  | .echo body => bodyWf body
  | .identify body => bodyWf body
  | .configure body => bodyWf body
  | .queryParam body => bodyWf body
  | .reset body => bodyWf body
  | .standby body => bodyWf body
  | .hush body => bodyWf body
  | .deviceStatus body => bodyWf body
  | .setRotation body => bodyWf body
  | .select body => bodyWf body
  | .play body => bodyWf body
  | .pause body => bodyWf body
  | .resume body => bodyWf body
  | .stop body => bodyWf body
  | .seek body => bodyWf body
  | .zoneStatus body => bodyWf body
  | .holdPickup body => bodyWf body
  | .releasePickup body => bodyWf body
  | .eject body => bodyWf body
  | .resetDrive body => bodyWf body
  | .discRecord body => bodyWf body
  | .defectList body => bodyWf body
  | .trackList body => bodyWf body
  | .forgetDisc body => bodyWf body
  | .unknownKindFrame kind body => !requestKinds.contains kind.toNat && bodyWf body
  | .frameDiscarded bytes => !bytes.isEmpty
  | .linkGapTimeout _ => true
  | .transmitFrameDone => true
  | .blockPresented block => block.wf
  | .frameEvent _ => true
  | .loadDone => true
  | .unloadDone => true
  | .spinDone => true
  | .seekDone => true
  | .pauseDone => true
  | .latchOpenDone => true
  | .abortDone => true
  | .commandFailed _ _ => true
  | .trackLost => true
  | .commandTimeout => true
  | .blockTimerExpiry => true
  | .graceTimerExpiry => true
  | .idleTimerExpiry => true
  | .shockRise => true
  | .shockFall => true
  | .settleTimerExpiry => true
  | .windowTimerExpiry => true
  | .magazineSwitchCloses => true
  | .magazineSwitchOpens => true
  | .debounceTimerExpiry => true
  | .slotTimerExpiry => true
  | .ejectButton => true
  | .latchTimerExpiry => true
  | .runLineFalls => true
  | .runLineRises => true
  | .enterParked => true
  | .wake _ _ => true
  | .softStart => true
  | .powerUp _ => true

end Sys2Proof
end

