-- ==== Sys2Proof/Certificates/Slice0/Obligations.lean ====
section
/-! DEFINITION. The statements for the provers. A command that is taken while the part is powered answers `.next (finish s e)`: `e`
is the command's own effect, which its statement gives whole, and `finish` is what every command ends with (R63, R69, R76), for
which `FinishLeavesTheRestAlone` and `ArbitrationTakesTheFirstClaimant` speak. Fields of the state that are the model's own (log
entry 6) stand in the statements beside the book's. -/

open Sys2Proof Sys2Proof.Machine

/-! ## The queue -/

/-- A step runs the command at the front of the queue. -/
def Obligations.StepRunsFrontCommand : Prop :=
  ∀ (c : Instr) (s : State) (rest : List Instr), s.pending = c :: rest → step s = exec c { s with pending := rest }

/-- With no command waiting the part idles, which is the model's choice (log entry 10). No word spells a command, so that
`decodeTableWord` answers none and `withFetchWord` changes nothing: the table of operations gives no row a bit, and what the two
answer for want of one is the model's choice too (log entry 11). -/
def Obligations.EmptyQueueIdlesAndNoWordIsACommand : Prop :=
  (∀ s : State, s.pending = [] → step s = .next s) ∧
    ∀ nbits w, decodeTableWord nbits w = none ∧ ∀ s : State, s.withFetchWord nbits w = s

/-! ## The starts -/

/-- Power is applied (R171, R23, R34, R36, R56, R135, R164, R173, R180). -/
def Obligations.PowerUpIsAColdStart : Prop :=
  ∀ (p : Pins) (s : State), ∃ t, exec (.powerUp p) s = .next t ∧ t.pins = p ∧ t.straps = p.straps ∧ t.params = .default ∧
    (∀ b, t.bs.nextOf b = if 1 ≤ b ∧ b ≤ 4094 then b + 1 else 0) ∧ t.bs.freeHead = 1 ∧ t.bs.freeCount = 4095 ∧
    (∀ z, t.bs.chain.get z = ⟨0, 0, 0⟩ ∧ t.bs.anchor.get z = 0 ∧ t.zone z = .cold ∧ t.oc.get z = .start ∧
      t.ctx z = none ∧ t.ru.lists.get z = []) ∧
    t.bs.intake = 0 ∧ t.bi = ⟨none, 1, none⟩ ∧ t.da = .cold ∧ t.sm = .start ∧ t.dd.records = List.replicate 8 .blank ∧
    t.dd.sequence = 0 ∧ t.lm.magazine = (if p.magClosed then .settling else .absent) ∧ t.lm.queue = [] ∧
    t.pc.state = .active ∧ t.cl = .start ∧ t.pending = s.pending

/-- What reset leaves, value by value (R7, R13, R23, R34, R36, R56, R79, R93, R96, R103, R118, R135, R136, R152, R164, R173,
R180). The levels of the pins at reset, and so the magazine's state, are the model's choice (log entry 1). -/
def Obligations.ResetLeavesTheStartValues : Prop :=
  let r := State.reset
  (r.bs.freeHead = 1 ∧ r.bs.freeCount = 4095 ∧ r.bs.intake = 0 ∧ r.bs.nextOf 1 = 2 ∧ r.bs.nextOf 4094 = 4095 ∧
    r.bs.nextOf 4095 = 0) ∧
  (r.bi.tag = none ∧ r.bi.nonGood = 1 ∧ r.bi.lastGood = none) ∧
  (∀ z, (r.zone z).play = .stopped ∧ (r.zone z).supply = .idle ∧ (r.zone z).selected = none ∧ (r.zone z).nextRead = none ∧
    (r.zone z).track = 0 ∧ (r.zone z).offset = 0 ∧ (r.zone z).resume = none ∧ (r.zone z).pendingAny = false ∧ r.fill z = 0) ∧
  (r.da.state = .down ∧ r.da.slot = .unknown ∧ r.da.speed = .unknown ∧ r.da.claim = none ∧ r.da.out = none ∧
    r.da.rotation = [.a, .b, .a, .b, .a, .b, .a, .b, .a, .b, .a, .b, .a, .b, .a, .b] ∧ r.da.rotPtr = 0 ∧ r.da.hold = .none) ∧
  (∀ z, r.ctx z = none ∧ r.lu.audit.get z = ⟨0, none, none, 0, false⟩ ∧ r.ru.lists.get z = []) ∧
  (r.sm.count = 0 ∧ r.sm.roughRoad = false ∧ r.sm.settleTimer = .stopped ∧ r.sm.shocked = none ∧
    r.sm.windowTimer = .running 10000000000) ∧
  (∀ z d, r.gain z d = 0 ∧ (r.oc.get z).drawing = false) ∧
  (r.dd.records = List.replicate 8 .blank ∧ r.dd.sequence = 0 ∧ r.dd.ident = none) ∧
  (r.lm.ejectStage = .none ∧ r.lm.queue = [] ∧ r.lm.failedStarts = 0) ∧
  (r.pc.state = .active ∧ r.pc.wakePending = none ∧ r.pc.driveDone = false ∧ r.pc.silenceDone = false) ∧
  (r.cl.rx.stage = .hunt ∧ r.cl.request = none ∧ r.cl.refusals = [] ∧ r.cl.notices = [] ∧ r.cl.hush = false ∧
    r.cl.lost = false ∧ r.cl.transmitter = none) ∧
  r.params.quota = ⟨2046, 2046⟩ ∧ r.params.lowWater = ⟨800, 800⟩ ∧ r.params.startThr = ⟨150, 150⟩ ∧
  r.params.restartThr = ⟨300, 300⟩ ∧ r.params.interpLimit = 16 ∧ r.params.burstLimit = 64

/-- The state after reset meets every law that the statements `StepKeeps…` say a step keeps. -/
def Obligations.ResetMeetsTheLaws : Prop :=
  State.reset.bs.sound ∧ State.reset.cl.bounded ∧ State.reset.dd.lawful ∧ State.reset.dd.ranked ∧ State.reset.da.kept ∧
    lawfulParams State.reset.params State.reset.straps ∧ ∀ z d, State.reset.gain z d ≤ 256

/-- A wake event finds the part PARKED: a warm start where the check sum agrees with the stored sum, a cold start where it does
not, and a WAKE notice (R168, R169, R171). The sum is over bytes that the data book does not lay out (log entry 3), so the
statement holds for every layout. That no run from reset reaches the cold start here, since nothing changes the retained state in
PARKED, is the model's choice (log entry 51). -/
def Obligations.WakeIsWarmOrCold : Prop :=
  ∀ (src : WakeSource) (straps : Straps) (s : State), s.pc.state = .parked →
    let p := wokenPins s.pins src straps
    let old : State := { s with pins := p }
    ∃ e : State, exec (.wake src straps) s = .next (State.finish s e) ∧
      (old.checkSum = old.pc.checkSum →
        e = old.warmStart.wakeNotice src 1 ∧ e.straps = s.straps ∧ e.params = s.params ∧ e.da.rotation = s.da.rotation ∧
          e.dd.sequence = s.dd.sequence ∧ e.pc.checkSum = s.pc.checkSum ∧
          ∀ z, e.zone z = { Zone.cold with selected := (s.zone z).selected }) ∧
      (old.checkSum ≠ old.pc.checkSum →
        e = old.coldStart.wakeNotice src 2 ∧ e.straps = straps ∧ e.params = .default ∧ e.dd.records = List.replicate 8 .blank ∧
          ∀ z, e.zone z = .cold) ∧
      e.pc.state = .active ∧ e.da.state = .down ∧ e.da.slot = .unknown ∧ e.bs.intake = 0 ∧
      (∀ z, e.bs.chain.get z = ⟨0, 0, 0⟩ ∧ e.bs.anchor.get z = 0 ∧ ∀ d, e.gain z d = 0) ∧
      e.pins = p ∧ e.cl.request = none ∧ (∃ n, e.cl.transmitter = some (.notice ⟨0x79, [wakeCode src, n]⟩)) ∧ e.pending = s.pending

/-- RESET leaves its request unanswered, and stops every zone as STOP does: a zone that is STOPPED, or has a stop pending, stands;
one that sounds becomes IDLE with the stop pending; and a silent one is STOPPED at once, its chain and anchor returned and its
next unheard frame written into its selected record as the resume point (R51, R53, R148, R170, R183). A STOP of a silent zone
writes that point too. Where both zones select one record, the last to stop sets it (R148); that this is zone B is the model's
choice (log entry 53). A soft start is due when a RESET is being carried out and every zone is STOPPED: every block takes its
start values (R34, R36, R56, R152, R164), what a soft start keeps is kept, and the reply of RESET is formed (R170, R173). A run
line that fell meanwhile then begins parking (R165). That the start values of DA wait for an outstanding command in the mark
`startDue` is the model's form of R56 (log entry 6), and that a soft start waits for no fade of a STOPPED zone is its choice (log
entry 55). -/
def Obligations.ResetStopsTheZonesAndRestarts : Prop :=
  let point := fun (s : State) (z : ZoneId) =>
    if s.fill z ≠ 0 then (s.headAddr z).map fun a => (⟨a, (s.zone z).offset⟩ : ResumePt)
    else match (s.zone z).resume with
      | some p => some p
      | none => (s.zone z).nextRead.map fun a => ⟨a, 0⟩
  let stopsAtOnce := fun (s : State) (z : ZoneId) =>
    (s.zone z).play ≠ .stopped ∧ (s.zone z).stopPending = false ∧ s.audible z = false
  (∀ s : State, s.listening → ∃ e : State, exec (.reset []) s = .next (State.finish s e) ∧
    e.cl.request.map (fun q => (q.frame, q.reply)) = some (⟨0x05, []⟩, none) ∧
    (∀ z,
      ((s.zone z).play = .stopped ∨ (s.zone z).stopPending = true → e.zone z = s.zone z) ∧
      ((s.zone z).play ≠ .stopped → (s.zone z).stopPending = false → s.audible z = true →
        e.zone z = { s.zone z with supply := .idle, stopPending := true, pausePending := false, seekPending := none } ∧
        e.bs.chain.get z = s.bs.chain.get z ∧ e.ctx z = none) ∧
      (stopsAtOnce s z →
        e.zone z = { Zone.cold with selected := (s.zone z).selected } ∧ e.bs.chain.get z = ⟨0, 0, 0⟩ ∧ e.bs.anchor.get z = 0 ∧
        e.ctx z = none ∧ e.ru.lists.get z = [] ∧ e.lu.audit.get z = ⟨0, none, none, 0, false⟩ ∧
        ∀ i r p, (s.zone z).selected = some i → s.record i = some r → point s z = some p →
          (z = .b ∨ ¬ stopsAtOnce s .b ∨ (s.zone .b).selected ≠ some i ∨ point s .b = none) →
          e.record i = some { r with resume := some p })) ∧
    e.pins = s.pins ∧ e.straps = s.straps ∧ e.params = s.params ∧ e.pc = s.pc ∧ e.sm = s.sm ∧ e.lm.queue = s.lm.queue ∧
    e.lm.magazine = s.lm.magazine ∧ e.pending = s.pending ∧ e.da.rotation = s.da.rotation ∧
    ((s.zone .a).play = .stopped → (s.zone .b).play = .stopped → e = { s with cl := s.cl.asking ⟨0x05, []⟩ })) ∧
  (∀ (s : State) (zb : Byte) (z : ZoneId) (i : Nat) (r : DiscRecord) (p : ResumePt), s.listening → zoneOf s.straps zb = some z →
    stopsAtOnce s z → (s.zone z).selected = some i → s.record i = some r → point s z = some p →
    ∃ e : State, exec (.stop [zb]) s = .next (State.finish s e) ∧ e.record i = some { r with resume := some p }) ∧
  (∀ s : State, s.softDue = true → s.pc.runFell = true → ∃ e : State, exec .softStart s = .next (State.finish s e) ∧
    e.pc.state = .parking ∧ e.pc.silence = true ∧ e.pc.silenceDone = true ∧ e.pc.runFell = false ∧
    (s.da.out = none → e.pc.driveDone = false ∧ e.da.parkStage = .waiting ∧ e.da.state = .down) ∧
    (∀ z, e.zone z = { Zone.cold with selected := (s.zone z).selected }) ∧ e.dd.records = s.dd.records.map departRecord ∧
    e.cl = ({ s.cl with notices := [], hush := false, lost := false } : Link).formReply ⟨0x45, [0]⟩) ∧
  ∀ s : State, s.softDue = true → s.pc.runFell = false → ∃ e : State, exec .softStart s = .next (State.finish s e) ∧
    (e.pins = s.pins ∧ e.straps = s.straps ∧ e.params = s.params ∧ e.dd.sequence = s.dd.sequence ∧
      e.da.rotation = s.da.rotation ∧ e.da.rotPtr = s.da.rotPtr ∧ e.pending = s.pending) ∧
    (∀ z, e.zone z = { Zone.cold with selected := (s.zone z).selected } ∧ e.bs.chain.get z = ⟨0, 0, 0⟩ ∧
      e.bs.anchor.get z = 0 ∧ e.oc.get z = .start) ∧
    e.bs.intake = 0 ∧ (s.bs.sound → e.bs.sound ∧ e.bs.freeCount = 4095) ∧
    e.bi = ⟨none, 1, none⟩ ∧ e.lu = .start ∧ e.sm = .start ∧ e.ru = .start ∧
    e.dd.records = s.dd.records.map departRecord ∧ e.dd.ident = none ∧
    (e.da.claim = none ∧ e.da.hold = .none ∧ e.da.out = s.da.out ∧
      (s.da.out = none → e.da = { Drive.cold with rotation := s.da.rotation, rotPtr := s.da.rotPtr }) ∧
      (s.da.out ≠ none → e.da.startDue = true ∧ e.da.state = s.da.state)) ∧
    e.lm = (if s.pins.magClosed then
      ⟨.settling, .running (8 * s.params.magDebounce * 1000000), .none, false, .stopped, [], .zero, 0⟩
      else ⟨.absent, .stopped, .none, false, .stopped, [], .zero, 0⟩) ∧
    e.pc = ⟨.active, s.pc.checkSum, none, false, false, false, false⟩ ∧
    e.cl = ({ s.cl with notices := [], hush := false, lost := false } : Link).formReply ⟨0x45, [0]⟩

/-! ## The laws that every step keeps -/

/-- Every step keeps the bucket pool sound: every bucket 1..4,095 stands in exactly one place, the lists are as the counts and
heads say, the tables are in canonical form, and an anchor stands beside an empty chain only; and a sound pool holds all 4,095
buckets, which is the conservation law (R20, R22, R23, R24, R25). -/
def Obligations.StepKeepsTheBucketPool : Prop :=
  (∀ s t : State, s.bs.sound → step s = .next t → t.bs.sound) ∧
  ∀ st : Store, st.sound → st.total = 4095

/-- Every step keeps the bounds of the Control Link: 4 refusals, 16 notices, and none while the hush flag is set (R173, R177,
R178). -/
def Obligations.StepKeepsTheLinkBounds : Prop :=
  ∀ s t : State, s.cl.bounded → step s = .next t → t.cl.bounded

/-- Every step keeps every defect list lawful (32 regions at most, within 0..479,999, in ascending order with at least 5 blocks
between two, and hit counts 1..15: R144), and keeps the ranks below the sequence value and the fingerprints distinct (R136, R140).
-/
def Obligations.StepKeepsTheDirectory : Prop :=
  (∀ s t : State, s.dd.lawful → step s = .next t → t.dd.lawful) ∧
  ∀ s t : State, s.dd.ranked → step s = .next t → t.dd.ranked

/-- Every step keeps the drive command bus: no command is outstanding while the drive is HELD or in FAULT; and the rotation table
keeps its sixteen entries, with the pointer at one of them (R58, R65). -/
def Obligations.StepKeepsTheDriveBus : Prop :=
  ∀ s t : State, s.da.kept → step s = .next t → t.da.kept

/-- Every step keeps every parameter in its range, and the sum of the quotas at most 4,092 while there are two zones (R26, R32,
R37, R67, R180). -/
def Obligations.StepKeepsTheParameterRanges : Prop :=
  ∀ s t : State, lawfulParams s.params s.straps → step s = .next t → lawfulParams t.params t.straps

/-- While the part stays powered a gain moves at a frame event of its own zone only, by one place at most, and stays in 0..256
(R118, R126). A start sets the gains to 0 (R118), so power-up, the soft start and the entry to PARKED stand apart. -/
def Obligations.GainsMoveOneStepAtFrameEvents : Prop :=
  ∀ (c : Instr) (s t : State), s.pc.state ≠ .parked → exec c s = .next t →
    (∀ p, c ≠ .powerUp p) → c ≠ .softStart → c ≠ .enterParked → ∀ z d,
      (t.gain z d ≠ s.gain z d →
        c = .frameEvent z ∧ (t.gain z d = s.gain z d + 1 ∨ s.gain z d = t.gain z d + 1)) ∧
      (s.gain z d ≤ 256 → t.gain z d ≤ 256)

/-- While the part stays powered, only CONFIGURE changes a parameter, only SELECT a selection, only SET-ROTATION the rotation
table, and nothing the straps (R35, R65, R171, R180). Commands that carry whole frames as bytes, and a frame of another kind
whose KIND is a request kind, stand apart, since their frames may be those requests. -/
def Obligations.SettingsChangeByTheirRequestsOnly : Prop :=
  ∀ (c : Instr) (s t : State), s.pc.state ≠ .parked → exec c s = .next t →
    (∀ p, c ≠ .powerUp p) → c ≠ .enterParked → (∀ k b, c = .unknownKindFrame k b → k.toNat ∉ requestKinds) →
    (∀ l, c ≠ .frameDiscarded l) → (∀ l, c ≠ .linkGapTimeout l) →
      t.straps = s.straps ∧ ((∀ b, c ≠ .configure b) → t.params = s.params) ∧
      ((∀ b, c ≠ .select b) → ∀ z, (t.zone z).selected = (s.zone z).selected) ∧
      ((∀ b, c ≠ .setRotation b) → t.da.rotation = s.da.rotation)

/-! ## What every command ends with -/

/-- What every command ends with (`finish`) leaves alone: pins, straps, parameters, Shock Monitor, Power Control, the waiting
commands, every place of the pool, every block but for its listed mark, the zone records but for their play and supply states, the
concealers but for the mark that goes with a change to PLAYING, the loader but for the eject stage and the slot timer, the records
but for their defect lists, the intake's counts, the audit contexts, the rotation table, and the pending request with its reply.
And while the pickup is in use, no parking sequence is about to begin, no granted hold is to be revoked and no burst is in its
APPENDING phase, it changes nothing (R63, R69, R76, R166). What else it does, beside the arbitration and the preparation of a
claim: a granted hold with a zone urgent or rejoining is revoked (R76), and that this goes by the state as it stands at the end of
every command, whether the zone has just become so or not, is the model's choice (log entry 14); a burst in its APPENDING phase
ends, with PAUSE, when the other zone's conditions have changed (that these are its claimant conditions of R38 is the model's
choice, log entry 15), that zone is pressing and this one stands at its floor (R69); a removal that waited takes effect when no
command is outstanding (R71, R160); an eject sequence sends UNLOAD, or LATCH-OPEN (R158); and a parking sequence begins, which
cancels the claim, and sends UNLOAD, or SPIN 0 with no slot loaded (R166). -/
def Obligations.FinishLeavesTheRestAlone : Prop :=
  (∀ old s : State, let t := State.finish old s
     (t.pins = s.pins ∧ t.straps = s.straps ∧ t.params = s.params ∧ t.sm = s.sm ∧ t.pc = s.pc ∧ t.pending = s.pending) ∧
     (t.bs.next = s.bs.next ∧ t.bs.freeHead = s.bs.freeHead ∧ t.bs.freeCount = s.bs.freeCount ∧ t.bs.chain = s.bs.chain ∧
       t.bs.anchor = s.bs.anchor ∧ t.bs.intake = s.bs.intake) ∧
     (s.bs.wf = true → ∀ b, (t.bs.bucket b).samples = (s.bs.bucket b).samples ∧ (t.bs.bucket b).flags = (s.bs.bucket b).flags ∧
       { t.info b with listed := (s.info b).listed } = s.info b) ∧
     (∀ z, { t.zone z with play := (s.zone z).play, supply := (s.zone z).supply } = s.zone z) ∧
     (∀ z, { t.oc.get z with drawAtOnce := (s.oc.get z).drawAtOnce } = s.oc.get z) ∧
     { t.lm with ejectStage := s.lm.ejectStage, slotTimer := s.lm.slotTimer } = s.lm ∧
     (t.dd.sequence = s.dd.sequence ∧
       t.dd.records.map (fun r => { r with defects := [] }) = s.dd.records.map fun r => { r with defects := [] }) ∧
     (t.bi.nonGood = s.bi.nonGood ∧ t.bi.lastGood = s.bi.lastGood) ∧ t.lu.audit = s.lu.audit ∧
     t.da.rotation = s.da.rotation ∧ t.cl.hush = s.cl.hush ∧
     t.cl.request.map (fun q => (q.frame, q.reply)) = s.cl.request.map fun q => (q.frame, q.reply)) ∧
  (∀ old s : State, s.driveBusy = true → (s.da.parkStage ≠ .waiting ∨ s.lm.ejectStage ≠ .none) →
    (s.da.hold = .granted → ∀ z, s.urgent z = false ∧ s.rejoinClaimant z = false) →
    (s.tagLive = false ∨ s.tagAppending = false) → State.finish old s = s) ∧
  ∀ old s : State,
    let t := State.finish old s
    let idle := s.driveBusy = false ∧ s.liveClaim = none ∧ s.da.removalDue = false
    let notPressed := s.tagLive = false ∨ s.tagAppending = false
    (s.da.hold = .granted → s.da.state = .held → (∃ z, s.urgent z = true ∨ s.rejoinClaimant z = true) → notPressed →
      s.da.parkStage ≠ .waiting → t = { s with
        da := { s.da with hold := .revoking, graceTimer := .running (s.params.holdGrace * 100 * 1000000) }
        cl := s.cl.notice ⟨0x75, [2]⟩ }) ∧
    (∀ c z, s.tagLive = true → s.tagAppending = true → s.da.hold ≠ .granted → s.da.parkStage = .none → s.da.state = .reading →
      s.da.out = none → s.da.claim = some c → c.standing = .live → (c.kind = .linkUp ∨ c.kind = .refill) → c.zone = some z →
      let w := z.other
      let presses := s.urgent w = true ∨ s.rejoinClaimant w = true ∧ s.fill w < s.params.lowWater.get w ∧
        ((s.zone w).play = .priming ∨ (s.zone w).play = .playing ∨ (s.zone w).play = .starved)
      (old.conditions w = s.conditions w ∨ ¬ presses ∨ s.fill z < s.params.lowWater.get z + 200 → t = s) ∧
      (old.conditions w ≠ s.conditions w → presses → s.params.lowWater.get z + 200 ≤ s.fill z → t = { s with
        da := { s.da.sending .pause 300000000 .stopping with claim := none }
        bi := { s.bi with tag := s.bi.tag.map fun x => { x with standing := .ended } } })) ∧
    (s.da.removalDue = true → s.driveBusy = false → t = State.finish old { s with da := { s.da with
      state := .down, slot := .unknown, speed := .unknown, idleTimer := .stopped, removalDue := false } }) ∧
    (idle → notPressed → s.da.hold ≠ .granted →
      let free := { s.da with claim := none }
      (s.lm.ejectStage = .unloading → s.da.slot ≠ .none → t = { s with da := free.sending .unload 12000000000 .loading }) ∧
      (s.lm.ejectStage = .unlatching ∨ s.lm.ejectStage = .unloading ∧ s.da.slot = .none → t = { s with
        da := free.sending .latchOpen 2000000000 .loading, lm := { s.lm with ejectStage := .unlatching } }) ∧
      (s.lm.ejectStage = .latchWait → t = { s with da := free }) ∧
      (s.lm.ejectStage = .none → (s.da.parkStage = .waiting ∨ s.da.parkStage = .settling) →
        (s.da.slot ≠ .none → t = { s with
          da := { free.sending .unload 12000000000 .loading with parkStage := .unloading } }) ∧
        (s.da.slot = .none → t = { s with
          da := { free.sending (.spin 0) 4000000000 .spinning with parkStage := .spinning } }))) ∧
    (s.da.parkStage = .waiting → s.lm.ejectStage = .none → notPressed → s.da.hold ≠ .granted → s.da.state = .reading →
      s.da.out = none → ∀ c, s.liveClaim = some c → c.kind ≠ .hold →
        t.tagLive = false ∧ t.da = { s.da.sending .pause 300000000 .stopping with claim := none, parkStage := .settling })

/-- The order of an arbitration (R64): rejoin claimants, then urgent zones, each with the lower fill first and A when the fills
are equal; then the head of the identification queue; then a queued hold; then the zones with a re-read entry, whose lowest entry
below its cap is named (R108); then the zones with a pending audit; of two zones at these two orders the one whose disc is loaded,
and otherwise A; then the rotation table, read from its pointer on (R65); and with no claimant at all the idle timer starts in
READY (R73), and nothing else is changed. Every command ends with this arbitration when the pickup is free, the part is ACTIVE,
the mechanism settled and no service sequence under way (R63, R94), and in another case grants nothing. The claim granted, or one
that waits for its next command, is prepared: LOAD where another slot is loaded, which sets the swap mark, then SPIN where the
speed is another, then SEEK to the directory, to the target less 4, or to the next read address less the backoff of the anchor
chosen, or of the start (R66, R81); with no block that qualifies as an anchor the zone is RESYNC without a context (R81). These
are the model's choices: that every command ends with an arbitration, by the state as it then stands (log entry 14); that the
mechanism is unsettled whenever the shock line is high (log entry 16); and that a LINK-UP claim of a zone without a context is
given a fresh one (log entry 49). -/
def Obligations.ArbitrationTakesTheFirstClaimant : Prop :=
  (∀ s : State,
    (∀ z, s.lowerFill s.rejoinClaimant = some z →
      ∃ c, s.arbitrate.da.claim = some c ∧ c.kind = .linkUp ∧ c.zone = some z ∧ c.standing = .live) ∧
    (s.lowerFill s.rejoinClaimant = none → ∀ z, s.lowerFill s.urgent = some z →
      ∃ c, s.arbitrate.da.claim = some c ∧ c.kind = .refill ∧ c.zone = some z ∧ c.standing = .live) ∧
    (s.lowerFill s.rejoinClaimant = none → s.lowerFill s.urgent = none → ∀ slot rest, s.lm.queue = slot :: rest →
      ∃ c, s.arbitrate.da.claim = some c ∧ c.kind = .ident ∧ c.slot = some slot ∧ c.standing = .live) ∧
    (s.lowerFill s.rejoinClaimant = none → s.lowerFill s.urgent = none → s.lm.queue = [] → s.da.hold = .queued →
      s.arbitrate.da.hold = .granted ∧ s.arbitrate.da.state = .held ∧ s.arbitrate.da.slot = .unknown ∧
        s.arbitrate.da.speed = .unknown) ∧
    (∀ p : ZoneId → Bool, (s.lowerFill p = none ↔ ∀ z, p z = false) ∧
      (∀ z, s.lowerFill p = some z → p z = true ∧ (p z.other = true → s.fill z ≤ s.fill z.other)) ∧
      (p .a = true → p .b = true → s.fill .a = s.fill .b → s.lowerFill p = some .a)) ∧
    (s.lowerFill s.rejoinClaimant = none → s.lowerFill s.urgent = none → s.lm.queue = [] → s.da.hold ≠ .queued →
      s.da.claim = none →
      let onLoaded := fun z => (s.selSlot z).map Loaded.slot = some s.da.slot
      let first := fun (p : ZoneId → Prop) (z : ZoneId) =>
        p z ∧ (p z.other → onLoaded z ∧ ¬ onLoaded z.other ∨ z = .a ∧ (onLoaded z ∨ ¬ onLoaded z.other))
      let rereads := fun z => s.offered z = true ∧ s.ru.lists.get z ≠ []
      let audits := fun z => s.offered z = true ∧ (s.lu.audit.get z).target ≠ none
      let names := fun (r : RotEntry) (z : ZoneId) => s.refillClaimant z = true ∧ match r with
        | .a => z = .a
        | .b => z = .b
        | .any => s.refillClaimant z.other = true → s.fill z < s.fill z.other ∨ z = .a ∧ s.fill z ≤ s.fill z.other
      let entry := fun k => s.da.rotation.getD ((s.da.rotPtr + k) % 16) .any
      let grants := fun (k : ClaimKind) (z : ZoneId) (target : Option Nat) =>
        ∃ c, s.arbitrate.da.claim = some c ∧ c.kind = k ∧ c.zone = some z ∧ c.target = target ∧ c.standing = .live
      (∀ z e l, first rereads z → s.ru.lists.get z = e :: l → e.reads < s.cap z e.addr → grants .reread z (some e.addr)) ∧
      (∀ z d e l, first rereads z → s.ru.lists.get z = d :: e :: l → s.cap z d.addr ≤ d.reads → e.reads < 2 →
        grants .reread z (some e.addr) ∧ ∀ x ∈ s.arbitrate.ru.lists.get z, x.addr ≠ d.addr) ∧
      ((∀ z, ¬ rereads z) →
        (∀ z a, first audits z → (s.lu.audit.get z).target = some a → grants .audit z (some a)) ∧
        ((∀ z, ¬ audits z) → s.da.rotPtr < 16 →
          (∀ k z, k < 16 → names (entry k) z → (∀ j, j < k → ∀ w, ¬ names (entry j) w) →
            grants .refill z none ∧ s.arbitrate.da.rotPtr = (s.da.rotPtr + k + 1) % 16) ∧
          ((∀ z, s.refillClaimant z = false) → s.arbitrate =
            if s.da.state = .ready ∧ s.da.idleTimer = .stopped then
              { s with da := { s.da with idleTimer := .running (s.params.idleSpinDown * 1000 * 1000000) } }
            else s))))) ∧
  ∀ old s : State, s.driveBusy = false → s.da.removalDue = false → s.ejectRuns = false → s.da.parkStage = .none →
    (s.da.hold = .granted → ∀ z, s.urgent z = false ∧ s.rejoinClaimant z = false) →
    (s.tagLive = false ∨ s.tagAppending = false) →
    let t := State.finish old s
    let free : State := { s with da := { s.da with claim := none } }
    let prepares := fun (x : State) (c : Claim) =>
      let seeks := fun (y : State) (p : Place) => t = { y with
        da := { y.da.sending (.seek p) 1500000000 .seeking with claim := some { c with seek := some p } } }
      (x.da.slot ≠ .slot (c.slot.getD 0) → t = { x with
        da := { x.da.sending (.load (c.slot.getD 0)) 12000000000 .loading with claim := some { c with swap := true } } }) ∧
      (x.da.slot = .slot (c.slot.getD 0) → x.da.speed ≠ .known c.speed → t = { x with
        da := x.da.sending (.spin c.speed) 4000000000 .spinning }) ∧
      (x.da.slot = .slot (c.slot.getD 0) → x.da.speed = .known c.speed →
        (c.kind = .ident → seeks x .directory) ∧
        (c.kind = .reread ∨ c.kind = .audit → seeks x (.address (c.target.getD 0 - 4))) ∧
        ∀ z, (c.kind = .linkUp ∨ c.kind = .refill) → c.zone = some z →
          let y := (x.ctx z).getD (x.freshCtx z)
          let fit := fun (r : BlockRec) => r.stampStatus = .good ∨ r.featureless = false ∧ r.erasures ≤ 720
          let tested := fun d => d < 16 ∧ d < x.fill z ∧ (d = 0 ∨ d + 1 ≠ x.fill z)
          let block := fun d => x.info (x.bucketAt z (x.fill z - 1 - d))
          let kept := x.fill z = 0 ∧ x.bs.anchor.get z ≠ 0 ∧ fit (x.info (x.bs.anchor.get z))
          let begins := fun (a : AnchorRef) (d n : Nat) =>
            let ctx : LinkCtx := { y with stage := .searching, anchor := a, d := d, verify := none, windowLeft := y.window }
            seeks { x with lu := { x.lu with ctx := x.lu.ctx.set z (some ctx) } } (.address (x.nextAddr z - n))
          (y.mode = .locate → begins .none 0 y.backoff) ∧
          (y.mode = .anchor →
            (kept → begins .bucket 0 (y.backoff + 1)) ∧
            (∀ d, tested d → fit (block d) → (∀ j, j < d → ¬ (tested j ∧ fit (block j))) →
              begins (.chain ((block d).expected.getD 0)) d (y.backoff + (d + 1))) ∧
            (¬ kept → (∀ d, ¬ (tested d ∧ fit (block d))) →
              ((s.zone z).supply = .feeding ∨ (s.zone z).supply = .rejoining) →
              (t.zone z).supply = .resync ∧ t.ctx z = none)))
    (s.pc.state ≠ .active ∨ s.unsettled = true → s.liveClaim = none → t = free) ∧
    (s.pc.state = .active → ∀ c, s.liveClaim = some c → c.kind ≠ .hold → prepares s c) ∧
    (s.pc.state = .active → s.unsettled = false → s.liveClaim = none →
      (free.arbitrate.da.claim = none → t = free.arbitrate) ∧
      ∀ c, free.arbitrate.da.claim = some c →
        (c.kind = .hold → t = free.arbitrate) ∧ (c.kind ≠ .hold → prepares free.arbitrate c))

/-! ## The line and the tests of a request -/

/-- An assembler in HUNT that takes the bytes of a frame, SYNC to CHECK, completes that frame and no other, and stands in HUNT again
(R172, R174): what the transmitter's layout writes, the receive assembler reads back. -/
def Obligations.AssemblerReadsEveryFrameBack : Prop :=
  ∀ (f : Frame) (gap : Timer), f.body.length ≤ 63 →
    Assembler.feed .hunting gap (lineBytes (frameBytes f)) = (.hunting, [f])

/-- A frame whose last byte is any other than its CHECK byte is no frame, and so is one whose LEN is 0 or above 64; bytes before a
SYNC are passed over (R172, R174). Bytes that complete no frame leave the assembler where they bring it, and a gap then brings it to
HUNT; nothing else is changed. -/
def Obligations.BadFramesAreDiscarded : Prop :=
  ((∀ (f : Frame) (gap : Timer) (x : Byte), f.body.length ≤ 63 → x ≠ checkByte f.kind f.body →
     Assembler.feed .hunting gap (lineBytes ([0xC3, byte (f.body.length + 1), f.kind] ++ f.body ++ [x])) = (.hunting, [])) ∧
   (∀ (n : Byte) (gap : Timer), n.toNat = 0 ∨ 64 < n.toNat → Assembler.feed .hunting gap (lineBytes [0xC3, n]) = (.hunting, [])) ∧
   ∀ (l : List RxByte) (gap : Timer), (∀ b ∈ l, b.value ≠ 0xC3) → Assembler.feed .hunting gap l = (.hunting, [])) ∧
  ∀ (s : State) (l : List RxByte), s.pc.state ≠ .parked → (Assembler.feed s.cl.rx (gapTime s.straps) l).2 = [] →
    (l ≠ [] → exec (.frameDiscarded l) s =
      .next (State.finish s { s with cl := { s.cl with rx := (Assembler.feed s.cl.rx (gapTime s.straps) l).1 } })) ∧
    exec (.linkGapTimeout l) s = .next (State.finish s { s with cl := { s.cl with rx := .hunting } })

/-- The tests of R175, each of which changes nothing but the link. Test 1: a frame completed while a request is unanswered changes
nothing but the refusal list, which takes a BUSY refusal while it holds fewer than 4. Tests 2, 3 and 4: a frame of another kind
than a request kind is refused with UNKNOWN-KIND; a body of another length than the request's with BAD-LENGTH (R186); and in
PARKING the requests of R167 with WRONG-STATE. -/
def Obligations.FramesAreTestedInOrder : Prop :=
  (∀ (s : State) (q : PendingReq) (body : List Byte), s.pc.state ≠ .parked → s.cl.request = some q → body.length ≤ 63 →
     (∀ row ∈ requestTable, exec (row.2.2.2 body) s =
       .next (State.finish s { s with cl := ({ s.cl with rx := .hunting } : Link).busy row.1 })) ∧
     (∀ k : Byte, k.toNat ∉ requestKinds → exec (.unknownKindFrame k body) s =
       .next (State.finish s { s with cl := ({ s.cl with rx := .hunting } : Link).busy k })) ∧
     (∀ k x, s.cl.transmitter = some x → s.cl.refusals.length < 4 →
       s.cl.busy k = { s.cl with refusals := s.cl.refusals ++ [⟨0x7F, [k, 5]⟩] }) ∧
     (∀ k, 4 ≤ s.cl.refusals.length → s.cl.busy k = s.cl)) ∧
  (∀ (s : State) (k : Byte) (body : List Byte), s.pc.state ≠ .parked → s.cl.request = none → body.length ≤ 63 →
     k.toNat ∉ requestKinds →
     exec (.unknownKindFrame k body) s = .next (State.finish s { s with cl := s.afterRefusal ⟨k, body⟩ .unknownKind })) ∧
  (∀ row ∈ requestTable, ∀ (s : State) (n : Nat) (body : List Byte), s.pc.state ≠ .parked → s.cl.request = none →
     body.length ≤ 63 → row.2.1 = some n → body.length ≠ n →
     exec (row.2.2.2 body) s = .next (State.finish s { s with cl := s.afterRefusal ⟨row.1, body⟩ .badLength })) ∧
  ∀ row ∈ requestTable, ∀ (s : State) (body : List Byte), s.pc.state = .parking → s.cl.request = none → body.length ≤ 63 →
    (∀ n, row.2.1 = some n → body.length = n) → row.2.2.1 = true →
    exec (row.2.2.2 body) s = .next (State.finish s { s with cl := s.afterRefusal ⟨row.1, body⟩ .wrongState })

/-- A zone byte other than 0 and 1, or 1 in single-zone strap, is refused with BAD-VALUE by every zone request (R45); and an id
outside 1..19, a per-zone id with a bad zone, and id 2 in single-zone strap by CONFIGURE and QUERY-PARAM (R180, R181). -/
def Obligations.ZonesAndParametersAreNamedRight : Prop :=
  (∀ (s : State) (z : Byte), s.listening → (1 < z.toNat ∨ z = 1 ∧ s.straps.singleZone = true) →
     (∀ x, exec (.select [z, x]) s = .next (State.finish s { s with cl := s.afterRefusal ⟨0x10, [z, x]⟩ .badValue })) ∧
     (∀ k a b c, exec (.play [z, k, a, b, c]) s =
       .next (State.finish s { s with cl := s.afterRefusal ⟨0x11, [z, k, a, b, c]⟩ .badValue })) ∧
     exec (.pause [z]) s = .next (State.finish s { s with cl := s.afterRefusal ⟨0x12, [z]⟩ .badValue }) ∧
     exec (.resume [z]) s = .next (State.finish s { s with cl := s.afterRefusal ⟨0x13, [z]⟩ .badValue }) ∧
     exec (.stop [z]) s = .next (State.finish s { s with cl := s.afterRefusal ⟨0x14, [z]⟩ .badValue }) ∧
     (∀ k a b c, exec (.seek [z, k, a, b, c]) s =
       .next (State.finish s { s with cl := s.afterRefusal ⟨0x15, [z, k, a, b, c]⟩ .badValue })) ∧
     exec (.zoneStatus [z]) s = .next (State.finish s { s with cl := s.afterRefusal ⟨0x16, [z]⟩ .badValue })) ∧
  ∀ (s : State) (id zone vh vl : Byte), s.listening →
    (id = 0 ∨ 19 < id.toNat ∨ (id = 3 ∨ id = 4 ∨ id = 5) ∧ zoneOf s.straps zone = none ∨
      id = 2 ∧ s.straps.singleZone = true) →
    exec (.configure [id, zone, vh, vl]) s =
      .next (State.finish s { s with cl := s.afterRefusal ⟨0x03, [id, zone, vh, vl]⟩ .badValue }) ∧
    exec (.queryParam [id, zone]) s = .next (State.finish s { s with cl := s.afterRefusal ⟨0x04, [id, zone]⟩ .badValue })

/-! ## The device-wide requests -/

/-- ECHO answers its body, IDENTIFY the eight bytes of R179, DEVICE-STATUS the eight bytes of R182, QUERY-PARAM the value in force,
for the zone named where the parameter is per zone, and ZONE-STATUS the zone's fields as they stand, in ACTIVE and in PARKING;
DEVICE-STATUS clears the notices-lost flag, and nothing else is changed (R33, R55, R179, R181, R182). -/
def Obligations.QueriesAnswerAndChangeNothing : Prop :=
  (∀ s : State, s.pc.state ≠ .parked → s.cl.request = none →
     (∀ body, body.length ≤ 63 → exec (.echo body) s = .next (State.finish s { s with cl := s.afterReply ⟨0x01, body⟩ body })) ∧
     let body : List Byte :=
       [0x43, 0x58, 0x32, 0x36, 0x01, if s.straps.rate = .r57600 then 1 else 2, if s.straps.singleZone then 1 else 2,
        if s.straps.singleSlot then 1 else 6]
     exec (.identify []) s = .next (State.finish s { s with cl := s.afterReply ⟨0x02, []⟩ body })) ∧
  (∀ s : State, s.pc.state ≠ .parked → s.cl.request = none →
     exec (.deviceStatus []) s = .next (State.finish s { s with cl :=
       ({ s.cl.asking ⟨0x08, []⟩ with lost := false } : Link).formReply ⟨0x48,
         [driveCode s.da.state, loadedCode s.da.slot, magazineCode s.lm.magazine, holdCode s.da.hold, byte s.sm.count,
          if s.sm.roughRoad then 1 else 0, powerCode s.pc.state, if s.cl.lost then 1 else 0]⟩ })) ∧
  (∀ (s : State) (zone : Byte), s.pc.state ≠ .parked → s.cl.request = none →
     let done := fun (id : Byte) (v : Nat) => State.finish s { s with cl := s.afterReply ⟨0x04, [id, zone]⟩ ([id, zone] ++ be2 v) }
     exec (.queryParam [1, zone]) s = .next (done 1 s.params.quota.a) ∧
     (s.straps.singleZone = false → exec (.queryParam [2, zone]) s = .next (done 2 s.params.quota.b)) ∧
     (∀ z, zoneOf s.straps zone = some z →
       exec (.queryParam [3, zone]) s = .next (done 3 (s.params.lowWater.get z)) ∧
       exec (.queryParam [4, zone]) s = .next (done 4 (s.params.startThr.get z)) ∧
       exec (.queryParam [5, zone]) s = .next (done 5 (s.params.restartThr.get z))) ∧
     ∀ (id : Byte) v, singleParam s.params id.toNat = some v → exec (.queryParam [id, zone]) s = .next (done id v)) ∧
  ∀ (s : State) (zb : Byte) (z : ZoneId), s.pc.state ≠ .parked → s.cl.request = none → zoneOf s.straps zb = some z →
    let r := s.zone z
    let u := s.lu.audit.get z
    let body := [zb, playCode r.play, supplyCode r.supply, r.pendingCode] ++ be2 (s.bs.chain.get z).length ++
      be2 (s.params.quota.get z - (s.bs.chain.get z).length) ++ optAddr (s.headAddr z) ++ be2 r.offset ++
      [byte r.track, byte (s.ru.lists.get z).length, byte (((s.ctx z).map (·.failed)).getD 0), byte u.misses,
       if u.unverified then 1 else 0, optByte r.selected]
    exec (.zoneStatus [zb]) s = .next (State.finish s { s with cl := s.afterReply ⟨0x16, [zb]⟩ body })

/-- HUSH 1 sets the hush flag and discards the queued notices, unless it is set already; HUSH 0 clears it; another value is refused
with BAD-VALUE (R178). -/
def Obligations.HushSetsAndClears : Prop :=
  ∀ s : State, s.pc.state ≠ .parked → s.cl.request = none →
    (s.cl.hush = false → exec (.hush [1]) s = .next (State.finish s { s with cl :=
      ({ s.cl.asking ⟨0x07, [1]⟩ with hush := true, notices := [] } : Link).formReply ⟨0x47, [1]⟩ })) ∧
    (s.cl.hush = true → exec (.hush [1]) s = .next (State.finish s { s with cl := s.afterReply ⟨0x07, [1]⟩ [1] })) ∧
    exec (.hush [0]) s = .next (State.finish s { s with cl :=
      ({ s.cl.asking ⟨0x07, [0]⟩ with hush := false } : Link).formReply ⟨0x47, [0]⟩ }) ∧
    ∀ v : Byte, v ≠ 0 → v ≠ 1 → exec (.hush [v]) s = .next (State.finish s { s with cl := s.afterRefusal ⟨0x07, [v]⟩ .badValue })

/-- CONFIGURE of a parameter that is not per zone and is clamped (ids 6 and 8 to 19): the parameter takes the value clamped to its
range, the reply carries that value, and every other parameter and everything else stands. The refill speed (id 7) is mapped: 0
and 1 are applied as 1, 2 and 3 as 2, and 4 and above as 4 (R67, R180). -/
def Obligations.ConfigureClampsAParameter : Prop :=
  (∀ (s : State) (id zone vh vl : Byte) (lo hi : Nat), s.listening → singleRange id.toNat = some (lo, hi) →
     let w := max lo (min hi (nat2 vh vl))
     ∃ p, exec (.configure [id, zone, vh, vl]) s =
         .next (State.finish s { s with params := p, cl := s.afterReply ⟨0x03, [id, zone, vh, vl]⟩ ([id, zone] ++ be2 w) }) ∧
       singleParam p id.toNat = some w ∧ (∀ j, j ≠ id.toNat → singleParam p j = singleParam s.params j) ∧
       p.quota = s.params.quota ∧ p.lowWater = s.params.lowWater ∧ p.startThr = s.params.startThr ∧
       p.restartThr = s.params.restartThr) ∧
  ∀ (s : State) (zone vh vl : Byte), s.listening →
    let v := nat2 vh vl
    let w := if v ≤ 1 then 1 else if v ≤ 3 then 2 else 4
    exec (.configure [7, zone, vh, vl]) s = .next (State.finish s
      { s with params := { s.params with refillSpeed := w }, cl := s.afterReply ⟨0x03, [7, zone, vh, vl]⟩ ([7, zone] ++ be2 w) })

/-- CONFIGURE of a zone's threshold (ids 3, 4 and 5): that zone's threshold takes the value clamped to its range for the zone's
quota, the other zone's stands, and R39 and R40 are tested again at once (R37, R39, R40, R180): a PRIMING zone at its start
threshold, with room below 32, or with blocks and no more coming is PLAYING, with a notice PRIMED; a STARVED zone that is FEEDING
at its restart threshold or with room below 32, or has blocks and no more coming, is PLAYING, with a notice REFILLED (its fade
draws at once, R120); any other stands. CONFIGURE of a quota (ids 1 and 2): refused with WRONG-STATE unless both zones are
STOPPED; clamped to 64..4,028; refused with BAD-VALUE when the sum with the other zone's quota is above 4,092; and otherwise the
quota takes the value and that zone's thresholds are clamped again (R32, R37, R180). Zone B's quota does not count, and is
refused, in single-zone strap. -/
def Obligations.ConfigureSetsAZonesParameters : Prop :=
  (∀ (s : State) (zone vh vl : Byte) (z : ZoneId), s.listening → zoneOf s.straps zone = some z →
     let q := s.params.quota.get z
     let v := nat2 vh vl
     let low := max 50 (min (max 50 (q - 64)) v)
     let thr := max 10 (min q v)
     let done := fun (id : Byte) (p : Params) (w : Nat) =>
       State.finish s (State.reply
         (((({ s with cl := s.cl.asking ⟨0x03, [id, zone, vh, vl]⟩ } : State).modParams fun _ => p).testReady .a).testReady .b)
         0x03 ([id, zone] ++ be2 w))
     exec (.configure [3, zone, vh, vl]) s = .next (done 3 { s.params with lowWater := s.params.lowWater.set z low } low) ∧
     exec (.configure [4, zone, vh, vl]) s = .next (done 4 { s.params with startThr := s.params.startThr.set z thr } thr) ∧
     exec (.configure [5, zone, vh, vl]) s = .next (done 5 { s.params with restartThr := s.params.restartThr.set z thr } thr)) ∧
  (∀ (s : State) (z : ZoneId),
     let spent := ((s.zone z).supply = .resync ∨ (s.zone z).supply = .lost ∨ (s.zone z).supply = .fault ∨
       (s.zone z).supply = .ended) ∧ 1 ≤ s.fill z
     let full := s.params.quota.get z < s.fill z + 32
     let starts := (s.zone z).play = .priming ∧ (s.params.startThr.get z ≤ s.fill z ∨ full ∨ spent)
     let again := (s.zone z).play = .starved ∧
       ((s.zone z).supply = .feeding ∧ (s.params.restartThr.get z ≤ s.fill z ∨ full) ∨ spent)
     let plays := fun (atOnce : Bool) (cause : Byte) => s.testReady z = { s with
       zc := s.zc.mod z fun r => { r with play := .playing }
       oc := s.oc.mod z fun c => { c with drawAtOnce := atOnce }
       cl := s.cl.notice ⟨0x70, [zoneCode z, 2, supplyCode (s.zone z).supply, cause]⟩ }
     (starts → plays false 2) ∧ (again → plays true 4) ∧ (¬ starts → ¬ again → s.testReady z = s)) ∧
  ∀ (s : State) (zone vh vl : Byte) (z : ZoneId), s.listening → (z = .b → s.straps.singleZone = false) →
    let id : Byte := if z = .a then 1 else 2
    let w := max 64 (min 4028 (nat2 vh vl))
    let other := if s.straps.singleZone then 0 else s.params.quota.get z.other
    let p : Params := { s.params with
      quota := s.params.quota.set z w
      lowWater := s.params.lowWater.mod z fun x => max 50 (min (max 50 (w - 64)) x)
      startThr := s.params.startThr.mod z fun x => max 10 (min w x)
      restartThr := s.params.restartThr.mod z fun x => max 10 (min w x) }
    (((s.zone .a).play ≠ .stopped ∨ (s.zone .b).play ≠ .stopped) → exec (.configure [id, zone, vh, vl]) s =
      .next (State.finish s { s with cl := s.afterRefusal ⟨0x03, [id, zone, vh, vl]⟩ .wrongState })) ∧
    ((s.zone .a).play = .stopped → (s.zone .b).play = .stopped → 4092 < w + other →
      exec (.configure [id, zone, vh, vl]) s =
        .next (State.finish s { s with cl := s.afterRefusal ⟨0x03, [id, zone, vh, vl]⟩ .badValue })) ∧
    ((s.zone .a).play = .stopped → (s.zone .b).play = .stopped → w + other ≤ 4092 →
      exec (.configure [id, zone, vh, vl]) s =
        .next (State.finish s { s with params := p, cl := s.afterReply ⟨0x03, [id, zone, vh, vl]⟩ ([id, zone] ++ be2 w) }))

/-- SET-ROTATION: sixteen entries 0 A, 1 B, 2 ANY replace the table whole and set the pointer to 0; a body that holds another
entry, or B in single-zone strap, is refused with BAD-VALUE, and one of another length with BAD-LENGTH, and changes nothing (R65,
R184). -/
def Obligations.SetRotationReplacesTheTable : Prop :=
  ∀ (s : State) (body : List Byte), s.listening →
    (body.length ≠ 16 → body.length ≤ 63 →
      exec (.setRotation body) s = .next (State.finish s { s with cl := s.afterRefusal ⟨0x09, body⟩ .badLength })) ∧
    (body.length = 16 → (∀ b ∈ body, b.toNat ≤ 2 ∧ (b = 1 → s.straps.singleZone = false)) →
      ∃ table : List RotEntry, table.map rotCode = body ∧ exec (.setRotation body) s = .next (State.finish s
        { s with da := { s.da with rotation := table, rotPtr := 0 }, cl := s.afterReply ⟨0x09, body⟩ body })) ∧
    (body.length = 16 → (∃ b ∈ body, 2 < b.toNat ∨ b = 1 ∧ s.straps.singleZone = true) →
      exec (.setRotation body) s = .next (State.finish s { s with cl := s.afterRefusal ⟨0x09, body⟩ .badValue }))

/-- STANDBY begins parking: PARKING, with the order of silence, the resume point of each zone that is not STOPPED written into its
selected record (the target of a pending seek, or the next unheard frame; of two zones on one record the later write stands) and
its marks cleared, the parking sequence asked for (done at once in a drive FAULT), silence reported where all gains are 0
already, and the reply 1 PARKING. A fall of the run line in ACTIVE does the same without a reply, but for one that comes while a
RESET is being carried out, which is kept (R51, R76, R134, R148, R165, R166, R182, R183). That the window timer is stopped is the
model's choice (log entry 32), and so is the drive FAULT's case (log entry 29). -/
def Obligations.ParkingBegins : Prop :=
  let parks := fun (s e : State) =>
    e.pc.state = .parking ∧ e.pc.silence = true ∧ e.sm.windowTimer = .stopped ∧
    (∀ z, ((s.zone z).play = .stopped → e.zone z = s.zone z) ∧
      ((s.zone z).play ≠ .stopped → e.zone z =
        { s.zone z with pausePending := false, stopPending := false, seekPending := none })) ∧
    (e.pc.silenceDone = true ↔ ∀ z d, s.gain z d = 0) ∧ (∀ z, e.oc.get z = s.oc.get z) ∧
    (s.da.state = .fault → e.pc.driveDone = true) ∧ (s.da.state ≠ .fault → e.pc.driveDone = false ∧ e.da.parkStage = .waiting) ∧
    (s.da.state ≠ .fault → e.da.hold = match s.da.hold with
      | .granted => .lapsed
      | .revoking => .lapsed
      | .queued => .none
      | .none => .none
      | .lapsed => .lapsed) ∧
    (let point := fun z => match (s.zone z).seekPending with
       | some t => some (⟨t.addr, 0⟩ : ResumePt)
       | none => s.unheard z
     ∀ z i r p, (s.zone z).play ≠ .stopped → (s.zone z).selected = some i → s.record i = some r → point z = some p →
       (z = .b ∨ (s.zone .b).play = .stopped ∨ (s.zone .b).selected ≠ some i ∨ point .b = none) →
       e.record i = some { r with resume := some p }) ∧
    e.bs = s.bs ∧ e.bi = s.bi ∧ e.ru = s.ru ∧ e.lu = s.lu ∧ e.params = s.params ∧ e.straps = s.straps ∧ e.pending = s.pending
  (∀ s : State, s.listening → ∃ e : State,
    exec (.standby []) s = .next (State.finish s (e.reply 0x06 [1])) ∧ parks s e ∧ e.pins = s.pins) ∧
  (∀ s : State, s.pc.state = .active → s.resetting = false → ∃ e : State,
    exec .runLineFalls s = .next (State.finish s e) ∧ parks s e ∧ e.pins = { s.pins with runHigh := false }) ∧
  (∀ s : State, s.pc.state = .active → s.resetting = true → exec .runLineFalls s =
    .next (State.finish s { s with pins := { s.pins with runHigh := false }, pc := { s.pc with runFell := true } }))

/-! ## The zone requests -/

/-- SELECT: refused with BAD-VALUE for a slot the magazine has not, with WRONG-STATE unless the zone is STOPPED and the slot holds a
PRESENT record; and otherwise the record becomes the zone's selection, and the reply carries its index, track count and resume
point (R46). -/
def Obligations.SelectChoosesTheRecordInASlot : Prop :=
  ∀ (s : State) (zb slot : Byte) (z : ZoneId), s.listening → zoneOf s.straps zb = some z →
    (slot.toNat ∉ magazineSlots s.straps →
      exec (.select [zb, slot]) s = .next (State.finish s { s with cl := s.afterRefusal ⟨0x10, [zb, slot]⟩ .badValue })) ∧
    (slot.toNat ∈ magazineSlots s.straps → ((s.zone z).play ≠ .stopped ∨ s.dd.inSlot slot.toNat = none) →
      exec (.select [zb, slot]) s = .next (State.finish s { s with cl := s.afterRefusal ⟨0x10, [zb, slot]⟩ .wrongState })) ∧
    ∀ i r, slot.toNat ∈ magazineSlots s.straps → (s.zone z).play = .stopped → s.dd.inSlot slot.toNat = some i →
      s.record i = some r → r.state = .present ∧ r.slot = some slot.toNat ∧
        exec (.select [zb, slot]) s = .next (State.finish s
          { s with
            zc := s.zc.mod z fun x => { x with selected := some i }
            cl := s.afterReply ⟨0x10, [zb, slot]⟩ ([zb, byte i, byte r.tracks.length] ++ optResume r.resume) })

/-- PLAY of a STOPPED zone whose selected record is PRESENT, from the start point of R47: the zone becomes PRIMING and FEEDING,
with the next read address, the head frame offset, the resume point and the current track of that point, and its concealer makes a
fresh start; the reply carries the point and the track (R47, R120). The start point of PLAY (R47): the start of a track of the
disc; an address, or the start of the last track where it lies beyond the program end; and the record's resume point, or the start
of track 1 where the record has none. And what PLAY refuses: another start kind, and a track outside the disc, with BAD-VALUE; a
zone that is not STOPPED or has no PRESENT record, with WRONG-STATE. -/
def Obligations.PlayPrimesAZone : Prop :=
  (∀ (s : State) (zb kind v2 v1 v0 : Byte) (z : ZoneId) (p : ResumePt), s.listening → zoneOf s.straps zb = some z →
     1 ≤ kind.toNat → kind.toNat ≤ 3 → (s.zone z).play = .stopped → s.selPresent z = true →
     s.startPoint z kind.toNat (nat3 v2 v1 v0) = some p →
     exec (.play [zb, kind, v2, v1, v0]) s = .next (State.finish s
       { s with
         zc := s.zc.mod z fun x => { x with
           play := .priming, supply := .feeding, nextRead := some p.addr, offset := p.offset, resume := some p,
           track := trackOf (s.tracks z) p.addr }
         oc := s.oc.mod z fun c => { c with fresh := true }
         cl := s.afterReply ⟨0x11, [zb, kind, v2, v1, v0]⟩
           ([zb] ++ be3 p.addr ++ be2 p.offset ++ [byte (trackOf (s.tracks z) p.addr)]) })) ∧
  ∀ (s : State) (z : ZoneId),
    (∀ n, 1 ≤ n → n ≤ (s.tracks z).length → s.startPoint z 1 n = some ⟨(s.tracks z).getD (n - 1) 0, 0⟩) ∧
    (∀ a, a ≤ s.programEnd z → s.startPoint z 2 a = some ⟨a, 0⟩) ∧
    (∀ a, s.programEnd z < a → s.startPoint z 2 a = some ⟨(s.tracks z).getLast?.getD 0, 0⟩) ∧
    (∀ v p, (s.selRec z).bind (·.resume) = some p → p.addr ≤ s.programEnd z → s.startPoint z 3 v = some p) ∧
    (∀ v, (s.selRec z).bind (·.resume) = none → s.startPoint z 3 v = some ⟨(s.tracks z).getD 0 0, 0⟩) ∧
    ∀ zb kind v2 v1 v0 : Byte, s.listening → zoneOf s.straps zb = some z →
      ((kind.toNat < 1 ∨ 3 < kind.toNat) → exec (.play [zb, kind, v2, v1, v0]) s =
        .next (State.finish s { s with cl := s.afterRefusal ⟨0x11, [zb, kind, v2, v1, v0]⟩ .badValue })) ∧
      (1 ≤ kind.toNat → kind.toNat ≤ 3 → ((s.zone z).play ≠ .stopped ∨ s.selPresent z = false) →
        exec (.play [zb, kind, v2, v1, v0]) s =
          .next (State.finish s { s with cl := s.afterRefusal ⟨0x11, [zb, kind, v2, v1, v0]⟩ .wrongState })) ∧
      (kind = 1 → (s.zone z).play = .stopped → s.selPresent z = true →
        (nat3 v2 v1 v0 = 0 ∨ (s.tracks z).length < nat3 v2 v1 v0) → exec (.play [zb, kind, v2, v1, v0]) s =
          .next (State.finish s { s with cl := s.afterRefusal ⟨0x11, [zb, kind, v2, v1, v0]⟩ .badValue }))

/-- PAUSE (R48): a PLAYING zone that sounds takes the pause mark, and one that is silent, with no seek pending, is PAUSED at once;
a PAUSE of a zone with the mark already set changes nothing; a PRIMING or STARVED zone is PAUSED at once; a PAUSED or STOPPED
zone, and one with a stop pending, refuses with WRONG-STATE. RESUME of a PAUSED zone: PLAYING when it is ready at its start
threshold, drawing from the next frame event on, and PRIMING otherwise; in every other play state it is refused with WRONG-STATE
(R39, R49, R120); that a pending stop does not hinder it is the model's reading (log entry 9). -/
def Obligations.PauseAndResumeByThePlayState : Prop :=
  (∀ (s : State) (zb : Byte) (z : ZoneId), s.listening → zoneOf s.straps zb = some z →
     (((s.zone z).stopPending = true ∨ (s.zone z).play = .paused ∨ (s.zone z).play = .stopped) →
       exec (.pause [zb]) s = .next (State.finish s { s with cl := s.afterRefusal ⟨0x12, [zb]⟩ .wrongState })) ∧
     ((s.zone z).stopPending = false →
       ((s.zone z).play = .playing → (s.zone z).pausePending = false → s.audible z = true →
         exec (.pause [zb]) s = .next (State.finish s
           { s with
             zc := s.zc.mod z fun x => { x with pausePending := true }
             cl := s.afterReply ⟨0x12, [zb]⟩ [zb, 2, if (s.zone z).seekPending.isSome then 3 else 1] })) ∧
       ((s.zone z).play = .playing → (s.zone z).pausePending = false → s.audible z = false → (s.zone z).seekPending = none →
         exec (.pause [zb]) s = .next (State.finish s
           { s with
             zc := s.zc.mod z fun x => { x with play := .paused, pausePending := false }
             cl := s.afterReply ⟨0x12, [zb]⟩ [zb, 3, 0] })) ∧
       ((s.zone z).play = .playing → (s.zone z).pausePending = true →
         exec (.pause [zb]) s = .next (State.finish s
           { s with cl := s.afterReply ⟨0x12, [zb]⟩ [zb, 2, if (s.zone z).seekPending.isSome then 3 else 1] })) ∧
       (((s.zone z).play = .priming ∨ (s.zone z).play = .starved) →
         exec (.pause [zb]) s = .next (State.finish s
           { s with
             zc := s.zc.mod z fun x => { x with play := .paused }
             cl := s.afterReply ⟨0x12, [zb]⟩ [zb, 3, (s.zone z).pendingCode] })))) ∧
  ∀ (s : State) (zb : Byte) (z : ZoneId), s.listening → zoneOf s.straps zb = some z →
    ((s.zone z).play ≠ .paused → exec (.resume [zb]) s =
      .next (State.finish s { s with cl := s.afterRefusal ⟨0x13, [zb]⟩ .wrongState })) ∧
    ((s.zone z).play = .paused → s.readyToStart z = true → exec (.resume [zb]) s = .next (State.finish s
      { s with
        zc := s.zc.mod z fun x => { x with play := .playing }
        oc := s.oc.mod z fun c => { c with drawAtOnce := true }
        cl := s.afterReply ⟨0x13, [zb]⟩ [zb, 2] })) ∧
    ((s.zone z).play = .paused → s.readyToStart z = false → exec (.resume [zb]) s = .next (State.finish s
      { s with
        zc := s.zc.mod z fun x => { x with play := .priming }
        cl := s.afterReply ⟨0x13, [zb]⟩ [zb, 1] }))

/-- STOP (R53): refused with WRONG-STATE in STOPPED; a STOP with a stop pending changes nothing; a zone that sounds, and is not read
for, becomes IDLE with the stop pending; and a silent zone is STOPPED at once, its chain and its anchor returned, its next read
address, resume point, track, offset, marks and audit history cleared, and the other zone's record as it was. -/
def Obligations.StopStopsAZone : Prop :=
  ∀ (s : State) (zb : Byte) (z : ZoneId), s.listening → zoneOf s.straps zb = some z →
    ((s.zone z).play = .stopped → exec (.stop [zb]) s =
      .next (State.finish s { s with cl := s.afterRefusal ⟨0x14, [zb]⟩ .wrongState })) ∧
    ((s.zone z).play ≠ .stopped → (s.zone z).stopPending = true → exec (.stop [zb]) s =
      .next (State.finish s { s with cl := s.afterReply ⟨0x14, [zb]⟩ [zb, playCode (s.zone z).play, 4] })) ∧
    ((s.zone z).play ≠ .stopped → (s.zone z).stopPending = false → s.audible z = true → s.ownsClaim z = false →
      exec (.stop [zb]) s = .next (State.finish s
        { s with
          zc := s.zc.mod z fun x => { x with
            supply := .idle, stopPending := true, pausePending := false, seekPending := none }
          lu := { s.lu with ctx := s.lu.ctx.set z none }
          cl := s.afterReply ⟨0x14, [zb]⟩ [zb, playCode (s.zone z).play, 4] })) ∧
    ((s.zone z).play ≠ .stopped → (s.zone z).stopPending = false → s.audible z = false → ∃ e : State,
      exec (.stop [zb]) s = .next (State.finish s (e.reply 0x14 [zb, 0, 0])) ∧
      e.zone z = { Zone.cold with selected := (s.zone z).selected } ∧ e.bs.chain.get z = ⟨0, 0, 0⟩ ∧ e.bs.anchor.get z = 0 ∧
      e.ctx z = none ∧ e.ru.lists.get z = [] ∧ e.lu.audit.get z = ⟨0, none, none, 0, false⟩ ∧
      e.zone z.other = s.zone z.other ∧ e.bs.chain.get z.other = s.bs.chain.get z.other ∧ e.params = s.params ∧
      e.straps = s.straps ∧ e.pins = s.pins ∧ e.pc = s.pc ∧ e.sm = s.sm ∧ e.oc.get z.other = s.oc.get z.other ∧
      (s.ownsClaim z = true → (∀ c, s.da.claim = some c → c.kind ≠ .hold) → e.liveClaim = none) ∧
      (s.ownsClaim z = false → e.da = s.da ∧ e.bi = s.bi ∧ e.lm = s.lm))

/-- SEEK (R52): refused with BAD-VALUE for another seek kind, and with WRONG-STATE in STOPPED, with a stop pending, with supply
ABSENT or FAULT, and with supply RESYNC, LOST or ENDED when the selected record is not PRESENT. The target is clamped: a track
number to 1 and to the track count, and an address beyond the program end to the start of the last track; its track is the one with
the greatest start at or below it, and track 1 below them all (R44). In a zone that sounds the target is pending, and supply is
FEEDING; in a silent zone the seek is done at once: the chain and the anchor are returned, the next read address, the resume point,
the offset and the track are the target's, and the play state is PAUSED when it was or a pause was pending, and PRIMING otherwise
(R39, R50). -/
def Obligations.SeekMovesAZone : Prop :=
  ∀ (s : State) (zb kind v2 v1 v0 : Byte) (z : ZoneId), s.listening → zoneOf s.straps zb = some z →
    let x := s.seekTarget z kind.toNat (nat3 v2 v1 v0)
    let v := nat3 v2 v1 v0
    let supply := (s.zone z).supply
    let first := (s.tracks z)[0]?.getD 0
    let last := (s.tracks z).getLast?.getD 0
    (s.canSeek z = true ↔ (s.zone z).play ≠ .stopped ∧ (s.zone z).stopPending = false ∧ supply ≠ .absent ∧ supply ≠ .fault ∧
      (supply = .resync ∨ supply = .lost ∨ supply = .ended → ∃ r, s.selRec z = some r ∧ r.state = .present)) ∧
    (kind = 1 → (v = 0 → x.addr = first) ∧ (∀ a, 1 ≤ v → (s.tracks z)[v - 1]? = some a → x.addr = a) ∧
      ((s.tracks z).length < v → s.tracks z ≠ [] → x.addr = last)) ∧
    (kind = 2 → (v ≤ s.programEnd z → x.addr = v) ∧ (s.programEnd z < v → x.addr = last)) ∧
    ((s.tracks z).Pairwise (· < ·) →
      (∀ k a, (s.tracks z)[k]? = some a → a ≤ x.addr → (∀ n, (s.tracks z)[k + 1]? = some n → x.addr < n) → x.track = k + 1) ∧
      (x.addr < first → x.track = 1)) ∧
    ((kind.toNat < 1 ∨ 2 < kind.toNat) → exec (.seek [zb, kind, v2, v1, v0]) s =
      .next (State.finish s { s with cl := s.afterRefusal ⟨0x15, [zb, kind, v2, v1, v0]⟩ .badValue })) ∧
    (1 ≤ kind.toNat → kind.toNat ≤ 2 →
      (s.canSeek z = false → exec (.seek [zb, kind, v2, v1, v0]) s =
        .next (State.finish s { s with cl := s.afterRefusal ⟨0x15, [zb, kind, v2, v1, v0]⟩ .wrongState })) ∧
      (s.canSeek z = true → (s.zone z).supply = .feeding → s.ownsClaim z = false → s.audible z = true →
        exec (.seek [zb, kind, v2, v1, v0]) s = .next (State.finish s
          { s with
            zc := s.zc.mod z fun r => { r with seekPending := some x }
            cl := s.afterReply ⟨0x15, [zb, kind, v2, v1, v0]⟩ ([zb] ++ be3 x.addr ++ [byte x.track, 0]) })) ∧
      (s.canSeek z = true → s.audible z = true → ∃ e : State,
        exec (.seek [zb, kind, v2, v1, v0]) s =
          .next (State.finish s (e.reply 0x15 ([zb] ++ be3 x.addr ++ [byte x.track, 0]))) ∧
        { e.zone z with play := (s.zone z).play } = { s.zone z with supply := .feeding, seekPending := some x } ∧
        e.zone z.other = s.zone z.other ∧ e.bs = s.bs ∧ e.params = s.params) ∧
      (s.canSeek z = true → s.audible z = false → ∃ e : State,
        exec (.seek [zb, kind, v2, v1, v0]) s =
          .next (State.finish s (e.reply 0x15 ([zb] ++ be3 x.addr ++ [byte x.track, 1]))) ∧
        (e.zone z).seekPending = none ∧ (e.zone z).nextRead = some x.addr ∧ (e.zone z).resume = some ⟨x.addr, 0⟩ ∧
        (e.zone z).offset = 0 ∧ (e.zone z).track = x.track ∧ (e.zone z).pausePending = false ∧ (e.zone z).supply = .feeding ∧
        e.bs.chain.get z = ⟨0, 0, 0⟩ ∧ e.bs.anchor.get z = 0 ∧ (e.oc.get z).fresh = true ∧
        (lawfulParams s.params s.straps →
          (e.zone z).play = if (s.zone z).pausePending = true ∨ (s.zone z).play = .paused then .paused else .priming) ∧
        e.zone z.other = s.zone z.other ∧ e.bs.chain.get z.other = s.bs.chain.get z.other ∧ e.params = s.params ∧
        e.straps = s.straps ∧ e.pins = s.pins ∧ e.pc = s.pc ∧ e.sm = s.sm ∧
        (s.ownsClaim z = false → e.da = s.da ∧ e.bi = s.bi ∧ e.lm = s.lm)))

/-! ## The outputs -/

/-- A frame event of a PLAYING zone that draws an unerased frame before the last of its head block: each channel's value is the
sample's own, it becomes the last good value, the gain rises toward 256, the value is output at that gain, and the head frame
offset rises by 1 (R119, R126, R127). A frame event of a zone that is not PLAYING, with nothing pending and no order of silence:
each channel's target is 0, its gain falls by one place, and it outputs its held value at that gain; nothing is drawn (R119, R126,
R127, R129). In single-zone strap AUDIO B carries zero samples (R117, R130). -/
def Obligations.FrameEventsOutputAndFade : Prop :=
  (∀ (s : State) (z : ZoneId), s.pc.state ≠ .parked → (z = .a ∨ s.straps.singleZone = false) → (s.zone z).play = .playing →
     (s.zone z).pendingAny = false → s.pc.silence = false → s.pc.silenceDone = false → s.starving z = false → s.fill z ≠ 0 →
     (s.zone z).offset < 479 → (s.oc.get z).drawing = true → (s.oc.get z).fresh = false → (s.oc.get z).left.run = .none →
     (s.oc.get z).right.run = .none → s.gain z .left ≤ 256 → s.gain z .right ≤ 256 →
     let h := s.bs.bucket (s.bs.chain.get z).head
     let n := (s.zone z).offset
     let v := h.samples.getD (2 * n) 0
     let w := h.samples.getD (2 * n + 1) 0
     let g := min 256 (s.gain z .left + 1)
     let k := min 256 (s.gain z .right + 1)
     h.flags.getD (2 * n) true = false → h.flags.getD (2 * n + 1) true = false →
     exec (.frameEvent z) s = .next (State.finish s
       { s with
         zc := s.zc.mod z fun r => { r with offset := n + 1 }
         oc := s.oc.mod z fun c => { c with
           left := ⟨g, 256, v.toInt, v.toInt, .none⟩, right := ⟨k, 256, w.toInt, w.toInt, .none⟩
           outL := Int.tdiv (v.toInt * (g : Int)) 256, outR := Int.tdiv (w.toInt * (k : Int)) 256 } })) ∧
  ∀ (s : State) (z : ZoneId), s.pc.state ≠ .parked →
    ((z = .a ∨ s.straps.singleZone = false) → (s.zone z).play ≠ .playing → (s.zone z).pendingAny = false →
      s.pc.silence = false → exec (.frameEvent z) s = .next (State.finish s
        { s with oc := s.oc.mod z fun c => { c with
          left := { c.left with target := 0, gain := c.left.gain - 1 }
          right := { c.right with target := 0, gain := c.right.gain - 1 }
          drawing := false
          outL := Int.tdiv (c.left.lastRepaired * ((c.left.gain - 1 : Nat) : Int)) 256
          outR := Int.tdiv (c.right.lastRepaired * ((c.right.gain - 1 : Nat) : Int)) 256 } })) ∧
    (z = .b → s.straps.singleZone = true → exec (.frameEvent z) s = .next (State.finish s
      { s with oc := s.oc.mod z fun c => { c with outL := 0, outR := 0 } }))

/-- What follows a frame event besides the samples. After frame 479 the head block is heard: the next block is the head, its track
becomes the zone's with a TRACK notice, and the bucket heard is the free head (R29, R44); a hear that empties the chain makes a
PLAYING zone STARVED with a ZONE notice DRY, its anchor kept (R40), and an ENDED zone STOPPED and IDLE with an END notice and its
record's resume point cleared (R41). When both gains stand at 0 while an action is pending it takes effect with a ZONE notice
REQUEST-DONE: a stop before a seek before a pause, the stop writing the next unheard frame into the record (R50, R51, R131). After
an order of silence, all four gains at 0 are reported (R134). The starvation rule takes both targets to 0 (R128). And a run is
decided at the first erased sample from the chain as it stands: SHORT with its bounds when an unerased sample stands within the
limit, LONG otherwise, from the last good value, or from the last repaired value at the first frame behind a cut (R121, R122,
R123, R125; the mark `cutAt` is log entry 6's). -/
def Obligations.FrameEventsHearAndTakeEffect : Prop :=
  ∀ (s : State) (z : ZoneId), s.pc.state ≠ .parked → (z = .a ∨ s.straps.singleZone = false) → ∃ e : State,
    exec (.frameEvent z) s = .next (State.finish s e) ∧
    let r := s.zone z
    let c := s.oc.get z
    let h := (s.bs.chain.get z).head
    let ends := s.draws z = true ∧ r.offset = 479 ∧ r.stopPending = false ∧ r.seekPending = none ∧
      (s.lu.audit.get z).target = none
    (ends → r.pausePending = false → 2 ≤ s.fill z →
      let b := s.bs.nextOf h
      e.bs.chain.get z = ⟨b, (s.bs.chain.get z).tail, s.fill z - 1⟩ ∧ e.bs.freeHead = h ∧ e.bs.freeCount = s.bs.freeCount + 1 ∧
      e.zone z = { r with offset := 0, track := (s.info b).track } ∧
      e.cl = if (s.info b).track = r.track then s.cl
        else s.cl.notice ⟨0x71, [zoneCode z, byte (s.info b).track] ++ be3 ((s.info b).expected.getD 0)⟩) ∧
    (ends → r.pausePending = false → s.fill z = 1 → r.supply ≠ .ended →
      e.zone z = { r with offset := 0, play := .starved } ∧ e.bs.chain.get z = ⟨0, 0, 0⟩ ∧ e.bs.anchor.get z = h ∧
      e.bs.freeCount = s.bs.freeCount ∧ e.cl = s.cl.notice ⟨0x70, [zoneCode z, 4, supplyCode r.supply, 3]⟩) ∧
    (ends → s.fill z = 1 → r.supply = .ended →
      e.zone z = { r with
        offset := 0, play := .stopped, supply := .idle, nextRead := none, track := 0, pausePending := false, resume := none } ∧
      e.ctx z = none ∧ e.bs.chain.get z = ⟨0, 0, 0⟩ ∧ e.bs.freeHead = h ∧ e.bs.freeCount = s.bs.freeCount + 1 ∧
      e.cl = s.cl.notice ⟨0x72, [zoneCode z]⟩ ∧
      ∀ i x, r.selected = some i → s.record i = some x → e.record i = some { x with resume := none }) ∧
    (s.gain z .left ≤ 1 → s.gain z .right ≤ 1 → (s.draws z = false ∨ r.offset < 479) →
      let off := if s.draws z then r.offset + 1 else r.offset
      (r.stopPending = true →
        e.zone z = { Zone.cold with selected := r.selected, supply := r.supply } ∧ e.bs.chain.get z = ⟨0, 0, 0⟩ ∧
        e.bs.anchor.get z = 0 ∧ e.cl = s.cl.notice ⟨0x70, [zoneCode z, 0, supplyCode r.supply, 1]⟩ ∧
        ∀ i x, r.selected = some i → s.record i = some x →
          (∀ a, s.headAddr z = some a → e.record i = some { x with resume := some ⟨a, off⟩ }) ∧
          (s.fill z = 0 → ∀ p, r.resume = some p → e.record i = some { x with resume := some p }) ∧
          (s.fill z = 0 → r.resume = none → ∀ a, r.nextRead = some a → e.record i = some { x with resume := some ⟨a, 0⟩ })) ∧
      (∀ t, r.stopPending = false → r.seekPending = some t → lawfulParams s.params s.straps →
        let play := if r.pausePending = true ∨ r.play = .paused then Play.paused else .priming
        e.zone z = { r with
          nextRead := some t.addr, offset := 0, resume := some ⟨t.addr, 0⟩, track := t.track, play := play,
          pausePending := false, seekPending := none } ∧
        e.bs.chain.get z = ⟨0, 0, 0⟩ ∧ e.bs.anchor.get z = 0 ∧ (e.oc.get z).fresh = true ∧
        e.cl = s.cl.notice ⟨0x70, [zoneCode z, playCode play, supplyCode r.supply, 1]⟩) ∧
      (r.stopPending = false → r.seekPending = none → r.pausePending = true →
        e.zone z = { r with play := .paused, pausePending := false, offset := off } ∧
        e.bs.chain.get z = s.bs.chain.get z ∧ e.cl = s.cl.notice ⟨0x70, [zoneCode z, 3, supplyCode r.supply, 1]⟩)) ∧
    (s.pc.silence = true →
      ((∀ d, s.gain z d ≤ 1) → (∀ d, s.gain z.other d = 0) → e.pc = { s.pc with silenceDone := true }) ∧
      (((∃ d, 1 < s.gain z d) ∨ ∃ d, s.gain z.other d ≠ 0) → e.pc = s.pc)) ∧
    (r.play = .playing → r.supply ≠ .ended → s.fill z * 480 - r.offset ≤ max (s.gain z .left) (s.gain z .right) →
      (e.oc.get z).left.target = 0 ∧ (e.oc.get z).right.target = 0 ∧ ∀ d, e.gain z d = s.gain z d - 1) ∧
    (s.draws z = true → r.pendingAny = false → c.fresh = false → ∀ d : Side,
      let chan := fun (c : Concealer) => match d with
        | .left => c.left
        | .right => c.right
      let k := chan c
      let k' := chan (e.oc.get z)
      let g0 := if r.offset = 0 ∧ c.cutAt ≠ none ∧ s.headAddr z = c.cutAt then k.lastRepaired else k.lastGood
      k.run = .none →
        (∀ len v, 1 ≤ len → len ≤ s.params.interpLimit → (∀ n, n < len → ∃ x, s.ahead z d n = some (x, true)) →
          s.ahead z d len = some (v, false) →
          k'.lastRepaired = g0 + Int.fdiv (2 * (v.toInt - g0) + ((len : Int) + 1)) (2 * ((len : Int) + 1)) ∧
          k'.run = (if len = 1 then .none else .short g0 v.toInt len 2 false) ∧ k'.lastGood = k.lastGood) ∧
        (∀ x, s.ahead z d 0 = some (x, true) → (∀ n v, n ≤ s.params.interpLimit → s.ahead z d n ≠ some (v, false)) →
          k'.lastRepaired = g0 ∧ k'.run = .long g0 ∧ k'.lastGood = k.lastGood))

/-- The repair of erased samples: the k-th of a SHORT run of L takes the linear value between its bounds, rounded half up, whatever
is in the chain by then, and it lies between the bounds; the run is over after the L-th; a LONG run holds its g0 until an unerased
sample; an unerased sample outside a SHORT run is repaired as itself (R119, R122, R123). That a sample of a decided SHORT run takes
its decided value, and is not the last good value, also where a merge has made it unerased meanwhile is the model's choice (log
entry 38). And a scaled value never exceeds the value itself (R126). -/
def Obligations.RepairsStayBetweenTheBounds : Prop :=
  (∀ (c : Channel) (g0 g1 : Int) (len k offset : Nat) (v : Int) (erased : Bool) (f : Int → Run), c.run = .short g0 g1 len k false →
    1 ≤ k → k ≤ len →
    let x := (c.repair offset v erased f).lastRepaired
    x = g0 + Int.fdiv (2 * (g1 - g0) * (k : Int) + ((len : Int) + 1)) (2 * ((len : Int) + 1)) ∧ min g0 g1 ≤ x ∧ x ≤ max g0 g1 ∧
      (c.repair offset v erased f).run = (if k = len then .none else .short g0 g1 len (k + 1) false) ∧
      (c.repair offset v erased f).lastGood = c.lastGood ∧ (c.repair offset v erased f).gain = c.gain) ∧
  (∀ (c : Channel) (g0 : Int) (offset : Nat) (v : Int) (f : Int → Run), c.run = .long g0 →
    c.repair offset v true f = { c with lastRepaired := g0 } ∧
      c.repair offset v false f = { c with lastGood := v, lastRepaired := v, run := .none }) ∧
  (∀ (c : Channel) (offset : Nat) (v : Int) (f : Int → Run), c.run = .none →
    c.repair offset v false f = { c with lastGood := v, lastRepaired := v }) ∧
  ∀ (v : Int) (g : Nat), g ≤ 256 → (scale v g).natAbs ≤ v.natAbs ∧ scale (-v) g = -scale v g ∧ scale v 256 = v

/-! ## The drive, the hold and the eject -/

/-- HOLD-PICKUP and RELEASE-PICKUP by the hold state; HOLD-PICKUP is refused in a drive FAULT whatever the hold state; the release
of a granted hold leaves the drive READY with the loaded slot and the speed UNKNOWN and the claim gone; and an arbitration that
comes to order 4 grants the hold when it is queued, and leaves the hold state when it is not (R74, R76). -/
def Obligations.HoldAndReleaseByTheHoldState : Prop :=
  ∀ s : State, s.listening →
    ((s.da.state = .fault ∨ s.da.hold = .queued ∨ s.da.hold = .granted ∨ s.da.hold = .revoking) →
      exec (.holdPickup []) s = .next (State.finish s { s with cl := s.afterRefusal ⟨0x20, []⟩ .wrongState })) ∧
    (s.da.state ≠ .fault → (s.da.hold = .none ∨ s.da.hold = .lapsed) → exec (.holdPickup []) s =
      .next (State.finish s { s with da := { s.da with hold := .queued }, cl := s.afterReply ⟨0x20, []⟩ [1] })) ∧
    (s.da.hold = .none → exec (.releasePickup []) s =
      .next (State.finish s { s with cl := s.afterRefusal ⟨0x21, []⟩ .wrongState })) ∧
    (s.da.hold = .queued → exec (.releasePickup []) s =
      .next (State.finish s { s with da := { s.da with hold := .none }, cl := s.afterReply ⟨0x21, []⟩ [1] })) ∧
    (s.da.hold = .lapsed → exec (.releasePickup []) s =
      .next (State.finish s { s with da := { s.da with hold := .none }, cl := s.afterReply ⟨0x21, []⟩ [3] })) ∧
    ((s.da.hold = .granted ∨ s.da.hold = .revoking) → exec (.releasePickup []) s =
      .next (State.finish s { s with
        da := { s.da with
          claim := none, state := .ready, slot := .unknown, speed := .unknown, hold := .none, graceTimer := .stopped }
        lm := if s.lm.ejectStage = .waitingHold then { s.lm with ejectStage := .unloading } else s.lm
        cl := s.afterReply ⟨0x21, []⟩ [2] })) ∧
    (s.lowerFill s.rejoinClaimant = none → s.lowerFill s.urgent = none → s.lm.queue = [] →
      s.arbitrate.da.hold = if s.da.hold = .queued then .granted else s.da.hold)

/-- EJECT and the eject button are taken with the magazine PRESENT or SETTLING, outside a drive FAULT, in ACTIVE: the magazine is
EJECTING, and the button places a MAGAZINE notice BUTTON (R157, R162). A granted hold is revoked with grace and a HOLD notice
REVOKED, and the eject waits for it, as for a hold being revoked (R76); that EJECT is answered 2 there is the model's reading (log
entry 28). Otherwise the eject sequence begins at once and cancels a LIVE claim (R71, R158). A button or a request not taken
changes nothing but, for the request, the refusal WRONG-STATE. The debounce timer's expiry seats a SETTLING magazine: PRESENT, a
notice INSERTED, and the identification queue built, the slots that the zones seek first (R153, R154). The latch timer's expiry
abandons an eject; one taken in SETTLING is then seated (R159). The slot timer's expiry ends the head slot with an IDENT notice
UNREADABLE, and its LIVE identification claim with it; when the queue has emptied, ABSENT zones become LOST and a MAGAZINE notice
SCAN-DONE follows (R142, R155, R156). That a timer that does not run changes nothing (log entry 2), and that the notice BUTTON
comes before HOLD REVOKED and zone A's notice before zone B's (log entry 13), are the model's choices. -/
def Obligations.EjectsAndLoaderTimers : Prop :=
  let closed := fun (s e : State) (c : Claim) (idle : Timer) =>
    e.liveClaim = none ∧ e.tagLive = false ∧
    (s.da.out = none → s.da.state = .reading → e.da = { s.da with
      claim := none, out := some ⟨.pause, false, .running 300000000, none⟩, state := .stopping, idleTimer := .stopped,
      blockTimer := .stopped }) ∧
    (s.da.out = none → s.da.state ≠ .reading →
      e.da = { s.da with claim := none, idleTimer := idle, blockTimer := .stopped }) ∧
    (s.da.out ≠ none → e.da = { s.da with claim := e.da.claim, idleTimer := idle, blockTimer := .stopped } ∧
      ∃ st, e.da.claim = some { c with standing := st } ∧ st ≠ .live)
  let taken := fun (s e : State) (link : Link) =>
    let l : Loader :=
      { s.lm with magazine := .ejecting, debounce := .stopped, fromSettling := decide (s.lm.magazine = .settling) }
    (s.da.hold = .granted → e = { s with
      lm := { l with ejectStage := .waitingHold }
      da := { s.da with hold := .revoking, graceTimer := .running (s.params.holdGrace * 100 * 1000000) }
      cl := link.notice ⟨0x75, [2]⟩ }) ∧
    (s.da.hold = .revoking → e = { s with lm := { l with ejectStage := .waitingHold }, cl := link }) ∧
    (s.da.hold = .none ∨ s.da.hold = .queued ∨ s.da.hold = .lapsed →
      (s.liveClaim = none →
        e = { s with lm := { l with ejectStage := .unloading }, da := { s.da with idleTimer := .stopped }, cl := link }) ∧
      ∀ c, s.da.claim = some c → c.standing = .live → c.kind ≠ .hold →
        closed s e c .stopped ∧ e.cl = link ∧
        e.lm = { l with
          ejectStage := .unloading,
          slotTimer := if c.kind = .ident ∧ s.lm.slotTimer = .running then .standing else s.lm.slotTimer } ∧
        e.zc = s.zc ∧ e.bs = s.bs ∧ e.ru = s.ru ∧ e.lu.audit = s.lu.audit ∧ e.oc = s.oc ∧ e.dd = s.dd ∧ e.sm = s.sm ∧
        e.pc = s.pc ∧ e.params = s.params ∧ e.straps = s.straps ∧ e.pins = s.pins ∧ e.pending = s.pending)
  ((∀ s : State, s.listening → s.canEject = true → ∃ e : State,
     exec (.eject []) s = .next (State.finish s
       (e.reply 0x22 [if s.da.hold = .granted ∨ s.da.hold = .revoking then 2 else 1])) ∧ taken s e (s.cl.asking ⟨0x22, []⟩)) ∧
   (∀ s : State, s.listening → s.canEject = false →
     exec (.eject []) s = .next (State.finish s { s with cl := s.afterRefusal ⟨0x22, []⟩ .wrongState })) ∧
   (∀ s : State, s.pc.state ≠ .parked → s.canEject = true → ∃ e : State,
     exec .ejectButton s = .next (State.finish s e) ∧ taken s e (s.cl.notice ⟨0x74, [3, 2]⟩)) ∧
   (∀ s : State, s.pc.state ≠ .parked → s.canEject = false → exec .ejectButton s = .next (State.finish s s)) ∧
   ∀ s : State, s.canEject = true ↔
     (s.lm.magazine = .present ∨ s.lm.magazine = .settling) ∧ s.da.state ≠ .fault ∧ s.pc.state = .active) ∧
  (∀ s : State,
    let all := if s.straps.singleSlot then [1] else [1, 2, 3, 4, 5, 6]
    let seeks := fun (z : ZoneId) (n : Nat) => n ∈ all ∧ ∃ r, s.selRec z = some r ∧ r.state = .departed ∧ r.lastSlot = some n
    ((∀ z n, ¬ seeks z n) → s.identQueue = all) ∧
    (∀ z n, seeks z n → (∀ m, seeks z.other m → m = n) → s.identQueue = n :: all.filter fun x => decide (x ≠ n)) ∧
    ∀ n m, seeks .a n → seeks .b m → n ≠ m → s.identQueue = n :: m :: all.filter fun x => decide (x ≠ n) && decide (x ≠ m)) ∧
  ∀ s : State, s.pc.state ≠ .parked →
    (s.lm.magazine = .settling → s.lm.debounce ≠ .stopped → exec .debounceTimerExpiry s = .next (State.finish s
      { s with
        lm := { s.lm with
          magazine := .present, debounce := .stopped, queue := s.identQueue, slotTimer := .zero, failedStarts := 0 }
        cl := s.cl.notice ⟨0x74, [2, 1]⟩ })) ∧
    ((s.lm.magazine ≠ .settling ∨ s.lm.debounce = .stopped) → exec .debounceTimerExpiry s = .next (State.finish s s)) ∧
    (s.lm.ejectStage = .latchWait → s.lm.latchTimer ≠ .stopped →
      let l : Loader :=
        { s.lm with magazine := .present, ejectStage := .none, latchTimer := .stopped, fromSettling := false }
      (s.lm.fromSettling = false → exec .latchTimerExpiry s = .next (State.finish s
        { s with lm := l, cl := s.cl.notice ⟨0x74, [2, 6]⟩ })) ∧
      (s.lm.fromSettling = true → exec .latchTimerExpiry s = .next (State.finish s
        { s with
          lm := { l with debounce := .stopped, queue := s.identQueue, slotTimer := .zero, failedStarts := 0 }
          cl := (s.cl.notice ⟨0x74, [2, 6]⟩).notice ⟨0x74, [2, 1]⟩ }))) ∧
    ((s.lm.ejectStage ≠ .latchWait ∨ s.lm.latchTimer = .stopped) → exec .latchTimerExpiry s = .next (State.finish s s)) ∧
    ((s.lm.slotTimer ≠ .running ∨ s.lm.queue = []) → exec .slotTimerExpiry s = .next (State.finish s s)) ∧
    ∀ slot rest, s.lm.slotTimer = .running → s.lm.queue = slot :: rest → ∃ e : State,
      exec .slotTimerExpiry s = .next (State.finish s e) ∧
      e.lm = { s.lm with queue := rest, slotTimer := .zero, failedStarts := 0 } ∧ e.dd = { s.dd with ident := none } ∧
      (∀ c, s.da.claim = some c → c.standing = .live → c.kind = .ident → closed s e c s.da.idleTimer) ∧
      ((∀ c, s.da.claim = some c → c.standing = .live → c.kind ≠ .ident) → e.da = s.da ∧ e.bi = s.bi) ∧
      (let told := s.cl.notice ⟨0x73, [byte slot, 3, 0xFF]⟩
       let lose := fun (l : Link) (z : ZoneId) =>
         if (s.zone z).supply = .absent then l.notice ⟨0x70, [zoneCode z, playCode (s.zone z).play, 5, 14]⟩ else l
       let scanDone : Frame := ⟨0x74, [magazineCode s.lm.magazine, 7]⟩
       (rest ≠ [] → e.cl = told ∧ e.zc = s.zc) ∧
       (rest = [] → (∃ l : Link, e.cl = l.notice scanDone) ∧
         ((∀ z, (s.zone z).supply = .absent → (s.zone z).play ≠ .priming ∧ (s.zone z).play ≠ .starved) →
           e.cl = (lose (lose told .a) .b).notice scanDone) ∧
         ∀ z, ((s.zone z).supply = .absent → (e.zone z).supply = .lost ∧ e.ctx z = none) ∧
           ((s.zone z).supply ≠ .absent → e.zone z = s.zone z))) ∧
      e.bs = s.bs ∧ e.sm = s.sm ∧ e.ru = s.ru ∧ e.params = s.params ∧ e.straps = s.straps ∧ e.pins = s.pins ∧ e.pc = s.pc

/-- RESET-DRIVE in a drive FAULT: the drive is DOWN with the loaded slot and the speed UNKNOWN, each zone in supply FAULT becomes
REJOINING where its record is PRESENT and ABSENT where it is not, any other zone stands, and the reply is 0 DOWN; in another drive
state it is refused with WRONG-STATE (R42, R62). -/
def Obligations.ResetDriveLeavesFault : Prop :=
  ∀ s : State, s.listening →
    (s.da.state ≠ .fault → exec (.resetDrive []) s =
      .next (State.finish s { s with cl := s.afterRefusal ⟨0x23, []⟩ .wrongState })) ∧
    (s.da.state = .fault → ∃ e : State, exec (.resetDrive []) s = .next (State.finish s (e.reply 0x23 [0])) ∧
      e.da = { s.da with state := .down, slot := .unknown, speed := .unknown } ∧
      (∀ z, ((s.zone z).supply = .fault →
          (e.zone z).supply = (if s.selPresent z then .rejoining else .absent) ∧
          (e.zone z).nextRead = (s.zone z).nextRead ∧ (e.zone z).resume = (s.zone z).resume) ∧
        ((s.zone z).supply ≠ .fault → e.zone z = s.zone z)) ∧
      e.bs = s.bs ∧ e.bi = s.bi ∧ e.sm = s.sm ∧ e.ru = s.ru ∧ e.dd = s.dd ∧ e.lm = s.lm ∧ e.pc = s.pc ∧ e.pins = s.pins ∧
      e.params = s.params ∧ e.straps = s.straps ∧ e.lu.audit = s.lu.audit ∧ e.pending = s.pending)

/-- The DONE completions outside a service sequence, with no removal and no start values waiting for them: no command is
outstanding, and the drive takes the state, loaded slot and speed of R57. SEEK DONE of a claim that is no longer LIVE sends no
READ. With a removal waiting each leaves the drive DOWN with the loaded slot and the speed UNKNOWN, and the idle timer stopped
(R71, R160). What follows a completion at once: SEEK DONE of a LIVE claim sends READ and sets the tag of the claim, in its JOINING
phase for a link-up or refill (R7, R13, R66); LATCH-OPEN DONE of an eject starts the latch timer for 10 s (R158); UNLOAD DONE of
the parking sequence sends SPIN 0, and SPIN 0 DONE ends that sequence with the drive-done mark (R166). -/
def Obligations.CompletionsSetTheDrive : Prop :=
  (∀ (s : State) (o : Outstanding), s.pc.state ≠ .parked → s.da.out = some o → s.da.state ≠ .held → s.da.state ≠ .fault →
     s.da.startDue = false → (s.da.parkStage = .none ∨ s.da.parkStage = .waiting) → s.lm.ejectStage ≠ .unlatching →
     let done := fun (c : Instr) (st : DriveState) (slot : Loaded) (speed : Speed) =>
       (s.da.removalDue = false → exec c s = .next (State.finish s { s with da := { s.da with
         out := none, state := st, slot := slot, speed := speed } })) ∧
       (s.da.removalDue = true → exec c s = .next (State.finish s { s with da := { s.da with
         out := none, state := .down, slot := .unknown, speed := .unknown, idleTimer := .stopped, removalDue := false } }))
     (∀ n, o.cmd = .load n → done .loadDone .down (.slot n) (.known 0)) ∧
     (o.cmd = .unload → done .unloadDone .down .none (.known 0)) ∧
     (o.cmd = .spin 0 → done .spinDone .down s.da.slot (.known 0)) ∧
     (∀ n, o.cmd = .spin (n + 1) → done .spinDone .ready s.da.slot (.known (n + 1))) ∧
     (∀ place, o.cmd = .seek place → s.liveClaim = none → done .seekDone .ready s.da.slot s.da.speed) ∧
     (o.cmd = .pause → done .pauseDone .ready s.da.slot s.da.speed) ∧
     (o.cmd = .latchOpen → done .latchOpenDone .down s.da.slot s.da.speed)) ∧
  ∀ (s : State) (o : Outstanding), s.pc.state ≠ .parked → s.da.out = some o → s.da.state ≠ .held → s.da.state ≠ .fault →
    s.da.startDue = false → s.da.removalDue = false →
    (∀ place c, o.cmd = .seek place → s.da.claim = some c → c.standing = .live → exec .seekDone s = .next (State.finish s
      { s with
        da := { s.da with
          claim := some { c with commits := 0 }, out := some ⟨.read, false, .running 1000000000, none⟩, state := .reading,
          idleTimer := .stopped, blockTimer := .stopped }
        bi := ⟨some ⟨c.kind, c.zone, if c.kind = .linkUp ∨ c.kind = .refill then some .joining else none, .live, c.target⟩, 1, none⟩
        ru := { s.ru with left := 8 }
        lu := { s.lu with auditLeft := 8 } })) ∧
    (o.cmd = .latchOpen → s.lm.ejectStage = .unlatching → exec .latchOpenDone s = .next (State.finish s
      { s with
        da := { s.da with out := none, state := .down }
        lm := { s.lm with ejectStage := .latchWait, latchTimer := .running 10000000000 } })) ∧
    (o.cmd = .unload → s.da.parkStage = .unloading → exec .unloadDone s = .next (State.finish s
      { s with da := { s.da with
          out := some ⟨.spin 0, false, .running 4000000000, none⟩, state := .spinning, slot := .none, speed := .known 0,
          parkStage := .spinning, idleTimer := .stopped, blockTimer := .stopped } })) ∧
    (o.cmd = .spin 0 → s.da.parkStage = .spinning → exec .spinDone s = .next (State.finish s
      { s with
        da := { s.da with out := none, state := .down, speed := .known 0, parkStage := .none }
        pc := { s.pc with driveDone := true } }))

/-- A completion that names a command other than the one outstanding is ignored, and so is one that arrives with no command
outstanding, in HELD or in FAULT: it changes nothing (R58). -/
def Obligations.OtherCompletionsAreIgnored : Prop :=
  ∀ (s : State) (n : ServoName), s.pc.state ≠ .parked →
    (s.da.state = .held ∨ s.da.state = .fault ∨ ∀ o, s.da.out = some o → o.cmd.name ≠ n) →
    (∀ r, exec (.commandFailed n r) s = .next (State.finish s s)) ∧
    (n = .load → exec .loadDone s = .next (State.finish s s)) ∧ (n = .unload → exec .unloadDone s = .next (State.finish s s)) ∧
    (n = .spin → exec .spinDone s = .next (State.finish s s)) ∧ (n = .seek → exec .seekDone s = .next (State.finish s s)) ∧
    (n = .pause → exec .pauseDone s = .next (State.finish s s)) ∧
    (n = .latchOpen → exec .latchOpenDone s = .next (State.finish s s)) ∧
    (n = .abort → exec .abortDone s = .next (State.finish s s))

/-- JAM of a command but PAUSE, any failure of ABORT, UNLOAD or SPIN 0, of a PAUSE sent again, and an expiry of ABORT or of a
command sent again put the drive into FAULT (R59, R60), which leaves the state as R61 says: the drive, the claim, the zones'
supply states, the re-read lists, the contexts and the audit targets; the chains, the records and the parameters stand. An eject
sequence that uses the drive ends with the magazine PRESENT (R159), and a parking sequence with the drive-done mark set (R166). The
last notice placed is DRIVE-FAULT with the command that failed and the cause: TIMEOUT, ABORT-FAILED, JAM, UNLOAD-FAILED or
SPIN-FAILED (R61, R185). These are the model's choices: that a failed or expired ABORT is named itself, and not the command that it
aborted (log entry 27); that DRIVE-FAULT comes last (log entry 13); that a parking sequence which still waits for an eject sequence
ends so too (log entry 56); and that a command outstanding at a magazine removal, after which R71 and R160 make the drive DOWN,
faults as any other (log entry 50). -/
def Obligations.CommandFaultsTheDrive : Prop :=
  let faults := fun (s e : State) (cmd cause : Byte) =>
    e.da.state = .fault ∧ e.da.slot = .unknown ∧ e.da.speed = .unknown ∧ e.da.out = none ∧ e.da.claim = none ∧
    e.da.idleTimer = .stopped ∧ e.da.blockTimer = .stopped ∧ e.da.hold = s.da.hold ∧ e.da.parkStage = .none ∧
    (s.da.parkStage ≠ .none → e.pc.driveDone = true) ∧
    (∀ z, ((s.zone z).supply = .feeding ∨ (s.zone z).supply = .rejoining → (e.zone z).supply = .fault) ∧
      e.ctx z = none ∧ e.ru.lists.get z = [] ∧ (e.lu.audit.get z).target = none ∧
      (e.lu.audit.get z).misses = (s.lu.audit.get z).misses ∧ e.bs.chain.get z = s.bs.chain.get z ∧
      e.bs.anchor.get z = s.bs.anchor.get z ∧ (e.zone z).nextRead = (s.zone z).nextRead) ∧
    (s.lm.ejectStage = .unloading ∨ s.lm.ejectStage = .unlatching → e.lm.magazine = .present ∧ e.lm.ejectStage = .none) ∧
    e.dd.records = s.dd.records ∧ e.dd.ident = none ∧ e.bs.freeCount = s.bs.freeCount ∧ e.params = s.params ∧
    e.straps = s.straps ∧ e.pins = s.pins ∧ e.sm = s.sm ∧ e.pending = s.pending ∧
    (∃ l : Link, e.cl = l.notice ⟨0x76, [cmd, cause]⟩) ∧
    ((∀ z, (s.zone z).supply ≠ .feeding ∧ (s.zone z).supply ≠ .rejoining) → s.lm.ejectStage ≠ .unloading →
      s.lm.ejectStage ≠ .unlatching → (s.lm.queue = [] ∨ s.lm.slotTimer = .zero) → e.cl = s.cl.notice ⟨0x76, [cmd, cause]⟩)
  ∀ (s : State) (o : Outstanding), s.pc.state ≠ .parked → s.da.out = some o → s.da.state ≠ .held → s.da.state ≠ .fault →
    s.da.startDue = false →
    (∀ n r, o.cmd.name = n →
      let fails := fun cmd cause => ∃ e, exec (.commandFailed n r) s = .next (State.finish s e) ∧ faults s e cmd cause
      (n = .abort → fails 8 2) ∧ (n = .pause → o.retry = true → fails 6 1) ∧
      (r = .jam → n ≠ .pause → n ≠ .abort → fails (servoCode n) 3) ∧ (r ≠ .jam → n = .unload → fails 2 4) ∧
      (r ≠ .jam → o.cmd = .spin 0 → fails 3 5)) ∧
    let expires := fun cmd cause => ∃ e, exec .commandTimeout s = .next (State.finish s e) ∧ faults s e cmd cause
    (o.cmd = .abort → expires 8 2) ∧ (o.cmd ≠ .abort → o.retry = true → expires (servoCode o.cmd.name) 1)

/-- An expired command with its retry mark clear is aborted, and so is a PAUSE that fails; and ABORT DONE sends the aborted command
again, with its full limit and the retry mark set, leaving the drive state, the claim and the tag (R59). -/
def Obligations.ExpiredCommandsAreSentAgain : Prop :=
  ∀ (s : State) (o : Outstanding), s.pc.state ≠ .parked → s.da.out = some o → s.da.startDue = false →
    let aborted : State := { s with da := { s.da with
      out := some ⟨.abort, false, .running 1000000000, some o.cmd⟩, blockTimer := .stopped } }
    (o.cmd ≠ .abort → o.retry = false → exec .commandTimeout s = .next (State.finish s aborted)) ∧
    (s.da.state ≠ .held → s.da.state ≠ .fault → o.cmd = .pause → o.retry = false → ∀ r,
      exec (.commandFailed .pause r) s = .next (State.finish s aborted)) ∧
    (∀ c, s.da.state ≠ .held → s.da.state ≠ .fault → o.cmd = .abort → o.aborted = some c →
      exec .abortDone s = .next (State.finish s { s with da := { s.da with out := some ⟨c, true, c.limit, none⟩ } }))

/-- A FAILED completion that is no FAULT leaves the drive as its row of R60 says, with no command outstanding and the claim gone,
and with a removal waiting DOWN with the loaded slot and the speed UNKNOWN (R71, R160); with no claim in force nothing else
changes, also where the command's claim was ended or cancelled meanwhile, which is the model's choice (log entry 19). A failed
LATCH-OPEN of an eject sequence ends it, with the magazine PRESENT (R159). -/
def Obligations.FailedCommandsByTheirRow : Prop :=
  ∀ (s : State) (o : Outstanding) (r : FailReason), s.pc.state ≠ .parked → s.da.out = some o → s.da.state ≠ .held →
    s.da.state ≠ .fault → s.da.startDue = false → (∀ c, s.da.claim = some c → c.kind ≠ .hold) → r ≠ .jam →
    let settled := fun (d : Drive) => if s.da.removalDue then
      { d with state := .down, slot := .unknown, speed := .unknown, idleTimer := .stopped, removalDue := false } else d
    let ends := fun (st : DriveState) (slot : Loaded) (speed : Speed) => ∃ e : State,
      exec (.commandFailed o.cmd.name r) s = .next (State.finish s e) ∧
      e.da = settled { s.da with
        out := none, claim := none, state := st, slot := slot, speed := speed,
        blockTimer := if s.liveClaim = none then s.da.blockTimer else .stopped } ∧
      (s.liveClaim = none → e = { s with da := e.da }) ∧
      (∀ z, e.bs.chain.get z = s.bs.chain.get z ∧ e.bs.anchor.get z = s.bs.anchor.get z) ∧ e.params = s.params ∧
      e.straps = s.straps ∧ e.pins = s.pins ∧ e.pc = s.pc ∧ e.sm = s.sm ∧ e.pending = s.pending
    ((∃ n, o.cmd = .load n) → (r = .noDisc → ends .down .none (.known 0)) ∧ (r ≠ .noDisc → ends .down .unknown .unknown)) ∧
    (∀ n, o.cmd = .spin (n + 1) → (r = .noDisc → ends .down .none (.known 0)) ∧ (r ≠ .noDisc → ends .down s.da.slot .unknown)) ∧
    ((o.cmd = .read ∨ ∃ p, o.cmd = .seek p) →
      (r = .noDisc → ends .down .none (.known 0)) ∧ (r ≠ .noDisc → ends .ready s.da.slot s.da.speed)) ∧
    (o.cmd = .latchOpen → s.lm.ejectStage ≠ .unlatching → exec (.commandFailed .latchOpen r) s =
      .next (State.finish s { s with da := settled { s.da with out := none, state := .down } })) ∧
    (o.cmd = .latchOpen → s.lm.ejectStage = .unlatching → s.lm.fromSettling = false →
      exec (.commandFailed .latchOpen r) s = .next (State.finish s
        { s with
          da := settled { s.da with out := none, state := .down }
          lm := { s.lm with magazine := .present, ejectStage := .none, latchTimer := .stopped }
          cl := s.cl.notice ⟨0x74, [2, 5]⟩ }))

/-- TRACK-LOST, and the expiry of a running block timer in its place, is taken while the drive is READING under a LIVE claim: the
claim is over, PAUSE is sent, and a FEEDING zone whose link-up or refill was reading is REJOINING, with a fresh context in the
APPENDING phase; a SKIP-PRONE region is recorded at the next read address, but not in the APPENDING phase of a zone that is not
FEEDING, nor at 480,000, which is the model's choice (log entry 39; R90, R92); a re-read, an audit and an identification move no
zone. Any other report changes nothing (R57, R72, R90, R91). That the expiry of a block timer that does not run changes nothing is
the model's choice (log entry 2). -/
def Obligations.TrackingLossEndsTheClaim : Prop :=
  ∀ s : State, s.pc.state ≠ .parked →
    (s.da.blockTimer = .stopped → exec .blockTimerExpiry s = .next (State.finish s s)) ∧
    ((s.da.state ≠ .reading ∨ s.liveClaim = none) →
      exec .trackLost s = .next (State.finish s s) ∧ exec .blockTimerExpiry s = .next (State.finish s s)) ∧
    ∀ c, s.da.state = .reading → s.da.out = none → s.da.claim = some c → c.standing = .live → c.kind ≠ .hold → ∃ e : State,
      exec .trackLost s = .next (State.finish s e) ∧
      (s.da.blockTimer ≠ .stopped → exec .blockTimerExpiry s = .next (State.finish s e)) ∧
      e.da.claim = none ∧ e.da.state = .stopping ∧ e.da.out = some ⟨.pause, false, .running 300000000, none⟩ ∧
      e.da.blockTimer = .stopped ∧ e.tagLive = false ∧
      (∀ z, (s.zone z).supply ≠ .feeding → e.zone z = s.zone z) ∧
      (∀ z, c.zone = some z → (c.kind = .linkUp ∨ c.kind = .refill) → (s.zone z).supply = .feeding →
        (e.zone z).supply = .rejoining ∧ (e.zone z).nextRead = (s.zone z).nextRead ∧
        e.zone z.other = s.zone z.other ∧
        (s.tagAppending = true → ∃ x, e.ctx z = some x ∧ x.stage = .waiting ∧ x.failed = 0 ∧
          x.backoff = s.params.luBackoff ∧ x.windowLeft = s.params.luWindow)) ∧
      (∀ z a, c.zone = some z → (c.kind = .linkUp ∨ c.kind = .refill) → (s.zone z).nextRead = some a →
        (s.tagAppending = false ∨ (s.zone z).supply = .feeding → s.marksSkip e z a) ∧
        (s.tagAppending = true → (s.zone z).supply ≠ .feeding → e.dd = s.dd)) ∧
      ((c.kind = .ident ∨ c.kind = .reread ∨ c.kind = .audit) → ∀ z, e.zone z = s.zone z ∧ e.lu.audit.get z = s.lu.audit.get z ∧
        e.ru.lists.get z = s.ru.lists.get z) ∧
      ((c.kind = .ident ∨ c.kind = .reread ∨ c.kind = .audit) → e.dd = s.dd) ∧
      e.bs = s.bs ∧ e.params = s.params ∧ e.straps = s.straps ∧ e.pins = s.pins ∧ e.pc = s.pc ∧ e.sm = s.sm ∧
      e.lm.queue = s.lm.queue

/-- The grace timer's expiry takes the bus back from a hold being revoked: the drive is READY with the loaded slot and the speed
UNKNOWN, the hold LAPSED, with a HOLD notice ENDED (R76). The idle timer's expiry sends SPIN 0 from READY (R73). That a timer
that does not run changes nothing is the model's choice (log entry 2). -/
def Obligations.DriveTimersExpire : Prop :=
  ∀ s : State, s.pc.state ≠ .parked →
    (s.da.hold = .revoking → s.da.graceTimer ≠ .stopped → exec .graceTimerExpiry s = .next (State.finish s
      { s with
        da := { s.da with
          claim := none, state := .ready, slot := .unknown, speed := .unknown, hold := .lapsed, graceTimer := .stopped }
        lm := if s.lm.ejectStage = .waitingHold then { s.lm with ejectStage := .unloading } else s.lm
        cl := s.cl.notice ⟨0x75, [3]⟩ })) ∧
    ((s.da.hold ≠ .revoking ∨ s.da.graceTimer = .stopped) → exec .graceTimerExpiry s = .next (State.finish s s)) ∧
    (s.da.idleTimer ≠ .stopped → s.da.out = none → s.da.state = .ready → exec .idleTimerExpiry s = .next (State.finish s
      { s with da := { s.da with
        out := some ⟨.spin 0, false, .running 4000000000, none⟩, state := .spinning, idleTimer := .stopped,
        blockTimer := .stopped } })) ∧
    (s.da.idleTimer = .stopped → exec .idleTimerExpiry s = .next (State.finish s s))

/-! ## The Shock Monitor -/

/-- The shock line's rises and falls and the settle timer's expiry (R94): a rise counts up to 15, sets ROUGH-ROAD at 6 and stops the
settle timer, and cancels a claim that is READING: the zone of a link-up or refill becomes the shocked zone, and a re-read, an audit
and an identification stay pending; a fall starts the settle timer; and its expiry hands the shocked zone over, which is
REJOINING if it was FEEDING. That in PARKED the line's level alone is kept is the model's choice (log entry 34), and so is that a
settle timer that does not run changes nothing (log entry 2). -/
def Obligations.ShocksAreCountedAndSettled : Prop :=
  ∀ s : State,
    let up : State := { s with
      pins := { s.pins with shockHigh := true }
      sm := { s.sm with
        count := min 15 (s.sm.count + 1), roughRoad := s.sm.roughRoad || decide (6 ≤ min 15 (s.sm.count + 1)),
        settleTimer := .stopped } }
    (s.pc.state = .parked →
      exec .shockRise s = .next { s with pins := { s.pins with shockHigh := true } } ∧
      exec .shockFall s = .next { s with pins := { s.pins with shockHigh := false } }) ∧
    (s.pc.state ≠ .parked →
      ((s.da.state ≠ .reading ∨ s.liveClaim = none) → exec .shockRise s = .next (State.finish s up)) ∧
      (∀ c z, s.da.state = .reading → s.da.out = none → s.da.claim = some c → c.standing = .live →
        (c.kind = .linkUp ∨ c.kind = .refill) → c.zone = some z → ∃ e : State, exec .shockRise s = .next (State.finish s e) ∧
          e.pins = up.pins ∧
          e.sm = { up.sm with shocked := some ⟨z, if s.tagAppending then .appending else .joining⟩ } ∧
          e.da.claim = none ∧ e.da.state = .stopping ∧ e.da.out = some ⟨.pause, false, .running 300000000, none⟩ ∧
          e.tagLive = false ∧ e.zc = s.zc ∧ e.bs = s.bs ∧ e.params = s.params ∧ e.straps = s.straps ∧ e.pc = s.pc ∧
          e.cl = s.cl ∧ e.dd = s.dd ∧ e.lm = s.lm) ∧
      (∀ c, s.da.state = .reading → s.da.out = none → s.da.claim = some c → c.standing = .live →
        (c.kind = .reread ∨ c.kind = .audit ∨ c.kind = .ident) → ∃ e : State, exec .shockRise s = .next (State.finish s e) ∧
          e.pins = up.pins ∧ e.sm = up.sm ∧ e.da.claim = none ∧ e.da.state = .stopping ∧
          e.da.out = some ⟨.pause, false, .running 300000000, none⟩ ∧ e.tagLive = false ∧ e.zc = s.zc ∧ e.bs = s.bs ∧
          e.ru = s.ru ∧ e.lu = s.lu ∧ e.dd = s.dd ∧ e.lm.queue = s.lm.queue ∧ e.params = s.params ∧ e.straps = s.straps ∧
          e.pc = s.pc ∧ e.cl = s.cl) ∧
      exec .shockFall s = .next (State.finish s { s with
        pins := { s.pins with shockHigh := false }
        sm := { s.sm with settleTimer := .running (10 * s.params.shockSettle * 1000000) } }) ∧
      (s.sm.settleTimer = .stopped → exec .settleTimerExpiry s = .next (State.finish s s)) ∧
      (s.sm.settleTimer ≠ .stopped →
        (s.sm.shocked = none ∨ (∃ x, s.sm.shocked = some x ∧ (s.zone x.zone).supply ≠ .feeding)) →
        exec .settleTimerExpiry s = .next (State.finish s
          { s with sm := { s.sm with settleTimer := .stopped, shocked := none } })) ∧
      (∀ x, s.sm.settleTimer ≠ .stopped → s.sm.shocked = some x → (s.zone x.zone).supply = .feeding → ∃ e : State,
        exec .settleTimerExpiry s = .next (State.finish s e) ∧
        e.sm = { s.sm with settleTimer := .stopped, shocked := none } ∧ (e.zone x.zone).supply = .rejoining ∧
        (e.zone x.zone).nextRead = (s.zone x.zone).nextRead ∧ e.zone x.zone.other = s.zone x.zone.other ∧
        (x.phase = .joining → e.ctx x.zone = s.ctx x.zone) ∧
        (x.phase = .appending → ∃ c, e.ctx x.zone = some c ∧ c.stage = .waiting ∧ c.failed = 0 ∧
          c.backoff = s.params.luBackoff) ∧
        e.bs = s.bs ∧ e.da = s.da ∧ e.bi = s.bi ∧ e.dd = s.dd ∧ e.lm = s.lm ∧ e.params = s.params ∧ e.straps = s.straps ∧
        e.pins = s.pins ∧ e.pc = s.pc))

/-- The expiry of the window timer judges the window: 6 or more rises set ROUGH-ROAD, 0 or 1 clear it, and 2 to 5 leave it; the
count becomes 0 and the timer starts again for 10 s; and while ROUGH-ROAD is set a claim reads at 2 at most (R95). That a window
timer that does not run changes nothing is the model's choice (log entry 2), and so is that it does not run in PARKING (log entry
32). -/
def Obligations.WindowExpiryJudgesTheRoad : Prop :=
  ∀ s : State, s.pc.state ≠ .parked →
    (s.sm.windowTimer = .stopped → exec .windowTimerExpiry s = .next (State.finish s s)) ∧
    (s.sm.windowTimer ≠ .stopped →
      let done := fun road => exec .windowTimerExpiry s = .next (State.finish s
        { s with sm := { s.sm with roughRoad := road, count := 0, windowTimer := .running 10000000000 } })
      (6 ≤ s.sm.count → done true) ∧ (2 ≤ s.sm.count → s.sm.count ≤ 5 → done s.sm.roughRoad) ∧ (s.sm.count ≤ 1 → done false)) ∧
    (s.sm.roughRoad = true → s.identSpeed ≤ 2 ∧ ∀ z slot target reads, s.burstSpeed z slot ≤ 2 ∧ s.targetSpeed z target reads ≤ 2)

/-! ## The Loader Monitor -/

/-- The magazine switch: closing an ABSENT magazine's switch makes it SETTLING with the debounce timer started; opening makes the
magazine ABSENT, with nothing more from SETTLING, and with the removal effects from PRESENT: each zone that is FEEDING, REJOINING
or RESYNC is ABSENT, every PRESENT record DEPARTED, the identification queue empty, both audit targets dropped (R153, R160, R161).
An event that leaves the switch as it stood changes nothing; in PARKED a change wakes the part (R169). That an opening in SETTLING
leaves the claim and the drive as they were is the model's choice (log entry 17). -/
def Obligations.TheSwitchMovesTheMagazine : Prop :=
  ∀ s : State,
    let shut : State := { s with pins := { s.pins with magClosed := true } }
    let opened : State := { s with pins := { s.pins with magClosed := false } }
    (s.pins.magClosed = true → exec .magazineSwitchCloses s = .next s) ∧
    (s.pins.magClosed = false → exec .magazineSwitchOpens s = .next s) ∧
    (s.pins.magClosed = false → s.pc.state = .parked →
      exec .magazineSwitchCloses s = .next (State.finish s (shut.wakeUp .magazine))) ∧
    (s.pins.magClosed = true → s.pc.state = .parked →
      exec .magazineSwitchOpens s = .next (State.finish s (opened.wakeUp .magazine))) ∧
    (s.pins.magClosed = false → s.pc.state ≠ .parked →
      (s.lm.magazine = .absent → exec .magazineSwitchCloses s = .next (State.finish s { shut with
        lm := { s.lm with magazine := .settling, debounce := .running (8 * s.params.magDebounce * 1000000) } })) ∧
      (s.lm.magazine ≠ .absent → exec .magazineSwitchCloses s = .next (State.finish s shut))) ∧
    (s.pins.magClosed = true → s.pc.state ≠ .parked →
      (s.lm.magazine = .absent → exec .magazineSwitchOpens s = .next (State.finish s opened)) ∧
      (s.lm.magazine = .settling → exec .magazineSwitchOpens s = .next (State.finish s { opened with
        lm := { s.lm with
          magazine := .absent, debounce := .stopped, ejectStage := .none, fromSettling := false,
          latchTimer := .stopped } })) ∧
      (s.lm.magazine = .present ∨ s.lm.magazine = .ejecting → ∃ e : State,
        exec .magazineSwitchOpens s = .next (State.finish s e) ∧
        e.lm = ⟨.absent, .stopped, .none, false, .stopped, [], .zero, 0⟩ ∧
        (∀ z, ((s.zone z).supply = .feeding ∨ (s.zone z).supply = .rejoining ∨ (s.zone z).supply = .resync →
            (e.zone z).supply = .absent ∧ e.ctx z = none) ∧
          ((s.zone z).supply ≠ .feeding → (s.zone z).supply ≠ .rejoining → (s.zone z).supply ≠ .resync →
            e.zone z = s.zone z) ∧
          (e.lu.audit.get z).target = none ∧ (e.lu.audit.get z).misses = (s.lu.audit.get z).misses) ∧
        e.dd.records = s.dd.records.map departRecord ∧ e.dd.ident = none ∧ e.dd.sequence = s.dd.sequence ∧
        e.bs = s.bs ∧ e.ru.lists = s.ru.lists ∧ e.da.hold = s.da.hold ∧
        (s.lm.magazine = .present → s.da.state ≠ .held → s.da.state ≠ .fault → e.da.removalDue = true) ∧
        (s.lm.magazine = .ejecting → s.lm.ejectStage = .latchWait → e.da.removalDue = s.da.removalDue) ∧
        (∀ c, s.da.claim = some c → c.standing = .live → c.kind ≠ .hold → s.da.out = none → e.da.claim = none) ∧
        e.params = s.params ∧ e.straps = s.straps ∧ e.pins = opened.pins ∧ e.pc = s.pc ∧ e.sm = s.sm))

/-! ## Power -/

/-- A rise of the run line sets the wake pending mark in PARKING, unless it is set, and wakes a PARKED part (R164, R167, R169).
The part enters PARKED when it is PARKING, both marks are set, the transmitter is idle and the notice queue empty: the check sum
is stored, the block memory is kept no longer, and the outputs are low; with the wake pending mark set it wakes at once; and what
the block memory then reads as is the model's choice (R19, R168; log entry 5). That ENTER_PARKED does nothing while these
conditions do not hold is the model's choice too (log entry 36). In PARKED the start bit of any frame wakes the part, and the
frame is lost (R169, R173). -/
def Obligations.PartParksAndWakes : Prop :=
  (∀ s : State,
     let up : State := { s with pins := { s.pins with runHigh := true } }
     let parked : State := { s with
       pc := { s.pc with state := .parked, checkSum := s.checkSum }
       bs := { s.bs with mem := [] }
       oc := ⟨{ s.oc.a with outL := 0, outR := 0 }, { s.oc.b with outL := 0, outR := 0 }⟩ }
     let ready := s.pc.state = .parking ∧ s.pc.driveDone = true ∧ s.pc.silenceDone = true ∧ s.cl.transmitter = none ∧
       s.cl.notices = []
     (s.pc.state = .parked → exec .runLineRises s = .next (State.finish s (up.wakeUp .run))) ∧
     (s.pc.state = .parking → s.pc.wakePending = none → exec .runLineRises s = .next (State.finish s
       { up with pc := { s.pc with wakePending := some .run } })) ∧
     ((s.pc.state = .active ∨ s.pc.state = .parking ∧ s.pc.wakePending ≠ none) →
       exec .runLineRises s = .next (State.finish s up)) ∧
     (¬ ready → exec .enterParked s = .next s) ∧
     (ready → s.pc.wakePending = none → exec .enterParked s = .next parked) ∧
     (∀ src, ready → s.pc.wakePending = some src → exec .enterParked s = .next (State.finish s (parked.wakeUp src)))) ∧
  ∀ (s : State) (body : List Byte), s.pc.state = .parked →
    (∀ row ∈ requestTable, exec (row.2.2.2 body) s = .next (State.finish s (s.wakeUp .link))) ∧
    (∀ k, exec (.unknownKindFrame k body) s = .next (State.finish s (s.wakeUp .link))) ∧
    ∀ b l, exec (.frameDiscarded (b :: l)) s = .next (State.finish s (s.wakeUp .link)) ∧
      exec (.linkGapTimeout (b :: l)) s = .next (State.finish s (s.wakeUp .link))

/-! ## The transmitter and the notices -/

/-- The end of a transmitted frame: the end of a reply answers the pending request; then the oldest refusal or reply goes out, and
a notice only while no request is unanswered and no refusal waits (R176). A notice is discarded while the hush flag is set; joins
the queue while that holds fewer than 16, and goes out at once from an idle link; and is otherwise dropped, setting the
notices-lost flag (R176, R177). Forming a reply: the pending request keeps its frame and has that reply; an idle transmitter with
no refusal waiting begins it at once, and a busy one goes on with its frame (R175, R176). -/
def Obligations.FramesQueueAndGoOutInOrder : Prop :=
  ((∀ s : State, s.pc.state ≠ .parked →
     exec .transmitFrameDone s = .next (State.finish s { s with cl := s.cl.sent })) ∧
   ∀ l : Link,
     (l.transmitter = none → l.sent = l) ∧
     (∀ f, l.transmitter = some (.reply f) → l.sent.request = none ∧ l.sent.hush = l.hush ∧ l.sent.lost = l.lost ∧
       (l.refusals = [] → l.notices = [] → l.sent.transmitter = none) ∧
       (∀ g gs, l.refusals = g :: gs → l.sent.transmitter = some (.refusal g) ∧ l.sent.refusals = gs ∧
         l.sent.notices = l.notices) ∧
       (∀ g gs, l.refusals = [] → l.notices = g :: gs → l.sent.transmitter = some (.notice g) ∧ l.sent.notices = gs)) ∧
     (∀ f q g, l.transmitter = some (.notice f) → l.request = some ⟨q, some g, 0⟩ →
       l.sent.transmitter = some (.reply g) ∧ l.sent.notices = l.notices ∧ l.sent.refusals = l.refusals) ∧
     (∀ f q g n h hs, l.transmitter = some (.notice f) → l.request = some ⟨q, some g, n + 1⟩ → l.refusals = h :: hs →
       l.sent.transmitter = some (.refusal h) ∧ l.sent.refusals = hs ∧ l.sent.request = some ⟨q, some g, n⟩) ∧
     (∀ f q n, l.transmitter = some (.notice f) → l.request = some ⟨q, none, n⟩ → l.refusals = [] →
       l.sent.transmitter = none ∧ l.sent.notices = l.notices)) ∧
  (∀ (l : Link) (f : Frame),
     (l.hush = true → l.notice f = l) ∧
     (l.hush = false → 16 ≤ l.notices.length → l.notice f = { l with lost := true }) ∧
     (∀ x, l.hush = false → l.notices.length < 16 → l.transmitter = some x →
       l.notice f = { l with notices := l.notices ++ [f] }) ∧
     (l.hush = false → l.notices = [] → l.transmitter = none → l.request = none → l.refusals = [] →
       l.notice f = { l with transmitter := some (.notice f) })) ∧
  ∀ (l : Link) (q : PendingReq) (f : Frame), l.request = some q →
    (∃ n, (l.formReply f).request = some ⟨q.frame, some f, n⟩) ∧
    (l.transmitter = none → l.refusals = [] → (l.formReply f).transmitter = some (.reply f)) ∧
    (∀ x, l.transmitter = some x → (l.formReply f).transmitter = some x ∧ (l.formReply f).refusals = l.refusals) ∧
    (l.formReply f).notices = l.notices ∧ (l.formReply f).hush = l.hush ∧ (l.formReply f).lost = l.lost ∧
    (l.formReply f).rx = l.rx

/-! ## Blocks, chains and matching -/

/-- A block presented while the drive is not READING, or under a tag that is absent or not LIVE, is a trailing block: with no READ
outstanding it changes nothing (R8). The first block after READ completes it: under a LIVE claim no command is outstanding any
more, and the block is taken as any later one, after which the block timer runs while reading goes on; when the claim was ended or
cancelled meanwhile it is then gone, and PAUSE is sent (R57, R71); and when a soft start waits for the command, DA takes its start
values (R56), that the block is a completion in that sense being the model's reading (log entry 22). -/
def Obligations.TrailingBlocksAreThrownAway : Prop :=
  (∀ (s : State) (b : PortBlock), s.pc.state ≠ .parked → (∀ o, s.da.out = some o → o.cmd ≠ .read) →
     (s.da.state ≠ .reading ∨ s.tagLive = false) → exec (.blockPresented b) s = .next (State.finish s s)) ∧
  ∀ (s : State) (b : PortBlock) (o : Outstanding), s.pc.state ≠ .parked → s.da.out = some o → o.cmd = .read →
    s.da.state = .reading →
    (s.da.startDue = true → exec (.blockPresented b) s = .next (State.finish s { s with da := { s.da with
      state := .down, slot := .unknown, speed := .unknown, claim := none, out := none, blockTimer := .stopped,
      idleTimer := .stopped, removalDue := false, startDue := false } })) ∧
    (s.da.startDue = false → s.liveClaim = none → exec (.blockPresented b) s = .next (State.finish s
      { s with da := { s.da.sending .pause 300000000 .stopping with claim := none } })) ∧
    (s.da.startDue = false → s.liveClaim ≠ none →
      exec (.blockPresented b) s = exec (.blockPresented b) { s with da := { s.da with out := none } } ∧
      ∃ e : State, exec (.blockPresented b) s = .next (State.finish s e) ∧
        (e.tagLive = true → e.da.state = .reading → e.da.out = none → e.da.blockTimer = .running 1000000000) ∧
        (s.tagLive = false → e = { s with da := { s.da with out := none } }))

/-- A block that arrives in order in the APPENDING phase is committed: it becomes the tail of the zone's chain in the bucket that
was the free head, with its expected address and its measured fields, and the next read address rises by 1 (R10, R11, R17, R27,
R35). With a GOOD stamp it is confirmed, and is the preceding GOOD stamp; a block recorded as DOUBTFUL or MISSING is committed at
the same address, not confirmed, and counts (R13, R17). The claim counts the commit, and is over, with PAUSE, at the burst limit
when no LOAD was issued, at room 0, and at the floor while the other zone is pressing (R68, R69); a FEEDING zone that reaches its
threshold, or room below 32, is PLAYING (R39, R40). An append to a full chain is refused: the bucket is discarded, nothing of the
zone changes, and the claim is over, with PAUSE (R27, R68). -/
def Obligations.BlockInOrderIsAppended : Prop :=
  ∀ (s : State) (b : PortBlock) (z : ZoneId) (tag : Tag) (c : Claim) (e : Nat), s.pc.state ≠ .parked → s.bs.sound →
    s.da.out = none → s.da.state = .reading → s.bi.tag = some tag → tag.standing = .live →
    (tag.kind = .linkUp ∨ tag.kind = .refill) → tag.zone = some z → tag.phase = some .appending → s.da.claim = some c →
    c.standing = .live → c.kind = tag.kind → c.zone = some z → s.bs.intake = 0 → s.bs.freeHead ≠ 0 → s.bs.freeCount ≠ 0 →
    (s.zone z).nextRead = some e → e ≤ s.programEnd z →
    let good := b.stamp = some e ∧ b.stampStatus = .good ∧ e ≤ 479999
    let unstamped := b.stampStatus ≠ .good ∨ b.stamp = none ∨ ∃ a, b.stamp = some a ∧ 479999 < a
    (good ∨ unstamped) → ∃ t : State, exec (.blockPresented b) s = .next (State.finish s t) ∧
      (good → t.bi.nonGood = 0 ∧ t.bi.lastGood = some e) ∧
      (unstamped → t.bi.nonGood = min 255 (s.bi.nonGood + 1) ∧ t.bi.lastGood = s.bi.lastGood) ∧
      (let ended := t.da = { s.da.sending .pause 300000000 .stopping with claim := none } ∧ t.tagLive = false
       (s.quota z ≤ s.fill z → ended ∧ t.zc = s.zc ∧ t.bs.chain = s.bs.chain ∧ t.bs.anchor = s.bs.anchor ∧
         t.bs.freeHead = s.bs.freeHead ∧ t.bs.freeCount = s.bs.freeCount ∧ t.bs.intake = 0 ∧ t.cl = s.cl ∧ t.lu = s.lu) ∧
       (s.fill z < s.quota z → t.fill z = s.fill z + 1 ∧
         (t.bs.chain.get z).tail = s.bs.freeHead ∧ t.bs.intake = 0 ∧ (t.zone z).nextRead = some (e + 1) ∧
         (t.zone z).resume = none ∧ t.bs.chain.get z.other = s.bs.chain.get z.other ∧ t.bs.anchor.get z = 0 ∧
         (t.info s.bs.freeHead).expected = some e ∧ (good → (t.info s.bs.freeHead).confirmed = true ∧
           (t.info s.bs.freeHead).stamp = some e ∧ (t.info s.bs.freeHead).stampStatus = .good) ∧
         (unstamped → (t.info s.bs.freeHead).confirmed = false ∧ (t.info s.bs.freeHead).stamp = none ∧
           (t.info s.bs.freeHead).stampStatus ≠ .good) ∧
         (t.info s.bs.freeHead).decoder = b.decoder ∧ (t.info s.bs.freeHead).erasures = (portFlags b).count true ∧
         (t.bs.bucket s.bs.freeHead).samples = portSamples b ∧ (t.bs.bucket s.bs.freeHead).flags = portFlags b ∧
         (let n := min 4095 (c.commits + 1)
          let last := c.swap = false ∧ s.params.burstLimit ≤ n ∨ s.quota z = s.fill z + 1 ∨
            s.pressing z.other = true ∧ s.params.lowWater.get z + 200 ≤ s.fill z + 1
          (last → ended) ∧ (¬ last → t.tagLive = true ∧
            t.da = { s.da with claim := some { c with commits := n }, blockTimer := .running 1000000000 })) ∧
         ((s.zone z).supply = .feeding →
           let full := s.quota z < s.fill z + 33
           (t.zone z).play =
             if (s.zone z).play = .priming ∧ (s.params.startThr.get z ≤ s.fill z + 1 ∨ full) ∨
               (s.zone z).play = .starved ∧ (s.params.restartThr.get z ≤ s.fill z + 1 ∨ full) then .playing
             else (s.zone z).play)))

/-- A GOOD stamp other than the expected address is a skip: the block is not committed, the claim is over, reading is stopped with
PAUSE, and a FEEDING zone is REJOINING with a fresh context, with a SKIP-PRONE region recorded at the expected address; its chain
and next read address stand (R16, R70, R80, R91, R92). A zone that is not FEEDING is not moved, and no region is recorded for it.
That nothing is recorded at 480,000 is the model's choice (log entry 39). -/
def Obligations.SkipSendsAZoneToRejoining : Prop :=
  ∀ (s : State) (b : PortBlock) (z : ZoneId) (tag : Tag) (c : Claim) (e a : Nat), s.pc.state ≠ .parked → s.da.out = none →
    s.da.state = .reading → s.bi.tag = some tag → tag.standing = .live → (tag.kind = .linkUp ∨ tag.kind = .refill) →
    tag.zone = some z → tag.phase = some .appending → s.da.claim = some c → c.standing = .live → c.kind = tag.kind →
    c.zone = some z → s.bs.intake = 0 → s.bs.freeHead ≠ 0 → s.bs.freeCount ≠ 0 → (s.zone z).nextRead = some e →
    b.stamp = some a → b.stampStatus = .good → a ≤ 479999 → a ≠ e → e ≤ s.programEnd z →
    ∃ t : State, exec (.blockPresented b) s = .next (State.finish s t) ∧
      ((s.zone z).supply = .feeding → (t.zone z).supply = .rejoining ∧ s.marksSkip t z e ∧
        ∃ x, t.ctx z = some x ∧ x.stage = .waiting ∧ x.failed = 0 ∧ x.backoff = s.params.luBackoff) ∧
      ((s.zone z).supply ≠ .feeding → t.zone z = s.zone z ∧ t.ctx z = s.ctx z ∧ t.dd = s.dd) ∧
      (t.zone z).nextRead = some e ∧ (∀ w, t.bs.chain.get w = s.bs.chain.get w ∧ t.bs.anchor.get w = s.bs.anchor.get w) ∧
      t.bs.freeHead = s.bs.freeHead ∧ t.bs.freeCount = s.bs.freeCount ∧ t.bs.intake = 0 ∧ t.da.claim = none ∧
      t.da.out = some ⟨.pause, false, .running 300000000, none⟩ ∧ t.da.state = .stopping ∧ t.zone z.other = s.zone z.other

/-- Hearing a zone's head block: the next block becomes the head and the length falls by 1; the block heard becomes the anchor when
the chain empties and an anchor is kept, and the free head otherwise; the other zone stands (R29). -/
def Obligations.HearMovesTheHeadBlock : Prop :=
  ∀ (st : Store) (z : ZoneId) (keep : Bool), st.sound → (st.chain.get z).length ≠ 0 →
    let c := st.chain.get z
    let t := st.hear z keep
    (1 < c.length → t.chain.get z = ⟨st.nextOf c.head, c.tail, c.length - 1⟩ ∧ t.freeHead = c.head ∧
      t.freeCount = st.freeCount + 1 ∧ t.chainOf z = (st.chainOf z).tail) ∧
    (c.length = 1 → t.chain.get z = ⟨0, 0, 0⟩ ∧
      (keep = true → t.anchor.get z = c.head ∧ t.freeHead = st.freeHead ∧ t.freeCount = st.freeCount) ∧
      (keep = false → t.anchor.get z = 0 ∧ t.freeHead = c.head ∧ t.freeCount = st.freeCount + 1)) ∧
    t.chainOf z.other = st.chainOf z.other ∧ t.anchor.get z.other = st.anchor.get z.other ∧ t.intake = st.intake ∧ t.sound

/-- A block that LU tests in the JOINING phase of a link-up or refill. Searching for the start (LOCATE, R77) or for the anchor by
its GOOD stamp (ANCHOR, R78): a block not taken is discarded and lowers the window; the last of the window, or a GOOD stamp past
the target, fails the attempt; the start is committed and completes the join (R89); and the anchor's copy is merged into the chain
block, unless it is the head, and verification begins (R82, R84). Verifying: a block at or before the head is passed over; the
GOOD stamp expected merges the copy and confirms the block, another fails the attempt, and a block of another status is judged by
its data, a copy that does not agree cutting the chain and being committed in its place (R85, R87). When no verification remains,
the next block in order is committed and completes the join; another GOOD stamp fails the attempt (R88). Beyond the program end,
in either phase, a block is discarded and supply ends (R15). A failed attempt ends the claim, counts, doubles the backoff, and
leaves the zone REJOINING, or RESYNC at the limit (R83); by a GOOD stamp out of order it records a SKIP-PRONE region there (R92),
but none at 480,000, which is the model's choice (log entry 39). A block without a GOOD stamp is taken as the start by the stamp
before it (R77, R89); whether one with another GOOD stamp is taken so too, which R18 excludes, is left to a free value, and where it
is not, its stamp alone decides: that is the model's choice (log entry 47). -/
def Obligations.JoiningBlocksLinkUpOrFail : Prop :=
  ∀ (s : State) (b : PortBlock) (z : ZoneId) (tag : Tag) (c : Claim) (e : Nat),
    s.pc.state ≠ .parked → s.da.out = none → s.da.state = .reading → s.bi.tag = some tag → tag.standing = .live →
    (tag.kind = .linkUp ∨ tag.kind = .refill) → tag.zone = some z → s.da.claim = some c → c.standing = .live →
    c.kind = tag.kind → c.zone = some z → s.bs.sound → s.bs.intake = 0 → s.bs.freeHead ≠ 0 → s.bs.freeCount ≠ 0 →
    (s.zone z).nextRead = some e → ((s.zone z).supply = .feeding ∨ (s.zone z).supply = .rejoining) →
    ∃ t : State, exec (.blockPresented b) s = .next (State.finish s t) ∧ t.bs.intake = 0 ∧
    let good := fun (a : Nat) => b.stamp = some a ∧ b.stampStatus = .good ∧ a ≤ 479999
    let copy : Bucket := ⟨Bucket.blank.info, portSamples b, portFlags b⟩
    let stands := ∀ w, t.bs.chain.get w = s.bs.chain.get w ∧ t.bs.anchor.get w = s.bs.anchor.get w
    let ended := t.da.claim = none ∧ t.da.out = some ⟨.pause, false, .running 300000000, none⟩ ∧ t.da.state = .stopping ∧
      t.tagLive = false
    let goesOn := fun (y : LinkCtx) => t.ctx z = some y ∧ stands ∧ t.zc = s.zc ∧ t.bi.tag = s.bi.tag ∧
      t.da = { s.da with blockTimer := .running 1000000000 }
    let merged := fun (k : Nat) => (t.bs.bucket k).samples = (mergeBlock (s.bs.bucket k) copy).samples ∧
      (t.bs.bucket k).flags = (mergeBlock (s.bs.bucket k) copy).flags
    let fails := fun (x : LinkCtx) (slip : Option Nat) =>
      (slip = none → t.dd = s.dd) ∧ (∀ a, slip = some a → s.marksSkip t z a) ∧ ended ∧ stands ∧ (t.zone z).nextRead = some e ∧
      (min 7 (x.failed + 1) < s.params.luAttempts → (t.zone z).supply = .rejoining ∧ ∃ y, t.ctx z = some y ∧
        y.stage = .waiting ∧ y.mode = x.mode ∧ y.failed = min 7 (x.failed + 1) ∧ y.backoff = min 64 (2 * x.backoff)) ∧
      (s.params.luAttempts ≤ min 7 (x.failed + 1) → (t.zone z).supply = .resync ∧ t.ctx z = none)
    let joins := fun (n a : Nat) => (t.bs.chain.get z).length = n + 1 ∧ (t.bs.chain.get z).tail = s.bs.freeHead ∧
      (t.info s.bs.freeHead).expected = some a ∧ (t.bs.bucket s.bs.freeHead).samples = portSamples b ∧
      t.bs.anchor.get z = 0 ∧ (t.zone z).nextRead = some (a + 1) ∧ (t.zone z).resume = none ∧ t.ctx z = none ∧
      (t.zone z).supply = .feeding ∧ t.tagAppending = true
    (s.programEnd z < e → s.fill z ≠ 0 →
      (tag.phase = some .appending ∧ (s.zone z).supply = .feeding ∨ ∃ x v, tag.phase = some .joining ∧ s.ctx z = some x ∧
        x.stage = .verifying ∧
        x.verify = some v ∧ e ≤ v) →
      ended ∧ stands ∧ (t.zone z).nextRead = some e ∧ (t.zone z).supply = .ended ∧
      (tag.phase = some .appending → (s.zone z).play = .playing →
        t.cl = s.cl.notice ⟨0x70, [zoneCode z, 2, 7, 17]⟩)) ∧
    (tag.phase = some .joining → ∀ x, s.ctx z = some x → x.stage = .searching → x.mode = .locate →
      ∀ p, (s.zone z).resume = some p →
      let led := p.addr ≠ 0 ∧ s.bi.nonGood = 0 ∧ s.bi.lastGood = some (p.addr - 1)
      let despite := fun a => led ∧ Config.startDespiteStamp p.addr a = true
      (∀ a, good a → a < p.addr → ¬ despite a → 2 ≤ x.windowLeft → goesOn { x with windowLeft := x.windowLeft - 1 }) ∧
      (∀ a, good a → a < p.addr → ¬ despite a → x.windowLeft ≤ 1 → fails x none) ∧
      (∀ a, good a → p.addr < a → ¬ despite a → fails x none) ∧
      ((good p.addr ∨ (∃ a, good a ∧ despite a) ∨ led ∧ ∀ a, ¬ good a) → s.fill z < s.quota z → joins (s.fill z) e)) ∧
    (tag.phase = some .joining → ∀ x, s.ctx z = some x → x.stage = .searching → x.mode = .anchor →
      ∀ n q, x.anchor = .chain n → s.posOf z n = some q →
      let k := s.bucketAt z q
      (s.info k).stampStatus = .good →
      (∀ a, good a → a < n → 2 ≤ x.windowLeft → goesOn { x with windowLeft := x.windowLeft - 1 }) ∧
      (∀ a, good a → a < n → x.windowLeft ≤ 1 → fails x none) ∧
      (∀ a, good a → n < a → fails x none) ∧
      (good n → goesOn { x with windowLeft := x.windowLeft - 1, stage := .verifying, verify := some (n + 1) } ∧
        (q ≠ 0 → merged k) ∧ (q = 0 → t.bs.bucket k = s.bs.bucket k))) ∧
    (tag.phase = some .joining → ∀ x v hd, s.ctx z = some x → x.stage = .verifying → x.verify = some v → v < e →
      s.headAddr z = some hd →
      let on := { x with verify := some (v + 1) }
      (v ≤ hd → goesOn on) ∧
      (hd < v → ∀ q, s.posOf z v = some (q + 1) →
        let k := s.bucketAt z (q + 1)
        let same := agrees (dataCompare (s.bs.bucket k) copy)
        (good v → goesOn on ∧ merged k ∧ (t.info k).confirmed = true) ∧
        (∀ a, good a → a ≠ v → fails x (some v)) ∧
        (b.stampStatus ≠ .good → same = true → goesOn on ∧ merged k ∧ (t.info k).confirmed = (s.info k).confirmed) ∧
        (b.stampStatus ≠ .good → same = false → v - hd < s.fill z → v - hd < s.quota z → v ≤ s.programEnd z →
          joins (v - hd) v))) ∧
    (tag.phase = some .joining → ∀ x v, s.ctx z = some x → x.stage = .verifying → x.verify = some v → e ≤ v →
      e ≤ s.programEnd z →
      (∀ a, good a → a ≠ e → fails x (some e)) ∧
      ((good e ∨ b.stampStatus ≠ .good) → s.fill z < s.quota z → joins (s.fill z) e))

/-- A merge fills the erased samples of the chain block that the copy has, leaves every other sample and flag and the block's
expected address, stamp, track, read count and marks, and counts the erasures, decides the featureless mark and amends the decoder
status again; with nothing to fill it changes nothing (R21, R86, R110, R111). A block under a RE-READ, AUDIT or IDENTIFICATION
claim. RE-READ: the target's copy is merged into a listed block behind the head unless more than 8 samples disagree, the block's
read count rises, and the entry is recovered, exhausted with an UNREADABLE region, or kept; an attempt without a copy counts the
same (R109, R112, R113). AUDIT: the copy is compared: too few samples leave the audit pending, agreement confirms the block and
clears the misses, and disagreement cuts the chain from the target and sends a FEEDING zone to REJOINING (R98, R99, R100, R101);
that the claim of a target that has left the chain ends at this block is the model's choice (log entry 48). IDENTIFICATION: an
unreadable block counts, the 32nd ends the slot, and a readable one decides the record (R139, R142). -/
def Obligations.MergesAndTargetClaims : Prop :=
  (∀ x y : Bucket, x.samples.length = 960 → x.flags.length = 960 → y.samples.length = 960 → y.flags.length = 960 →
     let m := mergeBlock x y
     let fill := fun n => x.flags.getD n true = true ∧ y.flags.getD n true = false
     (∀ n, n < 960 →
       (fill n → m.samples.getD n 0 = y.samples.getD n 0 ∧ m.flags.getD n true = false) ∧
       (¬ fill n → m.samples.getD n 0 = x.samples.getD n 0 ∧ m.flags.getD n true = x.flags.getD n true)) ∧
     m.samples.length = 960 ∧ m.flags.length = 960 ∧
     ((∀ n, n < 960 → ¬ fill n) → m = x) ∧
     ∀ n, n < 960 → fill n → m.info = { x.info with
       erasures := m.flags.count true
       featureless := isFeatureless m.samples m.flags
       decoder := if x.info.decoder = .clean ∨ x.info.decoder = .corrected then x.info.decoder
         else if m.flags.count true = 0 then .corrected else .flagged }) ∧
  ∀ (s : State) (b : PortBlock) (tag : Tag) (c : Claim),
    s.pc.state ≠ .parked → s.da.out = none → s.da.state = .reading → s.bi.tag = some tag → tag.standing = .live →
    s.da.claim = some c → c.standing = .live → c.kind = tag.kind → c.zone = tag.zone → s.bs.sound →
    s.bs.intake = 0 → s.bs.freeHead ≠ 0 → s.bs.freeCount ≠ 0 →
    (tag.kind = .ident ∨ (tag.kind = .reread ∨ tag.kind = .audit) ∧ ∃ z a, tag.zone = some z ∧ tag.target = some a ∧
      c.target = some a) →
    ∃ t : State, exec (.blockPresented b) s = .next (State.finish s t) ∧ t.bs.intake = 0 ∧
    let good := fun (a : Nat) => b.stamp = some a ∧ b.stampStatus = .good ∧ a ≤ 479999
    let copy : Bucket := ⟨Bucket.blank.info, portSamples b, portFlags b⟩
    let stands := ∀ w, t.bs.chain.get w = s.bs.chain.get w ∧ t.bs.anchor.get w = s.bs.anchor.get w
    let ended := t.da.claim = none ∧ t.da.out = some ⟨.pause, false, .running 300000000, none⟩ ∧ t.da.state = .stopping ∧
      t.tagLive = false
    let goesOn := stands ∧ t.zc = s.zc ∧ t.bi.tag = s.bi.tag ∧ t.da = { s.da with blockTimer := .running 1000000000 }
    (∀ z a q, tag.kind = .reread → tag.zone = some z → tag.target = some a → s.posOf z a = some (q + 1) →
      let k := s.bucketAt z (q + 1)
      let x := s.bs.bucket k
      let led := a ≠ 0 ∧ s.bi.nonGood = 0 ∧ s.bi.lastGood = some (a - 1)
      let counted := fun (m : Bucket) =>
        let bad := isBad s.params.patchLimit m.info
        let n := m.info.readCount + 1
        ended ∧ stands ∧ t.zc = s.zc ∧ (t.bs.bucket k).samples = m.samples ∧ (t.bs.bucket k).flags = m.flags ∧
        (t.info k).readCount = n ∧
        ((bad = false ∨ s.cap z a ≤ n) → (t.info k).listed = false ∧
          t.ru.lists.get z = (s.ru.lists.get z).filter fun y => decide (y.addr ≠ a)) ∧
        (bad = true → n < s.cap z a →
          t.ru.lists.get z = (s.ru.lists.get z).map fun y => if y.addr = a then { y with reads := y.reads + 1 } else y) ∧
        ∀ i d, (s.zone z).selected = some i → s.record i = some d → t.record i = some
          (if bad = true ∧ s.cap z a ≤ n ∧ a ≤ 479999 then
            { d with defects := insertRegion d.defects ⟨a, a, .unreadable, 1⟩ } else d)
      ((good a ∨ led) →
        counted (if 8 < disagreements x.samples x.flags copy.samples copy.flags then x else mergeBlock x copy)) ∧
      (∀ n, good n → n < a → ¬ led → 2 ≤ s.ru.left → goesOn ∧ t.ru = { s.ru with left := s.ru.left - 1 }) ∧
      (∀ n, good n → (a < n ∨ n < a ∧ s.ru.left ≤ 1) → ¬ led → counted x)) ∧
    (∀ z a, tag.kind = .audit → tag.zone = some z → tag.target = some a →
      let u := s.lu.audit.get z
      let led := a ≠ 0 ∧ s.bi.nonGood = 0 ∧ s.bi.lastGood = some (a - 1)
      (s.posOf z a = none → ended ∧ stands ∧ t.zc = s.zc ∧
        t.lu.audit.get z = if u.target = some a then { u with target := none } else u) ∧
      ∀ q, s.posOf z a = some q →
        let k := s.bucketAt z q
        let ce := dataCompare (s.bs.bucket k) copy
        (∀ n, good n → n < a → ¬ led → 2 ≤ s.lu.auditLeft →
          goesOn ∧ t.lu = { s.lu with auditLeft := s.lu.auditLeft - 1 }) ∧
        (∀ n, good n → (a < n ∨ n < a ∧ s.lu.auditLeft ≤ 1) → ¬ led → ended ∧ stands ∧ t.zc = s.zc ∧ t.lu.audit = s.lu.audit) ∧
        ((good a ∨ led) → ended ∧
          (ce.1 < 240 → stands ∧ t.zc = s.zc ∧ t.lu.audit = s.lu.audit) ∧
          (240 ≤ ce.1 → 15 * ce.1 ≤ 16 * ce.2 → stands ∧ t.zc = s.zc ∧ (t.info k).confirmed = true ∧
            t.lu.audit.get z = { u with target := none, misses := 0, unverified := false }) ∧
          (240 ≤ ce.1 → 16 * ce.2 < 15 * ce.1 → ∀ h, s.headAddr z = some h → h < a → a - h < s.fill z →
            (t.bs.chain.get z).length = a - h ∧ (t.zone z).nextRead = some a ∧
            t.lu.audit.get z = { u with target := none, commits := 0 } ∧
            ((s.zone z).supply = .feeding ∨ (s.zone z).supply = .ended → (t.zone z).supply = .rejoining ∧
              ∃ y, t.ctx z = some y ∧ y.stage = .waiting ∧ y.failed = 0 ∧ y.backoff = s.params.luBackoff)) ∧
          (240 ≤ ce.1 → 16 * ce.2 < 15 * ce.1 → s.headAddr z = some a → 2 ≤ s.fill z →
            (t.bs.chain.get z).length = 1 ∧ (t.zone z).nextRead = some (a + 1) ∧
            ((s.zone z).supply = .feeding ∨ (s.zone z).supply = .ended → (t.zone z).supply = .resync) ∧
            ((s.zone z).supply = .resync → t.cl = s.cl.notice ⟨0x77, zoneCode z :: be3 a⟩)))) ∧
    (∀ slot n, tag.kind = .ident → tag.zone = none → s.dd.ident = some ⟨slot, n⟩ →
      let read := readDirectory b.track b.decoder (portSamples b) (portFlags b)
      (read = none → n + 1 < 32 → goesOn ∧ t.dd = { s.dd with ident := some ⟨slot, n + 1⟩ } ∧ t.lm = s.lm ∧ t.cl = s.cl) ∧
      (read = none → 32 ≤ n + 1 → ended ∧ stands ∧ t.dd = { s.dd with ident := none } ∧ t.lm.queue = s.lm.queue.tail ∧
        (1 < s.lm.queue.length → t.cl = s.cl.notice ⟨0x73, [byte slot, 3, 0xFF]⟩)) ∧
      ∀ info, read = some info → ended ∧ stands ∧ t.dd = (s.readableDisc slot info).dd ∧ t.dd.ident = none ∧
        t.lm.queue = s.lm.queue.tail)

/-! ## The directory -/

/-- DISC-RECORD, DEFECT-LIST and TRACK-LIST answer from the record named, in ACTIVE and in PARKING, and change nothing of the part
(the free-value count apart, which a FREE record's missing start sum uses: log entry 4); an index outside its range is refused
with BAD-VALUE (R149, R150). -/
def Obligations.DirectoryRequestsAnswerTheRecord : Prop :=
  ∀ (s : State) (i start : Byte) (r : DiscRecord), s.pc.state ≠ .parked → s.cl.request = none →
    (7 < i.toNat →
      exec (.discRecord [i]) s = .next (State.finish s { s with cl := s.afterRefusal ⟨0x30, [i]⟩ .badValue }) ∧
      exec (.defectList [i, start]) s = .next (State.finish s { s with cl := s.afterRefusal ⟨0x31, [i, start]⟩ .badValue }) ∧
      exec (.trackList [i, start]) s = .next (State.finish s { s with cl := s.afterRefusal ⟨0x32, [i, start]⟩ .badValue })) ∧
    (i.toNat ≤ 7 → s.record i.toNat = some r →
      (let refs : List Byte :=
        [if (s.zone .a).selected = some i.toNat then 1 else 0, if (s.zone .b).selected = some i.toNat then 1 else 0]
       let head := [i, recStateCode r.state, optByte r.slot, optByte r.lastSlot]
       let tail := [byte r.defects.length] ++ optResume r.resume ++ refs
       (∀ p, r.print = some p → exec (.discRecord [i]) s = .next (State.finish s { s with
          cl := s.afterReply ⟨0x30, [i]⟩ (head ++ [byte p.tracks] ++ be3 p.programEnd ++ be2 p.startSum ++ tail) })) ∧
       (r.print = none → exec (.discRecord [i]) s = .next (State.finish s { s with
          free := s.free + 1
          cl := s.afterReply ⟨0x30, [i]⟩ (head ++ [0xFF, 0xFF, 0xFF, 0xFF] ++ be2 (Config.freeWord s.free).toNat ++ tail) }))) ∧
      (31 < start.toNat → exec (.defectList [i, start]) s =
        .next (State.finish s { s with cl := s.afterRefusal ⟨0x31, [i, start]⟩ .badValue })) ∧
      (let l := (r.defects.drop start.toNat).take 6
       let regions := l.flatMap fun x => be3 x.first ++ be3 x.last ++ [defectCode x.kind, byte x.hits]
       start.toNat ≤ 31 → exec (.defectList [i, start]) s = .next (State.finish s { s with
          cl := s.afterReply ⟨0x31, [i, start]⟩ ([i, start, byte r.defects.length, byte l.length] ++ regions) })) ∧
      (98 < start.toNat → exec (.trackList [i, start]) s =
        .next (State.finish s { s with cl := s.afterRefusal ⟨0x32, [i, start]⟩ .badValue })) ∧
      (let l := (r.tracks.drop start.toNat).take 20
       start.toNat ≤ 98 → exec (.trackList [i, start]) s = .next (State.finish s { s with
          cl := s.afterReply ⟨0x32, [i, start]⟩ ([i, start, byte l.length] ++ l.flatMap be3) })))

/-- FORGET-DISC: an index outside 0..7 is refused with BAD-VALUE, a record that a zone selects with WRONG-STATE; a FREE record is
left as it is; and any other is cleared, the other records standing (R151). -/
def Obligations.ForgetDiscClearsARecord : Prop :=
  ∀ (s : State) (i : Byte) (r : DiscRecord), s.listening →
    (7 < i.toNat → exec (.forgetDisc [i]) s = .next (State.finish s { s with cl := s.afterRefusal ⟨0x33, [i]⟩ .badValue })) ∧
    (i.toNat ≤ 7 → s.record i.toNat = some r →
      ((∃ z, (s.zone z).selected = some i.toNat) → exec (.forgetDisc [i]) s =
        .next (State.finish s { s with cl := s.afterRefusal ⟨0x33, [i]⟩ .wrongState })) ∧
      ((∀ z, (s.zone z).selected ≠ some i.toNat) → r.state = .free → exec (.forgetDisc [i]) s =
        .next (State.finish s { s with cl := s.afterReply ⟨0x33, [i]⟩ [i, 1] })) ∧
      ((∀ z, (s.zone z).selected ≠ some i.toNat) → r.state ≠ .free → exec (.forgetDisc [i]) s =
        .next (State.finish s
          { s with
            dd := { s.dd with records := s.dd.records.set i.toNat ⟨.free, none, none, none, [], [], none, 0⟩ }
            cl := s.afterReply ⟨0x33, [i]⟩ [i, 0] })))

/-- An insertion into a defect list loses no address: whatever the list or the new region covered, the new list covers
(R145, R146). -/
def Obligations.InsertedRegionsStayCovered : Prop :=
  ∀ (l : List Region) (r : Region) (a : Nat), lawfulRegions l → r.first ≤ r.last → 1 ≤ r.hits → r.hits ≤ 15 →
    ((∃ x ∈ l, x.first ≤ a ∧ a ≤ x.last) ∨ r.first ≤ a ∧ a ≤ r.last) → ∃ x ∈ insertRegion l r, x.first ≤ a ∧ a ≤ x.last

/-- A refresh gives a record the highest rank of all that are not FREE and keeps the order of the others' ranks (R136). -/
def Obligations.RefreshedRecordRanksHighest : Prop :=
  ∀ (d : Directory) (i j k : Nat) (x y : DiscRecord), d.ranked → d.records[j]? = some x → d.records[k]? = some y →
    x.state ≠ .free → y.state ≠ .free → j ≠ i → k ≠ i → i < 8 →
    ∃ x' y' r, (d.refresh i).records[j]? = some x' ∧ (d.refresh i).records[k]? = some y' ∧
      (d.refresh i).records[i]? = some r ∧ x'.rank < r.rank ∧ (x.rank < y.rank → x'.rank < y'.rank) ∧
      r.rank < (d.refresh i).sequence ∧ (d.refresh i).sequence ≤ 255

/-- A readable directory under the identification of a slot: the DEPARTED record it matches becomes PRESENT in that slot, keeping
its defect list, resume point and track list; and where it matches none, the FREE record with the lowest index is taken for the
disc, with an empty defect list and no resume point (R140, R141, R143, R148). -/
def Obligations.IdentifiedDiscTakesItsRecord : Prop :=
  ∀ (s : State) (slot : Nat) (info : DiscInfo) (i : Nat) (r : DiscRecord), s.record i = some r →
    (s.dd.find info.print = some i → r.state = .departed → ∃ x, (s.readableDisc slot info).record i = some x ∧
      x.state = .present ∧ x.slot = some slot ∧ x.lastSlot = some slot ∧ x.print = r.print ∧ x.tracks = r.tracks ∧
      x.defects = r.defects ∧ x.resume = r.resume) ∧
    (s.dd.find info.print = none → r.state = .free → (∀ j x, j < i → s.record j = some x → x.state ≠ .free) →
      ∃ x, (s.readableDisc slot info).record i = some x ∧ x.state = .present ∧ x.slot = some slot ∧
        x.lastSlot = some slot ∧ x.print = some info.print ∧ x.tracks = info.tracks ∧ x.defects = [] ∧ x.resume = none)
end

