-- ==== Sys2Proof/Laws/Directory.lean ====
section
/-! SUPPORT. The laws of the Disc Directory: an insertion keeps a defect list lawful, and a change of a record keeps the
directory lawful (R144 to R146). -/

namespace Sys2Proof.Machine

/-- A region within its own ends and with a lawful hit count. -/
def soundRegion (r : Region) : Prop := r.first ≤ r.last ∧ 1 ≤ r.hits ∧ r.hits ≤ 15

/-- The order of a defect list: at least 5 blocks between any two regions. -/
def spaced (l : List Region) : Prop := l.Pairwise fun r x => r.last + 6 ≤ x.first

theorem near_false {r x : Region} (h : near r x = false) : x.last + 6 ≤ r.first ∨ r.last + 6 ≤ x.first := by
  unfold near at h
  simp only [Bool.and_eq_false_iff, decide_eq_false_iff_not] at h
  omega

theorem soundRegion_merge {r x : Region} (hr : soundRegion r) (hx : soundRegion x) : soundRegion (mergeRegions r x) := by
  unfold soundRegion mergeRegions at *
  simp only
  omega

/-- What absorbing leaves: a sound region, and a part of the list that it is not near (R145). -/
theorem absorb_spec {n : Nat} {r : Region} {l : List Region} (hn : l.length ≤ n) (hr : soundRegion r)
    (hl : ∀ x ∈ l, soundRegion x) :
    soundRegion (absorb n r l).1 ∧ (absorb n r l).2.Sublist l ∧ (∀ x ∈ (absorb n r l).2, near (absorb n r l).1 x = false) ∧
      (l.any (near r) = true → (absorb n r l).2.length < l.length) := by
  induction n generalizing r l with
  | zero =>
    have : l = [] := List.length_eq_zero_iff.1 (by omega)
    subst this
    exact ⟨hr, List.Sublist.slnil, by simp [absorb], by simp⟩
  | succ n ih =>
    unfold absorb
    split
    · rename_i hf
      rw [List.find?_eq_none] at hf
      refine ⟨hr, List.Sublist.refl _, fun x hx => by simpa using hf x hx, fun ha => ?_⟩
      obtain ⟨x, hx, hb⟩ := List.any_eq_true.1 ha
      exact absurd hb (hf x hx)
    · rename_i x hf
      have hx : x ∈ l := List.mem_of_find?_eq_some hf
      have hlen := List.length_erase_of_mem hx
      have hpos := List.length_pos_of_mem hx
      have := ih (l := l.erase x) (r := mergeRegions r x) (by omega) (soundRegion_merge hr (hl x hx))
        fun y hy => hl y (List.mem_of_mem_erase hy)
      refine ⟨this.1, this.2.1.trans List.erase_sublist, this.2.2.1, fun _ => ?_⟩
      have := this.2.1.length_le
      omega

theorem placeRegion_length (r : Region) (l : List Region) : (placeRegion r l).length = l.length + 1 := by
  induction l with
  | nil => rfl
  | cons x l ih =>
    unfold placeRegion
    split
    · rfl
    · simp [ih]

theorem mem_placeRegion {r y : Region} {l : List Region} (h : y ∈ placeRegion r l) : y = r ∨ y ∈ l := by
  induction l with
  | nil => simpa [placeRegion] using h
  | cons x l ih =>
    unfold placeRegion at h
    split at h
    · simpa using h
    · rcases List.mem_cons.1 h with h | h
      · exact .inr (by simp [h])
      · rcases ih h with h | h
        · exact .inl h
        · exact .inr (List.mem_cons_of_mem _ h)

theorem spaced_placeRegion {r : Region} {l : List Region} (hr : soundRegion r) (hl : ∀ x ∈ l, soundRegion x) (hs : spaced l)
    (hn : ∀ x ∈ l, near r x = false) : spaced (placeRegion r l) := by
  unfold spaced at *
  induction l with
  | nil => simp [placeRegion]
  | cons x l ih =>
    have hx := near_false (hn x List.mem_cons_self)
    have hsx := hl x List.mem_cons_self
    unfold soundRegion at hr hsx
    rw [List.pairwise_cons] at hs
    unfold placeRegion
    split
    · rw [List.pairwise_cons]
      refine ⟨fun y hy => ?_, List.pairwise_cons.2 hs⟩
      rcases List.mem_cons.1 hy with rfl | hy
      · omega
      · have := hs.1 y hy
        omega
    · rw [List.pairwise_cons]
      refine ⟨fun y hy => ?_, ih (fun y hy => hl y (List.mem_cons_of_mem _ hy)) hs.2
        fun y hy => hn y (List.mem_cons_of_mem _ hy)⟩
      rcases mem_placeRegion hy with rfl | hy
      · omega
      · exact hs.1 y hy

/-- An insertion by R145: the regions stay sound and spaced, and there is at most one more; when a listed region is near,
there are no more. -/
theorem insertMerging_spec {l : List Region} {r : Region} (hr : soundRegion r) (hl : ∀ x ∈ l, soundRegion x) (hs : spaced l) :
    (∀ x ∈ insertMerging l r, soundRegion x) ∧ spaced (insertMerging l r) ∧ (insertMerging l r).length ≤ l.length + 1 ∧
      (l.any (near r) = true → (insertMerging l r).length ≤ l.length) := by
  obtain ⟨h1, h2, h3, h4⟩ := absorb_spec (Nat.le_refl l.length) hr hl
  unfold insertMerging
  refine ⟨fun x hx => ?_, spaced_placeRegion h1 (fun x hx => hl x (h2.mem hx)) (List.Pairwise.sublist h2 hs) h3, ?_, fun ha => ?_⟩
  · rcases mem_placeRegion hx with rfl | hx
    · exact h1
    · exact hl x (h2.mem hx)
  · have := h2.length_le
    rw [placeRegion_length]
    omega
  · have := h4 ha
    rw [placeRegion_length]
    omega

/-- Merging a neighbouring pair keeps the regions sound and spaced (R146). -/
theorem mergePairAt_spec {l : List Region} (n : Nat) (hl : ∀ x ∈ l, soundRegion x) (hs : spaced l) :
    (∀ x ∈ mergePairAt l n, soundRegion x) ∧ spaced (mergePairAt l n) ∧
      (∀ f, (∀ x ∈ l, f ≤ x.first) → ∀ x ∈ mergePairAt l n, f ≤ x.first) ∧
      (n + 1 < l.length → (mergePairAt l n).length + 1 = l.length) := by
  unfold spaced at *
  induction l generalizing n with
  | nil => simp [mergePairAt]
  | cons x l ih =>
    rw [List.pairwise_cons] at hs
    cases n with
    | zero =>
      cases l with
      | nil => simpa [mergePairAt] using hl
      | cons y l =>
        have hx := hl x List.mem_cons_self
        have hy := hl y (by simp)
        have hxy := hs.1 y List.mem_cons_self
        have hs2 := List.pairwise_cons.1 hs.2
        refine ⟨fun z hz => ?_, ?_, fun f hf z hz => ?_, fun _ => by simp [mergePairAt]⟩
        · rcases List.mem_cons.1 hz with rfl | hz
          · exact soundRegion_merge hx hy
          · exact hl z (by simp [hz])
        · refine List.pairwise_cons.2 ⟨fun z hz => ?_, hs2.2⟩
          have h1 := hs2.1 z hz
          have h2 := hs.1 z (List.mem_cons_of_mem _ hz)
          unfold mergeRegions
          simp only
          omega
        · rcases List.mem_cons.1 hz with rfl | hz
          · have := hf x List.mem_cons_self
            have := hf y (by simp)
            unfold mergeRegions
            simp only
            omega
          · exact hf z (by simp [hz])
    | succ n =>
      obtain ⟨i1, i2, i3, i4⟩ := ih n (fun y hy => hl y (List.mem_cons_of_mem _ hy)) hs.2
      have e : mergePairAt (x :: l) (n + 1) = x :: mergePairAt l n := by cases l <;> rfl
      rw [e]
      refine ⟨fun z hz => ?_, ?_, fun f hf z hz => ?_, fun hn => ?_⟩
      · rcases List.mem_cons.1 hz with rfl | hz
        · exact hl z List.mem_cons_self
        · exact i1 z hz
      · exact List.pairwise_cons.2 ⟨fun z hz => i3 _ hs.1 z hz, i2⟩
      · rcases List.mem_cons.1 hz with rfl | hz
        · exact hf z List.mem_cons_self
        · exact i3 f (fun y hy => hf y (List.mem_cons_of_mem _ hy)) z hz
      · simp only [List.length_cons] at hn ⊢
        have := i4 (by omega)
        omega

theorem regionGaps_length (l : List Region) : (regionGaps l).length = l.length - 1 := by
  induction l with
  | nil => rfl
  | cons x l ih =>
    cases l with
    | nil => rfl
    | cons y l => simpa [regionGaps] using ih

theorem foldl_min_mem (g : Nat) (gs : List Nat) : gs.foldl min g ∈ g :: gs := by
  induction gs generalizing g with
  | nil => simp
  | cons h gs ih =>
    rw [List.foldl_cons]
    rcases List.mem_cons.1 (ih (min g h)) with e | e
    · rw [e]
      rcases Nat.le_total g h with hle | hle
      · simp [Nat.min_eq_left hle]
      · simp [Nat.min_eq_right hle]
    · exact List.mem_cons_of_mem _ (List.mem_cons_of_mem _ e)

/-- The merge of the closest pair keeps the regions sound and spaced, and shortens a list of two or more by one (R146). -/
theorem mergeClosest_spec {l : List Region} (hl : ∀ x ∈ l, soundRegion x) (hs : spaced l) :
    (∀ x ∈ mergeClosest l, soundRegion x) ∧ spaced (mergeClosest l) ∧
      (2 ≤ l.length → (mergeClosest l).length + 1 = l.length) := by
  unfold mergeClosest
  have hg := regionGaps_length l
  split
  · rename_i e
    rw [e] at hg
    simp only [List.length_nil] at hg
    exact ⟨hl, hs, fun h => by omega⟩
  · rename_i g gs e
    rw [e] at hg
    have := mergePairAt_spec ((g :: gs).findIdx fun x => decide (x = gs.foldl min g)) hl hs
    refine ⟨this.1, this.2.1, fun h => this.2.2.2 ?_⟩
    have hlt : ((g :: gs).findIdx fun x => decide (x = gs.foldl min g)) < (g :: gs).length :=
      List.findIdx_lt_length_of_exists ⟨gs.foldl min g, foldl_min_mem g gs, by simp⟩
    omega

/-- An insertion keeps a defect list lawful (R144 to R146). -/
theorem lawful_insertRegion {l : List Region} {r : Region} (h : lawfulRegions l)
    (hr : r.first ≤ r.last ∧ 1 ≤ r.hits ∧ r.hits ≤ 15) : lawfulRegions (insertRegion l r) := by
  obtain ⟨h1, h2, h3⟩ := h
  unfold insertRegion
  split
  · rename_i hc
    obtain ⟨m1, m2, m3⟩ := mergeClosest_spec h2 h3
    obtain ⟨i1, i2, i3, -⟩ := insertMerging_spec hr m1 m2
    have := m3 (by omega)
    exact ⟨by omega, i1, i2⟩
  · rename_i hc
    obtain ⟨i1, i2, i3, i4⟩ := insertMerging_spec hr h2 h3
    refine ⟨?_, i1, i2⟩
    by_cases hn : l.any (near r) = true
    · have := i4 hn
      omega
    · have : ¬ 32 ≤ l.length := fun hle => hc ⟨hle, by simpa using hn⟩
      omega

/-- What a merge of two regions keeps, an insertion keeps (R145, R146). -/
theorem insertRegion_all {p : Region → Prop} {l : List Region} {r : Region} (hm : ∀ x y, p x → p y → p (mergeRegions x y))
    (hr : p r) (hl : ∀ x ∈ l, p x) : ∀ x ∈ insertRegion l r, p x := by
  have habsorb : ∀ (n : Nat) (r : Region) (l : List Region), p r → (∀ x ∈ l, p x) →
      p (absorb n r l).1 ∧ ∀ x ∈ (absorb n r l).2, p x := by
    intro n
    induction n with
    | zero => exact fun r l hr hl => ⟨hr, hl⟩
    | succ n ih =>
      intro r l hr hl
      unfold absorb
      split
      · exact ⟨hr, hl⟩
      · rename_i x hf
        exact ih _ _ (hm _ _ hr (hl x (List.mem_of_find?_eq_some hf))) fun y hy => hl y (List.mem_of_mem_erase hy)
  have hins : ∀ l : List Region, (∀ x ∈ l, p x) → ∀ x ∈ insertMerging l r, p x := by
    intro l hl x hx
    obtain ⟨h1, h2⟩ := habsorb l.length r l hr hl
    rcases mem_placeRegion hx with rfl | hx
    · exact h1
    · exact h2 x hx
  have hpair : ∀ (l : List Region) (n : Nat), (∀ x ∈ l, p x) → ∀ x ∈ mergePairAt l n, p x := by
    intro l
    induction l with
    | nil => intro n _ x hx; simp [mergePairAt] at hx
    | cons x l ih =>
      intro n hl
      cases n with
      | zero =>
        cases l with
        | nil => exact hl
        | cons y l =>
          exact List.forall_mem_cons.2 (And.intro (hm _ _ (hl x (by simp)) (hl y (by simp))) fun z hz => hl z (by simp [hz]))
      | succ n =>
        have e : mergePairAt (x :: l) (n + 1) = x :: mergePairAt l n := by cases l <;> rfl
        rw [e]
        exact List.forall_mem_cons.2 ⟨hl x (by simp), ih n fun y hy => hl y (List.mem_cons_of_mem _ hy)⟩
  unfold insertRegion
  split
  · refine hins _ ?_
    unfold mergeClosest
    split
    · exact hl
    · exact hpair _ _ hl
  · exact hins _ hl

/-- An insertion keeps a record's defect list (R144 to R146). -/
theorem disc_insertRegion {l : List Region} {r : Region} (h : discRegions l)
    (hr : r.first ≤ r.last ∧ 1 ≤ r.hits ∧ r.hits ≤ 15) (ha : r.last ≤ 479999) : discRegions (insertRegion l r) :=
  ⟨lawful_insertRegion h.1 hr, insertRegion_all (fun _ _ hx hy => Nat.max_le.2 ⟨hx, hy⟩) ha h.2⟩

theorem disc_nil : discRegions [] := ⟨⟨by simp, by simp, List.Pairwise.nil⟩, by simp⟩

/-- A change of one record keeps the directory lawful when it keeps that record's defect list lawful. -/
theorem Directory.lawful_modRecord {d : Directory} (i : Nat) {f : DiscRecord → DiscRecord} (h : d.lawful)
    (hf : ∀ r, discRegions r.defects → discRegions (f r).defects) : (d.modRecord i f).lawful := by
  obtain ⟨hlen, hr⟩ := h
  refine ⟨by simpa [Directory.modRecord] using hlen, fun r hm => ?_⟩
  simp only [Directory.modRecord] at hm
  obtain ⟨j, hj, rfl⟩ := List.mem_iff_getElem.1 hm
  rw [List.getElem_modify]
  have hj' : j < d.records.length := by simpa using hj
  split
  · exact hf _ (hr _ (List.getElem_mem hj'))
  · exact hr _ (List.getElem_mem hj')

/-- A change of every record that keeps its defect list keeps the directory lawful. -/
theorem Directory.lawful_of_defects {d d' : Directory} (h : d.lawful) (hl : d'.records.length = d.records.length)
    (hd : ∀ r ∈ d'.records, ∃ x ∈ d.records, r.defects = x.defects) : d'.lawful := by
  refine ⟨hl.trans h.1, fun r hr => ?_⟩
  obtain ⟨x, hx, e⟩ := hd r hr
  rw [e]
  exact h.2 x hx

theorem Directory.lawful_departAll {d : Directory} (h : d.lawful) : d.departAll.lawful := by
  refine Directory.lawful_of_defects h (by simp [Directory.departAll]) fun r hr => ?_
  simp only [Directory.departAll, List.mem_map] at hr
  obtain ⟨x, hx, rfl⟩ := hr
  refine ⟨x, hx, ?_⟩
  unfold departRecord
  split <;> rfl

theorem Directory.lawful_refresh {d : Directory} (i : Nat) (h : d.lawful) : (d.refresh i).lawful := by
  have key : ∀ d1 : Directory, d1.lawful →
      ({ d1.modRecord i fun r => { r with rank := d1.sequence } with sequence := d1.sequence + 1 } : Directory).lawful :=
    fun d1 h1 => Directory.lawful_modRecord i h1 fun _ hr => hr
  unfold Directory.refresh
  refine key _ ?_
  split
  · refine Directory.lawful_of_defects h (by simp [renumber]) fun r hr => ?_
    simp only [renumber, List.mem_mapIdx] at hr
    obtain ⟨j, hj, rfl⟩ := hr
    refine ⟨_, List.getElem_mem hj, ?_⟩
    split <;> rfl
  · exact h

theorem Directory.lawful_cold : Directory.cold.lawful :=
  ⟨rfl, fun r hr => by
    simp only [Directory.cold, List.mem_replicate] at hr
    rw [hr.2]
    exact disc_nil⟩

/-! ## Ranks and fingerprints (R136, R140) -/

/-- A change of each record that keeps its rank, its fingerprint and whether it is FREE. -/
theorem Directory.ranked_of_records {d d' : Directory} (h : d.ranked) (hs : d'.sequence = d.sequence)
    (hl : d'.records.length = d.records.length)
    (hr : ∀ n (h1 : n < d.records.length) (h2 : n < d'.records.length), (d'.records[n].state = .free ↔ d.records[n].state = .free) ∧
      d'.records[n].rank = d.records[n].rank ∧ d'.records[n].print = d.records[n].print) : d'.ranked := by
  obtain ⟨h8, hq, hrank, hp⟩ := h
  refine ⟨hl.trans h8, hs ▸ hq, fun r hm hf => ?_, ?_⟩
  · obtain ⟨n, hn, rfl⟩ := List.mem_iff_getElem.1 hm
    have hn' : n < d.records.length := hl ▸ hn
    obtain ⟨e1, e2, -⟩ := hr n hn' hn
    rw [hs, e2]
    exact hrank _ (List.getElem_mem hn') fun e => hf (e1.2 e)
  · rw [List.pairwise_iff_getElem] at hp ⊢
    intro m n hm hn hlt hfm hfn
    obtain ⟨a1, -, a3⟩ := hr m (hl ▸ hm) hm
    obtain ⟨b1, -, b3⟩ := hr n (hl ▸ hn) hn
    rw [a3, b3]
    exact hp m n (hl ▸ hm) (hl ▸ hn) hlt (fun e => hfm (a1.2 e)) fun e => hfn (b1.2 e)

theorem Directory.ranked_modRecord {d : Directory} (i : Nat) {f : DiscRecord → DiscRecord} (h : d.ranked)
    (hf : ∀ r, (f r).state = r.state ∧ (f r).rank = r.rank ∧ (f r).print = r.print) : (d.modRecord i f).ranked := by
  refine Directory.ranked_of_records h rfl (by simp [Directory.modRecord]) fun n h1 h2 => ?_
  simp only [Directory.modRecord, List.getElem_modify]
  split
  · obtain ⟨a, b, c⟩ := hf d.records[n]
    exact ⟨by rw [a], b, c⟩
  · exact ⟨Iff.rfl, rfl, rfl⟩

theorem Directory.ranked_departAll {d : Directory} (h : d.ranked) : d.departAll.ranked := by
  refine Directory.ranked_of_records h rfl (by simp [Directory.departAll]) fun n h1 h2 => ?_
  simp only [Directory.departAll, List.getElem_map, departRecord]
  split
  · rename_i e
    simp [e]
  · exact ⟨Iff.rfl, rfl, rfl⟩

/-- A record becomes FREE (R151). -/
theorem Directory.ranked_blank {d : Directory} (i : Nat) (h : d.ranked) : (d.modRecord i fun _ => .blank).ranked := by
  obtain ⟨h8, hq, hrank, hp⟩ := h
  have key : ∀ n (h1 : n < d.records.length) (h2 : n < (d.records.modify i fun _ => DiscRecord.blank).length),
      (d.records.modify i fun _ => DiscRecord.blank)[n].state ≠ .free →
      (d.records.modify i fun _ => DiscRecord.blank)[n] = d.records[n] := by
    intro n h1 h2 hf
    rw [List.getElem_modify] at hf ⊢
    split
    · rw [if_pos ‹_›] at hf
      exact absurd rfl hf
    · rfl
  refine ⟨by simpa [Directory.modRecord] using h8, hq, fun r hm hf => ?_, ?_⟩
  · obtain ⟨n, hn, rfl⟩ := List.mem_iff_getElem.1 hm
    have hn' : n < d.records.length := by simpa [Directory.modRecord] using hn
    have e := key n hn' hn hf
    rw [show (d.modRecord i fun _ => .blank).records[n] = d.records[n] from e] at hf ⊢
    exact hrank _ (List.getElem_mem hn') hf
  · rw [List.pairwise_iff_getElem] at hp ⊢
    intro m n hm hn hlt hfm hfn
    have hm' : m < d.records.length := by simpa [Directory.modRecord] using hm
    have hn' : n < d.records.length := by simpa [Directory.modRecord] using hn
    have em : (d.modRecord i fun _ => .blank).records[m] = d.records[m] := key m hm' hm hfm
    have en : (d.modRecord i fun _ => .blank).records[n] = d.records[n] := key n hn' hn hfn
    rw [em] at hfm ⊢
    rw [en] at hfn ⊢
    exact hp m n hm' hn' hlt hfm hfn

/-- Where `q` holds whenever `p` does, and of one element alone, more elements meet `q`. -/
theorem countP_lt {α : Type} {p q : α → Bool} {l : List α} {a : α} (hm : a ∈ l) (hq : q a = true) (hp : p a = false)
    (h : ∀ x ∈ l, p x = true → q x = true) : l.countP p < l.countP q := by
  induction l with
  | nil => cases hm
  | cons x l ih =>
    have hx := h x List.mem_cons_self
    have hl := fun y hy => h y (List.mem_cons_of_mem _ hy)
    simp only [List.countP_cons]
    rcases List.mem_cons.1 hm with rfl | hm'
    · have := List.countP_mono_left hl
      simp [hp, hq]
      omega
    · have := ih hm' hl
      cases hpx : p x <;> cases hqx : q x <;> (simp_all; try omega)

/-- A renumbered rank is below the number of records that are not FREE (R136). -/
theorem ranksBelow_lt {l : List DiscRecord} {i : Nat} (hi : i < l.length) (hf : l[i].state ≠ .free) :
    ranksBelow l i l[i] < l.countP fun r => decide (r.state ≠ .free) := by
  have e : (l.countP fun r => decide (r.state ≠ .free)) =
      l.zipIdx.countP fun x => decide (x.1.state ≠ .free) := by
    conv_lhs => rw [← List.zipIdx_map_fst 0 l]
    rw [List.countP_map]
    rfl
  rw [e]
  unfold ranksBelow
  rw [← List.countP_eq_length_filter]
  refine countP_lt (a := (l[i], i)) ?_ (by simpa using hf) (by simp) fun x _ hx => ?_
  · rw [List.mem_iff_getElem]
    exact ⟨i, by simpa using hi, by simp⟩
  · simp only [Bool.and_eq_true] at hx
    exact hx.1

/-- A refresh gives record `i` the highest rank, whatever rank it had (R136). -/
theorem Directory.ranked_refresh {d : Directory} (i : Nat) (h8 : d.records.length = 8) (hq : d.sequence ≤ 255)
    (hrank : ∀ n (h : n < d.records.length), n ≠ i → d.records[n].state ≠ .free → d.records[n].rank < d.sequence)
    (hp : d.records.Pairwise fun r x => r.state ≠ .free → x.state ≠ .free → r.print ≠ x.print) : (d.refresh i).ranked := by
  have key : ∀ d1 : Directory, d1.records.length = 8 → d1.sequence ≤ 254 →
      (∀ n (h : n < d1.records.length), n ≠ i → d1.records[n].state ≠ .free → d1.records[n].rank < d1.sequence) →
      (d1.records.Pairwise fun r x => r.state ≠ .free → x.state ≠ .free → r.print ≠ x.print) →
      ({ d1.modRecord i fun r => { r with rank := d1.sequence } with sequence := d1.sequence + 1 } : Directory).ranked := by
    intro d1 k8 kq krank kp
    refine ⟨by simpa [Directory.modRecord] using k8, by show d1.sequence + 1 ≤ 255; omega, fun r hm hf => ?_, ?_⟩
    · obtain ⟨n, hn, rfl⟩ := List.mem_iff_getElem.1 hm
      have hn' : n < d1.records.length := by simpa [Directory.modRecord] using hn
      simp only [Directory.modRecord, List.getElem_modify] at hf ⊢
      split
      · exact Nat.lt_succ_self _
      · rw [if_neg ‹_›] at hf
        exact Nat.lt_succ_of_lt (krank n hn' (fun e => ‹¬_› e.symm) hf)
    · rw [List.pairwise_iff_getElem] at kp ⊢
      intro m n hm hn hlt
      have hm' : m < d1.records.length := by simpa [Directory.modRecord] using hm
      have hn' : n < d1.records.length := by simpa [Directory.modRecord] using hn
      have := kp m n hm' hn' hlt
      simp only [Directory.modRecord, List.getElem_modify]
      (repeat' split) <;> exact this
  unfold Directory.refresh
  by_cases e : d.sequence = 255
  · rw [if_pos e]
    have hc : (d.records.countP fun r => decide (r.state ≠ .free)) ≤ 8 := h8 ▸ List.countP_le_length
    refine key _ (by simpa [renumber] using h8) (by show (d.records.countP _) ≤ 254; omega) (fun n hn hne hf => ?_) ?_
    · have hn' : n < d.records.length := by simpa [renumber] using hn
      simp only [renumber, List.getElem_mapIdx] at hf ⊢
      by_cases hfree : d.records[n].state = .free
      · rw [if_pos hfree] at hf
        exact absurd hfree hf
      · rw [if_neg hfree]
        exact ranksBelow_lt hn' hfree
    · rw [List.pairwise_iff_getElem] at hp ⊢
      intro m n hm hn hlt
      have := hp m n (by simpa [renumber] using hm) (by simpa [renumber] using hn) hlt
      simp only [renumber, List.getElem_mapIdx]
      (repeat' split) <;> simpa using this
  · rw [if_neg e]
    exact key d h8 (by omega) hrank hp

/-- A record that is not FREE becomes PRESENT in a slot and is refreshed (R140). -/
theorem Directory.ranked_matched {d : Directory} {i n : Nat} {r : DiscRecord} (h : d.ranked) (hi : d.records[i]? = some r)
    (hr : r.state ≠ .free) :
    ((d.modRecord i fun r => { r with state := .present, slot := some n, lastSlot := some n }).refresh i).ranked := by
  obtain ⟨h8, hq, hrank, hp⟩ := h
  obtain ⟨hlt, rfl⟩ := List.getElem?_eq_some_iff.1 hi
  refine Directory.ranked_refresh i (by simpa [Directory.modRecord] using h8) hq (fun m hm hne hf => ?_) ?_
  · have hm' : m < d.records.length := by simpa [Directory.modRecord] using hm
    simp only [Directory.modRecord, List.getElem_modify, if_neg (Ne.symm hne)] at hf ⊢
    exact hrank _ (List.getElem_mem hm') hf
  · rw [List.pairwise_iff_getElem] at hp ⊢
    intro a b ha hb hab
    have := hp a b (by simpa [Directory.modRecord] using ha) (by simpa [Directory.modRecord] using hb) hab
    simp only [Directory.modRecord, List.getElem_modify]
    split <;> split <;> simp_all

/-- A record is taken for a disc whose fingerprint matches none, and is refreshed (R141). -/
theorem Directory.ranked_new {d : Directory} (i n : Nat) (info : DiscInfo) (h : d.ranked)
    (hf : d.find info.print = none) : ((d.modRecord i fun _ => newRecord n info).refresh i).ranked := by
  obtain ⟨h8, hq, hrank, hp⟩ := h
  have hnew : ∀ m (hm : m < d.records.length), d.records[m].state ≠ .free → d.records[m].print ≠ some info.print := by
    intro m hm hs e
    have := List.findIdx?_eq_none_iff.1 hf d.records[m] (List.getElem_mem hm)
    simp [hs, e] at this
  refine Directory.ranked_refresh i (by simpa [Directory.modRecord] using h8) hq (fun m hm hne hf => ?_) ?_
  · have hm' : m < d.records.length := by simpa [Directory.modRecord] using hm
    simp only [Directory.modRecord, List.getElem_modify, if_neg (Ne.symm hne)] at hf ⊢
    exact hrank _ (List.getElem_mem hm') hf
  · rw [List.pairwise_iff_getElem] at hp ⊢
    intro a b ha hb hab
    have ha' : a < d.records.length := by simpa [Directory.modRecord] using ha
    have hb' : b < d.records.length := by simpa [Directory.modRecord] using hb
    have := hp a b ha' hb' hab
    simp only [Directory.modRecord, List.getElem_modify]
    split <;> split
    · omega
    · intro _ h2
      exact (hnew b hb' h2).symm
    · intro h1 _
      exact hnew a ha' h1
    · exact this

theorem Directory.ranked_cold : Directory.cold.ranked := by
  refine ⟨rfl, by decide, fun r hr hf => ?_, ?_⟩
  · simp only [Directory.cold, List.mem_replicate] at hr
    exact absurd (by rw [hr.2]; rfl) hf
  · exact List.pairwise_replicate.2 (Or.inr fun h => absurd rfl h)

end Sys2Proof.Machine
end

