-- ==== Sys2Proof/Laws/State.lean ====
section
/-! SUPPORT. What each change function of the state leaves and what it sets: one lemma per field, true by `rfl`; and the
laws of the pair of zones. -/

namespace Sys2Proof

/-! ## Pairs -/

@[simp] theorem Pair.get_mod_self {α : Type} (p : Pair α) (z : ZoneId) (f : α → α) : (p.mod z f).get z = f (p.get z) := by
  cases z <;> rfl

@[simp] theorem Pair.get_mod_other {α : Type} (p : Pair α) (z : ZoneId) (f : α → α) :
    (p.mod z f).get z.other = p.get z.other := by cases z <;> rfl

theorem Pair.get_mod_ne {α : Type} (p : Pair α) {z w : ZoneId} (f : α → α) (h : w ≠ z) : (p.mod z f).get w = p.get w := by
  cases z <;> cases w <;> first | rfl | exact absurd rfl h

@[simp] theorem Pair.get_set_self {α : Type} (p : Pair α) (z : ZoneId) (v : α) : (p.set z v).get z = v := by
  cases z <;> rfl

@[simp] theorem Pair.get_set_other {α : Type} (p : Pair α) (z : ZoneId) (v : α) :
    (p.set z v).get z.other = p.get z.other := by cases z <;> rfl

theorem Pair.get_set_ne {α : Type} (p : Pair α) {z w : ZoneId} (v : α) (h : w ≠ z) : (p.set z v).get w = p.get w :=
  p.get_mod_ne _ h

@[simp] theorem Pair.get_both {α : Type} (v : α) (z : ZoneId) : (Pair.both v).get z = v := by cases z <;> rfl

@[simp] theorem Pair.mod_id {α : Type} (p : Pair α) (z : ZoneId) : (p.mod z fun x => x) = p := by cases z <;> rfl

theorem ZoneId.other_ne (z : ZoneId) : z.other ≠ z := by cases z <;> decide

@[simp] theorem ZoneId.other_other (z : ZoneId) : z.other.other = z := by cases z <;> rfl

namespace Machine


/-! ## `State.modPins` -/

@[simp] theorem State.modPins_pins (s : State) (f : Pins → Pins) : (s.modPins f).pins = f s.pins := rfl
@[simp] theorem State.modPins_straps (s : State) (f : Pins → Pins) : (s.modPins f).straps = s.straps := rfl
@[simp] theorem State.modPins_params (s : State) (f : Pins → Pins) : (s.modPins f).params = s.params := rfl
@[simp] theorem State.modPins_bs (s : State) (f : Pins → Pins) : (s.modPins f).bs = s.bs := rfl
@[simp] theorem State.modPins_bi (s : State) (f : Pins → Pins) : (s.modPins f).bi = s.bi := rfl
@[simp] theorem State.modPins_zc (s : State) (f : Pins → Pins) : (s.modPins f).zc = s.zc := rfl
@[simp] theorem State.modPins_da (s : State) (f : Pins → Pins) : (s.modPins f).da = s.da := rfl
@[simp] theorem State.modPins_lu (s : State) (f : Pins → Pins) : (s.modPins f).lu = s.lu := rfl
@[simp] theorem State.modPins_sm (s : State) (f : Pins → Pins) : (s.modPins f).sm = s.sm := rfl
@[simp] theorem State.modPins_ru (s : State) (f : Pins → Pins) : (s.modPins f).ru = s.ru := rfl
@[simp] theorem State.modPins_oc (s : State) (f : Pins → Pins) : (s.modPins f).oc = s.oc := rfl
@[simp] theorem State.modPins_dd (s : State) (f : Pins → Pins) : (s.modPins f).dd = s.dd := rfl
@[simp] theorem State.modPins_lm (s : State) (f : Pins → Pins) : (s.modPins f).lm = s.lm := rfl
@[simp] theorem State.modPins_pc (s : State) (f : Pins → Pins) : (s.modPins f).pc = s.pc := rfl
@[simp] theorem State.modPins_cl (s : State) (f : Pins → Pins) : (s.modPins f).cl = s.cl := rfl
@[simp] theorem State.modPins_free (s : State) (f : Pins → Pins) : (s.modPins f).free = s.free := rfl
@[simp] theorem State.modPins_pending (s : State) (f : Pins → Pins) : (s.modPins f).pending = s.pending := rfl

/-! ## `State.modParams` -/

@[simp] theorem State.modParams_pins (s : State) (f : Params → Params) : (s.modParams f).pins = s.pins := rfl
@[simp] theorem State.modParams_straps (s : State) (f : Params → Params) : (s.modParams f).straps = s.straps := rfl
@[simp] theorem State.modParams_params (s : State) (f : Params → Params) : (s.modParams f).params = f s.params := rfl
@[simp] theorem State.modParams_bs (s : State) (f : Params → Params) : (s.modParams f).bs = s.bs := rfl
@[simp] theorem State.modParams_bi (s : State) (f : Params → Params) : (s.modParams f).bi = s.bi := rfl
@[simp] theorem State.modParams_zc (s : State) (f : Params → Params) : (s.modParams f).zc = s.zc := rfl
@[simp] theorem State.modParams_da (s : State) (f : Params → Params) : (s.modParams f).da = s.da := rfl
@[simp] theorem State.modParams_lu (s : State) (f : Params → Params) : (s.modParams f).lu = s.lu := rfl
@[simp] theorem State.modParams_sm (s : State) (f : Params → Params) : (s.modParams f).sm = s.sm := rfl
@[simp] theorem State.modParams_ru (s : State) (f : Params → Params) : (s.modParams f).ru = s.ru := rfl
@[simp] theorem State.modParams_oc (s : State) (f : Params → Params) : (s.modParams f).oc = s.oc := rfl
@[simp] theorem State.modParams_dd (s : State) (f : Params → Params) : (s.modParams f).dd = s.dd := rfl
@[simp] theorem State.modParams_lm (s : State) (f : Params → Params) : (s.modParams f).lm = s.lm := rfl
@[simp] theorem State.modParams_pc (s : State) (f : Params → Params) : (s.modParams f).pc = s.pc := rfl
@[simp] theorem State.modParams_cl (s : State) (f : Params → Params) : (s.modParams f).cl = s.cl := rfl
@[simp] theorem State.modParams_free (s : State) (f : Params → Params) : (s.modParams f).free = s.free := rfl
@[simp] theorem State.modParams_pending (s : State) (f : Params → Params) : (s.modParams f).pending = s.pending := rfl

/-! ## `State.modBs` -/

@[simp] theorem State.modBs_pins (s : State) (f : Store → Store) : (s.modBs f).pins = s.pins := rfl
@[simp] theorem State.modBs_straps (s : State) (f : Store → Store) : (s.modBs f).straps = s.straps := rfl
@[simp] theorem State.modBs_params (s : State) (f : Store → Store) : (s.modBs f).params = s.params := rfl
@[simp] theorem State.modBs_bs (s : State) (f : Store → Store) : (s.modBs f).bs = f s.bs := rfl
@[simp] theorem State.modBs_bi (s : State) (f : Store → Store) : (s.modBs f).bi = s.bi := rfl
@[simp] theorem State.modBs_zc (s : State) (f : Store → Store) : (s.modBs f).zc = s.zc := rfl
@[simp] theorem State.modBs_da (s : State) (f : Store → Store) : (s.modBs f).da = s.da := rfl
@[simp] theorem State.modBs_lu (s : State) (f : Store → Store) : (s.modBs f).lu = s.lu := rfl
@[simp] theorem State.modBs_sm (s : State) (f : Store → Store) : (s.modBs f).sm = s.sm := rfl
@[simp] theorem State.modBs_ru (s : State) (f : Store → Store) : (s.modBs f).ru = s.ru := rfl
@[simp] theorem State.modBs_oc (s : State) (f : Store → Store) : (s.modBs f).oc = s.oc := rfl
@[simp] theorem State.modBs_dd (s : State) (f : Store → Store) : (s.modBs f).dd = s.dd := rfl
@[simp] theorem State.modBs_lm (s : State) (f : Store → Store) : (s.modBs f).lm = s.lm := rfl
@[simp] theorem State.modBs_pc (s : State) (f : Store → Store) : (s.modBs f).pc = s.pc := rfl
@[simp] theorem State.modBs_cl (s : State) (f : Store → Store) : (s.modBs f).cl = s.cl := rfl
@[simp] theorem State.modBs_free (s : State) (f : Store → Store) : (s.modBs f).free = s.free := rfl
@[simp] theorem State.modBs_pending (s : State) (f : Store → Store) : (s.modBs f).pending = s.pending := rfl

/-! ## `State.modBi` -/

@[simp] theorem State.modBi_pins (s : State) (f : Intake → Intake) : (s.modBi f).pins = s.pins := rfl
@[simp] theorem State.modBi_straps (s : State) (f : Intake → Intake) : (s.modBi f).straps = s.straps := rfl
@[simp] theorem State.modBi_params (s : State) (f : Intake → Intake) : (s.modBi f).params = s.params := rfl
@[simp] theorem State.modBi_bs (s : State) (f : Intake → Intake) : (s.modBi f).bs = s.bs := rfl
@[simp] theorem State.modBi_bi (s : State) (f : Intake → Intake) : (s.modBi f).bi = f s.bi := rfl
@[simp] theorem State.modBi_zc (s : State) (f : Intake → Intake) : (s.modBi f).zc = s.zc := rfl
@[simp] theorem State.modBi_da (s : State) (f : Intake → Intake) : (s.modBi f).da = s.da := rfl
@[simp] theorem State.modBi_lu (s : State) (f : Intake → Intake) : (s.modBi f).lu = s.lu := rfl
@[simp] theorem State.modBi_sm (s : State) (f : Intake → Intake) : (s.modBi f).sm = s.sm := rfl
@[simp] theorem State.modBi_ru (s : State) (f : Intake → Intake) : (s.modBi f).ru = s.ru := rfl
@[simp] theorem State.modBi_oc (s : State) (f : Intake → Intake) : (s.modBi f).oc = s.oc := rfl
@[simp] theorem State.modBi_dd (s : State) (f : Intake → Intake) : (s.modBi f).dd = s.dd := rfl
@[simp] theorem State.modBi_lm (s : State) (f : Intake → Intake) : (s.modBi f).lm = s.lm := rfl
@[simp] theorem State.modBi_pc (s : State) (f : Intake → Intake) : (s.modBi f).pc = s.pc := rfl
@[simp] theorem State.modBi_cl (s : State) (f : Intake → Intake) : (s.modBi f).cl = s.cl := rfl
@[simp] theorem State.modBi_free (s : State) (f : Intake → Intake) : (s.modBi f).free = s.free := rfl
@[simp] theorem State.modBi_pending (s : State) (f : Intake → Intake) : (s.modBi f).pending = s.pending := rfl

/-! ## `State.modZone` -/

@[simp] theorem State.modZone_pins (s : State) (z : ZoneId) (f : Zone → Zone) : (s.modZone z f).pins = s.pins := rfl
@[simp] theorem State.modZone_straps (s : State) (z : ZoneId) (f : Zone → Zone) : (s.modZone z f).straps = s.straps := rfl
@[simp] theorem State.modZone_params (s : State) (z : ZoneId) (f : Zone → Zone) : (s.modZone z f).params = s.params := rfl
@[simp] theorem State.modZone_bs (s : State) (z : ZoneId) (f : Zone → Zone) : (s.modZone z f).bs = s.bs := rfl
@[simp] theorem State.modZone_bi (s : State) (z : ZoneId) (f : Zone → Zone) : (s.modZone z f).bi = s.bi := rfl
@[simp] theorem State.modZone_zc (s : State) (z : ZoneId) (f : Zone → Zone) : (s.modZone z f).zc = s.zc.mod z f := rfl
@[simp] theorem State.modZone_da (s : State) (z : ZoneId) (f : Zone → Zone) : (s.modZone z f).da = s.da := rfl
@[simp] theorem State.modZone_lu (s : State) (z : ZoneId) (f : Zone → Zone) : (s.modZone z f).lu = s.lu := rfl
@[simp] theorem State.modZone_sm (s : State) (z : ZoneId) (f : Zone → Zone) : (s.modZone z f).sm = s.sm := rfl
@[simp] theorem State.modZone_ru (s : State) (z : ZoneId) (f : Zone → Zone) : (s.modZone z f).ru = s.ru := rfl
@[simp] theorem State.modZone_oc (s : State) (z : ZoneId) (f : Zone → Zone) : (s.modZone z f).oc = s.oc := rfl
@[simp] theorem State.modZone_dd (s : State) (z : ZoneId) (f : Zone → Zone) : (s.modZone z f).dd = s.dd := rfl
@[simp] theorem State.modZone_lm (s : State) (z : ZoneId) (f : Zone → Zone) : (s.modZone z f).lm = s.lm := rfl
@[simp] theorem State.modZone_pc (s : State) (z : ZoneId) (f : Zone → Zone) : (s.modZone z f).pc = s.pc := rfl
@[simp] theorem State.modZone_cl (s : State) (z : ZoneId) (f : Zone → Zone) : (s.modZone z f).cl = s.cl := rfl
@[simp] theorem State.modZone_free (s : State) (z : ZoneId) (f : Zone → Zone) : (s.modZone z f).free = s.free := rfl
@[simp] theorem State.modZone_pending (s : State) (z : ZoneId) (f : Zone → Zone) : (s.modZone z f).pending = s.pending := rfl

/-! ## `State.modDa` -/

@[simp] theorem State.modDa_pins (s : State) (f : Drive → Drive) : (s.modDa f).pins = s.pins := rfl
@[simp] theorem State.modDa_straps (s : State) (f : Drive → Drive) : (s.modDa f).straps = s.straps := rfl
@[simp] theorem State.modDa_params (s : State) (f : Drive → Drive) : (s.modDa f).params = s.params := rfl
@[simp] theorem State.modDa_bs (s : State) (f : Drive → Drive) : (s.modDa f).bs = s.bs := rfl
@[simp] theorem State.modDa_bi (s : State) (f : Drive → Drive) : (s.modDa f).bi = s.bi := rfl
@[simp] theorem State.modDa_zc (s : State) (f : Drive → Drive) : (s.modDa f).zc = s.zc := rfl
@[simp] theorem State.modDa_da (s : State) (f : Drive → Drive) : (s.modDa f).da = f s.da := rfl
@[simp] theorem State.modDa_lu (s : State) (f : Drive → Drive) : (s.modDa f).lu = s.lu := rfl
@[simp] theorem State.modDa_sm (s : State) (f : Drive → Drive) : (s.modDa f).sm = s.sm := rfl
@[simp] theorem State.modDa_ru (s : State) (f : Drive → Drive) : (s.modDa f).ru = s.ru := rfl
@[simp] theorem State.modDa_oc (s : State) (f : Drive → Drive) : (s.modDa f).oc = s.oc := rfl
@[simp] theorem State.modDa_dd (s : State) (f : Drive → Drive) : (s.modDa f).dd = s.dd := rfl
@[simp] theorem State.modDa_lm (s : State) (f : Drive → Drive) : (s.modDa f).lm = s.lm := rfl
@[simp] theorem State.modDa_pc (s : State) (f : Drive → Drive) : (s.modDa f).pc = s.pc := rfl
@[simp] theorem State.modDa_cl (s : State) (f : Drive → Drive) : (s.modDa f).cl = s.cl := rfl
@[simp] theorem State.modDa_free (s : State) (f : Drive → Drive) : (s.modDa f).free = s.free := rfl
@[simp] theorem State.modDa_pending (s : State) (f : Drive → Drive) : (s.modDa f).pending = s.pending := rfl

/-! ## `State.modLu` -/

@[simp] theorem State.modLu_pins (s : State) (f : LinkUp → LinkUp) : (s.modLu f).pins = s.pins := rfl
@[simp] theorem State.modLu_straps (s : State) (f : LinkUp → LinkUp) : (s.modLu f).straps = s.straps := rfl
@[simp] theorem State.modLu_params (s : State) (f : LinkUp → LinkUp) : (s.modLu f).params = s.params := rfl
@[simp] theorem State.modLu_bs (s : State) (f : LinkUp → LinkUp) : (s.modLu f).bs = s.bs := rfl
@[simp] theorem State.modLu_bi (s : State) (f : LinkUp → LinkUp) : (s.modLu f).bi = s.bi := rfl
@[simp] theorem State.modLu_zc (s : State) (f : LinkUp → LinkUp) : (s.modLu f).zc = s.zc := rfl
@[simp] theorem State.modLu_da (s : State) (f : LinkUp → LinkUp) : (s.modLu f).da = s.da := rfl
@[simp] theorem State.modLu_lu (s : State) (f : LinkUp → LinkUp) : (s.modLu f).lu = f s.lu := rfl
@[simp] theorem State.modLu_sm (s : State) (f : LinkUp → LinkUp) : (s.modLu f).sm = s.sm := rfl
@[simp] theorem State.modLu_ru (s : State) (f : LinkUp → LinkUp) : (s.modLu f).ru = s.ru := rfl
@[simp] theorem State.modLu_oc (s : State) (f : LinkUp → LinkUp) : (s.modLu f).oc = s.oc := rfl
@[simp] theorem State.modLu_dd (s : State) (f : LinkUp → LinkUp) : (s.modLu f).dd = s.dd := rfl
@[simp] theorem State.modLu_lm (s : State) (f : LinkUp → LinkUp) : (s.modLu f).lm = s.lm := rfl
@[simp] theorem State.modLu_pc (s : State) (f : LinkUp → LinkUp) : (s.modLu f).pc = s.pc := rfl
@[simp] theorem State.modLu_cl (s : State) (f : LinkUp → LinkUp) : (s.modLu f).cl = s.cl := rfl
@[simp] theorem State.modLu_free (s : State) (f : LinkUp → LinkUp) : (s.modLu f).free = s.free := rfl
@[simp] theorem State.modLu_pending (s : State) (f : LinkUp → LinkUp) : (s.modLu f).pending = s.pending := rfl

/-! ## `State.modSm` -/

@[simp] theorem State.modSm_pins (s : State) (f : Shock → Shock) : (s.modSm f).pins = s.pins := rfl
@[simp] theorem State.modSm_straps (s : State) (f : Shock → Shock) : (s.modSm f).straps = s.straps := rfl
@[simp] theorem State.modSm_params (s : State) (f : Shock → Shock) : (s.modSm f).params = s.params := rfl
@[simp] theorem State.modSm_bs (s : State) (f : Shock → Shock) : (s.modSm f).bs = s.bs := rfl
@[simp] theorem State.modSm_bi (s : State) (f : Shock → Shock) : (s.modSm f).bi = s.bi := rfl
@[simp] theorem State.modSm_zc (s : State) (f : Shock → Shock) : (s.modSm f).zc = s.zc := rfl
@[simp] theorem State.modSm_da (s : State) (f : Shock → Shock) : (s.modSm f).da = s.da := rfl
@[simp] theorem State.modSm_lu (s : State) (f : Shock → Shock) : (s.modSm f).lu = s.lu := rfl
@[simp] theorem State.modSm_sm (s : State) (f : Shock → Shock) : (s.modSm f).sm = f s.sm := rfl
@[simp] theorem State.modSm_ru (s : State) (f : Shock → Shock) : (s.modSm f).ru = s.ru := rfl
@[simp] theorem State.modSm_oc (s : State) (f : Shock → Shock) : (s.modSm f).oc = s.oc := rfl
@[simp] theorem State.modSm_dd (s : State) (f : Shock → Shock) : (s.modSm f).dd = s.dd := rfl
@[simp] theorem State.modSm_lm (s : State) (f : Shock → Shock) : (s.modSm f).lm = s.lm := rfl
@[simp] theorem State.modSm_pc (s : State) (f : Shock → Shock) : (s.modSm f).pc = s.pc := rfl
@[simp] theorem State.modSm_cl (s : State) (f : Shock → Shock) : (s.modSm f).cl = s.cl := rfl
@[simp] theorem State.modSm_free (s : State) (f : Shock → Shock) : (s.modSm f).free = s.free := rfl
@[simp] theorem State.modSm_pending (s : State) (f : Shock → Shock) : (s.modSm f).pending = s.pending := rfl

/-! ## `State.modRu` -/

@[simp] theorem State.modRu_pins (s : State) (f : Reread → Reread) : (s.modRu f).pins = s.pins := rfl
@[simp] theorem State.modRu_straps (s : State) (f : Reread → Reread) : (s.modRu f).straps = s.straps := rfl
@[simp] theorem State.modRu_params (s : State) (f : Reread → Reread) : (s.modRu f).params = s.params := rfl
@[simp] theorem State.modRu_bs (s : State) (f : Reread → Reread) : (s.modRu f).bs = s.bs := rfl
@[simp] theorem State.modRu_bi (s : State) (f : Reread → Reread) : (s.modRu f).bi = s.bi := rfl
@[simp] theorem State.modRu_zc (s : State) (f : Reread → Reread) : (s.modRu f).zc = s.zc := rfl
@[simp] theorem State.modRu_da (s : State) (f : Reread → Reread) : (s.modRu f).da = s.da := rfl
@[simp] theorem State.modRu_lu (s : State) (f : Reread → Reread) : (s.modRu f).lu = s.lu := rfl
@[simp] theorem State.modRu_sm (s : State) (f : Reread → Reread) : (s.modRu f).sm = s.sm := rfl
@[simp] theorem State.modRu_ru (s : State) (f : Reread → Reread) : (s.modRu f).ru = f s.ru := rfl
@[simp] theorem State.modRu_oc (s : State) (f : Reread → Reread) : (s.modRu f).oc = s.oc := rfl
@[simp] theorem State.modRu_dd (s : State) (f : Reread → Reread) : (s.modRu f).dd = s.dd := rfl
@[simp] theorem State.modRu_lm (s : State) (f : Reread → Reread) : (s.modRu f).lm = s.lm := rfl
@[simp] theorem State.modRu_pc (s : State) (f : Reread → Reread) : (s.modRu f).pc = s.pc := rfl
@[simp] theorem State.modRu_cl (s : State) (f : Reread → Reread) : (s.modRu f).cl = s.cl := rfl
@[simp] theorem State.modRu_free (s : State) (f : Reread → Reread) : (s.modRu f).free = s.free := rfl
@[simp] theorem State.modRu_pending (s : State) (f : Reread → Reread) : (s.modRu f).pending = s.pending := rfl

/-! ## `State.modOc` -/

@[simp] theorem State.modOc_pins (s : State) (z : ZoneId) (f : Concealer → Concealer) : (s.modOc z f).pins = s.pins := rfl
@[simp] theorem State.modOc_straps (s : State) (z : ZoneId) (f : Concealer → Concealer) : (s.modOc z f).straps = s.straps := rfl
@[simp] theorem State.modOc_params (s : State) (z : ZoneId) (f : Concealer → Concealer) : (s.modOc z f).params = s.params := rfl
@[simp] theorem State.modOc_bs (s : State) (z : ZoneId) (f : Concealer → Concealer) : (s.modOc z f).bs = s.bs := rfl
@[simp] theorem State.modOc_bi (s : State) (z : ZoneId) (f : Concealer → Concealer) : (s.modOc z f).bi = s.bi := rfl
@[simp] theorem State.modOc_zc (s : State) (z : ZoneId) (f : Concealer → Concealer) : (s.modOc z f).zc = s.zc := rfl
@[simp] theorem State.modOc_da (s : State) (z : ZoneId) (f : Concealer → Concealer) : (s.modOc z f).da = s.da := rfl
@[simp] theorem State.modOc_lu (s : State) (z : ZoneId) (f : Concealer → Concealer) : (s.modOc z f).lu = s.lu := rfl
@[simp] theorem State.modOc_sm (s : State) (z : ZoneId) (f : Concealer → Concealer) : (s.modOc z f).sm = s.sm := rfl
@[simp] theorem State.modOc_ru (s : State) (z : ZoneId) (f : Concealer → Concealer) : (s.modOc z f).ru = s.ru := rfl
@[simp] theorem State.modOc_oc (s : State) (z : ZoneId) (f : Concealer → Concealer) : (s.modOc z f).oc = s.oc.mod z f := rfl
@[simp] theorem State.modOc_dd (s : State) (z : ZoneId) (f : Concealer → Concealer) : (s.modOc z f).dd = s.dd := rfl
@[simp] theorem State.modOc_lm (s : State) (z : ZoneId) (f : Concealer → Concealer) : (s.modOc z f).lm = s.lm := rfl
@[simp] theorem State.modOc_pc (s : State) (z : ZoneId) (f : Concealer → Concealer) : (s.modOc z f).pc = s.pc := rfl
@[simp] theorem State.modOc_cl (s : State) (z : ZoneId) (f : Concealer → Concealer) : (s.modOc z f).cl = s.cl := rfl
@[simp] theorem State.modOc_free (s : State) (z : ZoneId) (f : Concealer → Concealer) : (s.modOc z f).free = s.free := rfl
@[simp] theorem State.modOc_pending (s : State) (z : ZoneId) (f : Concealer → Concealer) : (s.modOc z f).pending = s.pending := rfl

/-! ## `State.modDd` -/

@[simp] theorem State.modDd_pins (s : State) (f : Directory → Directory) : (s.modDd f).pins = s.pins := rfl
@[simp] theorem State.modDd_straps (s : State) (f : Directory → Directory) : (s.modDd f).straps = s.straps := rfl
@[simp] theorem State.modDd_params (s : State) (f : Directory → Directory) : (s.modDd f).params = s.params := rfl
@[simp] theorem State.modDd_bs (s : State) (f : Directory → Directory) : (s.modDd f).bs = s.bs := rfl
@[simp] theorem State.modDd_bi (s : State) (f : Directory → Directory) : (s.modDd f).bi = s.bi := rfl
@[simp] theorem State.modDd_zc (s : State) (f : Directory → Directory) : (s.modDd f).zc = s.zc := rfl
@[simp] theorem State.modDd_da (s : State) (f : Directory → Directory) : (s.modDd f).da = s.da := rfl
@[simp] theorem State.modDd_lu (s : State) (f : Directory → Directory) : (s.modDd f).lu = s.lu := rfl
@[simp] theorem State.modDd_sm (s : State) (f : Directory → Directory) : (s.modDd f).sm = s.sm := rfl
@[simp] theorem State.modDd_ru (s : State) (f : Directory → Directory) : (s.modDd f).ru = s.ru := rfl
@[simp] theorem State.modDd_oc (s : State) (f : Directory → Directory) : (s.modDd f).oc = s.oc := rfl
@[simp] theorem State.modDd_dd (s : State) (f : Directory → Directory) : (s.modDd f).dd = f s.dd := rfl
@[simp] theorem State.modDd_lm (s : State) (f : Directory → Directory) : (s.modDd f).lm = s.lm := rfl
@[simp] theorem State.modDd_pc (s : State) (f : Directory → Directory) : (s.modDd f).pc = s.pc := rfl
@[simp] theorem State.modDd_cl (s : State) (f : Directory → Directory) : (s.modDd f).cl = s.cl := rfl
@[simp] theorem State.modDd_free (s : State) (f : Directory → Directory) : (s.modDd f).free = s.free := rfl
@[simp] theorem State.modDd_pending (s : State) (f : Directory → Directory) : (s.modDd f).pending = s.pending := rfl

/-! ## `State.modLm` -/

@[simp] theorem State.modLm_pins (s : State) (f : Loader → Loader) : (s.modLm f).pins = s.pins := rfl
@[simp] theorem State.modLm_straps (s : State) (f : Loader → Loader) : (s.modLm f).straps = s.straps := rfl
@[simp] theorem State.modLm_params (s : State) (f : Loader → Loader) : (s.modLm f).params = s.params := rfl
@[simp] theorem State.modLm_bs (s : State) (f : Loader → Loader) : (s.modLm f).bs = s.bs := rfl
@[simp] theorem State.modLm_bi (s : State) (f : Loader → Loader) : (s.modLm f).bi = s.bi := rfl
@[simp] theorem State.modLm_zc (s : State) (f : Loader → Loader) : (s.modLm f).zc = s.zc := rfl
@[simp] theorem State.modLm_da (s : State) (f : Loader → Loader) : (s.modLm f).da = s.da := rfl
@[simp] theorem State.modLm_lu (s : State) (f : Loader → Loader) : (s.modLm f).lu = s.lu := rfl
@[simp] theorem State.modLm_sm (s : State) (f : Loader → Loader) : (s.modLm f).sm = s.sm := rfl
@[simp] theorem State.modLm_ru (s : State) (f : Loader → Loader) : (s.modLm f).ru = s.ru := rfl
@[simp] theorem State.modLm_oc (s : State) (f : Loader → Loader) : (s.modLm f).oc = s.oc := rfl
@[simp] theorem State.modLm_dd (s : State) (f : Loader → Loader) : (s.modLm f).dd = s.dd := rfl
@[simp] theorem State.modLm_lm (s : State) (f : Loader → Loader) : (s.modLm f).lm = f s.lm := rfl
@[simp] theorem State.modLm_pc (s : State) (f : Loader → Loader) : (s.modLm f).pc = s.pc := rfl
@[simp] theorem State.modLm_cl (s : State) (f : Loader → Loader) : (s.modLm f).cl = s.cl := rfl
@[simp] theorem State.modLm_free (s : State) (f : Loader → Loader) : (s.modLm f).free = s.free := rfl
@[simp] theorem State.modLm_pending (s : State) (f : Loader → Loader) : (s.modLm f).pending = s.pending := rfl

/-! ## `State.modPc` -/

@[simp] theorem State.modPc_pins (s : State) (f : Power → Power) : (s.modPc f).pins = s.pins := rfl
@[simp] theorem State.modPc_straps (s : State) (f : Power → Power) : (s.modPc f).straps = s.straps := rfl
@[simp] theorem State.modPc_params (s : State) (f : Power → Power) : (s.modPc f).params = s.params := rfl
@[simp] theorem State.modPc_bs (s : State) (f : Power → Power) : (s.modPc f).bs = s.bs := rfl
@[simp] theorem State.modPc_bi (s : State) (f : Power → Power) : (s.modPc f).bi = s.bi := rfl
@[simp] theorem State.modPc_zc (s : State) (f : Power → Power) : (s.modPc f).zc = s.zc := rfl
@[simp] theorem State.modPc_da (s : State) (f : Power → Power) : (s.modPc f).da = s.da := rfl
@[simp] theorem State.modPc_lu (s : State) (f : Power → Power) : (s.modPc f).lu = s.lu := rfl
@[simp] theorem State.modPc_sm (s : State) (f : Power → Power) : (s.modPc f).sm = s.sm := rfl
@[simp] theorem State.modPc_ru (s : State) (f : Power → Power) : (s.modPc f).ru = s.ru := rfl
@[simp] theorem State.modPc_oc (s : State) (f : Power → Power) : (s.modPc f).oc = s.oc := rfl
@[simp] theorem State.modPc_dd (s : State) (f : Power → Power) : (s.modPc f).dd = s.dd := rfl
@[simp] theorem State.modPc_lm (s : State) (f : Power → Power) : (s.modPc f).lm = s.lm := rfl
@[simp] theorem State.modPc_pc (s : State) (f : Power → Power) : (s.modPc f).pc = f s.pc := rfl
@[simp] theorem State.modPc_cl (s : State) (f : Power → Power) : (s.modPc f).cl = s.cl := rfl
@[simp] theorem State.modPc_free (s : State) (f : Power → Power) : (s.modPc f).free = s.free := rfl
@[simp] theorem State.modPc_pending (s : State) (f : Power → Power) : (s.modPc f).pending = s.pending := rfl

/-! ## `State.modCl` -/

@[simp] theorem State.modCl_pins (s : State) (f : Link → Link) : (s.modCl f).pins = s.pins := rfl
@[simp] theorem State.modCl_straps (s : State) (f : Link → Link) : (s.modCl f).straps = s.straps := rfl
@[simp] theorem State.modCl_params (s : State) (f : Link → Link) : (s.modCl f).params = s.params := rfl
@[simp] theorem State.modCl_bs (s : State) (f : Link → Link) : (s.modCl f).bs = s.bs := rfl
@[simp] theorem State.modCl_bi (s : State) (f : Link → Link) : (s.modCl f).bi = s.bi := rfl
@[simp] theorem State.modCl_zc (s : State) (f : Link → Link) : (s.modCl f).zc = s.zc := rfl
@[simp] theorem State.modCl_da (s : State) (f : Link → Link) : (s.modCl f).da = s.da := rfl
@[simp] theorem State.modCl_lu (s : State) (f : Link → Link) : (s.modCl f).lu = s.lu := rfl
@[simp] theorem State.modCl_sm (s : State) (f : Link → Link) : (s.modCl f).sm = s.sm := rfl
@[simp] theorem State.modCl_ru (s : State) (f : Link → Link) : (s.modCl f).ru = s.ru := rfl
@[simp] theorem State.modCl_oc (s : State) (f : Link → Link) : (s.modCl f).oc = s.oc := rfl
@[simp] theorem State.modCl_dd (s : State) (f : Link → Link) : (s.modCl f).dd = s.dd := rfl
@[simp] theorem State.modCl_lm (s : State) (f : Link → Link) : (s.modCl f).lm = s.lm := rfl
@[simp] theorem State.modCl_pc (s : State) (f : Link → Link) : (s.modCl f).pc = s.pc := rfl
@[simp] theorem State.modCl_cl (s : State) (f : Link → Link) : (s.modCl f).cl = f s.cl := rfl
@[simp] theorem State.modCl_free (s : State) (f : Link → Link) : (s.modCl f).free = s.free := rfl
@[simp] theorem State.modCl_pending (s : State) (f : Link → Link) : (s.modCl f).pending = s.pending := rfl

/-! ## `State.setCtx` -/

@[simp] theorem State.setCtx_pins (s : State) (z : ZoneId) (c : Option LinkCtx) : (s.setCtx z c).pins = s.pins := rfl
@[simp] theorem State.setCtx_straps (s : State) (z : ZoneId) (c : Option LinkCtx) : (s.setCtx z c).straps = s.straps := rfl
@[simp] theorem State.setCtx_params (s : State) (z : ZoneId) (c : Option LinkCtx) : (s.setCtx z c).params = s.params := rfl
@[simp] theorem State.setCtx_bs (s : State) (z : ZoneId) (c : Option LinkCtx) : (s.setCtx z c).bs = s.bs := rfl
@[simp] theorem State.setCtx_bi (s : State) (z : ZoneId) (c : Option LinkCtx) : (s.setCtx z c).bi = s.bi := rfl
@[simp] theorem State.setCtx_zc (s : State) (z : ZoneId) (c : Option LinkCtx) : (s.setCtx z c).zc = s.zc := rfl
@[simp] theorem State.setCtx_da (s : State) (z : ZoneId) (c : Option LinkCtx) : (s.setCtx z c).da = s.da := rfl
@[simp] theorem State.setCtx_lu (s : State) (z : ZoneId) (c : Option LinkCtx) : (s.setCtx z c).lu = { s.lu with ctx := s.lu.ctx.set z c } := rfl
@[simp] theorem State.setCtx_sm (s : State) (z : ZoneId) (c : Option LinkCtx) : (s.setCtx z c).sm = s.sm := rfl
@[simp] theorem State.setCtx_ru (s : State) (z : ZoneId) (c : Option LinkCtx) : (s.setCtx z c).ru = s.ru := rfl
@[simp] theorem State.setCtx_oc (s : State) (z : ZoneId) (c : Option LinkCtx) : (s.setCtx z c).oc = s.oc := rfl
@[simp] theorem State.setCtx_dd (s : State) (z : ZoneId) (c : Option LinkCtx) : (s.setCtx z c).dd = s.dd := rfl
@[simp] theorem State.setCtx_lm (s : State) (z : ZoneId) (c : Option LinkCtx) : (s.setCtx z c).lm = s.lm := rfl
@[simp] theorem State.setCtx_pc (s : State) (z : ZoneId) (c : Option LinkCtx) : (s.setCtx z c).pc = s.pc := rfl
@[simp] theorem State.setCtx_cl (s : State) (z : ZoneId) (c : Option LinkCtx) : (s.setCtx z c).cl = s.cl := rfl
@[simp] theorem State.setCtx_free (s : State) (z : ZoneId) (c : Option LinkCtx) : (s.setCtx z c).free = s.free := rfl
@[simp] theorem State.setCtx_pending (s : State) (z : ZoneId) (c : Option LinkCtx) : (s.setCtx z c).pending = s.pending := rfl

/-! ## `State.modAudit` -/

@[simp] theorem State.modAudit_pins (s : State) (z : ZoneId) (f : Audit → Audit) : (s.modAudit z f).pins = s.pins := rfl
@[simp] theorem State.modAudit_straps (s : State) (z : ZoneId) (f : Audit → Audit) : (s.modAudit z f).straps = s.straps := rfl
@[simp] theorem State.modAudit_params (s : State) (z : ZoneId) (f : Audit → Audit) : (s.modAudit z f).params = s.params := rfl
@[simp] theorem State.modAudit_bs (s : State) (z : ZoneId) (f : Audit → Audit) : (s.modAudit z f).bs = s.bs := rfl
@[simp] theorem State.modAudit_bi (s : State) (z : ZoneId) (f : Audit → Audit) : (s.modAudit z f).bi = s.bi := rfl
@[simp] theorem State.modAudit_zc (s : State) (z : ZoneId) (f : Audit → Audit) : (s.modAudit z f).zc = s.zc := rfl
@[simp] theorem State.modAudit_da (s : State) (z : ZoneId) (f : Audit → Audit) : (s.modAudit z f).da = s.da := rfl
@[simp] theorem State.modAudit_lu (s : State) (z : ZoneId) (f : Audit → Audit) : (s.modAudit z f).lu = { s.lu with audit := s.lu.audit.mod z f } := rfl
@[simp] theorem State.modAudit_sm (s : State) (z : ZoneId) (f : Audit → Audit) : (s.modAudit z f).sm = s.sm := rfl
@[simp] theorem State.modAudit_ru (s : State) (z : ZoneId) (f : Audit → Audit) : (s.modAudit z f).ru = s.ru := rfl
@[simp] theorem State.modAudit_oc (s : State) (z : ZoneId) (f : Audit → Audit) : (s.modAudit z f).oc = s.oc := rfl
@[simp] theorem State.modAudit_dd (s : State) (z : ZoneId) (f : Audit → Audit) : (s.modAudit z f).dd = s.dd := rfl
@[simp] theorem State.modAudit_lm (s : State) (z : ZoneId) (f : Audit → Audit) : (s.modAudit z f).lm = s.lm := rfl
@[simp] theorem State.modAudit_pc (s : State) (z : ZoneId) (f : Audit → Audit) : (s.modAudit z f).pc = s.pc := rfl
@[simp] theorem State.modAudit_cl (s : State) (z : ZoneId) (f : Audit → Audit) : (s.modAudit z f).cl = s.cl := rfl
@[simp] theorem State.modAudit_free (s : State) (z : ZoneId) (f : Audit → Audit) : (s.modAudit z f).free = s.free := rfl
@[simp] theorem State.modAudit_pending (s : State) (z : ZoneId) (f : Audit → Audit) : (s.modAudit z f).pending = s.pending := rfl

/-! ## `State.modList` -/

@[simp] theorem State.modList_pins (s : State) (z : ZoneId) (f : List Entry → List Entry) : (s.modList z f).pins = s.pins := rfl
@[simp] theorem State.modList_straps (s : State) (z : ZoneId) (f : List Entry → List Entry) : (s.modList z f).straps = s.straps := rfl
@[simp] theorem State.modList_params (s : State) (z : ZoneId) (f : List Entry → List Entry) : (s.modList z f).params = s.params := rfl
@[simp] theorem State.modList_bs (s : State) (z : ZoneId) (f : List Entry → List Entry) : (s.modList z f).bs = s.bs := rfl
@[simp] theorem State.modList_bi (s : State) (z : ZoneId) (f : List Entry → List Entry) : (s.modList z f).bi = s.bi := rfl
@[simp] theorem State.modList_zc (s : State) (z : ZoneId) (f : List Entry → List Entry) : (s.modList z f).zc = s.zc := rfl
@[simp] theorem State.modList_da (s : State) (z : ZoneId) (f : List Entry → List Entry) : (s.modList z f).da = s.da := rfl
@[simp] theorem State.modList_lu (s : State) (z : ZoneId) (f : List Entry → List Entry) : (s.modList z f).lu = s.lu := rfl
@[simp] theorem State.modList_sm (s : State) (z : ZoneId) (f : List Entry → List Entry) : (s.modList z f).sm = s.sm := rfl
@[simp] theorem State.modList_ru (s : State) (z : ZoneId) (f : List Entry → List Entry) : (s.modList z f).ru = { s.ru with lists := s.ru.lists.mod z f } := rfl
@[simp] theorem State.modList_oc (s : State) (z : ZoneId) (f : List Entry → List Entry) : (s.modList z f).oc = s.oc := rfl
@[simp] theorem State.modList_dd (s : State) (z : ZoneId) (f : List Entry → List Entry) : (s.modList z f).dd = s.dd := rfl
@[simp] theorem State.modList_lm (s : State) (z : ZoneId) (f : List Entry → List Entry) : (s.modList z f).lm = s.lm := rfl
@[simp] theorem State.modList_pc (s : State) (z : ZoneId) (f : List Entry → List Entry) : (s.modList z f).pc = s.pc := rfl
@[simp] theorem State.modList_cl (s : State) (z : ZoneId) (f : List Entry → List Entry) : (s.modList z f).cl = s.cl := rfl
@[simp] theorem State.modList_free (s : State) (z : ZoneId) (f : List Entry → List Entry) : (s.modList z f).free = s.free := rfl
@[simp] theorem State.modList_pending (s : State) (z : ZoneId) (f : List Entry → List Entry) : (s.modList z f).pending = s.pending := rfl

/-! ## Zones and contexts -/

@[simp] theorem State.zone_modZone (s : State) (z : ZoneId) (f : Zone → Zone) : (s.modZone z f).zone z = f (s.zone z) :=
  s.zc.get_mod_self z f

theorem State.zone_modZone_ne (s : State) {z w : ZoneId} (f : Zone → Zone) (h : w ≠ z) :
    (s.modZone z f).zone w = s.zone w := s.zc.get_mod_ne f h

@[simp] theorem State.ctx_setCtx (s : State) (z : ZoneId) (c : Option LinkCtx) : (s.setCtx z c).ctx z = c :=
  s.lu.ctx.get_set_self z c

theorem State.ctx_setCtx_ne (s : State) {z w : ZoneId} (c : Option LinkCtx) (h : w ≠ z) :
    (s.setCtx z c).ctx w = s.ctx w := s.lu.ctx.get_set_ne c h

end Machine

end Sys2Proof
end

