-- ==== Sys2Proof/Laws/Link.lean ====
section
/-! SUPPORT. What each operation of the Control Link can do: it keeps the bounds of the refusal list and the notice queue, and
the pump and the notices leave the pending request's frame and reply alone. -/

namespace Sys2Proof.Machine

/-- What the pending request is and whether it is answered: its frame and its own reply. -/
def Link.asked (l : Link) : Option (Frame × Option Frame) := l.request.map fun q => (q.frame, q.reply)

/-! ## The pump (R176) -/

/-- The pump leaves the pending request's frame and reply, and the flags. -/
@[simp] theorem Link.asked_pump (l : Link) : l.pump.asked = l.asked := by
  unfold Link.pump Link.asked
  split
  · rfl
  · split <;> simp_all
    split <;> simp_all

@[simp] theorem Link.pump_hush (l : Link) : l.pump.hush = l.hush := by
  unfold Link.pump; (repeat' split) <;> rfl

@[simp] theorem Link.pump_lost (l : Link) : l.pump.lost = l.lost := by
  unfold Link.pump; (repeat' split) <;> rfl

@[simp] theorem Link.pump_rx (l : Link) : l.pump.rx = l.rx := by
  unfold Link.pump; (repeat' split) <;> rfl

/-- The pump takes at most the first refusal. -/
theorem Link.pump_refusals (l : Link) : l.pump.refusals = l.refusals ∨ l.pump.refusals = l.refusals.tail := by
  unfold Link.pump
  (repeat' split) <;> simp_all

/-- The pump takes at most the first notice. -/
theorem Link.pump_notices (l : Link) : l.pump.notices = l.notices ∨ l.pump.notices = l.notices.tail := by
  unfold Link.pump
  (repeat' split) <;> simp_all

theorem Link.bounded_pump {l : Link} (h : l.bounded) : l.pump.bounded := by
  obtain ⟨h1, h2, h3⟩ := h
  refine ⟨?_, ?_, fun hh => ?_⟩
  · rcases l.pump_refusals with e | e <;> rw [e]
    · exact h1
    · simp; omega
  · rcases l.pump_notices with e | e <;> rw [e]
    · exact h2
    · simp; omega
  · rw [Link.pump_hush] at hh
    rcases l.pump_notices with e | e <;> rw [e] <;> simp [h3 hh]

/-! ## Notices (R177) -/

@[simp] theorem Link.asked_notice (l : Link) (f : Frame) : (l.notice f).asked = l.asked := by
  unfold Link.notice
  split
  · rfl
  · split
    · simp [Link.asked]
      exact Link.asked_pump _
    · rfl

@[simp] theorem Link.notice_hush (l : Link) (f : Frame) : (l.notice f).hush = l.hush := by
  unfold Link.notice
  (repeat' split) <;> simp

theorem Link.bounded_notice {l : Link} (f : Frame) (h : l.bounded) : (l.notice f).bounded := by
  unfold Link.notice
  split
  · exact h
  · rename_i hh
    split
    · refine Link.bounded_pump ⟨h.1, ?_, fun e => absurd e (by simpa using hh)⟩
      simp; omega
    · exact h

/-! ## Replies, refusals and the hush flag (R175, R176, R178) -/

theorem Link.bounded_formReply {l : Link} (f : Frame) (h : l.bounded) : (l.formReply f).bounded := by
  unfold Link.formReply
  split
  · exact Link.bounded_pump h
  · exact h

/-- The pending request's reply is formed (R175). -/
theorem Link.asked_formReply (l : Link) (f : Frame) : (l.formReply f).asked = l.asked.map fun q => (q.1, some f) := by
  unfold Link.formReply
  split
  · rename_i q hq
    rw [Link.asked_pump]
    simp [Link.asked, hq]
  · rename_i hq
    simp [Link.asked, hq]

theorem Link.bounded_busy {l : Link} (k : Byte) (h : l.bounded) : (l.busy k).bounded := by
  unfold Link.busy
  split
  · refine Link.bounded_pump ⟨?_, h.2⟩
    simp; omega
  · exact h

@[simp] theorem Link.asked_busy (l : Link) (k : Byte) : (l.busy k).asked = l.asked := by
  unfold Link.busy
  split
  · exact Link.asked_pump _
  · rfl

theorem Link.bounded_setHush {l : Link} (on : Bool) (h : l.bounded) : (l.setHush on).bounded := by
  unfold Link.setHush
  split
  · exact h
  · split
    · exact ⟨h.1, by simp, fun _ => rfl⟩
    · exact ⟨h.1, h.2.1, fun e => by simp at e⟩

theorem Link.bounded_sent {l : Link} (h : l.bounded) : l.sent.bounded := by
  unfold Link.sent
  split
  · exact h
  all_goals exact Link.bounded_pump h

theorem Link.bounded_softStart {l : Link} (h : l.bounded) : l.softStart.bounded := ⟨h.1, by simp [Link.softStart], fun _ => rfl⟩

theorem Link.bounded_start : Link.start.bounded := ⟨by decide, by decide, fun _ => rfl⟩

end Sys2Proof.Machine
end

