-- ==== Sys2Proof/Laws/Table.lean ====
section
/-! SUPPORT. The laws of the tables in canonical form: a read after a write gives the value written, a write leaves every
other entry, and a write keeps the form. -/

namespace Sys2Proof.Machine

variable {α : Type} [DecidableEq α]

theorem tableWfFrom_mono {d : Nat → α} {lo lo' : Nat} {t : List (Nat × α)} (h : tableWfFrom d lo t = true) (hl : lo' ≤ lo) :
    tableWfFrom d lo' t = true := by
  cases t with
  | nil => rfl
  | cons x t =>
    obtain ⟨a, v⟩ := x
    simp only [tableWfFrom, Bool.and_eq_true, decide_eq_true_eq] at h ⊢
    exact ⟨⟨hl.trans h.1.1, h.1.2⟩, h.2⟩

/-- An entry below the keys of a table is not listed in it. -/
theorem tableGet_below {d : Nat → α} {lo k : Nat} {t : List (Nat × α)} (h : tableWfFrom d lo t = true) (hk : k < lo) :
    tableGet d t k = d k := by
  induction t generalizing lo with
  | nil => rfl
  | cons x t ih =>
    obtain ⟨a, v⟩ := x
    simp only [tableWfFrom, Bool.and_eq_true, decide_eq_true_eq] at h
    have : a ≠ k := by omega
    simp only [tableGet, this, if_false]
    exact ih h.2 (by omega)

theorem tableErase_wf {d : Nat → α} {lo : Nat} {t : List (Nat × α)} (k : Nat) (h : tableWfFrom d lo t = true) :
    tableWfFrom d lo (tableErase t k) = true := by
  induction t generalizing lo with
  | nil => rfl
  | cons x t ih =>
    obtain ⟨a, v⟩ := x
    simp only [tableWfFrom, Bool.and_eq_true, decide_eq_true_eq] at h
    by_cases hk : k = a
    · simp only [tableErase, hk, if_true]
      exact tableWfFrom_mono h.2 (by omega)
    · have hk' : ¬ a = k := fun e => hk e.symm
      simp only [tableErase, hk', if_false, tableWfFrom, Bool.and_eq_true, decide_eq_true_eq]
      exact ⟨h.1, ih h.2⟩

theorem tableInsert_wf {d : Nat → α} {lo : Nat} {t : List (Nat × α)} {k : Nat} {v : α} (h : tableWfFrom d lo t = true)
    (hk : lo ≤ k) (hv : v ≠ d k) : tableWfFrom d lo (tableInsert t k v) = true := by
  induction t generalizing lo with
  | nil => simp [tableInsert, tableWfFrom, hk, hv]
  | cons x t ih =>
    obtain ⟨a, w⟩ := x
    simp only [tableWfFrom, Bool.and_eq_true, decide_eq_true_eq] at h
    unfold tableInsert
    split
    · simp only [tableWfFrom, Bool.and_eq_true, decide_eq_true_eq]
      exact ⟨⟨hk, hv⟩, ⟨by omega, h.1.2⟩, h.2⟩
    · split
      · simp only [tableWfFrom, Bool.and_eq_true, decide_eq_true_eq]
        exact ⟨⟨hk, hv⟩, tableWfFrom_mono h.2 (by omega)⟩
      · simp only [tableWfFrom, Bool.and_eq_true, decide_eq_true_eq]
        exact ⟨h.1, ih h.2 (by omega)⟩

/-- A write keeps the canonical form. -/
theorem tableSet_wf {d : Nat → α} {t : List (Nat × α)} (k : Nat) (v : α) (h : tableWf d t = true) :
    tableWf d (tableSet d t k v) = true := by
  unfold tableSet
  split
  · exact tableErase_wf k h
  · exact tableInsert_wf h (by omega) ‹_›

theorem tableGet_erase_self {d : Nat → α} {lo : Nat} {t : List (Nat × α)} (k : Nat) (h : tableWfFrom d lo t = true) :
    tableGet d (tableErase t k) k = d k := by
  induction t generalizing lo with
  | nil => rfl
  | cons x t ih =>
    obtain ⟨a, v⟩ := x
    simp only [tableWfFrom, Bool.and_eq_true, decide_eq_true_eq] at h
    unfold tableErase
    split
    · exact tableGet_below h.2 (by omega)
    · rename_i hk
      simp only [tableGet, hk, if_false]
      exact ih h.2

omit [DecidableEq α] in
theorem tableGet_erase_ne (d : Nat → α) (t : List (Nat × α)) {k j : Nat} (hj : j ≠ k) :
    tableGet d (tableErase t k) j = tableGet d t j := by
  induction t with
  | nil => rfl
  | cons x t ih =>
    obtain ⟨a, v⟩ := x
    unfold tableErase
    split
    · rename_i hk
      have : ¬ a = j := by omega
      simp [tableGet, this]
    · simp only [tableGet]
      split
      · rfl
      · exact ih

omit [DecidableEq α] in
theorem tableGet_insert_self (d : Nat → α) (t : List (Nat × α)) (k : Nat) (v : α) :
    tableGet d (tableInsert t k v) k = v := by
  induction t with
  | nil => simp [tableInsert, tableGet]
  | cons x t ih =>
    obtain ⟨a, w⟩ := x
    unfold tableInsert
    split
    · simp [tableGet]
    · split
      · simp [tableGet]
      · have : ¬ a = k := by omega
        simp only [tableGet, this, if_false]
        exact ih

omit [DecidableEq α] in
theorem tableGet_insert_ne (d : Nat → α) (t : List (Nat × α)) {k j : Nat} (v : α) (hj : j ≠ k) :
    tableGet d (tableInsert t k v) j = tableGet d t j := by
  have hj' : ¬ k = j := fun e => hj e.symm
  induction t with
  | nil => simp [tableInsert, tableGet, hj']
  | cons x t ih =>
    obtain ⟨a, w⟩ := x
    unfold tableInsert
    split
    · simp [tableGet, hj']
    · split
      · rename_i hk
        have : ¬ a = j := by omega
        simp [tableGet, hj', this]
      · simp only [tableGet]
        split
        · rfl
        · exact ih

/-- A read after a write to the same entry gives the value written. -/
theorem tableGet_set_self {d : Nat → α} {t : List (Nat × α)} (k : Nat) (v : α) (h : tableWf d t = true) :
    tableGet d (tableSet d t k v) k = v := by
  unfold tableSet
  split
  · rename_i hv
    rw [hv]
    exact tableGet_erase_self k h
  · exact tableGet_insert_self d t k v

/-- A write leaves every other entry. -/
theorem tableGet_set_ne (d : Nat → α) (t : List (Nat × α)) {k j : Nat} (v : α) (hj : j ≠ k) :
    tableGet d (tableSet d t k v) j = tableGet d t j := by
  unfold tableSet
  split
  · exact tableGet_erase_ne d t hj
  · exact tableGet_insert_ne d t v hj

/-- A read after a write. -/
theorem tableGet_set {d : Nat → α} {t : List (Nat × α)} (k j : Nat) (v : α) (h : tableWf d t = true) :
    tableGet d (tableSet d t k v) j = if j = k then v else tableGet d t j := by
  split
  · rename_i hj
    rw [hj]
    exact tableGet_set_self k v h
  · exact tableGet_set_ne d t v ‹_›

end Sys2Proof.Machine
end

