-- ==== Sys2Proof/Laws/Store.lean ====
section
/-! SUPPORT. The laws of the Bucket Store: what each store operation does to the pool, and that each keeps the store sound.
A move takes buckets out of their place into a loose list, changes their entries, and puts them into another place. -/

namespace Sys2Proof.Machine

/-! ## The next-pointer table -/

theorem Store.nextOf_setNext {st : Store} (h : st.wf = true) (b v c : Nat) :
    (st.setNext b v).nextOf c = if c = b then v else st.nextOf c := by
  simp only [Store.wf, Bool.and_eq_true] at h
  exact tableGet_set b c v h.1

theorem Store.nextOf_setNext_ne (st : Store) {b v c : Nat} (h : c ≠ b) : (st.setNext b v).nextOf c = st.nextOf c :=
  tableGet_set_ne nextDefault st.next v h

theorem Store.wf_setNext {st : Store} (b v : Nat) (h : st.wf = true) : (st.setNext b v).wf = true := by
  simp only [Store.wf, Bool.and_eq_true] at h ⊢
  exact ⟨tableSet_wf b v h.1, h.2⟩

theorem Store.wf_setBucket {st : Store} (b : Nat) (v : Bucket) (h : st.wf = true) : (st.setBucket b v).wf = true := by
  simp only [Store.wf, Bool.and_eq_true] at h ⊢
  exact ⟨h.1, tableSet_wf b v h.2⟩

/-- A read of a bucket after a write of a bucket. -/
theorem Store.bucket_setBucket {st : Store} (h : st.wf = true) (b c : Nat) (v : Bucket) :
    (st.setBucket b v).bucket c = if c = b then v else st.bucket c := by
  simp only [Store.wf, Bool.and_eq_true] at h
  exact tableGet_set b c v h.2

theorem Store.bucket_setBucket_ne (st : Store) {b c : Nat} (v : Bucket) (h : c ≠ b) :
    (st.setBucket b v).bucket c = st.bucket c := tableGet_set_ne bucketDefault st.mem v h

/-! ## Lists -/

/-- Which buckets a list joins depends on the next-pointer table alone. -/
theorem Store.lists_congr {st st' : Store} (hn : st'.next = st.next) (h : Nat) (l : List Nat) :
    st'.lists h l ↔ st.lists h l := by
  induction l generalizing h with
  | nil => exact Iff.rfl
  | cons b l ih => simp only [Store.lists, Store.nextOf, hn, ih]

/-- Writing the entry of a bucket outside a list leaves the list. -/
theorem Store.lists_setNext (st : Store) {b v h : Nat} {l : List Nat} (hb : b ∉ l) :
    (st.setNext b v).lists h l ↔ st.lists h l := by
  induction l generalizing h with
  | nil => exact Iff.rfl
  | cons c l ih =>
    simp only [List.mem_cons, not_or] at hb
    simp only [Store.lists, st.nextOf_setNext_ne (v := v) (Ne.symm hb.1), ih hb.2]

/-- A list is read by following its entries. -/
theorem Store.walk_lists {st : Store} {h : Nat} {l : List Nat} (hl : st.lists h l) : st.walk l.length h = l := by
  induction l generalizing h with
  | nil => rfl
  | cons b l ih =>
    obtain ⟨rfl, -, hl⟩ := hl
    simp [Store.walk, ih hl]

/-- A list that is read from bucket 0 is empty. -/
theorem Store.lists_zero {st : Store} {l : List Nat} (hl : st.lists 0 l) : l = [] := by
  cases l with
  | nil => rfl
  | cons b l => exact absurd hl.1.symm hl.2.1

/-- Joining one more bucket at the end of a list. -/
theorem Store.lists_snoc {st : Store} (hw : st.wf = true) {h b : Nat} {l : List Nat} (hl : st.lists h l) (hne : l ≠ [])
    (hb : b ≠ 0) (hz : st.nextOf b = 0) (hd : (l ++ [b]).Nodup) :
    (st.setNext (l.getLast?.getD 0) b).lists h (l ++ [b]) := by
  induction l generalizing h with
  | nil => exact absurd rfl hne
  | cons c l ih =>
    obtain ⟨rfl, hc, hl⟩ := hl
    rw [List.cons_append, List.nodup_cons] at hd
    cases l with
    | nil =>
      have : b ≠ h := fun e => hd.1 (by simp [e])
      simp only [List.getLast?_singleton, Option.getD_some, List.cons_append, List.nil_append, Store.lists,
        Store.nextOf_setNext hw, if_true, if_neg this]
      exact ⟨trivial, hc, trivial, hb, hz⟩
    | cons d l =>
      have hx : (h :: d :: l).getLast? = (d :: l).getLast? := List.getLast?_cons_cons
      have hm : ((d :: l).getLast?).getD 0 ∈ d :: l := by
        rw [List.getLast?_eq_some_getLast (by simp)]
        exact List.getLast_mem _
      have : h ≠ ((d :: l).getLast?).getD 0 := fun e => hd.1 (List.mem_append_left _ (e ▸ hm))
      rw [hx]
      refine ⟨rfl, hc, ?_⟩
      rw [st.nextOf_setNext_ne this]
      exact ih hl (by simp) hd.2

/-- Ending a list behind one of its parts. -/
theorem Store.lists_take {st st' : Store} {h : Nat} {l r : List Nat} (hl : st.lists h (l ++ r)) (hne : l ≠ []) (hd : l.Nodup)
    (hn : ∀ c ∈ l, c ≠ l.getLast?.getD 0 → st'.nextOf c = st.nextOf c) (h0 : st'.nextOf (l.getLast?.getD 0) = 0) :
    st'.lists h l := by
  induction l generalizing h with
  | nil => exact absurd rfl hne
  | cons c l ih =>
    obtain ⟨rfl, hc, hl⟩ := hl
    rw [List.nodup_cons] at hd
    cases l with
    | nil => exact ⟨rfl, hc, h0⟩
    | cons d l =>
      have hx : (h :: d :: l).getLast? = (d :: l).getLast? := List.getLast?_cons_cons
      have hm : ((d :: l).getLast?).getD 0 ∈ d :: l := by
        rw [List.getLast?_eq_some_getLast (by simp)]
        exact List.getLast_mem _
      have : h ≠ ((d :: l).getLast?).getD 0 := fun e => hd.1 (e ▸ hm)
      rw [hx] at hn h0
      refine ⟨rfl, hc, ?_⟩
      rw [hn h List.mem_cons_self this]
      exact ih hl (by simp) hd.2 (fun c hc => hn c (List.mem_cons_of_mem _ hc)) h0

/-! ## What the pool law says of one bucket -/

theorem heldCount_self {b : Nat} (h : b ≠ 0) : heldCount b b = 1 := by simp [heldCount, h]

theorem heldCount_zero (b : Nat) : heldCount 0 b = 0 := by simp [heldCount]

theorem heldCount_le (f b : Nat) : heldCount f b ≤ 1 := by unfold heldCount; split <;> omega

theorem heldCount_ne {f b : Nat} (h : f ≠ b) : heldCount f b = 0 := by simp [heldCount, h]

theorem heldCount_eq_zero {f b : Nat} (hb : b ≠ 0) : heldCount f b = 0 ↔ f ≠ b := by
  unfold heldCount
  constructor
  · intro h e
    simp [e, hb] at h
  · intro h
    simp [h]

/-- Two stores with the same pointers: the next-pointer table, the free head and the free count. -/
def Store.samePointers (st' st : Store) : Prop :=
  st'.next = st.next ∧ st'.freeHead = st.freeHead ∧ st'.freeCount = st.freeCount

theorem Store.nextOf_congr {st st' : Store} (hn : st'.next = st.next) (b : Nat) : st'.nextOf b = st.nextOf b := by
  unfold Store.nextOf
  rw [hn]

namespace PoolLaw

variable {st st' : Store} {fl : List Nat} {ch : Pair (List Nat)} {ex : List Nat}

theorem head (h : st.pooledAs fl ch ex) : st.lists st.freeHead fl := h.1
theorem count (h : st.pooledAs fl ch ex) : fl.length = st.freeCount := h.2.1
theorem chainA (h : st.pooledAs fl ch ex) : st.chained .a ch.a := h.2.2.1
theorem chainB (h : st.pooledAs fl ch ex) : st.chained .b ch.b := h.2.2.2.1
theorem places (h : st.pooledAs fl ch ex) (b : Nat) : st.placesOf fl ch ex b = if 1 ≤ b ∧ b ≤ 4095 then 1 else 0 :=
  h.2.2.2.2.1 b
theorem zero (h : st.pooledAs fl ch ex) : st.nextOf 0 = 0 := h.2.2.2.2.2.1
theorem anchorA (h : st.pooledAs fl ch ex) : st.nextOf st.anchor.a = 0 := h.2.2.2.2.2.2.1
theorem anchorB (h : st.pooledAs fl ch ex) : st.nextOf st.anchor.b = 0 := h.2.2.2.2.2.2.2.1
theorem intake (h : st.pooledAs fl ch ex) : st.nextOf st.intake = 0 := h.2.2.2.2.2.2.2.2

theorem chain (h : st.pooledAs fl ch ex) (z : ZoneId) : st.chained z (ch.get z) := by
  cases z
  · exact chainA h
  · exact chainB h

theorem anchor (h : st.pooledAs fl ch ex) (z : ZoneId) : st.nextOf (st.anchor.get z) = 0 := by
  cases z
  · exact anchorA h
  · exact anchorB h

/-- A chain is a matter of the next-pointer table and the zone's own fields. -/
theorem chained_congr {z : ZoneId} {l : List Nat} (hn : st'.next = st.next) (hc : st'.chain.get z = st.chain.get z)
    (h : st.chained z l) : st'.chained z l := by
  unfold Store.chained
  rw [hc]
  exact ⟨(Store.lists_congr hn _ _).2 h.1, h.2⟩

/-- The pool law of a store that differs in the places of buckets only. -/
theorem moved {ch' : Pair (List Nat)} {ex' : List Nat} (h : st.pooledAs fl ch ex) (hs : st'.samePointers st)
    (hch : ∀ z, st'.chained z (ch'.get z)) (hp : ∀ b, st'.placesOf fl ch' ex' b = st.placesOf fl ch ex b)
    (ha : ∀ z, st.nextOf (st'.anchor.get z) = 0) (hi : st.nextOf st'.intake = 0) : st'.pooledAs fl ch' ex' := by
  obtain ⟨hn, hh, hc⟩ := hs
  refine ⟨?_, ?_, hch .a, hch .b, fun b => (hp b).trans (places h b), ?_, ?_, ?_, ?_⟩
  · rw [hh]; exact (Store.lists_congr hn _ _).2 (head h)
  · rw [hc]; exact count h
  · rw [Store.nextOf_congr hn]; exact zero h
  · rw [Store.nextOf_congr hn]; exact ha .a
  · rw [Store.nextOf_congr hn]; exact ha .b
  · rw [Store.nextOf_congr hn]; exact hi

/-- The block memory plays no part in the pool law. -/
theorem congr (h : st.pooledAs fl ch ex) (hs : st'.samePointers st) (hch : st'.chain = st.chain)
    (ha : st'.anchor = st.anchor) (hi : st'.intake = st.intake) : st'.pooledAs fl ch ex := by
  refine moved h hs (fun z => chained_congr hs.1 (by rw [hch]) (chain h z)) (fun b => ?_) (fun z => ?_) ?_
  · unfold Store.placesOf; rw [ha, hi]
  · rw [ha]; exact anchor h z
  · rw [hi]; exact intake h

/-- The loose buckets may be listed in any order. -/
theorem perm {ex' : List Nat} (h : st.pooledAs fl ch ex) (hp : ex.Perm ex') : st.pooledAs fl ch ex' := by
  refine moved h ⟨rfl, rfl, rfl⟩ (chain h) (fun b => ?_) (anchor h) (intake h)
  simp only [Store.placesOf, hp.count_eq]

/-- A loose bucket is a bucket 1..4,095 that stands nowhere else. -/
theorem loose (h : st.pooledAs fl ch ex) {b : Nat} (hb : b ∈ ex) :
    b ≠ 0 ∧ ex.count b = 1 ∧ b ∉ fl ∧ (∀ z, b ∉ ch.get z) ∧ (∀ z, st.anchor.get z ≠ b) ∧ st.intake ≠ b := by
  have hp := places h b
  have hc : 1 ≤ ex.count b := List.count_pos_iff.2 hb
  unfold Store.placesOf at hp
  have hr : 1 ≤ b ∧ b ≤ 4095 := by
    by_contra hn
    rw [if_neg hn] at hp
    omega
  rw [if_pos hr] at hp
  have hb0 : b ≠ 0 := by omega
  refine ⟨hb0, by omega, ?_, fun z => ?_, fun z => ?_, ?_⟩
  · exact List.count_eq_zero.1 (by omega)
  · cases z
    · exact (List.count_eq_zero (l := ch.a)).1 (by omega)
    · exact (List.count_eq_zero (l := ch.b)).1 (by omega)
  · cases z
    · exact (heldCount_eq_zero (f := st.anchor.a) hb0).1 (by omega)
    · exact (heldCount_eq_zero (f := st.anchor.b) hb0).1 (by omega)
  · exact (heldCount_eq_zero hb0).1 (by omega)

/-- The loose buckets are without duplicates. -/
theorem loose_nodup (h : st.pooledAs fl ch ex) : ex.Nodup :=
  List.nodup_iff_count_le_one.2 fun b => by
    by_cases hb : b ∈ ex
    · exact (loose h hb).2.1.le
    · rw [List.count_eq_zero.2 hb]
      exact Nat.zero_le 1

/-- The entry of a loose bucket may be written. -/
theorem setNext (h : st.pooledAs fl ch ex) {b : Nat} (hb : b ∈ ex) (v : Nat) : (st.setNext b v).pooledAs fl ch ex := by
  obtain ⟨h0, -, hf, hz, hx, hi⟩ := loose h hb
  have hch : ∀ z, (st.setNext b v).chained z (ch.get z) := fun z =>
    ⟨(st.lists_setNext (hz z)).2 (chain h z).1, (chain h z).2⟩
  refine ⟨(st.lists_setNext hf).2 (head h), ?_, hch .a, hch .b, fun c => ?_, ?_, ?_, ?_, ?_⟩
  · have := count h
    exact this
  · have := places h c
    exact this
  · exact (st.nextOf_setNext_ne (Ne.symm h0)).trans (zero h)
  · exact (st.nextOf_setNext_ne (hx .a)).trans (anchorA h)
  · exact (st.nextOf_setNext_ne (hx .b)).trans (anchorB h)
  · exact (st.nextOf_setNext_ne hi).trans (intake h)

/-- A loose bucket whose entry holds the free head becomes the free head. -/
theorem push {b : Nat} (h : st.pooledAs fl ch (b :: ex)) (hb : st.nextOf b = st.freeHead) (hn : st'.next = st.next)
    (hh : st'.freeHead = b) (hc : st'.freeCount = st.freeCount + 1) (hch : st'.chain = st.chain)
    (ha : st'.anchor = st.anchor) (hi : st'.intake = st.intake) : st'.pooledAs (b :: fl) ch ex := by
  have h0 := (loose h (b := b) List.mem_cons_self).1
  have hz : ∀ z, st'.chained z (ch.get z) := fun z => chained_congr hn (by rw [hch]) (chain h z)
  refine ⟨⟨hh, h0, ?_⟩, ?_, hz .a, hz .b, fun c => ?_, ?_, ?_, ?_, ?_⟩
  · rw [Store.nextOf_congr hn, hb]; exact (Store.lists_congr hn _ _).2 (head h)
  · rw [hc, List.length_cons, count h]
  · rw [← places h c]
    unfold Store.placesOf
    rw [ha, hi, List.count_cons, List.count_cons]
    omega
  · rw [Store.nextOf_congr hn]; exact zero h
  · rw [Store.nextOf_congr hn, ha]; exact anchorA h
  · rw [Store.nextOf_congr hn, ha]; exact anchorB h
  · rw [Store.nextOf_congr hn, hi]; exact intake h

/-- A loose bucket is released to the free head (R23). -/
theorem release {b : Nat} (hw : st.wf = true) (h : st.pooledAs fl ch (b :: ex)) : (st.release b).pooledAs (b :: fl) ch ex := by
  refine push (st := st.setNext b st.freeHead) (setNext h List.mem_cons_self st.freeHead) ?_ rfl rfl rfl rfl rfl rfl
  rw [Store.nextOf_setNext hw, if_pos rfl]
  rfl

/-- Loose buckets are released one at a time (R23). -/
theorem releaseAll {l : List Nat} (hw : st.wf = true) (h : st.pooledAs fl ch (l ++ ex)) :
    (st.releaseAll l).wf = true ∧ (st.releaseAll l).pooledAs (l.reverse ++ fl) ch ex := by
  induction l generalizing st fl with
  | nil => exact ⟨hw, h⟩
  | cons b l ih =>
    have := ih (st := st.release b) (fl := b :: fl) (Store.wf_setNext b st.freeHead hw) (release hw h)
    simpa [Store.releaseAll] using this

/-- The chain of a zone becomes loose, and the zone's chain is empty. -/
theorem unchain (z : ZoneId) (h : st.pooledAs fl ch ex) (hs : st'.samePointers st)
    (hch : st'.chain = st.chain.set z ⟨0, 0, 0⟩) (ha : st'.anchor = st.anchor) (hi : st'.intake = st.intake) :
    st'.pooledAs fl (ch.set z []) (ch.get z ++ ex) := by
  refine moved h hs (fun w => ?_) (fun b => ?_) (fun w => ?_) ?_
  · by_cases e : w = z
    · subst e
      rw [Pair.get_set_self]
      unfold Store.chained
      rw [hch, Pair.get_set_self]
      exact ⟨rfl, rfl, rfl⟩
    · rw [Pair.get_set_ne _ _ e]
      exact chained_congr hs.1 (by rw [hch, Pair.get_set_ne _ _ e]) (chain h w)
  · unfold Store.placesOf
    rw [ha, hi]
    cases z <;> simp only [Pair.get, Pair.set, Pair.mod, List.count_append, List.count_nil] <;> omega
  · rw [ha]; exact anchor h w
  · rw [hi]; exact intake h

/-- Loose buckets that a list joins become the chain of a zone whose chain is empty. -/
theorem rechain (z : ZoneId) {l : List Nat} (h : st.pooledAs fl (ch.set z []) (l ++ ex)) (hs : st'.samePointers st)
    (hch : ∀ w, w ≠ z → st'.chain.get w = st.chain.get w) (ha : st'.anchor = st.anchor) (hi : st'.intake = st.intake)
    (hl : st.lists (st'.chain.get z).head l) (hlen : l.length = (st'.chain.get z).length)
    (ht : (st'.chain.get z).tail = l.getLast?.getD 0) : st'.pooledAs fl (ch.set z l) ex := by
  refine moved h hs (fun w => ?_) (fun b => ?_) (fun w => ?_) ?_
  · by_cases e : w = z
    · subst e
      rw [Pair.get_set_self]
      exact ⟨(Store.lists_congr hs.1 _ _).2 hl, hlen, ht⟩
    · have := chain h w
      rw [Pair.get_set_ne _ _ e] at this ⊢
      exact chained_congr hs.1 (hch w e) this
  · unfold Store.placesOf
    rw [ha, hi]
    cases z <;> simp only [Pair.set, Pair.mod, List.count_append, List.count_nil] <;> omega
  · rw [ha]; exact anchor h w
  · rw [hi]; exact intake h

theorem heldCount_add_cons (b c : Nat) (hb : b ≠ 0) (l : List Nat) : (b :: l).count c = heldCount b c + l.count c := by
  by_cases e : b = c
  · subst e
    rw [List.count_cons_self, heldCount_self hb]
    omega
  · rw [List.count_cons_of_ne e, heldCount_ne e]
    omega

/-- The intake bucket becomes loose (R26, R27). -/
theorem unintake (h : st.pooledAs fl ch ex) (h0 : st.intake ≠ 0) (hs : st'.samePointers st) (hch : st'.chain = st.chain)
    (ha : st'.anchor = st.anchor) (hi : st'.intake = 0) : st'.pooledAs fl ch (st.intake :: ex) := by
  refine moved h hs (fun z => chained_congr hs.1 (by rw [hch]) (chain h z)) (fun b => ?_) (fun z => ?_) ?_
  · unfold Store.placesOf
    rw [ha, hi, heldCount_zero, heldCount_add_cons _ _ h0]
    omega
  · rw [ha]; exact anchor h z
  · rw [hi]; exact zero h

/-- The anchor of a zone becomes loose (R25). -/
theorem unanchor (z : ZoneId) (h : st.pooledAs fl ch ex) (h0 : st.anchor.get z ≠ 0) (hs : st'.samePointers st)
    (hch : st'.chain = st.chain) (ha : st'.anchor = st.anchor.set z 0) (hi : st'.intake = st.intake) :
    st'.pooledAs fl ch (st.anchor.get z :: ex) := by
  refine moved h hs (fun w => chained_congr hs.1 (by rw [hch]) (chain h w)) (fun b => ?_) (fun w => ?_) ?_
  · unfold Store.placesOf
    rw [ha, hi, heldCount_add_cons _ _ h0]
    cases z <;> simp only [Pair.get, Pair.set, Pair.mod, heldCount_zero] <;> omega
  · rw [ha]
    by_cases e : w = z
    · rw [e, Pair.get_set_self]; exact zero h
    · rw [Pair.get_set_ne _ _ e]; exact anchor h w
  · rw [hi]; exact intake h

/-- A loose bucket whose entry is 0 becomes the anchor of a zone that holds none (R29). -/
theorem reanchor (z : ZoneId) {b : Nat} (h : st.pooledAs fl ch (b :: ex)) (h0 : st.anchor.get z = 0) (hb : st.nextOf b = 0)
    (hs : st'.samePointers st) (hch : st'.chain = st.chain) (ha : st'.anchor = st.anchor.set z b)
    (hi : st'.intake = st.intake) : st'.pooledAs fl ch ex := by
  have hb0 := (loose h (b := b) List.mem_cons_self).1
  refine moved h hs (fun w => chained_congr hs.1 (by rw [hch]) (chain h w)) (fun c => ?_) (fun w => ?_) ?_
  · unfold Store.placesOf
    rw [ha, hi, heldCount_add_cons _ _ hb0]
    cases z <;> simp only [Pair.get, Pair.set, Pair.mod] at h0 ⊢ <;> rw [h0, heldCount_zero] <;> omega
  · rw [ha]
    by_cases e : w = z
    · rw [e, Pair.get_set_self]; exact hb
    · rw [Pair.get_set_ne _ _ e]; exact anchor h w
  · rw [hi]; exact intake h

/-- A loose bucket whose entry is 0 becomes the intake bucket when none is held (R26). -/
theorem reintake {b : Nat} (h : st.pooledAs fl ch (b :: ex)) (h0 : st.intake = 0) (hb : st.nextOf b = 0)
    (hs : st'.samePointers st) (hch : st'.chain = st.chain) (ha : st'.anchor = st.anchor) (hi : st'.intake = b) :
    st'.pooledAs fl ch ex := by
  have hb0 := (loose h (b := b) List.mem_cons_self).1
  refine moved h hs (fun w => chained_congr hs.1 (by rw [hch]) (chain h w)) (fun c => ?_) (fun w => ?_) ?_
  · unfold Store.placesOf
    rw [ha, hi, heldCount_add_cons _ _ hb0, h0, heldCount_zero]
    omega
  · rw [ha]; exact anchor h w
  · rw [hi]; exact hb

/-- The free head becomes loose (R23). -/
theorem take {b : Nat} (h : st.pooledAs (b :: fl) ch ex) (hn : st'.next = st.next) (hh : st'.freeHead = st.nextOf b)
    (hc : st'.freeCount = st.freeCount - 1) (hch : st'.chain = st.chain) (ha : st'.anchor = st.anchor)
    (hi : st'.intake = st.intake) : st'.pooledAs fl ch (b :: ex) := by
  obtain ⟨-, h0, hl⟩ := head h
  have hz : ∀ z, st'.chained z (ch.get z) := fun z => chained_congr hn (by rw [hch]) (chain h z)
  refine ⟨?_, ?_, hz .a, hz .b, fun c => ?_, ?_, ?_, ?_, ?_⟩
  · rw [hh]; exact (Store.lists_congr hn _ _).2 hl
  · have := count h
    rw [List.length_cons] at this
    omega
  · rw [← places h c]
    unfold Store.placesOf
    rw [ha, hi, List.count_cons, List.count_cons]
    omega
  · rw [Store.nextOf_congr hn]; exact zero h
  · rw [Store.nextOf_congr hn, ha]; exact anchorA h
  · rw [Store.nextOf_congr hn, ha]; exact anchorB h
  · rw [Store.nextOf_congr hn, hi]; exact intake h

end PoolLaw

/-! ## Sound stores -/

/-- The entries of released buckets alone are changed by releasing them. -/
theorem Store.nextOf_releaseAll (st : Store) {l : List Nat} {c : Nat} (hc : c ∉ l) : (st.releaseAll l).nextOf c = st.nextOf c := by
  induction l generalizing st with
  | nil => rfl
  | cons b l ih =>
    simp only [List.mem_cons, not_or] at hc
    have := ih (st.release b) hc.2
    simp only [Store.releaseAll, List.foldl_cons] at this ⊢
    rw [this]
    exact st.nextOf_setNext_ne hc.1

/-- Releasing buckets leaves a list of other buckets. -/
theorem Store.lists_releaseAll (st : Store) {l r : List Nat} {h : Nat} (hd : ∀ b ∈ r, b ∉ l) :
    (st.releaseAll l).lists h r ↔ st.lists h r := by
  induction r generalizing h with
  | nil => exact Iff.rfl
  | cons c r ih =>
    simp only [Store.lists, st.nextOf_releaseAll (hd c List.mem_cons_self), ih fun b hb => hd b (List.mem_cons_of_mem _ hb)]

theorem Store.releaseAll_fields (st : Store) (l : List Nat) :
    (st.releaseAll l).chain = st.chain ∧ (st.releaseAll l).anchor = st.anchor ∧ (st.releaseAll l).intake = st.intake ∧
      (st.releaseAll l).mem = st.mem := by
  induction l generalizing st with
  | nil => exact ⟨rfl, rfl, rfl, rfl⟩
  | cons b l ih => exact ih (st.release b)

/-- Releasing does not read the chains. -/
theorem Store.releaseAll_chain (st : Store) (l : List Nat) (c : Pair Chain) :
    ({ st with chain := c } : Store).releaseAll l = { st.releaseAll l with chain := c } := by
  induction l generalizing st with
  | nil => rfl
  | cons b l ih => exact ih (st.release b)

/-- The chain of a zone is the list the pool law names. -/
theorem Store.chainOf_eq {st : Store} {z : ZoneId} {l : List Nat} (h : st.chained z l) : st.chainOf z = l := by
  unfold Store.chainOf
  rw [← h.2.1]
  exact Store.walk_lists h.1

/-- Writing the block memory keeps the store sound. -/
theorem Store.sound_setBucket {st : Store} (b : Nat) (v : Bucket) (h : st.sound) : (st.setBucket b v).sound := by
  obtain ⟨hw, ⟨fl, ch, hp⟩, ha⟩ := h
  exact ⟨Store.wf_setBucket b v hw, ⟨fl, ch, PoolLaw.congr hp ⟨rfl, rfl, rfl⟩ rfl rfl rfl⟩, ha⟩

theorem Store.sound_modInfo {st : Store} (b : Nat) (f : BlockRec → BlockRec) (h : st.sound) : (st.modInfo b f).sound :=
  Store.sound_setBucket b _ h

/-- Losing the block memory at parking keeps the store sound (R19). -/
theorem Store.sound_forget {st : Store} (h : st.sound) : ({ st with mem := [] } : Store).sound := by
  obtain ⟨hw, ⟨fl, ch, hp⟩, ha⟩ := h
  refine ⟨?_, ⟨fl, ch, PoolLaw.congr hp ⟨rfl, rfl, rfl⟩ rfl rfl rfl⟩, ha⟩
  simp only [Store.wf, Bool.and_eq_true] at hw ⊢
  exact ⟨hw.1, rfl⟩

/-- Discard keeps the store sound (R26). -/
theorem Store.sound_discard {st : Store} (h : st.sound) : st.discard.sound := by
  obtain ⟨hw, ⟨fl, ch, hp⟩, ha⟩ := h
  unfold Store.discard
  split
  · exact ⟨hw, ⟨fl, ch, hp⟩, ha⟩
  · rename_i hi
    have h1 : ({ st with intake := 0 } : Store).pooledAs fl ch [st.intake] :=
      PoolLaw.unintake hp hi ⟨rfl, rfl, rfl⟩ rfl rfl rfl
    exact ⟨Store.wf_setNext _ _ hw, ⟨_, ch, PoolLaw.release (st := { st with intake := 0 }) hw h1⟩, ha⟩

/-- Releasing the anchor of zone `z` keeps the pool law, and the store is then sound if the other zone's anchor stands
beside an empty chain (R25). -/
theorem Store.sound_releaseAnchor {st : Store} (z : ZoneId) (hw : st.wf = true) {fl : List Nat} {ch : Pair (List Nat)}
    (hp : st.pooledAs fl ch []) (ha : ∀ w, w ≠ z → (st.chain.get w).length ≠ 0 → st.anchor.get w = 0) :
    (st.releaseAnchor z).sound := by
  unfold Store.releaseAnchor
  split
  · refine ⟨hw, ⟨fl, ch, hp⟩, fun w hl => ?_⟩
    by_cases e : w = z
    · rw [e]; assumption
    · exact ha w e hl
  · rename_i hi
    have h1 : ({ st with anchor := st.anchor.set z 0 } : Store).pooledAs fl ch [st.anchor.get z] :=
      PoolLaw.unanchor z hp hi ⟨rfl, rfl, rfl⟩ rfl rfl rfl
    refine ⟨Store.wf_setNext _ _ hw, ⟨_, ch, PoolLaw.release (st := { st with anchor := st.anchor.set z 0 }) hw h1⟩,
      fun w hl => ?_⟩
    by_cases e : w = z
    · rw [e]
      exact Pair.get_set_self _ _ _
    · exact (Pair.get_set_ne _ _ e).trans (ha w e hl)

/-- Allocate keeps the store sound (R26). -/
theorem Store.sound_allocate {st st' : Store} (h : st.sound) (he : st.allocate = some st') : st'.sound := by
  obtain ⟨hw, ⟨fl, ch, hp⟩, ha⟩ := h
  unfold Store.allocate at he
  split at he
  · cases he
  · rename_i hn
    push Not at hn
    obtain ⟨h1, h2, h3⟩ := hn
    cases he
    cases fl with
    | nil => exact absurd (PoolLaw.head hp) h2
    | cons b fl =>
      obtain ⟨hb, -, -⟩ := PoolLaw.head hp
      subst hb
      have hq : ({ st with freeHead := st.nextOf st.freeHead, freeCount := st.freeCount - 1 } : Store).pooledAs fl ch
          [st.freeHead] := PoolLaw.take hp rfl rfl rfl rfl rfl rfl
      have hs := PoolLaw.setNext hq List.mem_cons_self 0
      refine ⟨Store.wf_setNext _ _ hw, ⟨fl, ch, PoolLaw.reintake hs h1 ?_ ⟨rfl, rfl, rfl⟩ rfl rfl rfl⟩, ha⟩
      rw [Store.nextOf_setNext (st := { st with freeHead := st.nextOf st.freeHead, freeCount := st.freeCount - 1 }) hw,
        if_pos rfl]

theorem Pair.set_set {α : Type} (p : Pair α) (z : ZoneId) (v w : α) : (p.set z v).set z w = p.set z w := by cases z <;> rfl

/-- Linking the intake bucket at the tail of a zone: the pool law, with the zone's chain grown by one (R27). -/
theorem Store.pooled_link {st : Store} (z : ZoneId) (hw : st.wf = true) {fl : List Nat} {ch : Pair (List Nat)}
    (hp : st.pooledAs fl ch []) (hi : st.intake ≠ 0) :
    (st.link z).wf = true ∧ (st.link z).pooledAs fl (ch.set z (ch.get z ++ [st.intake])) [] := by
  have hc := PoolLaw.chain hp z
  have h0 : ({ st with intake := 0 } : Store).pooledAs fl ch [st.intake] :=
    PoolLaw.unintake hp hi ⟨rfl, rfl, rfl⟩ rfl rfl rfl
  have h1 : ({ st with intake := 0, chain := st.chain.set z ⟨0, 0, 0⟩ } : Store).pooledAs fl (ch.set z [])
      (ch.get z ++ [st.intake]) := PoolLaw.unchain z h0 ⟨rfl, rfl, rfl⟩ rfl rfl rfl
  have hb := (PoolLaw.loose h1 (b := st.intake) (by simp)).1
  have hd := PoolLaw.loose_nodup h1
  unfold Store.link
  by_cases hz : (st.chain.get z).length = 0
  · simp only [hz, if_true]
    have hnil : ch.get z = [] := List.length_eq_zero_iff.1 (hc.2.1.trans hz)
    rw [hnil] at h1 ⊢
    have h2 : ({ st with intake := 0, chain := st.chain.set z ⟨0, 0, 0⟩ } : Store).pooledAs fl (ch.set z [])
        ([st.intake] ++ []) := h1
    refine ⟨hw, PoolLaw.rechain z h2 ⟨rfl, rfl, rfl⟩ (fun w hne => ?_) rfl rfl ?_ ?_ ?_⟩
    · exact (Pair.get_set_ne _ _ hne).trans (Pair.get_set_ne _ _ hne).symm
    · simp only [Pair.get_set_self]
      exact ⟨rfl, hb, PoolLaw.intake hp⟩
    · simp
    · simp
  · simp only [hz, if_false]
    have hne : ch.get z ≠ [] := fun e => hz (by rw [← hc.2.1, e]; rfl)
    have htail : (st.chain.get z).tail = (ch.get z).getLast?.getD 0 := hc.2.2
    have hmem : (st.chain.get z).tail ∈ ch.get z ++ [st.intake] := by
      rw [htail, List.getLast?_eq_some_getLast hne]
      exact List.mem_append_left _ (List.getLast_mem hne)
    have h2 := PoolLaw.setNext h1 hmem st.intake
    rw [← List.append_nil (ch.get z ++ [st.intake])] at h2
    refine ⟨Store.wf_setNext _ _ hw, PoolLaw.rechain z h2 ⟨rfl, rfl, rfl⟩ (fun w hn => ?_) rfl
      rfl ?_ ?_ ?_⟩
    · exact (Pair.get_set_ne _ _ hn).trans (Pair.get_set_ne _ _ hn).symm
    · simp only [Pair.get_set_self]
      rw [htail]
      refine (Store.lists_congr (by rfl) _ _).2 ?_
      exact Store.lists_snoc (st := { st with intake := 0, chain := st.chain.set z ⟨0, 0, 0⟩ }) hw
        ((Store.lists_congr (by rfl) _ _).2 hc.1) hne hb (PoolLaw.intake hp) hd
    · simp only [Pair.get_set_self, List.length_append, hc.2.1, List.length_singleton]
    · simp

theorem Store.link_fields (st : Store) (z : ZoneId) :
    (st.link z).anchor = st.anchor ∧ ∀ w, w ≠ z → (st.link z).chain.get w = st.chain.get w := by
  unfold Store.link
  by_cases h : (st.chain.get z).length = 0
  · simp only [h, if_true]
    exact ⟨trivial, fun w hw => Pair.get_set_ne _ _ hw⟩
  · simp only [h, if_false]
    exact ⟨rfl, fun w hw => Pair.get_set_ne _ _ hw⟩

/-- Append keeps the store sound (R27). -/
theorem Store.sound_append {st : Store} (z : ZoneId) (e : Nat) (h : st.sound) : (st.append z e).sound := by
  unfold Store.append
  split
  · exact h
  · rename_i hi
    obtain ⟨hw, ⟨fl, ch, hp⟩, ha⟩ := Store.sound_modInfo st.intake
      (fun r => { r with expected := some e, confirmed := decide (r.stampStatus = .good) }) h
    obtain ⟨hlw, hlp⟩ := Store.pooled_link z hw hp hi
    refine Store.sound_releaseAnchor z hlw hlp fun w hne hl => ?_
    obtain ⟨f1, f2⟩ := Store.link_fields (st.modInfo st.intake fun r =>
      { r with expected := some e, confirmed := decide (r.stampStatus = .good) }) z
    rw [f1]
    rw [f2 w hne] at hl
    exact ha w hl

/-- Hear keeps the store sound (R29). -/
theorem Store.sound_hear {st : Store} (z : ZoneId) (keep : Bool) (h : st.sound) : (st.hear z keep).sound := by
  obtain ⟨hw, ⟨fl, ch, hp⟩, ha⟩ := h
  unfold Store.hear
  have hc := PoolLaw.chain hp z
  have h1 : ({ st with chain := st.chain.set z ⟨0, 0, 0⟩ } : Store).pooledAs fl (ch.set z []) (ch.get z ++ []) :=
    PoolLaw.unchain z hp ⟨rfl, rfl, rfl⟩ rfl rfl rfl
  by_cases h0 : (st.chain.get z).length = 0
  · simp only [h0, if_true]
    exact ⟨hw, ⟨fl, ch, hp⟩, ha⟩
  · simp only [h0, if_false]
    obtain ⟨c, l, hl⟩ : ∃ c l, ch.get z = c :: l := by
      cases e : ch.get z with
      | nil => rw [e] at hc; exact absurd hc.2.1.symm h0
      | cons c l => exact ⟨c, l, rfl⟩
    rw [hl] at hc h1
    obtain ⟨⟨hhead, hc0, hlist⟩, hlen, htail⟩ := hc
    simp only [List.length_cons] at hlen
    have hcl : c ∉ l := by
      have := PoolLaw.loose_nodup h1
      rw [List.append_nil, List.nodup_cons] at this
      exact this.1
    have hz : st.anchor.get z = 0 := ha z h0
    rw [hhead]
    split
    · rename_i hk
      have hnil : l = [] := List.length_eq_zero_iff.1 (by omega)
      subst hnil
      have h2 := PoolLaw.setNext h1 (b := c) (by simp) 0
      rw [List.singleton_append] at h2
      refine ⟨Store.wf_setNext _ _ hw, ⟨fl, ch.set z [], PoolLaw.reanchor z h2 hz ?_ ⟨rfl, rfl, rfl⟩
        ?_ rfl rfl⟩, ?_⟩
      · rw [Store.nextOf_setNext (st := { st with chain := st.chain.set z ⟨0, 0, 0⟩ }) hw, if_pos rfl]
      · rw [if_pos hk.1]
      · intro w hlw
        rw [if_pos hk.1] at hlw
        by_cases e : w = z
        · rw [e] at hlw
          refine absurd ?_ hlw
          show ((st.chain.set z ⟨0, 0, 0⟩).get z).length = 0
          rw [Pair.get_set_self]
        · show (st.anchor.set z c).get w = 0
          rw [Pair.get_set_ne _ _ e]
          refine ha w fun e0 => hlw ?_
          show ((st.chain.set z ⟨0, 0, 0⟩).get w).length = 0
          rw [Pair.get_set_ne _ _ e, e0]
    · have h2 := PoolLaw.release (st := { st with chain := st.chain.set z ⟨0, 0, 0⟩ }) hw (by simpa using h1)
      have hw2 : ∀ st' : Store, st'.next = st.next → st'.freeHead = st.freeHead → st'.mem = st.mem → (st'.release c).wf = true := by
        intro st' e1 e2 e3
        refine Store.wf_setNext _ _ ?_
        unfold Store.wf
        rw [e1, e3]
        exact hw
      have hanch : ∀ st' : Store, (∀ w, w ≠ z → st'.chain.get w = st.chain.get w) → st'.anchor = st.anchor → st'.anchored := by
        intro st' e1 e2 w hlw
        rw [e2]
        by_cases e : w = z
        · rw [e]; exact hz
        · exact ha w (by rwa [e1 w e] at hlw)
      split
      · rename_i hone
        have hnil : l = [] := List.length_eq_zero_iff.1 (by omega)
        subst hnil
        exact ⟨hw2 _ rfl rfl rfl, ⟨c :: fl, ch.set z [], h2⟩, hanch _ (fun w e => Pair.get_set_ne _ _ e) rfl⟩
      · rename_i hone
        have hne : l ≠ [] := fun e => by subst e; simp at hlen; omega
        refine ⟨hw2 _ rfl rfl rfl, ⟨c :: fl, ch.set z l, ?_⟩, hanch _ (fun w e => Pair.get_set_ne _ _ e) rfl⟩
        rw [← List.append_nil l] at h2
        refine PoolLaw.rechain z h2 ⟨rfl, rfl, rfl⟩ (fun w hn => ?_) rfl rfl ?_ ?_ ?_
        · exact (Pair.get_set_ne _ _ hn).trans (Pair.get_set_ne _ _ hn).symm
        · show Store.lists _ ((st.chain.set z _).get z).head l
          rw [Pair.get_set_self]
          refine (Store.lists_congr (st := ({ st with chain := st.chain.set z ⟨0, 0, 0⟩ } : Store).setNext c st.freeHead) (by rfl)
            _ _).2 ?_
          exact (Store.lists_setNext (st := { st with chain := st.chain.set z ⟨0, 0, 0⟩ }) (b := c) (v := st.freeHead) hcl).2
            ((Store.lists_congr (by rfl) _ _).2 hlist)
        · show l.length = ((st.chain.set z _).get z).length
          rw [Pair.get_set_self]
          show l.length = (st.chain.get z).length - 1
          omega
        · show ((st.chain.set z _).get z).tail = _
          rw [Pair.get_set_self]
          show (st.chain.get z).tail = _
          rw [htail]
          cases l with
          | nil => exact absurd rfl hne
          | cons d l => rw [List.getLast?_cons_cons]

/-- Cut keeps the store sound (R30). -/
theorem Store.sound_cut {st : Store} (z : ZoneId) (p : Nat) (h : st.sound) : (st.cut z p).sound := by
  obtain ⟨hw, ⟨fl, ch, hp⟩, ha⟩ := h
  unfold Store.cut
  have hc := PoolLaw.chain hp z
  have h1 : ({ st with chain := st.chain.set z ⟨0, 0, 0⟩ } : Store).pooledAs fl (ch.set z []) (ch.get z ++ []) :=
    PoolLaw.unchain z hp ⟨rfl, rfl, rfl⟩ rfl rfl rfl
  have hd := PoolLaw.loose_nodup h1
  rw [List.append_nil] at h1 hd
  by_cases h0 : p = 0 ∨ (st.chain.get z).length ≤ p
  · simp only [h0, if_true]
    exact ⟨hw, ⟨fl, ch, hp⟩, ha⟩
  · simp only [h0, if_false]
    push Not at h0
    rw [Store.chainOf_eq hc]
    obtain ⟨hlist, hlen, -⟩ := hc
    obtain ⟨l, hl⟩ : ∃ l, ch.get z = l := ⟨_, rfl⟩
    rw [hl] at h1 hd hlist hlen ⊢
    have hsplit : l.take p ++ l.drop p = l := List.take_append_drop p l
    have htl : (l.take p).length = p := by rw [List.length_take]; omega
    have hne : l.take p ≠ [] := fun e => by rw [e] at htl; simp at htl; omega
    rw [← hsplit, List.nodup_append] at hd
    have hlast : l.getD (p - 1) 0 = (l.take p).getLast?.getD 0 := by
      rw [List.getD_eq_getElem?_getD, List.getLast?_eq_getElem?, List.getElem?_take, htl, if_pos (by omega)]
    have hmem : l.getD (p - 1) 0 ∈ l.take p := by
      rw [hlast, List.getLast?_eq_some_getLast hne]
      exact List.getLast_mem hne
    have h2 := PoolLaw.perm h1 (ex' := l.drop p ++ l.take p) (by
      conv_lhs => rw [← hsplit]
      exact List.perm_append_comm)
    obtain ⟨hw3, h3⟩ := PoolLaw.releaseAll (st := { st with chain := st.chain.set z ⟨0, 0, 0⟩ }) hw h2
    have hw4 : (st.releaseAll (l.drop p)).wf = true := by
      rw [Store.releaseAll_chain] at hw3
      exact hw3
    rw [Store.releaseAll_chain] at h3
    have h4 := PoolLaw.setNext h3 hmem 0
    rw [← List.append_nil (l.take p)] at h4
    obtain ⟨e1, e2, e3, -⟩ := st.releaseAll_fields (l.drop p)
    refine ⟨Store.wf_setNext _ _ hw4, ⟨_, ch.set z (l.take p), PoolLaw.rechain z h4 ⟨rfl, rfl, rfl⟩ (fun w hn => ?_) rfl rfl
      ?_ ?_ ?_⟩, fun w hlw => ?_⟩
    · refine (Pair.get_set_ne _ _ hn).trans ?_
      show (st.releaseAll (l.drop p)).chain.get w = (st.chain.set z _).get w
      rw [e1, Pair.get_set_ne _ _ hn]
    · simp only [Pair.get_set_self]
      refine (Store.lists_congr (st := (st.releaseAll (l.drop p)).setNext (l.getD (p - 1) 0) 0) (by rfl) _ _).2 ?_
      rw [hlast]
      refine Store.lists_take (r := l.drop p) (by rwa [hsplit]) hne hd.1 (fun c hc hcl => ?_) ?_
      · rw [Store.nextOf_setNext_ne _ hcl, st.nextOf_releaseAll fun hb => hd.2.2 c hc c hb rfl]
      · rw [Store.nextOf_setNext hw4, if_pos rfl]
    · simp only [Pair.get_set_self, htl]
    · simp only [Pair.get_set_self, hlast]
    · show (st.releaseAll (l.drop p)).anchor.get w = 0
      rw [e2]
      by_cases e : w = z
      · rw [e]
        exact ha z (by omega)
      · refine ha w fun e0 => hlw ?_
        show ((Pair.set (st.releaseAll (l.drop p)).chain z _).get w).length = 0
        rw [Pair.get_set_ne _ _ e, e1, e0]

/-- Flush keeps the store sound (R31). -/
theorem Store.sound_flush {st : Store} (z : ZoneId) (h : st.sound) : (st.flush z).sound := by
  obtain ⟨hw, ⟨fl, ch, hp⟩, ha⟩ := h
  unfold Store.flush
  have h1 : ({ st with chain := st.chain.set z ⟨0, 0, 0⟩ } : Store).pooledAs fl (ch.set z []) (ch.get z ++ []) :=
    PoolLaw.unchain z hp ⟨rfl, rfl, rfl⟩ rfl rfl rfl
  obtain ⟨hw2, h2⟩ := PoolLaw.releaseAll (st := { st with chain := st.chain.set z ⟨0, 0, 0⟩ }) hw h1
  rw [Store.releaseAll_chain] at hw2 h2
  rw [Store.chainOf_eq (PoolLaw.chain hp z)]
  obtain ⟨e1, e2, -⟩ := st.releaseAll_fields (ch.get z)
  dsimp only
  rw [e1]
  refine Store.sound_releaseAnchor z hw2 h2 fun w hn hl => ?_
  show (st.releaseAll (ch.get z)).anchor.get w = 0
  rw [e2]
  refine ha w fun e0 => hl ?_
  show ((st.chain.set z ⟨0, 0, 0⟩).get w).length = 0
  rw [Pair.get_set_ne _ _ hn, e0]

/-- The return of every bucket keeps the store sound (R34). -/
theorem Store.sound_returnAll {st : Store} (h : st.sound) : st.returnAll.sound :=
  Store.sound_flush .b (Store.sound_flush .a (Store.sound_discard h))

/-- The free list of a cold start, from bucket `n` on (R23). -/
theorem Store.lists_cold_from (n k : Nat) (h1 : 1 ≤ n) (h : n + k = 4096) :
    Store.cold.lists (if k = 0 then 0 else n) (List.range' n k) := by
  induction k generalizing n with
  | zero => rfl
  | succ k ih =>
    rw [List.range'_succ]
    refine ⟨rfl, by omega, ?_⟩
    have hn : Store.cold.nextOf n = if k = 0 then 0 else n + 1 := by
      show nextDefault n = _
      unfold nextDefault
      split <;> split <;> omega
    rw [hn]
    exact ih (n + 1) (by omega) (by omega)

/-- The store after a cold start is sound (R22, R23, R34). -/
theorem Store.sound_cold : Store.cold.sound := by
  refine ⟨by decide, ⟨List.range' 1 4095, ⟨[], []⟩, ?_⟩, fun z hz => ?_⟩
  · refine ⟨Store.lists_cold_from 1 4095 (by omega) (by omega), List.length_range', ⟨rfl, rfl, rfl⟩, ⟨rfl, rfl, rfl⟩, fun b => ?_,
      rfl, rfl, rfl, rfl⟩
    have : (List.range' 1 4095).count b = if 1 ≤ b ∧ b ≤ 4095 then 1 else 0 := by
      split
      · exact List.count_eq_one_of_mem List.nodup_range' (by rw [List.mem_range']; exact ⟨b - 1, by omega, by omega⟩)
      · rw [List.count_eq_zero, List.mem_range']
        rintro ⟨i, hi, rfl⟩
        omega
    unfold Store.placesOf
    rw [this]
    simp [Store.cold, Pair.both, heldCount]
  · cases z <;> rfl

end Sys2Proof.Machine
end

