-- ==== Sys2Proof/Laws/Calm.lean ====
section
/-! SUPPORT. What the operations below a command can do to the state as a whole. `Calm s t` says once what nearly every operation
leaves alone and which laws it keeps; each operation has one lemma, in a form that chains through a
composition: `h.op` is the law of an operation done after `h`. -/

set_option Elab.async false

namespace Sys2Proof.Machine

/-- From `s` to `t` the pins, the straps, the parameters, the queue of commands, the selections, the rotation table, the
gains, the power state and the pending request with its reply have not changed, and the laws of the bucket pool, the Control
Link, the defect lists, the drive command bus and the disc records are kept. -/
structure Calm (s t : State) : Prop where
  pins     : t.pins = s.pins
  straps   : t.straps = s.straps
  params   : t.params = s.params
  pending  : t.pending = s.pending
  selected : ∀ z, (t.zone z).selected = (s.zone z).selected
  rotation : t.da.rotation = s.da.rotation
  gain     : ∀ z d, t.gain z d = s.gain z d
  power    : t.pc.state = s.pc.state
  asked    : t.cl.asked = s.cl.asked
  sound    : s.bs.sound → t.bs.sound
  bounded  : s.cl.bounded → t.cl.bounded
  lawful   : s.dd.lawful → t.dd.lawful
  kept     : s.da.kept → t.da.kept
  ranked   : s.dd.ranked → t.dd.ranked

namespace Calm

theorem refl (s : State) : Calm s s :=
  ⟨rfl, rfl, rfl, rfl, fun _ => rfl, rfl, fun _ _ => rfl, rfl, rfl, id, id, id, id, id⟩

theorem trans {s t u : State} (h : Calm s t) (k : Calm t u) : Calm s u :=
  ⟨k.pins.trans h.pins, k.straps.trans h.straps, k.params.trans h.params, k.pending.trans h.pending,
    fun z => (k.selected z).trans (h.selected z), k.rotation.trans h.rotation,
    fun z d => (k.gain z d).trans (h.gain z d), k.power.trans h.power, k.asked.trans h.asked,
    fun x => k.sound (h.sound x), fun x => k.bounded (h.bounded x), fun x => k.lawful (h.lawful x),
    fun x => k.kept (h.kept x), fun x => k.ranked (h.ranked x)⟩

variable {s t : State} {z : ZoneId}

/-! ## The change functions -/

theorem modBs {f : Store → Store} (h : Calm s t) (hf : t.bs.sound → (f t.bs).sound) : Calm s (t.modBs f) :=
  h.trans ⟨rfl, rfl, rfl, rfl, fun _ => rfl, rfl, fun _ _ => rfl, rfl, rfl, hf, id, id, id, id⟩

theorem modBi {f : Intake → Intake} (h : Calm s t) : Calm s (t.modBi f) :=
  h.trans ⟨rfl, rfl, rfl, rfl, fun _ => rfl, rfl, fun _ _ => rfl, rfl, rfl, id, id, id, id, id⟩

theorem modZone {f : Zone → Zone} (h : Calm s t) (hf : ∀ r, (f r).selected = r.selected := by exact fun _ => rfl) :
    Calm s (t.modZone z f) :=
  h.trans ⟨rfl, rfl, rfl, rfl, fun w => by
    cases z <;> cases w <;> first | rfl | exact hf _, rfl, fun _ _ => rfl, rfl, rfl, id, id, id, id, id⟩

/-- A change of DA that keeps the rotation table and the law of the drive command bus. -/
theorem modDa {f : Drive → Drive} (h : Calm s t)
    (hf : (f t.da).rotation = t.da.rotation ∧ (t.da.kept → (f t.da).kept) := by exact ⟨rfl, id⟩) : Calm s (t.modDa f) :=
  h.trans ⟨rfl, rfl, rfl, rfl, fun _ => rfl, hf.1, fun _ _ => rfl, rfl, rfl, id, id, id, hf.2, id⟩

/-- A change of DA to another drive state than HELD and FAULT. -/
theorem moveDa {f : Drive → Drive} (h : Calm s t)
    (hf : (f t.da).rotation = t.da.rotation ∧ (f t.da).rotPtr = t.da.rotPtr ∧ (f t.da).state ≠ .held ∧
      (f t.da).state ≠ .fault := by exact ⟨rfl, rfl, nofun, nofun⟩) : Calm s (t.modDa f) :=
  h.modDa ⟨hf.1, fun hk => ⟨fun e => (e.elim hf.2.2.1 hf.2.2.2).elim, hf.1 ▸ hk.2.1, hf.2.1 ▸ hk.2.2⟩⟩

/-- A change of DA that leaves no command outstanding. -/
theorem freeDa {f : Drive → Drive} (h : Calm s t)
    (hf : (f t.da).rotation = t.da.rotation ∧ (f t.da).rotPtr = t.da.rotPtr ∧ (f t.da).out = none := by
      exact ⟨rfl, rfl, rfl⟩) : Calm s (t.modDa f) :=
  h.modDa ⟨hf.1, fun hk => ⟨fun _ => hf.2.2, hf.1 ▸ hk.2.1, hf.2.1 ▸ hk.2.2⟩⟩

theorem modLu {f : LinkUp → LinkUp} (h : Calm s t) : Calm s (t.modLu f) :=
  h.trans ⟨rfl, rfl, rfl, rfl, fun _ => rfl, rfl, fun _ _ => rfl, rfl, rfl, id, id, id, id, id⟩

theorem setCtx {c : Option LinkCtx} (h : Calm s t) : Calm s (t.setCtx z c) := h.modLu

theorem modAudit {f : Audit → Audit} (h : Calm s t) : Calm s (t.modAudit z f) := h.modLu

theorem modSm {f : Shock → Shock} (h : Calm s t) : Calm s (t.modSm f) :=
  h.trans ⟨rfl, rfl, rfl, rfl, fun _ => rfl, rfl, fun _ _ => rfl, rfl, rfl, id, id, id, id, id⟩

theorem modRu {f : Reread → Reread} (h : Calm s t) : Calm s (t.modRu f) :=
  h.trans ⟨rfl, rfl, rfl, rfl, fun _ => rfl, rfl, fun _ _ => rfl, rfl, rfl, id, id, id, id, id⟩

theorem modList {f : List Entry → List Entry} (h : Calm s t) : Calm s (t.modList z f) := h.modRu

theorem modOc {f : Concealer → Concealer} (h : Calm s t)
    (hf : ∀ c, (f c).left.gain = c.left.gain ∧ (f c).right.gain = c.right.gain := by exact fun _ => ⟨rfl, rfl⟩) :
    Calm s (t.modOc z f) :=
  h.trans ⟨rfl, rfl, rfl, rfl, fun _ => rfl, rfl, fun w d => by
    cases z <;> cases w <;> cases d <;> first | rfl | exact (hf _).1 | exact (hf _).2, rfl, rfl, id, id, id, id, id⟩

theorem modDd {f : Directory → Directory} (h : Calm s t)
    (hf : (t.dd.lawful → (f t.dd).lawful) ∧ (t.dd.ranked → (f t.dd).ranked) := by exact ⟨id, id⟩) : Calm s (t.modDd f) :=
  h.trans ⟨rfl, rfl, rfl, rfl, fun _ => rfl, rfl, fun _ _ => rfl, rfl, rfl, id, id, hf.1, id, hf.2⟩

theorem modLm {f : Loader → Loader} (h : Calm s t) : Calm s (t.modLm f) :=
  h.trans ⟨rfl, rfl, rfl, rfl, fun _ => rfl, rfl, fun _ _ => rfl, rfl, rfl, id, id, id, id, id⟩

theorem modPc {f : Power → Power} (h : Calm s t) (hf : (f t.pc).state = t.pc.state := by rfl) : Calm s (t.modPc f) :=
  h.trans ⟨rfl, rfl, rfl, rfl, fun _ => rfl, rfl, fun _ _ => rfl, hf, rfl, id, id, id, id, id⟩

theorem useFree {n : Nat} (h : Calm s t) : Calm s { t with free := n } :=
  h.trans ⟨rfl, rfl, rfl, rfl, fun _ => rfl, rfl, fun _ _ => rfl, rfl, rfl, id, id, id, id, id⟩

/-! ## Notices -/

theorem notice {k : Byte} {b : List Byte} (h : Calm s t) : Calm s (t.notice k b) :=
  h.trans ⟨rfl, rfl, rfl, rfl, fun _ => rfl, rfl, fun _ _ => rfl, rfl, Link.asked_notice _ _, id,
    Link.bounded_notice _, id, id, id⟩

theorem zoneNotice {c : ZoneCause} (h : Calm s t) : Calm s (t.zoneNotice z c) := h.notice
theorem trackNotice {a b : Nat} (h : Calm s t) : Calm s (t.trackNotice z a b) := h.notice
theorem endNotice (h : Calm s t) : Calm s (t.endNotice z) := h.notice
theorem identNotice {n : Nat} {o : IdentOutcome} {r : Option Nat} (h : Calm s t) : Calm s (t.identNotice n o r) := h.notice
theorem magNotice {c : MagCause} (h : Calm s t) : Calm s (t.magNotice c) := h.notice
theorem holdNotice {c : Byte} (h : Calm s t) : Calm s (t.holdNotice c) := h.notice
theorem faultNotice {n : ServoName} {c : FaultCause} (h : Calm s t) : Calm s (t.faultNotice n c) := h.notice
theorem misstitchNotice {a : Nat} (h : Calm s t) : Calm s (t.misstitchNotice z a) := h.notice
theorem unverifiedNotice (h : Calm s t) : Calm s (t.unverifiedNotice z) := h.notice
theorem wakeNotice {x : WakeSource} {n : Byte} (h : Calm s t) : Calm s (t.wakeNotice x n) := h.notice

/-! ## Defect lists and resume points (R92, R116, R148) -/

theorem modSelRec {f : DiscRecord → DiscRecord} (h : Calm s t)
    (hf : ∀ r, discRegions r.defects → discRegions (f r).defects := by exact fun _ hr => hr)
    (hk : ∀ r, (f r).state = r.state ∧ (f r).rank = r.rank ∧ (f r).print = r.print := by exact fun _ => ⟨rfl, rfl, rfl⟩) :
    Calm s (t.modSelRec z f) := by
  unfold State.modSelRec
  split
  · exact h.modDd ⟨fun hd => Directory.lawful_modRecord _ hd hf, fun hd => Directory.ranked_modRecord _ hd hk⟩
  · exact h

theorem markDefect {k : DefectKind} {a : Nat} (h : Calm s t) : Calm s (t.markDefect z k a) := by
  unfold State.markDefect
  split
  · exact h.modSelRec fun _ hr => disc_insertRegion hr ⟨Nat.le_refl _, Nat.le_refl _, by simp⟩ ‹_›
  · exact h

theorem writeResume {p : Option ResumePt} (h : Calm s t) : Calm s (t.writeResume z p) := by
  unfold State.writeResume
  split
  · exact h.modSelRec
  · exact h

/-! ## The drive and its claims (chapter 4) -/

theorem send {c : Servo} {st : DriveState} (h : Calm s t)
    (hst : st ≠ .held ∧ st ≠ .fault := by exact ⟨nofun, nofun⟩) : Calm s (t.send c st) :=
  h.moveDa ⟨rfl, rfl, hst⟩

theorem dropClaim (h : Calm s t) : Calm s t.dropClaim := h.modDa

theorem ctxWait (h : Calm s t) : Calm s (t.ctxWait z) := by
  unfold State.ctxWait
  split
  · exact h.setCtx
  · exact h

theorem markClaim {c : Claim} {st : Standing} (h : Calm s t) : Calm s (t.markClaim c st) := by
  unfold State.markClaim
  have h1 := (h.modDa (f := fun d => { d with claim := some { c with standing := st }, blockTimer := .stopped })).modBi
    (f := fun b => b.close st)
  dsimp only
  (repeat' split) <;> first | exact h1 | exact h1.modLm | exact h1.ctxWait

theorem releasePickup (h : Calm s t) : Calm s t.releasePickup := by
  unfold State.releasePickup
  (repeat' split) <;> first | exact h | exact h.dropClaim.send | exact h.dropClaim

theorem closeClaim {st : Standing} (h : Calm s t) : Calm s (t.closeClaim st) := by
  unfold State.closeClaim
  (repeat' split) <;> first | exact h | exact h.markClaim.releasePickup

theorem closeZoneClaim {st : Standing} (h : Calm s t) : Calm s (t.closeZoneClaim z st) := by
  unfold State.closeZoneClaim
  split
  · exact h.closeClaim
  · exact h

theorem endHold {x : Hold} (h : Calm s t) : Calm s (t.endHold x) := by
  unfold State.endHold
  dsimp only
  split
  · exact h.moveDa.modLm
  · exact h.moveDa

theorem revokeHold (h : Calm s t) : Calm s t.revokeHold := h.modDa.holdNotice

theorem lapseHold (h : Calm s t) : Calm s t.lapseHold := h.endHold.holdNotice

/-! ## Zones (chapter 3) -/

theorem modInfo {b : Nat} {f : BlockRec → BlockRec} (h : Calm s t) : Calm s (t.modBs fun st => st.modInfo b f) :=
  h.modBs (Store.sound_modInfo b f)

theorem clearListed {a : Nat} (h : Calm s t) : Calm s (t.clearListed z a) := by
  unfold State.clearListed
  split
  · exact h.modInfo
  · exact h

theorem dropEntry {a : Nat} (h : Calm s t) : Calm s (t.dropEntry z a) := by
  unfold State.dropEntry
  dsimp only
  split
  · exact h.clearListed.modList.closeClaim
  · exact h.clearListed.modList

theorem exhaustEntry {a : Nat} (h : Calm s t) : Calm s (t.exhaustEntry z a) := h.dropEntry.markDefect

theorem dropEntriesFrom {a : Nat} (h : Calm s t) : Calm s (t.dropEntriesFrom z a) := by
  unfold State.dropEntriesFrom
  dsimp only
  (repeat' split) <;> first | exact h.modList | exact h.modList.closeClaim

theorem missAudit (h : Calm s t) : Calm s (t.missAudit z) := by
  unfold State.missAudit
  dsimp only
  split
  · exact h.modAudit.modAudit.unverifiedNotice
  · exact h.modAudit

theorem rereadAtHead {e : Nat} {r : BlockRec} (h : Calm s t) : Calm s (t.rereadAtHead z e r) := by
  unfold State.rereadAtHead
  dsimp only
  (repeat' split) <;> first | exact h | exact h.dropEntry.markDefect | exact h.dropEntry

theorem auditAtHead {e : Nat} (h : Calm s t) : Calm s (t.auditAtHead z e) := by
  unfold State.auditAtHead
  split
  · exact h.missAudit
  · exact h

theorem trackAtHead {e n : Nat} (h : Calm s t) : Calm s (t.trackAtHead z e n) := by
  unfold State.trackAtHead
  split
  · exact h
  · exact h.modZone.trackNotice

theorem newHead (h : Calm s t) : Calm s (t.newHead z) := by
  unfold State.newHead
  split
  · exact h
  · exact h.rereadAtHead.auditAtHead.trackAtHead

theorem flushZone (h : Calm s t) : Calm s (t.flushZone z) :=
  (h.modBs (f := fun st => st.flush z) (Store.sound_flush z)).dropEntriesFrom.setCtx.modAudit.modOc

theorem becomePlaying {b : Bool} (h : Calm s t) : Calm s (t.becomePlaying z b) := h.modZone.modOc

theorem testReady (h : Calm s t) : Calm s (t.testReady z) := by
  unfold State.testReady
  (repeat' split) <;> first | exact h | exact h.becomePlaying.zoneNotice

theorem endOfProgram (h : Calm s t) : Calm s (t.endOfProgram z) := h.modZone.setCtx.modSelRec.endNotice

theorem putSupply {v : Supply} (h : Calm s t) : Calm s (t.putSupply z v) := by
  unfold State.putSupply
  dsimp only
  split
  · exact h.modZone.setCtx
  · exact h.modZone

theorem jointNotice {c d : ZoneCause} (h : Calm s t) : Calm s (t.jointNotice z c d) := h.useFree.zoneNotice

theorem supplyChanged {c : ZoneCause} (h : Calm s t) : Calm s (t.supplyChanged z c) := by
  unfold State.supplyChanged
  (repeat' split) <;> first | exact h.becomePlaying.jointNotice | exact h.zoneNotice

theorem setSupply {v : Supply} {c : ZoneCause} (h : Calm s t) : Calm s (t.setSupply z v c) := by
  unfold State.setSupply
  dsimp only
  (repeat' split) <;>
    first | exact h | exact h.putSupply.zoneNotice.flushZone.endOfProgram | exact h.putSupply.supplyChanged

theorem anchorHeard {e : Nat} (h : Calm s t) : Calm s (t.anchorHeard z e) := by
  unfold State.anchorHeard
  (repeat' split) <;> first | exact h | exact h.setCtx | exact h.closeZoneClaim.ctxWait

theorem auditHeard {e : Nat} (h : Calm s t) : Calm s (t.auditHeard z e) := by
  unfold State.auditHeard
  split
  · exact h.missAudit
  · exact h

theorem ranDry (h : Calm s t) : Calm s (t.ranDry z) := by
  unfold State.ranDry
  dsimp only
  (repeat' split) <;> first | exact h | exact h.endOfProgram | exact h.modZone.zoneNotice

theorem hearZone (h : Calm s t) : Calm s (t.hearZone z) := by
  unfold State.hearZone
  split
  · exact h
  · have h1 : ∀ keep, Calm s (t.modBs fun st => st.hear z keep) := fun keep => h.modBs (Store.sound_hear z keep)
    dsimp only
    split
    · exact (h1 _).modZone.auditHeard.anchorHeard.newHead.ranDry
    · exact (h1 _).modZone.auditHeard.anchorHeard.newHead

theorem cutRun_gain (c : Channel) (n : Nat) : (c.cutRun n).gain = c.gain := by
  unfold Channel.cutRun
  (repeat' split) <;> rfl

theorem cutZone {e : Nat} {own : Bool} (h : Calm s t) : Calm s (t.cutZone z e own) := by
  unfold State.cutZone
  split
  · exact h
  · have h1 : ∀ p, Calm s (t.modBs fun st => st.cut z p) := fun p => h.modBs (Store.sound_cut z p)
    have h2 : ∀ p a b f, Calm s ((((t.modBs fun st => st.cut z p).modZone z fun r => { r with nextRead := some a
      }).dropEntriesFrom z b).modAudit z f) := fun p a b f => (h1 p).modZone.dropEntriesFrom.modAudit
    dsimp only
    (repeat' split) <;>
      first
      | exact h2 _ _ _ _
      | exact (h2 _ _ _ _).setCtx
      | exact (h2 _ _ _ _).modOc fun c => ⟨cutRun_gain _ _, cutRun_gain _ _⟩
      | exact (h2 _ _ _ _).setCtx.modOc fun c => ⟨cutRun_gain _ _, cutRun_gain _ _⟩

theorem stopEffect (h : Calm s t) : Calm s (t.stopEffect z) := h.writeResume.flushZone.modZone.modAudit

theorem seekEffect {x : SeekTarget} (h : Calm s t) : Calm s (t.seekEffect z x) := h.flushZone.modZone.modOc.testReady

theorem pendingEffect (h : Calm s t) : Calm s (t.pendingEffect z) := by
  unfold State.pendingEffect
  dsimp only
  (repeat' split) <;> first | exact h | exact h.stopEffect | exact h.seekEffect | exact h.modZone

theorem effectIfSilent (h : Calm s t) : Calm s (t.effectIfSilent z) := by
  unfold State.effectIfSilent
  split
  · exact h
  · exact h.pendingEffect

theorem beginStop (h : Calm s t) : Calm s (t.beginStop z) := by
  unfold State.beginStop
  split
  · exact h
  · exact h.closeZoneClaim.putSupply.modZone.effectIfSilent

/-! ## Re-reads (chapter 6) -/

theorem listBlock {p : Nat} (h : Calm s t) : Calm s (t.listBlock z p) := by
  unfold State.listBlock
  dsimp only
  split
  · exact h.modInfo.modList
  · exact h

theorem reclass {p : Nat} (h : Calm s t) : Calm s (t.reclass z p) := by
  unfold State.reclass
  dsimp only
  (repeat' split) <;> first | exact h | exact h.dropEntry | exact h.listBlock

theorem discard (h : Calm s t) : Calm s t.discard := h.modBs Store.sound_discard

theorem mergeInto {b : Nat} (h : Calm s t) : Calm s (t.mergeInto b) := (h.modBs (Store.sound_setBucket _ _)).discard

theorem countAttempt {a : Nat} (h : Calm s t) : Calm s (t.countAttempt z a) := by
  unfold State.countAttempt
  split
  · exact h
  · dsimp only
    (repeat' split) <;>
      first | exact h.modInfo.modList.dropEntry | exact h.modInfo.modList.exhaustEntry | exact h.modInfo.modList

theorem nameEntry {l : List Entry} (h : Calm s t) : Calm s (Machine.nameEntry z l t).1 := by
  induction l generalizing t with
  | nil => exact h
  | cons e l ih =>
    unfold Machine.nameEntry
    split
    · exact ih h.exhaustEntry
    · exact h

theorem mergeCopy {a : Nat} (h : Calm s t) : Calm s (t.mergeCopy z a) := by
  unfold State.mergeCopy
  (repeat' split) <;>
    first
    | exact h.discard.dropEntry
    | exact h.discard.rereadAtHead
    | (dsimp only
       split
       · exact h.discard.countAttempt
       · exact h.mergeInto.countAttempt)

theorem rereadBlock {a : Nat} {prev : Option Nat} (h : Calm s t) : Calm s (t.rereadBlock z a prev) := by
  unfold State.rereadBlock
  dsimp only
  (repeat' split) <;>
    first
    | exact h.modRu.mergeCopy.closeClaim
    | exact h.modRu.discard.countAttempt.closeClaim
    | exact h.modRu.discard

/-! ## Link-ups and audits (chapter 5) -/

theorem makeCtx (h : Calm s t) : Calm s (t.makeCtx z) := h.setCtx

theorem ensureCtx (h : Calm s t) : Calm s (t.ensureCtx z) := by
  unfold State.ensureCtx
  split
  · exact h
  · exact h.makeCtx

theorem rejoin {c : ZoneCause} (h : Calm s t) : Calm s (t.rejoin z c) := h.setSupply.makeCtx

theorem beginAttempt {u : State} {a : Nat} (h : Calm s t) (he : t.beginAttempt z = some (u, a)) : Calm s u := by
  unfold State.beginAttempt at he
  simp only [Option.map_eq_some_iff, Prod.mk.injEq] at he
  obtain ⟨_, _, rfl, _⟩ := he
  exact h.setCtx

theorem attemptFailed (h : Calm s t) : Calm s (t.attemptFailed z) := by
  unfold State.attemptFailed
  dsimp only
  (repeat' split) <;>
    first | exact h.closeZoneClaim | exact h.closeZoneClaim.setCtx.setSupply | exact h.closeZoneClaim.setCtx

theorem linkTrackLost {ph : Phase} (h : Calm s t) : Calm s (t.linkTrackLost z ph) := by
  unfold State.linkTrackLost
  dsimp only
  (repeat' split) <;>
    first
    | exact h | exact h.ctxWait.markDefect.setSupply | exact h.ctxWait.markDefect | exact h.markDefect.rejoin

theorem countAppend {e : Nat} (h : Calm s t) : Calm s (t.countAppend z e) := by
  unfold State.countAppend
  dsimp only
  (repeat' split) <;> exact h.modAudit

theorem countCommit (h : Calm s t) : Calm s (t.countCommit z) := by
  unfold State.countCommit
  (repeat' split) <;> first | exact h | exact h.modDa

theorem burstTest (h : Calm s t) : Calm s (t.burstTest z) := by
  unfold State.burstTest
  (repeat' split) <;> first | exact h | exact h.closeZoneClaim

theorem pressTest (h : Calm s t) : Calm s (t.pressTest z) := by
  unfold State.pressTest
  (repeat' split) <;> first | exact h | exact h.closeClaim

theorem commit {e : Nat} (h : Calm s t) : Calm s (t.commit z e) := by
  unfold State.commit
  split
  · exact h.discard.closeZoneClaim
  · have h1 : ∀ a b, Calm s ((t.modBs fun st => st.append z e).modZone z fun r => { r with nextRead := a, resume := b }) :=
      fun _ _ => (h.modBs (Store.sound_append z e)).modZone
    dsimp only
    split
    · exact (h1 _ _).newHead.listBlock.countAppend.countCommit.burstTest.testReady
    · exact (h1 _ _).listBlock.countAppend.countCommit.burstTest.testReady

theorem completeJoin (h : Calm s t) : Calm s (t.completeJoin z) := by
  unfold State.completeJoin
  dsimp only
  split
  · exact h.modBi.setCtx.setSupply
  · exact h.modBi.setCtx

theorem beyondEnd (h : Calm s t) : Calm s (t.beyondEnd z) := by
  unfold State.beyondEnd
  dsimp only
  split
  · exact h.closeZoneClaim.setSupply
  · exact h.closeZoneClaim

theorem completeBlock (h : Calm s t) : Calm s (t.completeBlock z) := by
  unfold State.completeBlock
  dsimp only
  (repeat' split) <;>
    first | exact h.discard.completeJoin.beyondEnd | exact h.discard.markDefect.attemptFailed | exact h.commit.completeJoin

theorem verifyMerge {p e : Nat} (h : Calm s t) : Calm s (t.verifyMerge z p e) := by
  unfold State.verifyMerge
  dsimp only
  split
  · exact h.mergeInto.modInfo.reclass
  · exact h.mergeInto.reclass

theorem verifyMergeAt {e : Nat} (h : Calm s t) : Calm s (t.verifyMergeAt z e) := by
  unfold State.verifyMergeAt
  (repeat' split) <;> first | exact h.verifyMerge | exact h.discard

theorem anchorMatched {c : LinkCtx} (h : Calm s t) : Calm s (t.anchorMatched z c) := by
  unfold State.anchorMatched
  dsimp only
  (repeat' split) <;> first | exact h.verifyMergeAt.setCtx | exact h.discard.setCtx

theorem searchBlock {c : LinkCtx} {prev : Option Nat} (h : Calm s t) : Calm s (t.searchBlock z c prev) := by
  unfold State.searchBlock
  have h1 : ∀ c, Calm s (t.setCtx z c) := fun _ => h.setCtx
  dsimp only
  generalize hf : (match c.mode with
    | .locate => _
    | .anchor => _ : Found) = f
  (repeat' split) <;>
    first
    | exact (h1 _).commit.completeJoin
    | exact (h1 _).anchorMatched
    | exact (h1 _).discard.attemptFailed
    | exact (h1 _).discard

theorem verifyBlock {c : LinkCtx} (h : Calm s t) : Calm s (t.verifyBlock z c) := by
  unfold State.verifyBlock
  dsimp only
  (repeat' split) <;>
    first
    | exact h.completeBlock
    | exact h.discard.setCtx
    | exact h.verifyMergeAt.setCtx
    | exact h.discard.markDefect.attemptFailed
    | exact h.cutZone.completeBlock
    | exact h.cutZone.discard.setCtx

theorem joinBlock {prev : Option Nat} (h : Calm s t) : Calm s (t.joinBlock z prev) := by
  unfold State.joinBlock
  (repeat' split) <;> first | exact h.discard | exact h.searchBlock | exact h.verifyBlock

theorem auditFailedSupply {b : Bool} (h : Calm s t) : Calm s (t.auditFailedSupply z b) := by
  unfold State.auditFailedSupply
  (repeat' split) <;> first | exact h | exact h.setSupply | exact h.rejoin

theorem auditFails {a : Nat} (h : Calm s t) : Calm s (t.auditFails z a) := by
  unfold State.auditFails
  dsimp only
  split
  · exact h.cutZone.modAudit.misstitchNotice.auditFailedSupply
  · exact h.cutZone.modAudit.auditFailedSupply

theorem auditPasses {b : Nat} (h : Calm s t) : Calm s (t.auditPasses z b) := h.modInfo.modAudit

theorem auditCompare {a b : Nat} (h : Calm s t) : Calm s (t.auditCompare z a b) := by
  unfold State.auditCompare
  dsimp only
  (repeat' split) <;>
    first | exact h.discard.closeClaim | exact h.discard.closeClaim.auditPasses | exact h.discard.closeClaim.auditFails

theorem auditBlock {a : Nat} {prev : Option Nat} (h : Calm s t) : Calm s (t.auditBlock z a prev) := by
  unfold State.auditBlock
  dsimp only
  (repeat' split) <;>
    first
    | exact h.discard.closeClaim.modAudit
    | exact h.modLu.auditCompare
    | exact h.modLu.discard.closeClaim
    | exact h.modLu.discard

/-! ## The magazine, the drive FAULT and the service sequences (chapters 4, 8, 9 and 10) -/

theorem discFound {i : Nat} (h : Calm s t) : Calm s (t.discFound z i) := by
  unfold State.discFound
  (repeat' split) <;> first | exact h | exact h.setSupply | exact h.rejoin

theorem discNotFound (h : Calm s t) : Calm s (t.discNotFound z) := by
  unfold State.discNotFound
  split
  · exact h.setSupply
  · exact h

theorem scanDone (h : Calm s t) : Calm s t.scanDone := by
  unfold State.scanDone
  split
  · exact h.discNotFound.discNotFound.magNotice
  · exact h

theorem identOutcome {n : Nat} {o : IdentOutcome} {r : Option Nat} {b : Bool} (h : Calm s t) :
    Calm s (t.identOutcome n o r b) := by
  unfold State.identOutcome
  have h1 : Calm s (((t.modDd fun d => { d with ident := none }).identNotice n o r).modLm Loader.nextSlot) :=
    h.modDd.identNotice.modLm
  dsimp only
  split
  · split
    · exact h1.discFound.discFound.scanDone
    · exact h1.scanDone
  · exact h1.scanDone

theorem readableDisc {n : Nat} {i : DiscInfo} (h : Calm s t) : Calm s (t.readableDisc n i) := by
  have h1 : ∀ i (f : DiscRecord → DiscRecord), (∀ r, discRegions r.defects → discRegions (f r).defects) →
      (t.dd.ranked → ((t.dd.modRecord i f).refresh i).ranked) → Calm s (t.modDd fun d => (d.modRecord i f).refresh i) :=
    fun i f hf hk => h.modDd ⟨fun hd => Directory.lawful_refresh i (Directory.lawful_modRecord i hd hf), hk⟩
  unfold State.readableDisc
  split
  · split
    · rename_i hr
      split
      · rename_i hd
        exact (h1 _ (fun r => { r with state := .present, slot := some n, lastSlot := some n }) (fun _ hx => hx)
          fun hk => Directory.ranked_matched hk hr (by rw [hd]; nofun)).identOutcome
      · exact h.identOutcome
    · exact h
  · rename_i hf
    split
    · exact (h1 _ _ (fun _ _ => disc_nil) fun hk => Directory.ranked_new _ n i hk hf).identOutcome
    · exact h.identOutcome

theorem verdict {i : Option DiscInfo} (h : Calm s t) : Calm s (t.verdict i) := by
  unfold State.verdict
  split
  · exact h
  · have h1 : ∀ x, Calm s (t.modDd fun d => { d with ident := x }) := fun _ => h.modDd
    dsimp only
    split
    · exact (h1 _).closeClaim.readableDisc
    · split
      · exact (h1 _).closeClaim.identOutcome
      · exact h1 _

theorem inserted (h : Calm s t) : Calm s t.inserted := by
  unfold State.inserted
  exact h.modLm.magNotice.modLm

theorem ejectOver {c : MagCause} (h : Calm s t) : Calm s (t.ejectOver c) := by
  unfold State.ejectOver
  dsimp only
  split
  · exact h.modLm.magNotice.inserted
  · exact h.modLm.magNotice

theorem zoneFault (h : Calm s t) : Calm s (t.zoneFault z) := by
  unfold State.zoneFault
  split
  · exact h.setSupply
  · exact h

theorem emptyList (h : Calm s t) : Calm s (t.emptyList z) := by
  unfold State.emptyList
  generalize t.ru.lists.get z = l
  induction l generalizing t with
  | nil => exact h
  | cons e l ih => exact ih h.dropEntry

theorem dropLink (h : Calm s t) : Calm s (t.dropLink z) := h.setCtx.modAudit

theorem loaderFault (h : Calm s t) : Calm s t.loaderFault := by
  unfold State.loaderFault
  have h1 : ∀ c, Calm s (t.ejectOver c) := fun _ => h.ejectOver
  dsimp only
  (repeat' split) <;> first | exact h | exact h1 _ | exact h.identOutcome | exact (h1 _).identOutcome

theorem parkFault (h : Calm s t) : Calm s t.parkFault := by
  unfold State.parkFault
  split
  · exact h
  · exact h.modDa.modPc

theorem enterFault {n : ServoName} {c : FaultCause} (h : Calm s t) : Calm s (t.enterFault n c) := by
  have h1 := (h.freeDa (f := fun d =>
    { d with
      state := .fault, slot := .unknown, speed := .unknown, out := none, idleTimer := .stopped,
      blockTimer := .stopped, removalDue := false, startDue := false })).closeClaim (st := .cancelled)
  have h2 := (h1.dropClaim.zoneFault (z := .a)).zoneFault (z := .b)
  unfold State.enterFault
  exact (h2.emptyList.emptyList.dropLink.dropLink.loaderFault.parkFault.modDd (f := fun d => { d with ident := none }) ⟨id, id⟩).faultNotice

theorem ownerFailure {c : Claim} {b : Bool} (h : Calm s t) : Calm s (t.ownerFailure c b) := by
  unfold State.ownerFailure
  dsimp only
  (repeat' split) <;>
    first
    | exact h | exact h.attemptFailed | exact h.dropEntry | exact h.countAttempt | exact h.modAudit | exact h.identOutcome
    | exact h.modLm.identOutcome | exact h.modLm

theorem failStart {b : Bool} (h : Calm s t) : Calm s (t.failStart b) := by
  unfold State.failStart
  split
  · exact h.closeClaim.ownerFailure
  · exact h.dropClaim

theorem zoneOut (h : Calm s t) : Calm s (t.zoneOut z) := by
  unfold State.zoneOut
  split
  · exact h.setSupply
  · exact h

theorem removalEffects {c : MagCause} (h : Calm s t) : Calm s (t.removalEffects c) :=
  (h.closeClaim.magNotice.zoneOut.zoneOut.modDd (f := Directory.departAll) ⟨Directory.lawful_departAll, Directory.ranked_departAll⟩).modLm.modAudit.modAudit

theorem magazineGone (h : Calm s t) : Calm s t.magazineGone := h.modLm

theorem beginEject (h : Calm s t) : Calm s t.beginEject := h.closeClaim.modLm.modDa

theorem takeEject (h : Calm s t) : Calm s t.takeEject := h.modLm

theorem ejectOrWait (h : Calm s t) : Calm s t.ejectOrWait := by
  unfold State.ejectOrWait
  split <;> first | exact h.modLm.revokeHold | exact h.modLm | exact h.beginEject

theorem parkZone (h : Calm s t) : Calm s (t.parkZone z) := by
  unfold State.parkZone
  dsimp only
  split
  · exact h
  · exact h.writeResume.modZone

theorem reportSilence (h : Calm s t) : Calm s t.reportSilence := by
  unfold State.reportSilence
  split
  · exact h.modPc
  · exact h

theorem askParking (h : Calm s t) : Calm s t.askParking := by
  unfold State.askParking
  dsimp only
  (repeat' split) <;> first | exact h.modDa.modPc | exact h.modDa | exact h.lapseHold.modDa | exact h.modDa.modDa

/-! ## Arbitration and what every command ends with (chapter 4) -/

theorem grant {c : Claim} (h : Calm s t) : Calm s (t.grant c) := h.modDa

theorem grantBurst {k : ClaimKind} (h : Calm s t) : Calm s (t.grantBurst k z) := h.ensureCtx.grant

theorem grantIdent {n : Nat} (h : Calm s t) : Calm s (t.grantIdent n) := by
  unfold State.grantIdent
  refine Calm.grant (Calm.modLm (h.modDd ⟨fun hd => ?_, fun hd => ?_⟩)) <;> (repeat' split) <;> exact hd

theorem grantTarget {k : ClaimKind} {a n : Nat} (h : Calm s t) : Calm s (t.grantTarget k z a n) := h.grant

theorem grantHold (h : Calm s t) (ho : t.da.out = none) : Calm s t.grantHold :=
  (h.grant.freeDa ⟨rfl, rfl, ho⟩).holdNotice

theorem grantReread {l : List ZoneId} (h : Calm s t) : Calm s (Machine.grantReread l t) := by
  induction l generalizing t with
  | nil => exact h
  | cons z l ih =>
    unfold Machine.grantReread
    have h1 := h.nameEntry (z := z) (l := t.ru.lists.get z)
    split
    · rename_i e
      rw [e] at h1
      exact h1.grantTarget
    · rename_i e
      rw [e] at h1
      exact ih h1

theorem rotate_lt (s : State) (n p : Nat) (hp : p < 16) : (s.rotate n p).2 < 16 := by
  induction n generalizing p with
  | zero => exact hp
  | succ n ih =>
    unfold State.rotate
    split
    · exact Nat.mod_lt _ (by decide)
    · exact ih _ (Nat.mod_lt _ (by decide))

theorem grantRotation (h : Calm s t) : Calm s t.grantRotation := by
  have h1 : Calm s (t.modDa fun d => { d with rotPtr := (t.rotate 16 t.da.rotPtr).2 }) :=
    h.modDa ⟨rfl, fun hk => ⟨hk.1, hk.2.1, rotate_lt t 16 _ hk.2.2⟩⟩
  unfold State.grantRotation
  dsimp only
  split
  · exact h1.grantBurst
  · split
    · exact h1.modDa
    · exact h1

theorem grantAudit (h : Calm s t) : Calm s t.grantAudit := by
  unfold State.grantAudit
  split
  · exact h.grantTarget
  · exact h.grantRotation

theorem arbitrate (h : Calm s t) (ho : t.da.out = none) : Calm s t.arbitrate := by
  unfold State.arbitrate
  dsimp only
  split
  · exact h.grantBurst
  · split
    · exact h.grantBurst
    · split
      · exact h.grantIdent
      · split
        · exact h.grantHold ho
        · split
          · exact h.grantReread
          · exact h.grantReread.grantAudit

theorem sendRead {c : Claim} (h : Calm s t) : Calm s (t.sendRead c) := h.modBi.modRu.modLu.modDa.send

theorem seekPlace {c : Claim} {u : State} {p : Place} (h : Calm s t) (he : t.seekPlace c = some (u, p)) : Calm s u := by
  unfold State.seekPlace at he
  (repeat' split at he) <;>
    first
    | (simp only [Option.map_eq_some_iff, Prod.exists, Prod.mk.injEq] at he
       obtain ⟨_, _, ha, rfl, _⟩ := he
       exact h.beginAttempt ha)
    | (simp only [Option.some.injEq, Prod.mk.injEq] at he
       rw [← he.1]
       exact h)

theorem noAnchor {c : Claim} (h : Calm s t) : Calm s (t.noAnchor c) := by
  unfold State.noAnchor
  split
  · exact h.setSupply.closeClaim
  · exact h.closeClaim

theorem prepare {c : Claim} (h : Calm s t) : Calm s (t.prepare c) := by
  unfold State.prepare
  (repeat' split) <;>
    first
    | exact h.modDa.send | exact h.send | exact h.noAnchor
    | (rename_i he
       exact (h.seekPlace he).modDa.send)

theorem ejectNext (h : Calm s t) : Calm s t.ejectNext := by
  unfold State.ejectNext
  (repeat' split) <;> first | exact h | exact h.modLm.send | exact h.send

theorem parkDone (h : Calm s t) : Calm s t.parkDone := h.modDa.modPc

theorem parkSpin (h : Calm s t) : Calm s t.parkSpin := h.modDa.send

theorem parkNext (h : Calm s t) : Calm s t.parkNext := by
  unfold State.parkNext
  dsimp only
  split
  · exact h.modDa.parkSpin
  · exact h.modDa.modDa.send

theorem settleRemoval (h : Calm s t) : Calm s (t.modDa Drive.settleRemoval) :=
  h.modDa ⟨by unfold Drive.settleRemoval; split <;> rfl, fun hk => by
    unfold Drive.settleRemoval
    split
    · exact ⟨nofun, hk.2⟩
    · exact hk⟩

theorem settleRemoval_out (d : Drive) : d.settleRemoval.out = d.out := by
  unfold Drive.settleRemoval
  split <;> rfl

theorem proceed {n : Nat} (h : Calm s t) : Calm s (State.proceed n t) := by
  induction n generalizing t with
  | zero => exact h
  | succ n ih =>
    unfold State.proceed
    split
    · exact h
    · rename_i hb
      have ho : t.da.out = none := by simp_all [State.driveBusy]
      have h1 := h.settleRemoval
      have h2 : Calm s (if (t.modDa Drive.settleRemoval).liveClaim = none then (t.modDa Drive.settleRemoval).dropClaim
          else t.modDa Drive.settleRemoval) := by
        split
        · exact h1.dropClaim
        · exact h1
      have ho2 : (if (t.modDa Drive.settleRemoval).liveClaim = none then (t.modDa Drive.settleRemoval).dropClaim
          else t.modDa Drive.settleRemoval).da.out = none := by
        split <;> exact (settleRemoval_out t.da).trans ho
      dsimp only
      generalize (if (t.modDa Drive.settleRemoval).liveClaim = none then (t.modDa Drive.settleRemoval).dropClaim
          else t.modDa Drive.settleRemoval) = u at h2 ho2 ⊢
      split
      · exact h2.ejectNext
      · split
        · exact h2.parkNext
        · split
          · exact h2
          · split
            · exact ih h2.prepare
            · split
              · exact h2
              · split
                · exact h2.arbitrate ho2
                · exact ih (h2.arbitrate ho2)

theorem parkBegins (h : Calm s t) : Calm s t.parkBegins := by
  unfold State.parkBegins
  split
  · exact h.closeClaim.modDa
  · exact h

theorem revokeTest (h : Calm s t) : Calm s t.revokeTest := by
  unfold State.revokeTest
  split
  · exact h.revokeHold
  · exact h

theorem pressChanged {old : State} (h : Calm s t) : Calm s (State.pressChanged old t z) := by
  unfold State.pressChanged
  split
  · exact h.pressTest
  · exact h

/-- What every command ends with is calm. -/
theorem finish {old : State} (h : Calm s t) : Calm s (State.finish old t) :=
  h.pressChanged.pressChanged.revokeTest.parkBegins.proceed

/-! ## Blocks (chapter 1) -/

theorem takeStart (h : Calm s t) : Calm s (t.modDa Drive.takeStart) := h.moveDa

theorem readComplete (h : Calm s t) : Calm s t.readComplete := by
  unfold State.readComplete
  dsimp only
  have h1 : Calm s (t.modDa fun d => { d with out := none }) := h.freeDa
  split
  · split
    · split
      · exact h.takeStart
      · split
        · exact h1.releasePickup
        · exact h1
    · exact h
  · exact h

theorem skip {e : Nat} (h : Calm s t) : Calm s (t.skip z e) := by
  unfold State.skip
  dsimp only
  split
  · exact h.discard.closeZoneClaim.markDefect.rejoin
  · exact h.discard.closeZoneClaim

theorem appendBlock (h : Calm s t) : Calm s (t.appendBlock z) := by
  unfold State.appendBlock
  dsimp only
  (repeat' split) <;> first | exact h.discard.beyondEnd | exact h.skip | exact h.commit.pressTest

theorem judge (h : Calm s t) : Calm s t.judge := h.discard.verdict

theorem route {x : Tag} (h : Calm s t) : Calm s (t.route x) := by
  unfold State.route
  (repeat' split) <;>
    first
    | exact h.appendBlock | exact h.joinBlock | exact h.rereadBlock | exact h.auditBlock | exact h.judge | exact h.discard

theorem runBlockTimer (h : Calm s t) : Calm s t.runBlockTimer := by
  unfold State.runBlockTimer
  split
  · exact h.modDa
  · exact h

theorem acceptBlock {x : Tag} {b : PortBlock} (h : Calm s t) : Calm s (t.acceptBlock x b) := by
  unfold State.acceptBlock
  split
  · exact h
  · rename_i st he
    exact (h.modBs (f := fun _ => st.setBucket st.intake _) fun hs =>
      Store.sound_setBucket _ _ (Store.sound_allocate hs he)).route.modBi

/-- A block at the port is calm. -/
theorem present {b : PortBlock} (h : Calm s t) : Calm s (t.present b) := by
  unfold State.present
  dsimp only
  split
  · exact h.readComplete.acceptBlock.runBlockTimer
  · exact h.readComplete.runBlockTimer

/-! ## After a frame event's own change of gains (chapter 7) -/

theorem afterDraw (h : Calm s t) : Calm s (t.afterDraw z) := by
  unfold State.afterDraw
  split
  · exact h.hearZone
  · exact h.modZone

theorem reportZero (h : Calm s t) : Calm s (t.reportZero z) := by
  unfold State.reportZero
  split
  · exact h.pendingEffect.zoneNotice
  · exact h

/-! ## Servo completions and timers (chapter 4) -/

/-- A completion is calm when what it does is, in a drive state other than HELD and FAULT. -/
theorem complete {n : ServoName} {f : Outstanding → State → State} (h : Calm s t)
    (hf : ∀ o u, Calm s u → u.da.state ≠ .held ∧ u.da.state ≠ .fault → Calm s (f o u)) : Calm s (t.complete n f) := by
  unfold State.complete
  split
  · exact h
  · rename_i o ho
    split
    · exact h.takeStart
    · refine hf _ _ h.freeDa ?_
      unfold State.completes at ho
      split at ho
      · split at ho
        · rename_i hc
          exact ⟨hc.1, hc.2.1⟩
        · cases ho
      · cases ho

theorem settle (h : Calm s t) : Calm s t.settle := by
  unfold State.settle
  split
  · exact h.settleRemoval
  · exact h

theorem loadCompletes {o : Outstanding} (h : Calm s t) : Calm s (State.loadCompletes o t) := by
  unfold State.loadCompletes
  split
  · exact h.moveDa.settle
  · exact h

theorem unloadCompletes {o : Outstanding} (h : Calm s t) : Calm s (State.unloadCompletes o t) := by
  have h1 := (h.moveDa (f := fun d => { d with state := .down, slot := .none, speed := .known 0 })).settle
  unfold State.unloadCompletes
  dsimp only
  split
  · exact h1.parkSpin
  · exact h1

theorem spinCompletes {o : Outstanding} (h : Calm s t) : Calm s (State.spinCompletes o t) := by
  have h1 := (h.moveDa (f := fun d => { d with state := .down, speed := .known 0 })).settle
  unfold State.spinCompletes
  dsimp only
  split
  · split
    · exact h1.parkDone
    · exact h1
  · exact h.moveDa.settle
  · exact h

theorem seekCompletes {o : Outstanding} (h : Calm s t) : Calm s (State.seekCompletes o t) := by
  have h1 := (h.moveDa (f := fun d => { d with state := .ready })).settle
  unfold State.seekCompletes
  dsimp only
  split
  · exact h1.sendRead
  · exact h1

theorem pauseCompletes {o : Outstanding} (h : Calm s t) : Calm s (State.pauseCompletes o t) := h.moveDa.settle

theorem latchCompletes {o : Outstanding} (h : Calm s t) : Calm s (State.latchCompletes o t) := by
  have h1 := (h.moveDa (f := fun d => { d with state := .down })).settle
  unfold State.latchCompletes
  dsimp only
  split
  · exact h1.modLm
  · exact h1

theorem abortCompletes {o : Outstanding} (h : Calm s t) (hs : t.da.state ≠ .held ∧ t.da.state ≠ .fault) :
    Calm s (State.abortCompletes o t) := by
  unfold State.abortCompletes
  split
  · exact h.moveDa ⟨rfl, rfl, hs⟩
  · exact h.settle

theorem expired {o : Outstanding} (h : Calm s t) (hs : t.da.kept → t.da.state ≠ .held ∧ t.da.state ≠ .fault) :
    Calm s (State.expired o t) := by
  unfold State.expired
  split
  · exact h.enterFault
  · split
    · exact h.enterFault
    · exact h.modDa ⟨rfl, fun hk => ⟨fun e => (e.elim (hs hk).1 (hs hk).2).elim, hk.2⟩⟩

theorem failedStart {f : Drive → Drive} {b : Bool} (h : Calm s t)
    (hf : (f t.da).rotation = t.da.rotation ∧ (f t.da).rotPtr = t.da.rotPtr ∧ (f t.da).state ≠ .held ∧
      (f t.da).state ≠ .fault) : Calm s (t.failedStart f b) := (h.moveDa hf).failStart.settle

theorem failedOther {o : Outstanding} (h : Calm s t) (hs : t.da.state ≠ .held ∧ t.da.state ≠ .fault) :
    Calm s (State.failedOther o t) := by
  have h1 := (h.moveDa (f := fun d => { d with state := .down })).settle
  unfold State.failedOther
  split
  · exact h.failedStart ⟨rfl, rfl, nofun, nofun⟩
  · exact h.failedStart ⟨rfl, rfl, nofun, nofun⟩
  · exact h.failedStart ⟨rfl, rfl, nofun, nofun⟩
  · exact h.failedStart ⟨rfl, rfl, nofun, nofun⟩
  · dsimp only
    split
    · exact h1.ejectOver
    · exact h1
  · exact h.enterFault
  · exact h.expired fun _ => hs
  · exact h.expired fun _ => hs

theorem failedEmpty {b : Bool} (h : Calm s t) : Calm s (t.failedEmpty b) := h.failedStart ⟨rfl, rfl, nofun, nofun⟩

theorem failed {r : FailReason} {o : Outstanding} (h : Calm s t) (hs : t.da.state ≠ .held ∧ t.da.state ≠ .fault) :
    Calm s (State.failed r o t) := by
  unfold State.failed
  split
  · exact h.expired fun _ => hs
  · exact h.expired fun _ => hs
  · exact h.enterFault
  · exact h.enterFault
  · exact h.enterFault
  · exact h.failedEmpty
  · exact h.failedEmpty
  · exact h.failedEmpty
  · exact h.failedEmpty
  · exact h.failedOther hs

theorem timeout (h : Calm s t) : Calm s t.timeout := by
  unfold State.timeout
  split
  · rename_i ho
    split
    · exact h.takeStart
    · refine h.expired fun hk => ⟨fun e => ?_, fun e => ?_⟩
      · rw [hk.1 (Or.inl e)] at ho
        cases ho
      · rw [hk.1 (Or.inr e)] at ho
        cases ho
  · exact h

theorem lossToOwner {c : Claim} {ph : Phase} (h : Calm s t) : Calm s (t.lossToOwner c ph) := by
  unfold State.lossToOwner
  (repeat' split) <;> first | exact h | exact h.linkTrackLost

theorem trackingLost (h : Calm s t) : Calm s t.trackingLost := by
  unfold State.trackingLost
  (repeat' split) <;> first | exact h | exact h.closeClaim.lossToOwner

theorem blockTimeout (h : Calm s t) : Calm s t.blockTimeout := by
  unfold State.blockTimeout
  split
  · exact h
  · exact h.trackingLost

theorem graceExpires (h : Calm s t) : Calm s t.graceExpires := by
  unfold State.graceExpires
  split
  · exact h.lapseHold
  · exact h

theorem idleExpires (h : Calm s t) : Calm s t.idleExpires := by
  unfold State.idleExpires
  split
  · exact h.send
  · exact h

/-! ## Shocks, the magazine and the run line (chapters 5, 9 and 10) -/

theorem shockCancels (h : Calm s t) : Calm s t.shockCancels := by
  unfold State.shockCancels
  dsimp only
  (repeat' split) <;> first | exact h | exact h.closeClaim.modSm | exact h.closeClaim

theorem startSettle (h : Calm s t) : Calm s t.startSettle := h.modSm

theorem settled (h : Calm s t) : Calm s t.settled := by
  unfold State.settled State.rejoinShocked
  dsimp only
  (repeat' split) <;> first | exact h | exact h.modSm.rejoin | exact h.modSm.setSupply | exact h.modSm

theorem windowEnds (h : Calm s t) : Calm s t.windowEnds := by
  unfold State.windowEnds
  split
  · exact h
  · exact h.modSm

theorem switchCloses (h : Calm s t) : Calm s t.switchCloses := by
  unfold State.switchCloses
  split
  · exact h.modLm
  · exact h

theorem switchOpens (h : Calm s t) : Calm s t.switchOpens := by
  unfold State.switchOpens
  have hr : ∀ d : Drive, d.removed.rotation = d.rotation ∧ (d.kept → d.removed.kept) := fun d => by
    unfold Drive.removed
    split
    · exact ⟨rfl, id⟩
    · exact ⟨rfl, id⟩
  have h1 : ∀ c, Calm s (t.magazineGone.removalEffects c) := fun _ => h.magazineGone.removalEffects
  split
  · exact h
  · exact h.magazineGone
  · exact (h1 _).modDa (hr _)
  · split
    · exact h1 _
    · exact (h1 _).modDa (hr _)

theorem debounced (h : Calm s t) : Calm s t.debounced := by
  unfold State.debounced
  split
  · exact h.inserted
  · exact h

theorem endIdent (h : Calm s t) : Calm s t.endIdent := by
  unfold State.endIdent
  (repeat' split) <;> first | exact h | exact h.closeClaim

theorem slotExpires (h : Calm s t) : Calm s t.slotExpires := by
  unfold State.slotExpires
  split
  · exact h.endIdent.identOutcome
  · exact h

theorem pressButton (h : Calm s t) : Calm s t.pressButton := by
  unfold State.pressButton
  split
  · exact h.takeEject.magNotice.ejectOrWait
  · exact h

theorem latchExpires (h : Calm s t) : Calm s t.latchExpires := by
  unfold State.latchExpires
  split
  · exact h.ejectOver
  · exact h

theorem runRises (h : Calm s t) : Calm s t.runRises := by
  unfold State.runRises
  split
  · exact h.modPc
  · exact h

/-! ## What a request does to a zone, the drive or a record (chapters 3, 4, 8 and 9) -/

theorem startZone {p : ResumePt} (h : Calm s t) : Calm s (t.startZone z p) := h.putSupply.modZone.modOc

theorem pausePlaying (h : Calm s t) : Calm s (t.pausePlaying z) := by
  unfold State.pausePlaying
  split
  · exact h
  · exact h.modZone.effectIfSilent

theorem pause {u : State} (h : Calm s t) (he : t.pause z = some u) : Calm s u := by
  unfold State.pause at he
  (repeat' split at he) <;> simp only [Option.some.injEq, reduceCtorEq] at he <;> subst he
  · exact h.pausePlaying
  · exact h.modZone
  · exact h.modZone

theorem unpause (h : Calm s t) : Calm s (t.unpause z) := by
  unfold State.unpause
  split
  · exact h.becomePlaying
  · exact h.modZone

theorem readyQuietly (h : Calm s t) : Calm s (t.readyQuietly z) := by
  unfold State.readyQuietly
  (repeat' split) <;> first | exact h | exact h.becomePlaying

theorem beginSeek {x : SeekTarget} (h : Calm s t) : Calm s (t.beginSeek z x) := by
  unfold State.beginSeek
  dsimp only
  split
  · exact h.closeZoneClaim.modZone.effectIfSilent
  · exact h.closeZoneClaim.putSupply.readyQuietly.modZone.effectIfSilent

theorem resetZone (h : Calm s t) : Calm s (t.resetZone z) := by
  unfold State.resetZone
  split
  · exact h
  · exact h.beginStop

theorem zoneReset (h : Calm s t) : Calm s (t.zoneReset z) := by
  unfold State.zoneReset
  (repeat' split) <;> first | exact h | exact h.rejoin | exact h.setSupply

end Calm

end Sys2Proof.Machine
end

