-- ==== Sys2Proof/Laws/PerInstr.lean ====
section
/-! SUPPORT. A law of every command as syntax: the frame that a well-formed command carries has a LEN of 1 to 64 (R172), one
lemma for each constructor of `Instr`. -/

set_option Elab.async false

open Sys2Proof

namespace Sys2Proof.Laws.Body

/-- The frame body that a command carries; an event carries none. -/
def carried : Instr → List Byte
  | .echo body => body
  | .identify body => body
  | .configure body => body
  | .queryParam body => body
  | .reset body => body
  | .standby body => body
  | .hush body => body
  | .deviceStatus body => body
  | .setRotation body => body
  | .select body => body
  | .play body => body
  | .pause body => body
  | .resume body => body
  | .stop body => body
  | .seek body => body
  | .zoneStatus body => body
  | .holdPickup body => body
  | .releasePickup body => body
  | .eject body => body
  | .resetDrive body => body
  | .discRecord body => body
  | .defectList body => body
  | .trackList body => body
  | .forgetDisc body => body
  | .unknownKindFrame _ body => body
  | .frameDiscarded _ => []
  | .linkGapTimeout _ => []
  | .transmitFrameDone => []
  | .blockPresented _ => []
  | .frameEvent _ => []
  | .loadDone => []
  | .unloadDone => []
  | .spinDone => []
  | .seekDone => []
  | .pauseDone => []
  | .latchOpenDone => []
  | .abortDone => []
  | .commandFailed _ _ => []
  | .trackLost => []
  | .commandTimeout => []
  | .blockTimerExpiry => []
  | .graceTimerExpiry => []
  | .idleTimerExpiry => []
  | .shockRise => []
  | .shockFall => []
  | .settleTimerExpiry => []
  | .windowTimerExpiry => []
  | .magazineSwitchCloses => []
  | .magazineSwitchOpens => []
  | .debounceTimerExpiry => []
  | .slotTimerExpiry => []
  | .ejectButton => []
  | .latchTimerExpiry => []
  | .runLineFalls => []
  | .runLineRises => []
  | .enterParked => []
  | .wake _ _ => []
  | .softStart => []
  | .powerUp _ => []

/-- The law: the LEN byte of the frame a well-formed command carries is 1 to 64 (R172). -/
def Statement (i : Instr) : Prop := i.wf = true → 1 ≤ (carried i).length + 1 ∧ (carried i).length + 1 ≤ 64

/-- A body that passes the body check fits a frame. -/
theorem of_bodyWf {body : List Byte} (h : bodyWf body = true) : 1 ≤ body.length + 1 ∧ body.length + 1 ≤ 64 :=
  ⟨Nat.le_add_left 1 _, Nat.succ_le_succ (of_decide_eq_true h)⟩

/-- A command without a frame body. -/
theorem no_body : 1 ≤ ([] : List Byte).length + 1 ∧ ([] : List Byte).length + 1 ≤ 64 := by decide

theorem echo (body : List Byte) : Statement (.echo body) := fun h => of_bodyWf h
theorem identify (body : List Byte) : Statement (.identify body) := fun h => of_bodyWf h
theorem configure (body : List Byte) : Statement (.configure body) := fun h => of_bodyWf h
theorem queryParam (body : List Byte) : Statement (.queryParam body) := fun h => of_bodyWf h
theorem reset (body : List Byte) : Statement (.reset body) := fun h => of_bodyWf h
theorem standby (body : List Byte) : Statement (.standby body) := fun h => of_bodyWf h
theorem hush (body : List Byte) : Statement (.hush body) := fun h => of_bodyWf h
theorem deviceStatus (body : List Byte) : Statement (.deviceStatus body) := fun h => of_bodyWf h
theorem setRotation (body : List Byte) : Statement (.setRotation body) := fun h => of_bodyWf h
theorem select (body : List Byte) : Statement (.select body) := fun h => of_bodyWf h
theorem play (body : List Byte) : Statement (.play body) := fun h => of_bodyWf h
theorem pause (body : List Byte) : Statement (.pause body) := fun h => of_bodyWf h
theorem resume (body : List Byte) : Statement (.resume body) := fun h => of_bodyWf h
theorem stop (body : List Byte) : Statement (.stop body) := fun h => of_bodyWf h
theorem seek (body : List Byte) : Statement (.seek body) := fun h => of_bodyWf h
theorem zoneStatus (body : List Byte) : Statement (.zoneStatus body) := fun h => of_bodyWf h
theorem holdPickup (body : List Byte) : Statement (.holdPickup body) := fun h => of_bodyWf h
theorem releasePickup (body : List Byte) : Statement (.releasePickup body) := fun h => of_bodyWf h
theorem eject (body : List Byte) : Statement (.eject body) := fun h => of_bodyWf h
theorem resetDrive (body : List Byte) : Statement (.resetDrive body) := fun h => of_bodyWf h
theorem discRecord (body : List Byte) : Statement (.discRecord body) := fun h => of_bodyWf h
theorem defectList (body : List Byte) : Statement (.defectList body) := fun h => of_bodyWf h
theorem trackList (body : List Byte) : Statement (.trackList body) := fun h => of_bodyWf h
theorem forgetDisc (body : List Byte) : Statement (.forgetDisc body) := fun h => of_bodyWf h
theorem unknownKindFrame (kind : Byte) (body : List Byte) : Statement (.unknownKindFrame kind body) := fun h => of_bodyWf (Bool.and_eq_true_iff.mp h).2
theorem frameDiscarded (bytes : List RxByte) : Statement (.frameDiscarded bytes) := fun _ => no_body
theorem linkGapTimeout (bytes : List RxByte) : Statement (.linkGapTimeout bytes) := fun _ => no_body
theorem transmitFrameDone : Statement .transmitFrameDone := fun _ => no_body
theorem blockPresented (block : PortBlock) : Statement (.blockPresented block) := fun _ => no_body
theorem frameEvent (z : ZoneId) : Statement (.frameEvent z) := fun _ => no_body
theorem loadDone : Statement .loadDone := fun _ => no_body
theorem unloadDone : Statement .unloadDone := fun _ => no_body
theorem spinDone : Statement .spinDone := fun _ => no_body
theorem seekDone : Statement .seekDone := fun _ => no_body
theorem pauseDone : Statement .pauseDone := fun _ => no_body
theorem latchOpenDone : Statement .latchOpenDone := fun _ => no_body
theorem abortDone : Statement .abortDone := fun _ => no_body
theorem commandFailed (cmd : ServoName) (reason : FailReason) : Statement (.commandFailed cmd reason) := fun _ => no_body
theorem trackLost : Statement .trackLost := fun _ => no_body
theorem commandTimeout : Statement .commandTimeout := fun _ => no_body
theorem blockTimerExpiry : Statement .blockTimerExpiry := fun _ => no_body
theorem graceTimerExpiry : Statement .graceTimerExpiry := fun _ => no_body
theorem idleTimerExpiry : Statement .idleTimerExpiry := fun _ => no_body
theorem shockRise : Statement .shockRise := fun _ => no_body
theorem shockFall : Statement .shockFall := fun _ => no_body
theorem settleTimerExpiry : Statement .settleTimerExpiry := fun _ => no_body
theorem windowTimerExpiry : Statement .windowTimerExpiry := fun _ => no_body
theorem magazineSwitchCloses : Statement .magazineSwitchCloses := fun _ => no_body
theorem magazineSwitchOpens : Statement .magazineSwitchOpens := fun _ => no_body
theorem debounceTimerExpiry : Statement .debounceTimerExpiry := fun _ => no_body
theorem slotTimerExpiry : Statement .slotTimerExpiry := fun _ => no_body
theorem ejectButton : Statement .ejectButton := fun _ => no_body
theorem latchTimerExpiry : Statement .latchTimerExpiry := fun _ => no_body
theorem runLineFalls : Statement .runLineFalls := fun _ => no_body
theorem runLineRises : Statement .runLineRises := fun _ => no_body
theorem enterParked : Statement .enterParked := fun _ => no_body
theorem wake (source : WakeSource) (straps : Straps) : Statement (.wake source straps) := fun _ => no_body
theorem softStart : Statement .softStart := fun _ => no_body
theorem powerUp (pins : Pins) : Statement (.powerUp pins) := fun _ => no_body

end Sys2Proof.Laws.Body
end

