-- ==== Sys2Proof/Laws/Still.lean ====
section
/-! SUPPORT. What the operations that DA does at the end of every command leave alone: each has one lemma, in the form that chains
(`h.op`). `proceed` and `finish` are built of these. -/

set_option Elab.async false

namespace Sys2Proof.Machine

/-- From `s` to `t` no more has changed than the drive and its claim, the link-up contexts, the re-read lists with the blocks'
listed marks, the defect lists, the eject stage and the slot timer, the tag, the play and supply states with the mark that goes
with them, the link's queues, and the count of free values. -/
structure Still (s t : State) : Prop where
  whole : t.pins = s.pins ∧ t.straps = s.straps ∧ t.params = s.params ∧ t.sm = s.sm ∧ t.pc = s.pc ∧ t.pending = s.pending
  pool  : t.bs.next = s.bs.next ∧ t.bs.freeHead = s.bs.freeHead ∧ t.bs.freeCount = s.bs.freeCount ∧
    t.bs.chain = s.bs.chain ∧ t.bs.anchor = s.bs.anchor ∧ t.bs.intake = s.bs.intake
  block : s.bs.wf = true → t.bs.wf = true ∧ ∀ b,
    { t.bs.bucket b with info := { t.info b with listed := (s.info b).listed } } = s.bs.bucket b
  zone  : ∀ z, { t.zone z with play := (s.zone z).play, supply := (s.zone z).supply } = s.zone z
  oc    : ∀ z, { t.oc.get z with drawAtOnce := (s.oc.get z).drawAtOnce } = s.oc.get z
  lm    : { t.lm with ejectStage := s.lm.ejectStage, slotTimer := s.lm.slotTimer } = s.lm
  bi    : { t.bi with tag := s.bi.tag } = s.bi
  lu    : { t.lu with ctx := s.lu.ctx } = s.lu
  ru    : t.ru.left = s.ru.left
  dd    : t.dd.sequence = s.dd.sequence ∧
    t.dd.records.map (fun r => { r with defects := [] }) = s.dd.records.map fun r => { r with defects := [] }
  cl    : t.cl.hush = s.cl.hush

namespace Still

theorem refl (s : State) : Still s s :=
  ⟨⟨rfl, rfl, rfl, rfl, rfl, rfl⟩, ⟨rfl, rfl, rfl, rfl, rfl, rfl⟩, fun h => ⟨h, fun _ => rfl⟩, fun _ => rfl, fun _ => rfl, rfl, rfl, rfl, rfl, ⟨rfl, rfl⟩, rfl⟩

theorem trans {s t u : State} (h : Still s t) (k : Still t u) : Still s u where
  whole := by simp only [k.whole, h.whole, and_self]
  pool := by simp only [k.pool, h.pool, and_self]
  block := fun hw => by
    obtain ⟨ht, h1⟩ := h.block hw
    obtain ⟨hu, k1⟩ := k.block ht
    refine ⟨hu, fun b => ?_⟩
    have h2 := h1 b
    have k2 := k1 b
    simp only [State.info] at h2 k2 ⊢
    generalize s.bs.bucket b = x at h2 k2 ⊢
    generalize t.bs.bucket b = y at h2 k2 ⊢
    generalize u.bs.bucket b = w at h2 k2 ⊢
    rw [← h2, ← k2]
  zone := fun z => by rw [← h.zone z, ← k.zone z]
  oc := fun z => by rw [← h.oc z, ← k.oc z]
  lm := by rw [← h.lm, ← k.lm]
  bi := by rw [← h.bi, ← k.bi]
  lu := by rw [← h.lu, ← k.lu]
  ru := k.ru.trans h.ru
  dd := ⟨k.dd.1.trans h.dd.1, k.dd.2.trans h.dd.2⟩
  cl := k.cl.trans h.cl

variable {s t : State} {z : ZoneId}

/-! ## The change functions -/

theorem modDa {f : Drive → Drive} (h : Still s t) : Still s (t.modDa f) := h.trans
  ⟨⟨rfl, rfl, rfl, rfl, rfl, rfl⟩, ⟨rfl, rfl, rfl, rfl, rfl, rfl⟩, fun h => ⟨h, fun _ => rfl⟩, fun _ => rfl, fun _ => rfl, rfl, rfl, rfl, rfl, ⟨rfl, rfl⟩, rfl⟩

theorem setCtx {c : Option LinkCtx} (h : Still s t) : Still s (t.setCtx z c) := h.trans
  ⟨⟨rfl, rfl, rfl, rfl, rfl, rfl⟩, ⟨rfl, rfl, rfl, rfl, rfl, rfl⟩, fun h => ⟨h, fun _ => rfl⟩, fun _ => rfl, fun _ => rfl, rfl, rfl, rfl, rfl, ⟨rfl, rfl⟩, rfl⟩

theorem modList {f : List Entry → List Entry} (h : Still s t) : Still s (t.modList z f) := h.trans
  ⟨⟨rfl, rfl, rfl, rfl, rfl, rfl⟩, ⟨rfl, rfl, rfl, rfl, rfl, rfl⟩, fun h => ⟨h, fun _ => rfl⟩, fun _ => rfl, fun _ => rfl, rfl, rfl, rfl, rfl, ⟨rfl, rfl⟩, rfl⟩

theorem useFree {n : Nat} (h : Still s t) : Still s { t with free := n } := h.trans
  ⟨⟨rfl, rfl, rfl, rfl, rfl, rfl⟩, ⟨rfl, rfl, rfl, rfl, rfl, rfl⟩, fun h => ⟨h, fun _ => rfl⟩, fun _ => rfl, fun _ => rfl, rfl, rfl, rfl, rfl, ⟨rfl, rfl⟩, rfl⟩

theorem modBi {f : Intake → Intake} (h : Still s t) (hf : { f t.bi with tag := t.bi.tag } = t.bi) : Still s (t.modBi f) :=
  h.trans ⟨⟨rfl, rfl, rfl, rfl, rfl, rfl⟩, ⟨rfl, rfl, rfl, rfl, rfl, rfl⟩, fun h => ⟨h, fun _ => rfl⟩, fun _ => rfl, fun _ => rfl, rfl, hf, rfl, rfl, ⟨rfl, rfl⟩, rfl⟩

theorem modLm {f : Loader → Loader} (h : Still s t)
    (hf : { f t.lm with ejectStage := t.lm.ejectStage, slotTimer := t.lm.slotTimer } = t.lm := by rfl) : Still s (t.modLm f) :=
  h.trans ⟨⟨rfl, rfl, rfl, rfl, rfl, rfl⟩, ⟨rfl, rfl, rfl, rfl, rfl, rfl⟩, fun h => ⟨h, fun _ => rfl⟩, fun _ => rfl, fun _ => rfl, hf, rfl, rfl, rfl, ⟨rfl, rfl⟩, rfl⟩

theorem modZone {f : Zone → Zone} (h : Still s t)
    (hf : ∀ r, { f r with play := r.play, supply := r.supply } = r := by exact fun _ => rfl) : Still s (t.modZone z f) :=
  h.trans ⟨⟨rfl, rfl, rfl, rfl, rfl, rfl⟩, ⟨rfl, rfl, rfl, rfl, rfl, rfl⟩, fun h => ⟨h, fun _ => rfl⟩, fun w => by
    cases z <;> cases w <;> first | rfl | exact hf _, fun _ => rfl, rfl, rfl, rfl, rfl, ⟨rfl, rfl⟩, rfl⟩

theorem modOc {f : Concealer → Concealer} (h : Still s t)
    (hf : ∀ c, { f c with drawAtOnce := c.drawAtOnce } = c := by exact fun _ => rfl) : Still s (t.modOc z f) :=
  h.trans ⟨⟨rfl, rfl, rfl, rfl, rfl, rfl⟩, ⟨rfl, rfl, rfl, rfl, rfl, rfl⟩, fun h => ⟨h, fun _ => rfl⟩, fun _ => rfl, fun w => by
    cases z <;> cases w <;> first | rfl | exact hf _, rfl, rfl, rfl, rfl, ⟨rfl, rfl⟩, rfl⟩

theorem modDd {f : Directory → Directory} (h : Still s t)
    (hf : (f t.dd).sequence = t.dd.sequence ∧ (f t.dd).records.map (fun r => { r with defects := [] }) =
      t.dd.records.map fun r => { r with defects := [] }) : Still s (t.modDd f) :=
  h.trans ⟨⟨rfl, rfl, rfl, rfl, rfl, rfl⟩, ⟨rfl, rfl, rfl, rfl, rfl, rfl⟩, fun h => ⟨h, fun _ => rfl⟩, fun _ => rfl, fun _ => rfl, rfl, rfl, rfl, rfl, hf, rfl⟩

theorem notice {k : Byte} {b : List Byte} (h : Still s t) : Still s (t.notice k b) := h.trans
  ⟨⟨rfl, rfl, rfl, rfl, rfl, rfl⟩, ⟨rfl, rfl, rfl, rfl, rfl, rfl⟩, fun h => ⟨h, fun _ => rfl⟩, fun _ => rfl, fun _ => rfl, rfl, rfl, rfl, rfl, ⟨rfl, rfl⟩, Link.notice_hush _ _⟩

theorem zoneNotice {c : ZoneCause} (h : Still s t) : Still s (t.zoneNotice z c) := h.notice
theorem holdNotice {c : Byte} (h : Still s t) : Still s (t.holdNotice c) := h.notice

/-! ## Claims -/

theorem send {c : Servo} {st : DriveState} (h : Still s t) : Still s (t.send c st) := h.modDa
theorem dropClaim (h : Still s t) : Still s t.dropClaim := h.modDa

theorem ctxWait (h : Still s t) : Still s (t.ctxWait z) := by
  unfold State.ctxWait
  split
  · exact h.setCtx
  · exact h

theorem close_still (b : Intake) (st : Standing) : { b.close st with tag := b.tag } = b := by
  unfold Intake.close
  (repeat' split) <;> rfl

theorem standStill_still (l : Loader) :
    { l.standStill with ejectStage := l.ejectStage, slotTimer := l.slotTimer } = l := by
  unfold Loader.standStill
  split <;> rfl

theorem markClaim {c : Claim} {st : Standing} (h : Still s t) : Still s (t.markClaim c st) := by
  unfold State.markClaim
  have h1 := (h.modDa (f := fun d => { d with claim := some { c with standing := st }, blockTimer := .stopped })).modBi
    (f := fun b => b.close st) (close_still _ _)
  dsimp only
  split
  · exact h1.modLm (standStill_still _)
  · split
    · exact h1.ctxWait
    · exact h1
  · split
    · exact h1.ctxWait
    · exact h1
  · exact h1

theorem releasePickup (h : Still s t) : Still s t.releasePickup := by
  unfold State.releasePickup
  split
  · exact h
  · split
    · exact h.dropClaim.send
    · exact h.dropClaim

theorem closeClaim {st : Standing} (h : Still s t) : Still s (t.closeClaim st) := by
  unfold State.closeClaim
  split
  · split
    · exact h
    · exact h.markClaim.releasePickup
  · exact h

theorem closeZoneClaim {st : Standing} (h : Still s t) : Still s (t.closeZoneClaim z st) := by
  unfold State.closeZoneClaim
  split
  · exact h.closeClaim
  · exact h

theorem revokeHold (h : Still s t) : Still s t.revokeHold := h.modDa.holdNotice

/-! ## Blocks' listed marks, lists and defects -/

theorem modListed {b : Nat} {v : Bool} (h : Still s t) :
    Still s (t.modBs fun st => st.modInfo b fun r => { r with listed := v }) := by
  refine h.trans ⟨⟨rfl, rfl, rfl, rfl, rfl, rfl⟩, ⟨rfl, rfl, rfl, rfl, rfl, rfl⟩, fun hw => ⟨Store.wf_setBucket _ _ hw, fun c => ?_⟩, fun _ => rfl, fun _ => rfl, rfl, rfl, rfl, rfl,
    ⟨rfl, rfl⟩, rfl⟩
  have hb : (t.modBs fun st => st.modInfo b fun r => { r with listed := v }).bs.bucket c =
      if c = b then { t.bs.bucket b with info := { (t.bs.bucket b).info with listed := v } } else t.bs.bucket c :=
    Store.bucket_setBucket hw b c _
  simp only [State.info, hb]
  split
  · rename_i e
    rw [e]
  · rfl

theorem clearListed {a : Nat} (h : Still s t) : Still s (t.clearListed z a) := by
  unfold State.clearListed
  split
  · exact h.modListed
  · exact h

theorem dropEntry {a : Nat} (h : Still s t) : Still s (t.dropEntry z a) := by
  unfold State.dropEntry
  dsimp only
  split
  · exact h.clearListed.modList.closeClaim
  · exact h.clearListed.modList

theorem markDefect {k : DefectKind} {a : Nat} (h : Still s t) : Still s (t.markDefect z k a) := by
  unfold State.markDefect State.modSelRec
  split
  · split
    · rename_i i _
      refine h.modDd ⟨rfl, ?_⟩
      simp only [Directory.modRecord]
      apply List.ext_getElem
      · simp
      · intro n h1 h2
        simp only [List.getElem_map, List.getElem_modify]
        split <;> rfl
    · exact h
  · exact h

theorem exhaustEntry {a : Nat} (h : Still s t) : Still s (t.exhaustEntry z a) := h.dropEntry.markDefect

theorem nameEntry {l : List Entry} (h : Still s t) : Still s (Machine.nameEntry z l t).1 := by
  induction l generalizing t with
  | nil => exact h
  | cons e l ih =>
    unfold Machine.nameEntry
    split
    · exact ih h.exhaustEntry
    · exact h

/-! ## The supply state RESYNC, and contexts -/

theorem becomePlaying {b : Bool} (h : Still s t) : Still s (t.becomePlaying z b) := h.modZone.modOc

theorem jointNotice {c d : ZoneCause} (h : Still s t) : Still s (t.jointNotice z c d) := h.useFree.zoneNotice

theorem supplyChanged {c : ZoneCause} (h : Still s t) : Still s (t.supplyChanged z c) := by
  unfold State.supplyChanged
  split
  · exact h.becomePlaying.jointNotice
  · split
    · exact h.becomePlaying.jointNotice
    · exact h.zoneNotice

/-- A change of supply state to another than ENDED. -/
theorem setSupply {v : Supply} {c : ZoneCause} (h : Still s t) (hv : v ≠ .ended) : Still s (t.setSupply z v c) := by
  unfold State.setSupply State.putSupply
  dsimp only
  split
  · exact h
  · rw [if_neg fun e => hv e.1]
    split
    · exact h.modZone.setCtx.supplyChanged
    · exact h.modZone.supplyChanged

theorem ensureCtx (h : Still s t) : Still s (t.ensureCtx z) := by
  unfold State.ensureCtx
  split
  · exact h
  · exact h.setCtx

theorem beginAttempt {u : State} {a : Nat} (h : Still s t) (he : t.beginAttempt z = some (u, a)) : Still s u := by
  unfold State.beginAttempt at he
  simp only [Option.map_eq_some_iff, Prod.mk.injEq] at he
  obtain ⟨_, _, rfl, _⟩ := he
  exact h.setCtx

theorem pressTest (h : Still s t) : Still s (t.pressTest z) := by
  unfold State.pressTest
  split
  · split
    · exact h.closeClaim
    · exact h
  · exact h

/-! ## The service sequences and removals -/

theorem ejectNext (h : Still s t) : Still s t.ejectNext := by
  unfold State.ejectNext
  (repeat' split) <;> first | exact h.modLm.send | exact h.send | exact h

theorem parkNext (h : Still s t) : Still s t.parkNext := by
  unfold State.parkNext
  dsimp only
  split
  · exact h.modDa.modDa.send
  · exact h.modDa.modDa.send

theorem noAnchor {c : Claim} (h : Still s t) : Still s (t.noAnchor c) := by
  unfold State.noAnchor
  split
  · exact (h.setSupply (by decide)).closeClaim
  · exact h.closeClaim

end Still

end Sys2Proof.Machine
end

