-- ==== Sys2Proof/Laws/Take.lean ====
section
/-! SUPPORT. How a command is taken: what the tests that stand before a command's own effect come to, for the power state, for a
completion, and for a request frame; and what every command ends with, case by case. -/

set_option Elab.async false

namespace Sys2Proof.Machine

/-! ## Commands that do nothing in PARKED -/

/-- A powered part does the command's effect, and then what every command ends with. -/
theorem State.whenPowered_powered {s t : State} {f : State → State} (hp : s.pc.state ≠ .parked) (h : f s = t) :
    s.whenPowered f = .next (State.finish s t) := by
  rw [State.whenPowered, if_neg hp, h]

/-- In PARKED nothing happens. -/
theorem State.whenPowered_parked {s : State} {f : State → State} (hp : s.pc.state = .parked) : s.whenPowered f = .next s := by
  rw [State.whenPowered, if_pos hp]

/-! ## What every command ends with (R63, R69, R76) -/

/-- A servo command sent afresh, with its limit written out. -/
theorem Drive.send_sending {d : Drive} {c : Servo} {st : DriveState} {n : Nat} (h : c.limit = .running n) :
    d.send c st = d.sending c n st := by simp [Drive.send, Drive.sending, h]

/-- R69 is tested in the APPENDING phase only. -/
theorem State.pressChanged_joining {old s : State} {z : ZoneId} (h : s.tagLive = false ∨ s.tagAppending = false) :
    State.pressChanged old s z = s := if_neg fun ⟨a, b, _⟩ => by simp [a, b] at h

/-- A granted hold is revoked only for a zone that is urgent or a rejoin claimant. -/
theorem State.revokeTest_kept {s : State} (h : s.da.hold = .granted → ∀ z, s.urgent z = false ∧ s.rejoinClaimant z = false) :
    s.revokeTest = s := if_neg fun ⟨a, b⟩ => by simp [h a] at b

/-- No parking sequence begins. -/
theorem State.parkBegins_kept {s : State} (h : s.da.parkStage ≠ .waiting ∨ s.lm.ejectStage ≠ .none) : s.parkBegins = s :=
  if_neg fun ⟨a, b⟩ => by simp [a, b] at h

/-- With no burst to test, no hold to revoke and no parking to begin, what a command ends with is DA's next act. -/
theorem State.finish_proceed {old s : State} (ht : s.tagLive = false ∨ s.tagAppending = false)
    (hr : s.da.hold = .granted → ∀ z, s.urgent z = false ∧ s.rejoinClaimant z = false)
    (hp : s.da.parkStage ≠ .waiting ∨ s.lm.ejectStage ≠ .none) : State.finish old s = State.proceed 8 s := by
  unfold State.finish
  simp only [State.pressChanged_joining ht]
  rw [State.revokeTest_kept hr, State.parkBegins_kept hp]

/-- While the pickup is in use DA does nothing. -/
theorem State.proceed_busy {s : State} (n : Nat) (h : s.driveBusy = true) : State.proceed n s = s := by
  cases n with
  | zero => rfl
  | succ n => exact if_pos h

/-- With no removal waiting, DA's next act starts from the state as it is. -/
theorem Drive.settleRemoval_calm {d : Drive} (h : d.removalDue = false) : d.settleRemoval = d := by
  simp [Drive.settleRemoval, h]

/-- A LIVE claim is prepared while the part is ACTIVE and no service sequence is under way. -/
theorem State.proceed_claim {s : State} {c : Claim} (n : Nat) (hb : s.driveBusy = false) (hm : s.da.removalDue = false)
    (he : s.ejectRuns = false) (hk : s.da.parkStage = .none) (ha : s.pc.state = .active) (hc : s.liveClaim = some c) :
    State.proceed (n + 1) s = State.proceed n (s.prepare c) := by
  have hs : s.modDa Drive.settleRemoval = s := by rw [State.modDa, Drive.settleRemoval_calm hm]
  simp [State.proceed, hb, hs, hc, he, hk, ha]

/-- A free pickup of a settled part in ACTIVE, with no claim kept, brings an arbitration. -/
theorem State.proceed_arbitrates {s : State} (n : Nat) (hb : s.driveBusy = false) (hm : s.da.removalDue = false)
    (he : s.ejectRuns = false) (hk : s.da.parkStage = .none) (ha : s.pc.state = .active) (hu : s.unsettled = false)
    (hc : s.da.claim = none) : State.proceed (n + 1) s =
      if s.arbitrate.da.claim = none then s.arbitrate else State.proceed n s.arbitrate := by
  have hs : s.modDa Drive.settleRemoval = s := by rw [State.modDa, Drive.settleRemoval_calm hm]
  have hl : s.liveClaim = none := by simp [State.liveClaim, hc]
  have hd : s.dropClaim = s := by
    unfold State.dropClaim State.modDa
    rw [← hc]
  simp [State.proceed, hb, hs, hl, hd, he, hk, ha, hu]

/-! ## The search for a start (R18, R77, R89) -/

/-- The stamp before a block counts for the start when the block's own stamp is not GOOD. -/
theorem startPreceding_open {x : Nat} {status : StampStatus} {stamp prev : Option Nat} (h : status ≠ .good ∨ stamp = none) :
    startPreceding x status stamp prev = prev := by
  unfold startPreceding
  split
  · simp at h
  · rfl

/-- A block with a GOOD stamp is taken as the start when that stamp is the start, and otherwise by the stamp before it where the free
value of log entry 47 says so. -/
theorem startPreceding_taken {x v : Nat} {prev : Option Nat} : stampLocate x .good (some v) (startPreceding x .good (some v) prev) =
    .taken ↔ v = x ∨ (0 < x ∧ prev = some (x - 1)) ∧ Config.startDespiteStamp x v = true := by
  by_cases h : v = x
  · simp [stampLocate, h]
  · by_cases g : x < v <;> cases hc : Config.startDespiteStamp x v <;> simp [stampLocate, startPreceding, h, g, hc]

/-! ## Completions (R58) -/

/-- A completion that is taken: no command is outstanding, and its effect is done. -/
theorem State.complete_taken {s : State} {n : ServoName} {o : Outstanding} {f : Outstanding → State → State}
    (ho : s.da.out = some o) (hh : s.da.state ≠ .held) (hf : s.da.state ≠ .fault) (hs : s.da.startDue = false)
    (hn : o.cmd.name = n) : s.complete n f = f o { s with da := { s.da with out := none } } := by
  have hc : s.completes n = some o := by simp [State.completes, ho, hh, hf, hn]
  unfold State.complete
  rw [hc]
  exact if_neg (by simp [hs])

/-- A completion that is ignored. -/
theorem State.complete_ignored {s : State} {n : ServoName} {f : Outstanding → State → State}
    (h : s.da.state = .held ∨ s.da.state = .fault ∨ ∀ o, s.da.out = some o → o.cmd.name ≠ n) : s.complete n f = s := by
  have hc : s.completes n = none := by
    unfold State.completes
    cases ho : s.da.out with
    | none => rfl
    | some o =>
      refine if_neg fun ⟨a, b, c⟩ => ?_
      rcases h with h | h | h
      · exact a h
      · exact b h
      · exact h o ho c
  unfold State.complete
  rw [hc]

/-- With no removal waiting, settling changes nothing. -/
theorem State.settle_calm {s : State} (h : s.da.removalDue = false) : s.settle = s := by
  unfold State.settle State.modDa Drive.settleRemoval
  split
  · rw [if_neg (by simp [h])]
  · rfl

/-! ## Requests (R175) -/

/-- The part with a request frame received and pending. -/
def State.asked (s : State) (f : Frame) : State := { s with cl := s.cl.asking f }

/-- A request that meets every test of R175 is answered as its owner answers. -/
theorem State.request_tested {s : State} {kind : Byte} {body : List Byte} {form : Form} {own : State → List Byte → Answer}
    (hp : s.pc.state ≠ .parked) (hr : s.cl.request = none) (hb : body.length ≤ 63)
    (hl : ∀ n, form.length = some n → body.length = n) (hw : form.refused = true → s.pc.state ≠ .parking) :
    s.request kind body form own = .next (State.finish s ((s.asked ⟨kind, body⟩).answer kind (own (s.asked ⟨kind, body⟩) body))) := by
  have h1 : ¬ (form.length.isSome = true ∧ form.length ≠ some body.length) := by
    rintro ⟨a, c⟩
    obtain ⟨n, hn⟩ := Option.isSome_iff_exists.mp a
    exact c (by rw [hn, hl n hn])
  have h2 : ¬ (form.refused = true ∧ (s.rxDone.openRequest ⟨kind, body⟩).pc.state = .parking) := fun ⟨a, c⟩ => hw a c
  have h3 : s.rxDone.cl.request = none := hr
  unfold State.request State.orWake
  rw [if_neg hp]
  beta_reduce
  unfold State.takeRequest
  rw [if_neg (Nat.not_lt.mpr hb), h3]
  dsimp only
  unfold State.handle
  rw [if_neg h1, if_neg h2]
  rfl

/-- A request that meets every test of R175 and that its owner accepts. -/
theorem State.request_accepted {s t : State} {kind : Byte} {body b : List Byte} {form : Form} {own : State → List Byte → Answer}
    (hp : s.pc.state ≠ .parked) (hr : s.cl.request = none) (hb : body.length ≤ 63)
    (hl : ∀ n, form.length = some n → body.length = n) (hw : form.refused = true → s.pc.state ≠ .parking)
    (h : own (s.asked ⟨kind, body⟩) body = .accepted t b) :
    s.request kind body form own = .next (State.finish s (t.reply kind b)) := by
  rw [State.request_tested hp hr hb hl hw, h]
  rfl

/-- A request that meets every test of R175 and that its owner refuses. -/
theorem State.request_rejected {s : State} {kind : Byte} {body : List Byte} {form : Form} {own : State → List Byte → Answer}
    {r : Reason} (hp : s.pc.state ≠ .parked) (hr : s.cl.request = none) (hb : body.length ≤ 63)
    (hl : ∀ n, form.length = some n → body.length = n) (hw : form.refused = true → s.pc.state ≠ .parking)
    (h : own (s.asked ⟨kind, body⟩) body = .rejected r) :
    s.request kind body form own = .next (State.finish s { s with cl := s.afterRefusal ⟨kind, body⟩ r }) := by
  rw [State.request_tested hp hr hb hl hw, h]
  rfl

end Sys2Proof.Machine
end

