-- ==== Sys2Proof/Tests/Slice0.lean ====
section
/-! SUPPORT. The project's own tests: the checks of well-formedness refuse what is ill formed; one step gives what the data book's
worked examples and tables say; and concrete states meet the hypotheses of the statements, clause by clause. -/

set_option Elab.async false
set_option maxRecDepth 40000

open Sys2Proof Sys2Proof.Machine

namespace Sys2Proof.Tests

/-! ## Well-formedness -/

/-- A delivered block of 960 equal samples with no erasure. -/
def plainBlock (stamp : Option Nat) : PortBlock :=
  ⟨stamp, .good, 1, .clean, some (List.replicate 960 5), List.replicate 960 false⟩

theorem test_wf_long_body_refused : (Instr.echo (List.replicate 64 0)).wf = false := by decide
theorem test_wf_longest_body_passes : (Instr.echo (List.replicate 63 0)).wf = true := by decide
theorem test_wf_unknown_kind_long_body_refused : (Instr.unknownKindFrame 0x0A (List.replicate 64 0)).wf = false := by decide
theorem test_wf_request_kind_is_not_unknown : (Instr.unknownKindFrame 0x16 []).wf = false := by decide
theorem test_wf_discarded_without_bytes_refused : (Instr.frameDiscarded []).wf = false := by decide
theorem test_wf_block_passes : (Instr.blockPresented (plainBlock (some 0))).wf = true := by decide
theorem test_wf_block_track_100_refused : (Instr.blockPresented { plainBlock none with track := 100 }).wf = false := by decide
theorem test_wf_block_short_flags_refused : (Instr.blockPresented { plainBlock none with flags := [] }).wf = false := by decide
theorem test_wf_block_short_samples_refused : (Instr.blockPresented { plainBlock none with samples := some [] }).wf = false := by
  decide
theorem test_wf_lost_block_has_no_samples : (Instr.blockPresented { plainBlock none with decoder := .lost }).wf = false := by
  decide
theorem test_wf_block_without_samples_is_lost : (Instr.blockPresented { plainBlock none with samples := none }).wf = false := by
  decide

/-! ## Words: the table gives no row a bit -/

theorem test_no_word_is_a_command : decodeTableWord 8 0x16 = none := rfl
theorem test_fetch_word_changes_nothing : State.reset.withFetchWord 8 0x16 = State.reset := rfl

/-! ## States -/

/-- A field of the next state that a command gives. -/
def after {α : Type} (c : Instr) (s : State) (f : State → α) : Option α :=
  match exec c s with
  | .next t => some (f t)
  | .fault _ => none
  | .refused _ => none

/-- A disc with two tracks, starting at 0 and 1,000, and program end 5,000, in slot 1. -/
def disc : DiscRecord := ⟨.present, some 1, some 1, some ⟨2, 5000, 1000⟩, [0, 1000], [], none, 0⟩

/-- The part with that disc seated in record 0. -/
def seated : State :=
  { State.reset with
    lm := { State.reset.lm with magazine := .present }
    dd := ⟨disc :: List.replicate 7 .blank, 1, none⟩ }

/-- Zone A in a play and a supply state on that disc, with an empty chain. -/
def zoneA (p : Play) (v : Supply) : State :=
  seated.modZone .a fun r =>
    { r with selected := some 0, play := p, supply := v, nextRead := some 7, track := 1, resume := some ⟨7, 0⟩ }

/-- With both gains of zone A at `g`. -/
def sounding (g : Nat) (s : State) : State :=
  s.modOc .a fun c => { c with left := { c.left with gain := g }, right := { c.right with gain := g } }

/-- With servo command `c` outstanding and the drive in state `d`. -/
def sent (c : Servo) (d : DriveState) (s : State) : State :=
  s.modDa fun x => { x with out := some ⟨c, false, c.limit, none⟩, state := d }

/-- A LIVE claim. -/
def claim (k : ClaimKind) (z : Option ZoneId) : Claim := ⟨k, z, some 1, none, none, 4, false, 0, .live⟩

/-- Reading for a claim of zone A in phase `p`. -/
def reading (k : ClaimKind) (p : Phase) (s : State) : State :=
  { s with
    da := { s.da with
      claim := some (claim k (some .a)), state := .reading, slot := .slot 1, speed := .known 4, blockTimer := ms 1000 }
    bi := { s.bi with tag := some ⟨k, some .a, some p, .live, none⟩ } }

/-- With a pending request of kind `k`, whose frame has an empty body. -/
def asking (k : Byte) (s : State) : State := { s with cl := s.cl.asking ⟨k, []⟩ }

/-- In power state `p`. -/
def power (p : PowerState) (s : State) : State := { s with pc := { s.pc with state := p } }

/-- The frame at the transmitter. -/
def onLine (s : State) : Option Sending := s.cl.transmitter

/-! ## One step, against the data book's examples and tables -/

theorem test_check_byte_of_zone_status_b : frameBytes ⟨0x16, [1]⟩ = [0xC3, 0x02, 0x16, 0x01, 0xE7] := by decide
theorem test_assembler_reads_zone_status_b :
    Assembler.feed .hunting .stopped (lineBytes [0xC3, 0x02, 0x16, 0x01, 0xE7]) = (.hunting, [⟨0x16, [1]⟩]) := by decide

/-- The directory of the three-track disc of the data book (R5, R6). -/
def directorySamples : List Sample :=
  [0x0300, 0xEA60, 0x0000, 0x0000, 0x474A, 0x00A3, 0xAC03, 0x2D00] ++ List.replicate 952 0

theorem test_three_track_directory :
    readDirectory 0 .clean directorySamples (List.replicate 960 false) = some ⟨60000, [0, 18250, 41900]⟩ := by decide
theorem test_directory_with_bad_check :
    readDirectory 0 .clean (directorySamples.set 6 0xAD03) (List.replicate 960 false) = none := by decide
theorem test_directory_erased_in_a_start :
    readDirectory 0 .clean directorySamples ((List.replicate 960 false).set 5 true) = none := by decide
theorem test_fingerprint_start_sum : (DiscInfo.print ⟨60000, [0, 18250, 41900]⟩) = ⟨3, 60000, 60150⟩ := by decide
theorem test_fingerprint_start_sum_wraps : (DiscInfo.print ⟨70000, [0, 30000, 61000]⟩).startSum = 25464 := by decide

theorem test_scale_truncates_toward_zero : scale (-1000) 100 = -390 ∧ scale 1000 100 = 390 := by decide
theorem test_interpolation_rounds_half_up : interpolate 0 1 1 1 = 1 ∧ interpolate 0 (-1) 1 1 = 0 := by decide

theorem test_renumbered_ranks :
    let x : DiscRecord := { disc with rank := 240 }
    let d : Directory :=
      ⟨[x, .blank, .blank, { x with rank := 17 }, .blank, .blank, { x with rank := 254 }, .blank], 255, none⟩
    ((d.refresh 0).records.map (·.rank), (d.refresh 0).sequence) = ([3, 0, 0, 0, 0, 0, 2, 0], 4) := by decide

theorem test_region_merges_within_4 :
    insertRegion [⟨100, 100, .unreadable, 1⟩] ⟨105, 105, .skipProne, 1⟩ = [⟨100, 105, .both, 2⟩] := by decide
theorem test_region_stands_beyond_4 :
    insertRegion [⟨100, 100, .unreadable, 1⟩] ⟨106, 106, .skipProne, 1⟩ =
      [⟨100, 100, .unreadable, 1⟩, ⟨106, 106, .skipProne, 1⟩] := by decide

theorem test_echo : after (.echo [1, 2]) State.reset onLine = some (some (.reply ⟨0x41, [1, 2]⟩)) := by decide
theorem test_identify :
    after (.identify []) State.reset onLine = some (some (.reply ⟨0x42, [0x43, 0x58, 0x32, 0x36, 1, 1, 2, 6]⟩)) := by decide
theorem test_configure_clamps_id_8 :
    after (.configure [8, 0, 0, 40]) State.reset (fun t => (t.params.interpLimit, onLine t)) =
      some (32, some (.reply ⟨0x43, [8, 0, 0, 32]⟩)) := by decide
theorem test_configure_clamps_low_water :
    after (.configure [3, 0, 0x07, 0xD0]) State.reset (·.params.lowWater) = some ⟨1982, 800⟩ := by decide
theorem test_configure_quota_reclamps :
    after (.configure [1, 0, 0, 100]) State.reset (fun t => (t.params.quota.a, t.params.lowWater.a, t.params.startThr.a,
      t.params.restartThr.a)) = some (100, 50, 100, 100) := by decide
theorem test_query_param : after (.queryParam [14, 0]) State.reset onLine = some (some (.reply ⟨0x44, [14, 0, 2, 0]⟩)) := by decide
theorem test_pending_request_is_its_frame : after (.configure [6, 0, 0, 64]) State.reset (fun t => t.cl.request.map (·.frame)) =
    some (some ⟨0x03, [6, 0, 0, 64]⟩) := by decide
theorem test_reset_unanswered : after (.reset []) State.reset (fun t => (onLine t, t.softDue)) = some (none, true) := by decide
theorem test_standby : after (.standby []) State.reset (fun t => (t.pc.state, onLine t)) =
    some (.parking, some (.reply ⟨0x46, [1]⟩)) := by decide
theorem test_standby_sends_unload : after (.standby []) State.reset (·.da.out.map (·.cmd)) = some (some .unload) := by decide
theorem test_hush_sets : after (.hush [1]) State.reset (·.cl.hush) = some true := by decide
theorem test_hush_bad_value : after (.hush [2]) State.reset onLine = some (some (.reply ⟨0x7F, [7, 3]⟩)) := by decide
theorem test_device_status :
    after (.deviceStatus []) State.reset onLine = some (some (.reply ⟨0x48, [0, 0xFF, 0, 0, 0, 0, 0, 0]⟩)) := by decide
theorem test_set_rotation : after (.setRotation (List.replicate 16 2)) State.reset (·.da.rotation) =
    some (List.replicate 16 .any) := by decide
theorem test_select : after (.select [0, 1]) seated (fun t => ((t.zone .a).selected, onLine t)) =
    some (some 0, some (.reply ⟨0x50, [0, 0, 2, 0xFF, 0xFF, 0xFF, 0xFF, 0xFF]⟩)) := by decide
theorem test_play_track_2 : after (.play [0, 1, 0, 0, 2]) (zoneA .stopped .idle) (fun t =>
    ((t.zone .a).play, (t.zone .a).supply, (t.zone .a).nextRead)) = some (.priming, .feeding, some 1000) := by decide
theorem test_play_loads_the_disc : after (.play [0, 1, 0, 0, 2]) (zoneA .stopped .idle) (·.da.out.map (·.cmd)) =
    some (some (.load 1)) := by decide
theorem test_pause_sounding : after (.pause [0]) (sounding 256 (zoneA .playing .feeding)) (fun t =>
    ((t.zone .a).play, (t.zone .a).pausePending)) = some (.playing, true) := by decide
theorem test_resume_of_an_empty_chain : after (.resume [0]) (zoneA .paused .feeding) (fun t => (t.zone .a).play) =
    some .priming := by decide
theorem test_stop_sounding : after (.stop [0]) (sounding 1 (zoneA .playing .feeding)) (fun t =>
    ((t.zone .a).play, (t.zone .a).supply, (t.zone .a).stopPending)) = some (.playing, .idle, true) := by decide
theorem test_seek_beyond_the_end : after (.seek [0, 2, 0, 0x20, 0]) (zoneA .paused .feeding) (fun t =>
    ((t.zone .a).nextRead, (t.zone .a).track)) = some (some 1000, 2) := by decide
theorem test_zone_status : after (.zoneStatus [1]) State.reset onLine = some (some (.reply ⟨0x56,
    [1, 0, 0, 0, 0, 0, 0x07, 0xFE, 0xFF, 0xFF, 0xFF, 0, 0, 0, 0, 0, 0, 0, 0xFF]⟩)) := by decide
theorem test_hold_is_granted : after (.holdPickup []) State.reset (fun t => (t.da.hold, t.da.state, t.cl.notices)) =
    some (.granted, .held, [⟨0x75, [1]⟩]) := by decide
theorem test_release_without_hold : after (.releasePickup []) State.reset onLine =
    some (some (.reply ⟨0x7F, [0x21, 4]⟩)) := by decide
theorem test_eject_without_magazine : after (.eject []) State.reset onLine =
    some (some (.reply ⟨0x7F, [0x22, 4]⟩)) := by decide
theorem test_eject_unloads : after (.eject []) seated (fun t => (t.lm.magazine, t.da.out.map (·.cmd))) =
    some (.ejecting, some .unload) := by decide
theorem test_reset_drive_out_of_fault : after (.resetDrive []) State.reset onLine =
    some (some (.reply ⟨0x7F, [0x23, 4]⟩)) := by decide
theorem test_disc_record : after (.discRecord [0]) seated onLine = some (some (.reply ⟨0x70,
    [0, 1, 1, 1, 2, 0x00, 0x13, 0x88, 0x03, 0xE8, 0, 0xFF, 0xFF, 0xFF, 0xFF, 0xFF, 0, 0]⟩)) := by decide
theorem test_track_list : after (.trackList [0, 0]) seated onLine =
    some (some (.reply ⟨0x72, [0, 0, 2, 0, 0, 0, 0x00, 0x03, 0xE8]⟩)) := by decide
theorem test_defect_list_of_none : after (.defectList [0, 0]) seated onLine = some (some (.reply ⟨0x71, [0, 0, 0, 0]⟩)) := by
  decide
theorem test_forget_disc : after (.forgetDisc [0]) seated (fun t => t.dd.records.map (·.state)) =
    some (List.replicate 8 .free) := by decide
theorem test_unknown_kind : after (.unknownKindFrame 0x0A []) State.reset onLine =
    some (some (.reply ⟨0x7F, [0x0A, 1]⟩)) := by decide
theorem test_bytes_stand_in_the_assembler : after (.frameDiscarded (lineBytes [0xC3, 2])) State.reset (·.cl.rx.stage) =
    some .kind := by decide
theorem test_gap_brings_hunt : after (.linkGapTimeout (lineBytes [0xC3, 2])) State.reset (·.cl.rx.stage) = some .hunt := by
  decide
theorem test_sent_frame_ends_the_request :
    after .transmitFrameDone { asking 1 State.reset with
      cl := { (asking 1 State.reset).cl with transmitter := some (.reply ⟨0x41, []⟩) } } (·.cl.request) = some none := by decide
theorem test_trailing_block : after (.blockPresented (plainBlock (some 7))) State.reset (·.bs.freeCount) = some 4095 := by decide
theorem test_block_appended : after (.blockPresented (plainBlock (some 7))) (reading .refill .appending (zoneA .priming .feeding))
    (fun t => (t.fill .a, (t.zone .a).nextRead, t.bs.freeCount)) = some (1, some 8, 4094) := by decide
theorem test_skip : after (.blockPresented (plainBlock (some 9))) (reading .refill .appending (zoneA .priming .feeding))
    (fun t => (t.fill .a, (t.zone .a).supply, t.da.out.map (·.cmd))) = some (0, .rejoining, some .pause) := by decide
theorem test_fade_step : after (.frameEvent .a) (sounding 256 (zoneA .paused .feeding)) (·.gain .a .left) = some 255 := by decide
theorem test_frame_of_a_silent_zone : after (.frameEvent .b) State.reset (fun t => (t.gain .b .left, (t.oc.get .b).outL)) =
    some (0, 0) := by decide
theorem test_load_done : after .loadDone (sent (.load 1) .loading State.reset) (fun t => (t.da.state, t.da.slot, t.da.speed)) =
    some (.down, .slot 1, .known 0) := by decide
theorem test_unload_done : after .unloadDone (sent .unload .loading State.reset) (·.da.slot) = some .none := by decide
theorem test_spin_done : after .spinDone (sent (.spin 2) .spinning State.reset) (fun t => (t.da.state, t.da.speed)) =
    some (.ready, .known 2) := by decide
theorem test_spin_0_done : after .spinDone (sent (.spin 0) .spinning State.reset) (·.da.state) = some .down := by decide
theorem test_seek_done : after .seekDone (sent (.seek .directory) .seeking State.reset) (·.da.state) = some .ready := by decide
theorem test_pause_done : after .pauseDone (sent .pause .stopping State.reset) (·.da.state) = some .ready := by decide
theorem test_latch_open_done : after .latchOpenDone (sent .latchOpen .loading { seated with
    lm := { seated.lm with magazine := .ejecting, ejectStage := .unlatching } }) (fun t => (t.da.state, t.lm.ejectStage)) =
    some (.down, .latchWait) := by decide
theorem test_abort_done : after .abortDone (State.reset.modDa fun d => { d with
    out := some ⟨.abort, false, Servo.abort.limit, some (.spin 4)⟩, state := .spinning }) (·.da.out) =
    some (some ⟨.spin 4, true, .running 4000000000, none⟩) := by decide
theorem test_jam_faults : after (.commandFailed .load .jam) (sent (.load 1) .loading State.reset) (·.da.state) = some .fault := by
  decide
theorem test_load_without_disc : after (.commandFailed .load .noDisc) (sent (.load 1) .loading State.reset) (·.da.slot) =
    some .none := by decide
theorem test_track_lost : after .trackLost (reading .refill .appending (zoneA .playing .feeding)) (fun t => (t.zone .a).supply) =
    some .rejoining := by decide
theorem test_track_lost_at_480000_records_no_region :
    after .trackLost ((reading .refill .appending (zoneA .playing .feeding)).modZone .a fun r => { r with nextRead := some 480000 })
      (fun t => t.dd.records.map (·.defects)) = some (List.replicate 8 []) := by decide
theorem test_command_timeout_aborts : after .commandTimeout (sent (.load 1) .loading State.reset) (·.da.out) =
    some (some ⟨.abort, false, .running 1000000000, some (.load 1)⟩) := by decide
theorem test_block_timer_is_a_track_loss : after .blockTimerExpiry (reading .refill .appending (zoneA .playing .feeding))
    (·.da.out.map (·.cmd)) = some (some .pause) := by decide
theorem test_grace_ends : after .graceTimerExpiry (State.reset.modDa fun d => { d with
    state := .held, hold := .revoking, graceTimer := ms 2000 }) (fun t => (t.da.hold, t.da.state)) =
    some (.lapsed, .ready) := by decide
theorem test_idle_spins_down : after .idleTimerExpiry (State.reset.modDa fun d => { d with
    state := .ready, idleTimer := ms 20000 }) (·.da.out.map (·.cmd)) = some (some (.spin 0)) := by decide
theorem test_sixth_rise_sets_rough_road : after .shockRise { State.reset with sm := { State.reset.sm with count := 5 } }
    (fun t => (t.sm.count, t.sm.roughRoad)) = some (6, true) := by decide
theorem test_shock_fall_starts_settling : after .shockFall State.reset (·.sm.settleTimer) = some (.running 60000000) := by decide
theorem test_settled : after .settleTimerExpiry { zoneA .playing .feeding with
    sm := { State.reset.sm with settleTimer := ms 60, shocked := some ⟨.a, .appending⟩ } } (fun t => (t.zone .a).supply) =
    some .rejoining := by decide
theorem test_window_clears_rough_road : after .windowTimerExpiry { State.reset with
    sm := { State.reset.sm with count := 1, roughRoad := true } } (fun t => (t.sm.count, t.sm.roughRoad)) = some (0, false) := by
  decide
theorem test_window_keeps_rough_road : after .windowTimerExpiry { State.reset with
    sm := { State.reset.sm with count := 2, roughRoad := true } } (·.sm.roughRoad) = some true := by decide
theorem test_switch_closes : after .magazineSwitchCloses State.reset (fun t => (t.lm.magazine, t.lm.debounce)) =
    some (.settling, .running 400000000) := by decide
theorem test_switch_opens : after .magazineSwitchOpens { zoneA .playing .feeding with
    pins := { State.reset.pins with magClosed := true } } (fun t => (t.lm.magazine, (t.zone .a).supply)) =
    some (.absent, .absent) := by decide
theorem test_seated : after .debounceTimerExpiry { State.reset with
    lm := { State.reset.lm with magazine := .settling, debounce := ms 400 } } (fun t => (t.lm.magazine, t.lm.queue)) =
    some (.present, [1, 2, 3, 4, 5, 6]) := by decide
theorem test_slot_ends : after .slotTimerExpiry { seated with
    lm := { seated.lm with queue := [3, 4], slotTimer := .running } } (·.lm.queue) = some [4] := by decide
theorem test_button_ejects : after .ejectButton seated (·.lm.magazine) = some .ejecting := by decide
theorem test_eject_abandoned : after .latchTimerExpiry { seated with
    lm := { seated.lm with magazine := .ejecting, ejectStage := .latchWait, latchTimer := ms 10000 } } (·.lm.magazine) =
    some .present := by decide
theorem test_run_line_falls : after .runLineFalls State.reset (·.pc.state) = some .parking := by decide
theorem test_run_line_rises_in_parking : after .runLineRises (power .parking State.reset) (·.pc.wakePending) =
    some (some .run) := by decide
theorem test_enter_parked : after .enterParked { State.reset with
    pc := { State.reset.pc with state := .parking, driveDone := true, silenceDone := true } } (·.pc.state) = some .parked := by
  decide
theorem test_wake_of_an_awake_part : after (.wake .run Config.resetStraps) State.reset (·.pc.state) = some .active := by decide
theorem test_soft_start_answers : after .softStart (asking 5 State.reset) onLine = some (some (.reply ⟨0x45, [0]⟩)) := by decide
theorem test_power_up_settles_a_closed_magazine : after (.powerUp { Config.resetPins with magClosed := true }) State.reset
    (·.lm.magazine) = some .settling := by decide
theorem test_busy : after (.echo []) (asking 1 State.reset) onLine =
    some (some (.refusal ⟨0x7F, [1, 5]⟩)) := by decide
theorem test_step_runs_the_front : (match step { State.reset with pending := [.hush [1]] } with
    | .next t => (t.cl.hush, t.pending)
    | .fault _ => (false, [])
    | .refused _ => (false, [])) = (true, []) := by decide

/-! ## Concrete states that meet the hypotheses of the statements

Each theorem names its statement and shows, for each clause that has hypotheses, a state and operands that meet them together. -/

/-- Parked, with the stored sum that agrees. -/
def parkedWarm : State := { State.reset with pc := { State.reset.pc with state := .parked, checkSum := State.reset.checkSum } }

/-- Parked, with a stored sum that does not agree. -/
def parkedCold : State :=
  { State.reset with pc := { State.reset.pc with state := .parked, checkSum := State.reset.checkSum + 1 } }

theorem witness_StepRunsFrontCommand : ({ State.reset with pending := [.softStart, .seekDone] } : State).pending =
    .softStart :: [.seekDone] := rfl
theorem witness_EmptyQueueIdlesAndNoWordIsACommand : State.reset.pending = [] := rfl
theorem witness_WakeIsWarmOrCold :
    (parkedWarm.pc.state = .parked ∧
      ({ parkedWarm with pins := wokenPins parkedWarm.pins .run Config.resetStraps } : State).checkSum = parkedWarm.pc.checkSum) ∧
    parkedCold.pc.state = .parked ∧
      ({ parkedCold with pins := wokenPins parkedCold.pins .link Config.resetStraps } : State).checkSum ≠ parkedCold.pc.checkSum :=
  ⟨⟨rfl, rfl⟩, rfl, fun h => Nat.succ_ne_self State.reset.checkSum h.symm⟩
theorem witness_ResetStopsTheZonesAndRestarts :
    (let s := zoneA .playing .feeding
     s.listening ∧ (seated.zone .a).play = .stopped ∧
       ((s.zone .a).play ≠ .stopped ∧ (s.zone .a).stopPending = false ∧ (sounding 1 s).audible .a = true ∧ s.audible .a = false) ∧
       ((s.zone .a).selected = some 0 ∧ s.record 0 = some disc ∧ s.fill .a = 0 ∧ (s.zone .a).resume = some ⟨7, 0⟩ ∧
         (s.zone .b).play = .stopped) ∧ zoneOf s.straps 0 = some .a) ∧
    (State.reset.listening ∧ (State.reset.zone .a).play = .stopped ∧ (State.reset.zone .b).play = .stopped) ∧
    ((asking 5 State.reset).softDue = true ∧ (asking 5 State.reset).pc.runFell = false ∧ (asking 5 State.reset).da.out = none) ∧
    (let s : State := (asking 5 State.reset).modPc fun p => { p with runFell := true }
     s.softDue = true ∧ s.pc.runFell = true ∧ s.da.out = none) ∧
    (asking 5 State.reset).bs.sound ∧
    (asking 5 (sent .read .reading State.reset)).softDue = true ∧ (asking 5 (sent .read .reading State.reset)).da.out ≠ none :=
  ⟨⟨⟨rfl, rfl⟩, by decide, by decide, by decide, by decide⟩, ⟨⟨rfl, rfl⟩, by decide, by decide⟩, by decide, by decide,
    Store.sound_cold, by decide, by decide⟩

/-- A step from a state with a command waiting, as the statements `StepKeeps…` ask for. -/
def waiting : State := { State.reset with pending := [.frameEvent .a] }

theorem step_of_waiting : ∃ t, step waiting = .next t := ⟨_, rfl⟩

theorem witness_StepKeepsTheBucketPool : waiting.bs.sound ∧ ∃ t, step waiting = .next t := ⟨Store.sound_cold, step_of_waiting⟩
theorem witness_StepKeepsTheLinkBounds : waiting.cl.bounded ∧ ∃ t, step waiting = .next t :=
  ⟨⟨by decide, by decide, by decide⟩, step_of_waiting⟩
theorem witness_StepKeepsTheDirectory : seated.dd.lawful ∧ seated.dd.ranked ∧ ∃ t, step seated = .next t := by
  refine ⟨⟨rfl, fun r hr => ?_⟩, ⟨rfl, by decide, by decide, by decide⟩, _, rfl⟩
  have h : r.defects = [] := by
    revert r
    decide
  rw [h]
  exact ⟨⟨by decide, by decide, List.Pairwise.nil⟩, by decide⟩
theorem witness_StepKeepsTheDriveBus : waiting.da.kept ∧ ∃ t, step waiting = .next t :=
  ⟨⟨by decide, by decide, by decide⟩, step_of_waiting⟩
theorem lawful_default : lawfulParams .default Config.resetStraps := by
  refine ⟨fun z => ?_, by decide, fun z => ?_, fun z => ?_, fun z => ?_, by decide, fun id lo hi v h g => ?_⟩
  · cases z <;> decide
  · cases z <;> decide
  · cases z <;> decide
  · cases z <;> decide
  · unfold singleRange at h
    split at h <;> simp_all [singleParam, Params.default] <;> omega
theorem witness_StepKeepsTheParameterRanges : lawfulParams waiting.params waiting.straps ∧ ∃ t, step waiting = .next t :=
  ⟨lawful_default, step_of_waiting⟩
theorem witness_GainsMoveOneStepAtFrameEvents :
    (sounding 256 State.reset).pc.state ≠ .parked ∧ (∃ t, exec (.frameEvent .a) (sounding 256 State.reset) = .next t ∧
      t.gain .a .left ≠ (sounding 256 State.reset).gain .a .left) ∧ (sounding 256 State.reset).gain .a .left ≤ 256 :=
  ⟨by decide, ⟨_, rfl, by decide⟩, by decide⟩
theorem witness_SettingsChangeByTheirRequestsOnly : State.reset.pc.state ≠ .parked ∧ ∃ t, exec .shockRise State.reset = .next t :=
  ⟨by decide, _, rfl⟩
theorem witness_FinishLeavesTheRestAlone : State.reset.bs.wf = true ∧
    (sent .unload .loading State.reset).driveBusy = true ∧ (sent .unload .loading State.reset).da.parkStage ≠ .waiting ∧
    (sent .unload .loading State.reset).da.hold ≠ .granted ∧ (sent .unload .loading State.reset).tagLive = false := by decide
/-- Zone A PAUSED and FEEDING on a disc whose slot is loaded: no rejoin claimant and no urgent zone. -/
def choosing : State := (zoneA .paused .feeding).modDa fun d => { d with slot := .slot 1, state := .ready }

theorem witness_ArbitrationTakesTheFirstClaimant :
    (zoneA .starved .rejoining).lowerFill (zoneA .starved .rejoining).rejoinClaimant = some .a ∧
    ((zoneA .priming .feeding).lowerFill (zoneA .priming .feeding).rejoinClaimant = none ∧
      (zoneA .priming .feeding).lowerFill (zoneA .priming .feeding).urgent = some .a) ∧
    (let s : State := { seated with lm := { seated.lm with queue := [2] } }
     s.lowerFill s.rejoinClaimant = none ∧ s.lowerFill s.urgent = none ∧ s.lm.queue = 2 :: []) ∧
    (let s : State := seated.modDa fun d => { d with hold := .queued }
     s.lowerFill s.rejoinClaimant = none ∧ s.lowerFill s.urgent = none ∧ s.lm.queue = [] ∧ s.da.hold = .queued) ∧
    ((fun _ => true : ZoneId → Bool) .a = true ∧ (fun _ => true : ZoneId → Bool) .b = true ∧ seated.fill .a = seated.fill .b) ∧
    (choosing.lowerFill choosing.rejoinClaimant = none ∧ choosing.lowerFill choosing.urgent = none ∧ choosing.lm.queue = [] ∧
      choosing.da.hold ≠ .queued ∧ choosing.da.claim = none) ∧
    (∀ l, (let s := choosing.modRu fun u => { u with lists := ⟨l, []⟩ }
      s.offered .a = true ∧ s.offered .b = false ∧ s.ru.lists.get .a = l)) ∧
    ((⟨8, 1⟩ : Entry).reads < choosing.cap .a 8 ∧ choosing.cap .a 8 ≤ (⟨8, 4⟩ : Entry).reads) ∧
    ((choosing.modAudit .a fun u => { u with target := some 8 }).lu.audit.get .a).target = some 8 ∧
    (∀ z, choosing.ru.lists.get z = [] ∧ (choosing.lu.audit.get z).target = none) ∧ choosing.da.rotPtr < 16 ∧
    (choosing.refillClaimant .a = true ∧ choosing.da.rotation.getD ((choosing.da.rotPtr + 0) % 16) .any = .a) ∧
    ∀ z, (seated.modDa fun d => { d with state := .ready }).refillClaimant z = false := by
  refine ⟨by decide, by decide, by decide, by decide, by decide, by decide, fun _ => ⟨rfl, rfl, rfl⟩, by decide,
    by decide, fun z => by cases z <;> decide, by decide, by decide, fun z => by cases z <;> decide⟩
theorem witness_AssemblerReadsEveryFrameBack : (⟨0x01, List.replicate 63 0xC3⟩ : Frame).body.length ≤ 63 := by decide
theorem witness_BadFramesAreDiscarded :
    ((⟨0x01, []⟩ : Frame).body.length ≤ 63 ∧ (0 : Byte) ≠ checkByte 0x01 []) ∧ ((65 : Byte).toNat = 0 ∨ 64 < (65 : Byte).toNat) ∧
    (∀ b ∈ lineBytes [1, 2], b.value ≠ 0xC3) ∧ State.reset.pc.state ≠ .parked ∧
    (Assembler.feed State.reset.cl.rx (gapTime State.reset.straps) (lineBytes [0xC3, 2])).2 = [] ∧ lineBytes [0xC3, 2] ≠ [] := by
  decide
theorem witness_FramesAreTestedInOrder :
    ((asking 1 State.reset).pc.state ≠ .parked ∧ (asking 1 State.reset).cl.request = some ⟨⟨1, []⟩, none, 0⟩) ∧
    (∃ x, ({ State.reset.cl with transmitter := some (.notice ⟨0x72, [0]⟩) } : Link).transmitter = some x) ∧
    State.reset.cl.refusals.length < 4 ∧
    4 ≤ ({ State.reset.cl with refusals := List.replicate 4 ⟨0x7F, [1, 5]⟩ } : Link).refusals.length ∧
    (State.reset.pc.state ≠ .parked ∧ State.reset.cl.request = none ∧ (0x0A : Byte).toNat ∉ requestKinds) ∧
    (∃ row ∈ requestTable, ∃ n, row.2.1 = some n ∧ ([0] : List Byte).length ≠ n) ∧
    (power .parking State.reset).pc.state = .parking ∧ (power .parking State.reset).cl.request = none ∧
    ∃ row ∈ requestTable, row.2.2.1 = true ∧ row.2.1 = some 0 :=
  ⟨by decide, ⟨_, rfl⟩, by decide, by decide, by decide, ⟨(0x02, some 0, false, .identify), by simp [requestTable], 0, rfl,
    by decide⟩,
    by decide, by decide, (0x05, some 0, true, .reset), by simp [requestTable], rfl, rfl⟩
theorem witness_ZonesAndParametersAreNamedRight : State.reset.listening ∧ 1 < (2 : Byte).toNat ∧
    (({ State.reset with straps := ⟨.r57600, true, false⟩ } : State).listening ∧ (1 : Byte) = 1 ∧
      ({ State.reset with straps := ⟨.r57600, true, false⟩ } : State).straps.singleZone = true) ∧
    19 < (20 : Byte).toNat ∧ zoneOf State.reset.straps 2 = none :=
  ⟨⟨rfl, rfl⟩, by decide, ⟨⟨rfl, rfl⟩, rfl, rfl⟩, by decide, by decide⟩
theorem witness_QueriesAnswerAndChangeNothing : State.reset.pc.state ≠ .parked ∧ State.reset.cl.request = none ∧
    State.reset.straps.singleZone = false ∧ zoneOf State.reset.straps 1 = some .b ∧
    singleParam State.reset.params (6 : Byte).toNat = some 64 ∧
      singleParam State.reset.params (19 : Byte).toNat = some 1 := by decide
theorem witness_HushSetsAndClears : State.reset.pc.state ≠ .parked ∧ State.reset.cl.request = none ∧ State.reset.cl.hush = false ∧
    ({ State.reset with cl := { State.reset.cl with hush := true } } : State).cl.hush = true ∧ (2 : Byte) ≠ 0 ∧ (2 : Byte) ≠ 1 := by
  decide
theorem witness_ConfigureClampsAParameter : State.reset.listening ∧ singleRange (6 : Byte).toNat = some (8, 512) ∧
    singleRange (19 : Byte).toNat = some (0, 1) := ⟨⟨rfl, rfl⟩, rfl, rfl⟩
theorem witness_ConfigureSetsAZonesParameters :
    (State.reset.listening ∧ zoneOf State.reset.straps 1 = some .b ∧ State.reset.straps.singleZone = false) ∧
    (zoneA .paused .feeding).listening ∧ ((zoneA .paused .feeding).zone .a).play ≠ .stopped ∧
    ((State.reset.zone .a).play = .stopped ∧ (State.reset.zone .b).play = .stopped ∧
      4092 < max 64 (min 4028 (nat2 0x0F 0xBC)) + State.reset.params.quota.b) ∧
    max 64 (min 4028 (nat2 0 100)) + State.reset.params.quota.b ≤ 4092 :=
  ⟨⟨⟨rfl, rfl⟩, by decide, by decide⟩, ⟨rfl, rfl⟩, by decide, by decide, by decide⟩
theorem witness_SetRotationReplacesTheTable : State.reset.listening ∧ ([] : List Byte).length ≠ 16 ∧
    ((List.replicate 16 (1 : Byte)).length = 16 ∧
      ∀ b ∈ List.replicate 16 (1 : Byte), b.toNat ≤ 2 ∧ (b = 1 → State.reset.straps.singleZone = false)) ∧
    (List.replicate 16 (3 : Byte)).length = 16 ∧ ∃ b ∈ List.replicate 16 (3 : Byte), 2 < b.toNat :=
  ⟨⟨rfl, rfl⟩, by decide, by decide, by decide, 3, by decide, by decide⟩
theorem witness_ParkingBegins :
    State.reset.listening ∧ (State.reset.pc.state = .active ∧ State.reset.resetting = false) ∧
    ((asking 5 State.reset).pc.state = .active ∧ (asking 5 State.reset).resetting = true) ∧
    (let s := zoneA .playing .feeding
     s.listening ∧ (s.zone .a).play ≠ .stopped ∧ (s.zone .a).selected = some 0 ∧ s.record 0 = some disc ∧
       s.unheard .a = some ⟨7, 0⟩ ∧ (s.zone .b).play = .stopped) ∧
    ((zoneA .playing .fault).modDa fun d => { d with state := .fault }).da.state = .fault :=
  ⟨⟨rfl, rfl⟩, by decide, by decide, ⟨⟨rfl, rfl⟩, by decide⟩, by decide⟩
theorem witness_SelectChoosesTheRecordInASlot : seated.listening ∧ zoneOf seated.straps 0 = some .a ∧
    (7 : Byte).toNat ∉ magazineSlots seated.straps ∧
    ((2 : Byte).toNat ∈ magazineSlots seated.straps ∧ seated.dd.inSlot (2 : Byte).toNat = none) ∧
    (1 : Byte).toNat ∈ magazineSlots seated.straps ∧ (seated.zone .a).play = .stopped ∧
    seated.dd.inSlot (1 : Byte).toNat = some 0 ∧ seated.record 0 = some disc :=
  ⟨⟨rfl, rfl⟩, by decide, by decide, by decide, by decide, by decide, by decide, by decide⟩
theorem witness_PlayPrimesAZone :
    let s := zoneA .stopped .idle
    (s.listening ∧ zoneOf s.straps 0 = some .a ∧ 1 ≤ (3 : Byte).toNat ∧ (3 : Byte).toNat ≤ 3 ∧ (s.zone .a).play = .stopped ∧
      s.selPresent .a = true ∧ s.startPoint .a (3 : Byte).toNat 0 = some ⟨0, 0⟩) ∧
    (1 ≤ 2 ∧ 2 ≤ (s.tracks .a).length) ∧ 5000 ≤ s.programEnd .a ∧ s.programEnd .a < 5001 ∧
    (let d : DiscRecord := { disc with resume := some ⟨5000, 3⟩ }
     let u : State := { s with dd := { s.dd with records := d :: List.replicate 7 .blank } }
     (u.selRec .a).bind (·.resume) = some ⟨5000, 3⟩ ∧ 5000 ≤ u.programEnd .a) ∧
    (s.selRec .a).bind (·.resume) = none ∧ (4 : Byte).toNat > 3 ∧ ((zoneA .paused .feeding).zone .a).play ≠ .stopped ∧
    (s.tracks .a).length < nat3 0 0 3 :=
  ⟨⟨⟨rfl, rfl⟩, by decide, by decide, by decide, by decide, by decide, by decide⟩, by decide, by decide, by decide, by decide,
    by decide, by decide, by decide, by decide⟩
theorem witness_PauseAndResumeByThePlayState :
    (zoneA .playing .feeding).listening ∧ zoneOf (zoneA .playing .feeding).straps 0 = some .a ∧
    ((zoneA .paused .feeding).zone .a).play = .paused ∧
    (((zoneA .playing .feeding).zone .a).stopPending = false ∧ ((zoneA .playing .feeding).zone .a).play = .playing ∧
      ((zoneA .playing .feeding).zone .a).pausePending = false ∧ (sounding 9 (zoneA .playing .feeding)).audible .a = true ∧
      (zoneA .playing .feeding).audible .a = false ∧ ((zoneA .playing .feeding).zone .a).seekPending = none) ∧
    (((zoneA .playing .feeding).modZone .a fun r => { r with pausePending := true }).zone .a).pausePending = true ∧
    ((zoneA .starved .feeding).zone .a).play = .starved ∧ (zoneA .paused .feeding).listening ∧
    (zoneA .paused .feeding).readyToStart .a = false ∧
    ({ zoneA .paused .feeding with params := { Params.default with startThr := ⟨0, 0⟩ } } : State).readyToStart .a = true :=
  ⟨⟨rfl, rfl⟩, by decide, by decide, by decide, by decide, by decide, ⟨rfl, rfl⟩, by decide, by decide⟩
theorem witness_StopStopsAZone :
    let s := zoneA .playing .feeding
    s.listening ∧ zoneOf s.straps 0 = some .a ∧ (seated.zone .a).play = .stopped ∧
    ((s.zone .a).play ≠ .stopped ∧ ((s.modZone .a fun r => { r with stopPending := true }).zone .a).stopPending = true) ∧
    ((s.zone .a).stopPending = false ∧ (sounding 1 s).audible .a = true ∧ (sounding 1 s).ownsClaim .a = false) ∧
    s.audible .a = false ∧ (reading .refill .appending s).ownsClaim .a = true :=
  ⟨⟨rfl, rfl⟩, by decide, by decide, by decide, by decide, by decide, by decide⟩
theorem witness_SeekMovesAZone :
    let s := zoneA .playing .feeding
    (s.tracks .a = [0, 1000] ∧ s.programEnd .a = 5000 ∧ (s.tracks .a).Pairwise (· < ·) ∧ (s.tracks .a)[1 - 1]? = some 0 ∧
      (s.tracks .a).length < 3 ∧ (5000 < nat3 0 0x20 0 ∧ nat3 0 0 7 ≤ 5000) ∧
      ((s.tracks .a)[0]? = some 0 ∧ (s.tracks .a)[1]? = some 1000 ∧ 0 ≤ (s.seekTarget .a 2 7).addr ∧
        (s.seekTarget .a 2 7).addr < 1000) ∧
      (let u : State := { s with dd := ⟨[{ disc with tracks := [8] }], 1, none⟩ }
       (u.seekTarget .a 2 7).addr < (u.tracks .a)[0]?.getD 0)) ∧
    lawfulParams s.params s.straps ∧ (sounding 1 s).canSeek .a = true ∧
    s.listening ∧ zoneOf s.straps 0 = some .a ∧ 2 < (3 : Byte).toNat ∧ 1 ≤ (2 : Byte).toNat ∧ (2 : Byte).toNat ≤ 2 ∧
    seated.canSeek .a = false ∧ (s.canSeek .a = true ∧ (s.zone .a).supply = .feeding ∧ s.ownsClaim .a = false ∧
      (sounding 1 s).audible .a = true) ∧ s.audible .a = false ∧ (zoneA .paused .ended).canSeek .a = true :=
  ⟨by decide, lawful_default, by decide, ⟨rfl, rfl⟩, by decide, by decide, by decide, by decide, by decide, by decide, by decide,
    by decide⟩

/-- The store with one block in zone A's chain, in bucket 1. -/
def oneBlock : Store :=
  (({ Store.cold.setNext 1 0 with freeHead := 2, freeCount := 4094, intake := 1 } : Store).setBucket 1
    (measured (plainBlock (some 7)) 1)).append .a 7

/-- The store with two blocks in zone A's chain, in buckets 1 and 2. -/
def twoBlocks : Store :=
  (({ oneBlock.setNext 2 0 with freeHead := oneBlock.nextOf 2, freeCount := 4093, intake := 2 } : Store).setBucket 2
    (measured (plainBlock (some 8)) 1)).append .a 8

theorem sound_oneBlock : oneBlock.sound :=
  Store.sound_append .a 7 (Store.sound_setBucket 1 _ (Store.sound_allocate Store.sound_cold rfl))
theorem sound_twoBlocks : twoBlocks.sound :=
  Store.sound_append .a 8 (Store.sound_setBucket 2 _ (Store.sound_allocate sound_oneBlock rfl))

/-- With zone B pressing: it plays from the disc in slot 1 with an empty chain. -/
def pressed (s : State) : State :=
  s.modZone .b fun r => { r with selected := some 0, play := .playing, supply := .feeding, nextRead := some 0 }

/-- A chain of 250 blocks in zone A, in the buckets 1 to 250. -/
def longChain : Store := { Store.cold.setNext 250 0 with chain := ⟨⟨1, 250, 250⟩, ⟨0, 0, 0⟩⟩, freeHead := 251, freeCount := 3845 }

theorem witness_FinishLeavesTheRestAlone_acts :
    (let s := (pressed seated).modDa fun d => { d with hold := .granted, state := .held }
     s.urgent .b = true ∧ s.tagLive = false ∧ s.da.parkStage ≠ .waiting) ∧
    (let s : State := pressed { reading .refill .appending (zoneA .playing .feeding) with
       bs := longChain
       params := { Params.default with lowWater := ⟨50, 800⟩ } }
     s.tagLive = true ∧ s.tagAppending = true ∧ s.da.hold ≠ .granted ∧ s.da.parkStage = .none ∧ s.da.state = .reading ∧
       s.da.out = none ∧ s.da.claim = some (claim .refill (some .a)) ∧ State.reset.conditions .b ≠ s.conditions .b ∧
       s.urgent .b = true ∧ s.params.lowWater.get .a + 200 ≤ s.fill .a) ∧
    ((State.reset.modDa fun d => { d with removalDue := true }).driveBusy = false ∧ State.reset.driveBusy = false ∧
      State.reset.liveClaim = none ∧ State.reset.da.removalDue = false ∧ State.reset.tagLive = false ∧
      State.reset.da.hold ≠ .granted ∧ State.reset.da.slot ≠ .none ∧ ({ Drive.cold with slot := .none } : Drive).slot = .none) ∧
    (let s := reading .refill .joining (zoneA .playing .feeding)
     s.lm.ejectStage = .none ∧ s.tagAppending = false ∧ s.da.hold ≠ .granted ∧ s.da.out = none ∧
       s.liveClaim = some (claim .refill (some .a))) := by decide

/-- The pickup is at rest on the disc in slot 1, at speed 4, with a LIVE claim. -/
def preparing (c : Claim) (st : Store) : State :=
  { zoneA .playing .feeding with
    bs := st
    da := { State.reset.da with state := .ready, slot := .slot 1, speed := .known 4, claim := some c } }

theorem witness_ArbitrationTakesTheFirstClaimant_prepares :
    (∀ c st, (let s := preparing c st
      s.driveBusy = false ∧ s.da.removalDue = false ∧ s.ejectRuns = false ∧ s.da.parkStage = .none ∧ s.da.hold ≠ .granted ∧
        s.tagLive = false ∧ s.pc.state = .active ∧ s.unsettled = false ∧ s.da.slot = .slot 1 ∧ s.da.speed = .known 4 ∧ s.bs = st)) ∧
    ((preparing (claim .refill (some .a)) .cold).liveClaim = some (claim .refill (some .a)) ∧
      (claim .refill (some .a)).slot.getD 0 = 1 ∧ (claim .refill (some .a)).speed = 4 ∧ (claim .refill (some .a)).kind ≠ .hold ∧
      State.reset.da.slot ≠ .slot 1 ∧ Speed.known 0 ≠ .known 4) ∧
    ((preparing (claim .refill (some .a)) .cold).freshCtx .a).mode = .locate ∧
    (let s := (preparing (claim .refill (some .a)) twoBlocks).modZone .a fun r => { r with resume := none }
     (s.freshCtx .a).mode = .anchor ∧ s.fill .a = 2 ∧ 0 < 16 ∧ (s.info (s.bucketAt .a (2 - 1 - 0))).stampStatus = .good) ∧
    (let s := (preparing (claim .refill (some .a)) (oneBlock.hear .a true)).modZone .a fun r => { r with resume := none }
     s.fill .a = 0 ∧ s.bs.anchor.get .a ≠ 0 ∧ (s.info (s.bs.anchor.get .a)).stampStatus = .good) ∧
    (let s := (preparing (claim .refill (some .a)) .cold).modZone .a fun r => { r with resume := none }
     s.fill .a = 0 ∧ s.bs.anchor.get .a = 0 ∧ (s.zone .a).supply = .feeding) ∧
    (State.reset.liveClaim = none ∧ State.reset.arbitrate.da.claim = none ∧
      (zoneA .priming .feeding).arbitrate.da.claim.map (·.kind) = some .refill ∧
      (State.reset.modDa fun d => { d with hold := .queued }).arbitrate.da.claim.map (·.kind) = some .hold ∧
      State.reset.unsettled = false ∧ (power .parking State.reset).pc.state ≠ .active) :=
  ⟨fun _ _ => ⟨rfl, rfl, rfl, rfl, fun h => (nomatch h), rfl, rfl, rfl, rfl, rfl, rfl⟩, by decide, by decide, by decide, by decide,
    by decide, by decide⟩
theorem witness_ConfigureSetsAZonesParameters_testReady :
    (let s : State := { zoneA .priming .ended with bs := oneBlock }
     (s.zone .a).play = .priming ∧ (s.zone .a).supply = .ended ∧ 1 ≤ s.fill .a) ∧
    (let s : State := { zoneA .starved .feeding with bs := longChain, params := { Params.default with restartThr := ⟨10, 300⟩ } }
     (s.zone .a).play = .starved ∧ (s.zone .a).supply = .feeding ∧ s.params.restartThr.get .a ≤ s.fill .a) ∧
    (seated.zone .a).play = .stopped := by decide

/-- Zone A PLAYING with one block, drawing at gain 9. -/
def drawing : State :=
  ({ sounding 9 (zoneA .playing .feeding) with bs := oneBlock } : State).modOc .a fun c => { c with drawing := true }

theorem witness_FrameEventsOutputAndFade :
    (drawing.pc.state ≠ .parked ∧ (drawing.zone .a).play = .playing ∧ (drawing.zone .a).pendingAny = false ∧
      drawing.pc.silence = false ∧ drawing.pc.silenceDone = false ∧ drawing.starving .a = false ∧ drawing.fill .a ≠ 0 ∧
      (drawing.zone .a).offset < 479 ∧ (drawing.oc.get .a).drawing = true ∧ (drawing.oc.get .a).fresh = false ∧
      (drawing.oc.get .a).left.run = .none ∧ (drawing.oc.get .a).right.run = .none ∧ drawing.gain .a .left ≤ 256 ∧
      drawing.gain .a .right ≤ 256 ∧ (drawing.bs.bucket (drawing.bs.chain.get .a).head).flags.getD 0 true = false ∧
      (drawing.bs.bucket (drawing.bs.chain.get .a).head).flags.getD 1 true = false) ∧
    (State.reset.straps.singleZone = false ∧ (State.reset.zone .b).play ≠ .playing ∧ (State.reset.zone .b).pendingAny = false ∧
      State.reset.pc.silence = false) ∧
    ({ State.reset with straps := ⟨.r57600, true, false⟩ } : State).straps.singleZone = true := by decide
/-- The store with one block in zone A's chain, in bucket 1, whose samples below number `n` are erased. -/
def erasedBelow (n : Nat) : Store :=
  (({ Store.cold.setNext 1 0 with freeHead := 2, freeCount := 4094, intake := 1 } : Store).setBucket 1
    (measured { plainBlock (some 7) with
      decoder := .flagged, flags := List.replicate n true ++ List.replicate (960 - n) false } 1)).append .a 7

/-- Zone A PLAYING and drawing at gain `g` from store `st`, with head frame offset `o`. -/
def playing (g o : Nat) (st : Store) : State :=
  (({ sounding g (zoneA .playing .feeding) with bs := st } : State).modOc .a fun c => { c with drawing := true }).modZone .a fun r =>
    { r with offset := o, resume := none }

/-- With the last good value 3 and the last repaired value 11 in the left channel, and a cut behind the head that released
address `a` on (R125). -/
def afterCut (a : Nat) (s : State) : State :=
  s.modOc .a fun c => { c with left := { c.left with lastGood := 3, lastRepaired := 11 }, cutAt := some a }

theorem test_run_across_a_cut_starts_from_the_last_repaired :
    after (.frameEvent .a) (afterCut 7 (playing 9 0 (erasedBelow 34))) (fun t => (t.oc.get .a).left.run) = some (.long 11) := by decide
theorem test_other_run_starts_from_the_last_good :
    after (.frameEvent .a) (afterCut 8 (playing 9 0 (erasedBelow 34))) (fun t => (t.oc.get .a).left.run) = some (.long 3) := by decide

theorem witness_FrameEventsHearAndTakeEffect :
    (let s := playing 9 479 twoBlocks
     s.pc.state ≠ .parked ∧ s.draws .a = true ∧ (s.zone .a).offset = 479 ∧ (s.zone .a).pendingAny = false ∧
       (s.lu.audit.get .a).target = none ∧ s.fill .a = 2) ∧
    (let s := playing 9 479 oneBlock
     s.draws .a = true ∧ (s.zone .a).offset = 479 ∧ s.fill .a = 1 ∧ (s.zone .a).supply ≠ .ended ∧
       ((s.modZone .a fun r => { r with supply := .ended }).zone .a).supply = .ended) ∧
    (let s := playing 1 478 oneBlock
     s.gain .a .left ≤ 1 ∧ s.gain .a .right ≤ 1 ∧ (s.zone .a).offset < 479 ∧ s.headAddr .a = some 7 ∧
       (s.zone .a).selected = some 0 ∧ s.record 0 = some disc ∧ (zoneA .stopped .idle).fill .a = 0) ∧
    lawfulParams (playing 1 478 oneBlock).params (playing 1 478 oneBlock).straps ∧
    (∀ x y t, (let r : Zone := { ((playing 1 478 oneBlock).zone .a) with stopPending := x, pausePending := y, seekPending := t }
      r.stopPending = x ∧ r.pausePending = y ∧ r.seekPending = t)) ∧
    (let s : State := { State.reset with pc := { State.reset.pc with silence := true } }
     s.pc.silence = true ∧ (∀ d, s.gain .a d ≤ 1) ∧ (∀ d, s.gain .b d = 0) ∧ 1 < (sounding 2 s).gain .a .left ∧
       (sounding 2 s).pc.silence = true) ∧
    (let s := playing 256 224 oneBlock
     (s.zone .a).play = .playing ∧ (s.zone .a).supply ≠ .ended ∧ s.fill .a * 480 - (s.zone .a).offset ≤ s.gain .a .left) ∧
    (let s := playing 9 0 (erasedBelow 4)
     s.draws .a = true ∧ (s.zone .a).pendingAny = false ∧ (s.oc.get .a).fresh = false ∧ (s.oc.get .a).left.run = .none ∧
       1 ≤ 2 ∧ 2 ≤ s.params.interpLimit ∧ (∀ n, n < 2 → s.ahead .a .left n = some (5, true)) ∧
       s.ahead .a .left 2 = some (5, false)) ∧
    (let s := playing 9 0 (erasedBelow 34)
     s.draws .a = true ∧ (∀ n, n < 17 → s.ahead .a .left n = some (5, true)) ∧ s.params.interpLimit = 16) ∧
    (let s := (playing 9 0 (erasedBelow 34)).modOc .a fun c => { c with cutAt := some 7 }
     (s.zone .a).offset = 0 ∧ (s.oc.get .a).cutAt ≠ none ∧ s.headAddr .a = (s.oc.get .a).cutAt) :=
  ⟨by decide, by decide, by decide, lawful_default, fun _ _ _ => ⟨rfl, rfl, rfl⟩,
    ⟨rfl, fun d => by cases d <;> decide, fun d => by cases d <;> decide, by decide, rfl⟩, by decide, by decide, by decide,
      by decide⟩
theorem witness_RepairsStayBetweenTheBounds :
    (({ Channel.start with run := .short 0 100 32 32 false } : Channel).run = .short 0 100 32 32 false ∧ 1 ≤ 32 ∧ 32 ≤ 32) ∧
    ({ Channel.start with run := .long 5 } : Channel).run = .long 5 ∧ Channel.start.run = .none ∧ 256 ≤ 256 := by decide
theorem witness_HoldAndReleaseByTheHoldState : State.reset.listening ∧ State.reset.da.state ≠ .fault ∧ State.reset.da.hold = .none ∧
    (∀ h, ({ State.reset.da with hold := h } : Drive).hold = h) ∧ State.reset.lowerFill State.reset.rejoinClaimant = none ∧
    State.reset.lowerFill State.reset.urgent = none ∧ State.reset.lm.queue = [] :=
  ⟨⟨rfl, rfl⟩, by decide, rfl, fun _ => rfl, by decide, by decide, rfl⟩
theorem witness_EjectsAndLoaderTimers :
    (seated.listening ∧ seated.canEject = true ∧ seated.da.hold = .none ∧ seated.liveClaim = none ∧
      (∀ h, (seated.modDa fun d => { d with hold := h }).canEject = true) ∧ State.reset.listening ∧ State.reset.canEject = false) ∧
    (let s := reading .ident .joining seated
     s.canEject = true ∧ s.da.claim = some (claim .ident (some .a)) ∧ (claim .ident (some .a)).standing = .live ∧
       s.da.hold = .none ∧ s.da.out = none ∧ s.da.state = .reading ∧
       (s.modDa fun d => { d with state := .ready }).da.state ≠ .reading ∧ (sent .read .reading s).da.out ≠ none ∧
       (sent .read .reading s).canEject = true) ∧
    (∀ n, (let d : DiscRecord := { disc with state := .departed, slot := none, lastSlot := some n }
      let s : State := (({ seated with dd := ⟨d :: { d with lastSlot := some 6 } :: List.replicate 6 .blank, 1,
        none⟩ } : State).modZone .a
        fun r => { r with selected := some 0 }).modZone .b fun r => { r with selected := some 1 }
      s.selRec .a = some d ∧ d.state = .departed ∧ d.lastSlot = some n ∧ (s.selRec .b).bind (·.lastSlot) = some 6)) ∧
    (∀ z, State.reset.selRec z = none) ∧
    (let l : Loader := { State.reset.lm with magazine := .settling, debounce := ms 400 }
     l.magazine = .settling ∧ l.debounce ≠ .stopped) ∧ State.reset.lm.debounce = .stopped ∧
    (∀ b, (let l : Loader := { State.reset.lm with ejectStage := .latchWait, latchTimer := ms 10000, fromSettling := b }
      l.ejectStage = .latchWait ∧ l.latchTimer ≠ .stopped ∧ l.fromSettling = b)) ∧ State.reset.lm.latchTimer = .stopped ∧
    State.reset.lm.slotTimer ≠ .running ∧
    (∀ l, (let s : State := { reading .ident .joining seated with
        lm := { State.reset.lm with slotTimer := .running, queue := 1 :: l } }
      s.pc.state ≠ .parked ∧ s.lm.slotTimer = .running ∧ s.lm.queue = 1 :: l ∧ s.da.claim = some (claim .ident (some .a)))) ∧
    (((zoneA .playing .absent).zone .a).supply = .absent ∧ ((zoneA .playing .absent).zone .a).play ≠ .priming ∧
      ((zoneA .playing .absent).zone .b).supply ≠ .absent) :=
  ⟨⟨⟨rfl, rfl⟩, by decide, rfl, by decide, fun _ => rfl, ⟨rfl, rfl⟩, by decide⟩, by decide, fun _ => ⟨rfl, rfl, rfl, rfl⟩,
    fun z => by cases z <;> rfl, by decide, by decide, fun _ => ⟨rfl, fun h => (nomatch h), rfl⟩, by decide, by decide,
    fun _ => ⟨fun h => (nomatch h), rfl, rfl, rfl⟩, by decide⟩
theorem witness_ResetDriveLeavesFault : State.reset.listening ∧ State.reset.da.state ≠ .fault ∧
    (let s := (zoneA .playing .fault).modDa fun d => { d with state := .fault }
     s.listening ∧ s.da.state = .fault ∧ (s.zone .a).supply = .fault ∧ (s.zone .b).supply ≠ .fault) :=
  ⟨⟨rfl, rfl⟩, by decide, ⟨rfl, rfl⟩, by decide, by decide, by decide⟩
theorem witness_CompletionsSetTheDrive :
    ((sent .pause .stopping State.reset).modDa fun d => { d with removalDue := true }).da.removalDue = true ∧
    (∀ c d, (sent c d State.reset).da.out = some ⟨c, false, c.limit, none⟩ ∧ (sent c d State.reset).pc.state ≠ .parked ∧
      (sent c d State.reset).da.startDue = false ∧ (sent c d State.reset).da.removalDue = false ∧
      (sent c d State.reset).da.parkStage = .none ∧ (sent c d State.reset).lm.ejectStage ≠ .unlatching ∧
      (sent c d State.reset).da.state = d ∧ (sent c d State.reset).liveClaim = none) ∧
    DriveState.loading ≠ .held ∧ DriveState.loading ≠ .fault ∧
    ((reading .refill .joining (zoneA .playing .feeding)).da.claim = some (claim .refill (some .a)) ∧
      (claim .refill (some .a)).standing = .live) ∧
    ({ State.reset.lm with ejectStage := .unlatching } : Loader).ejectStage = .unlatching ∧
    ({ State.reset.da with parkStage := .spinning } : Drive).parkStage = .spinning :=
  ⟨rfl, fun _ _ => ⟨rfl, fun h => (nomatch h), rfl, rfl, rfl, fun h => (nomatch h), rfl, rfl⟩, by decide, by decide, ⟨rfl, rfl⟩, rfl,
    rfl⟩
theorem witness_OtherCompletionsAreIgnored : (sent .unload .loading State.reset).pc.state ≠ .parked ∧
    (∀ o, (sent .unload .loading State.reset).da.out = some o → o.cmd.name ≠ .load) ∧
    (sent .unload .held State.reset).da.state = .held ∧ (sent .unload .fault State.reset).da.state = .fault :=
  ⟨by decide, fun o h => by cases h; decide, rfl, rfl⟩
theorem witness_CommandFaultsTheDrive :
    let s := sent (.load 1) .loading (zoneA .playing .feeding)
    s.pc.state ≠ .parked ∧ s.da.out = some ⟨.load 1, false, .running 12000000000, none⟩ ∧ s.da.state ≠ .held ∧ s.da.state ≠ .fault ∧
    s.da.startDue = false ∧ (s.zone .a).supply = .feeding ∧ (Servo.load 1).name ≠ .pause ∧ (Servo.spin 0).name = .spin ∧
    ((⟨.pause, true, .running 300000000, none⟩ : Outstanding).retry = true ∧ Servo.pause.name = .pause) ∧
    ({ s.lm with ejectStage := .unlatching } : Loader).ejectStage = .unlatching ∧ s.lm.queue = [] ∧
    ((seated.zone .a).supply ≠ .feeding ∧ (seated.zone .b).supply ≠ .rejoining ∧ seated.lm.ejectStage ≠ .unloading) ∧
    Servo.abort.name = .abort ∧ Servo.unload.name = .unload := by decide
theorem witness_ExpiredCommandsAreSentAgain :
    let s := sent .pause .stopping State.reset
    s.pc.state ≠ .parked ∧ s.da.out = some ⟨.pause, false, .running 300000000, none⟩ ∧ s.da.startDue = false ∧ s.da.state ≠ .held ∧
    s.da.state ≠ .fault ∧ Servo.pause ≠ .abort ∧
    (⟨.abort, false, .running 1000000000, some .read⟩ : Outstanding).aborted = some .read := by decide
theorem witness_FailedCommandsByTheirRow :
    (∀ c, (sent c .loading (reading .refill .joining (zoneA .playing .feeding))).da.out = some ⟨c, false, c.limit, none⟩) ∧
    (let s := sent (.load 1) .loading (reading .refill .joining (zoneA .playing .feeding))
     s.pc.state ≠ .parked ∧ s.da.state ≠ .held ∧ s.da.state ≠ .fault ∧ s.da.startDue = false ∧
       s.lm.ejectStage ≠ .unlatching ∧ s.lm.fromSettling = false) ∧
    (∀ c, (sent (.load 1) .loading (reading .refill .joining (zoneA .playing .feeding))).da.claim = some c → c.kind ≠ .hold) ∧
    FailReason.noDisc ≠ .jam ∧ FailReason.speed ≠ .noDisc :=
  ⟨fun _ => rfl, by decide, fun c h => by cases h; decide, by decide, by decide⟩
theorem witness_TrackingLossEndsTheClaim :
    let s := reading .refill .appending (zoneA .playing .feeding)
    s.pc.state ≠ .parked ∧ State.reset.da.blockTimer = .stopped ∧ State.reset.da.state ≠ .reading ∧ s.da.state = .reading ∧
    s.da.out = none ∧ s.da.claim = some (claim .refill (some .a)) ∧ (claim .refill (some .a)).standing = .live ∧
    (claim .refill (some .a)).kind ≠ .hold ∧ s.da.blockTimer ≠ .stopped ∧ (s.zone .b).supply ≠ .feeding ∧
    (s.zone .a).supply = .feeding ∧ s.tagAppending = true ∧ (claim .ident none).kind = .ident ∧ (s.zone .a).nextRead = some 7 ∧
    (reading .refill .joining (zoneA .playing .feeding)).tagAppending = false ∧
    ((zoneA .playing .ended).zone .a).supply ≠ .feeding := by decide
theorem witness_DriveTimersExpire :
    let s := State.reset.modDa fun d => { d with
      state := .ready, hold := .revoking, graceTimer := ms 2000, idleTimer := ms 20000 }
    s.pc.state ≠ .parked ∧ s.da.hold = .revoking ∧ s.da.graceTimer ≠ .stopped ∧ s.da.idleTimer ≠ .stopped ∧ s.da.out = none ∧
    s.da.state = .ready ∧ State.reset.da.graceTimer = .stopped ∧ State.reset.da.idleTimer = .stopped := by decide
theorem witness_ShocksAreCountedAndSettled :
    parkedWarm.pc.state = .parked ∧ (State.reset.pc.state ≠ .parked ∧ State.reset.liveClaim = none) ∧
    (let s := reading .linkUp .joining (zoneA .playing .feeding)
     s.da.state = .reading ∧ s.da.out = none ∧ s.da.claim = some (claim .linkUp (some .a))) ∧
    (∀ k, (let s := reading k .joining (zoneA .playing .feeding)
      s.pc.state ≠ .parked ∧ s.da.state = .reading ∧ s.da.out = none ∧ s.da.claim = some (claim k (some .a)) ∧
        (claim k (some .a)).standing = .live ∧ (claim k (some .a)).kind = k)) ∧
    State.reset.sm.settleTimer = .stopped ∧
    (∀ x, ({ State.reset.sm with settleTimer := ms 60, shocked := x } : Shock).settleTimer ≠ .stopped ∧
      ({ State.reset.sm with settleTimer := ms 60, shocked := x } : Shock).shocked = x) ∧
    ((zoneA .playing .feeding).zone .a).supply = .feeding ∧ (State.reset.zone .a).supply ≠ .feeding :=
  ⟨rfl, by decide, by decide, fun _ => ⟨fun h => (nomatch h), rfl, rfl, rfl, rfl, rfl⟩, rfl,
    fun _ => ⟨fun h => (nomatch h), rfl⟩, by decide, by decide⟩
theorem witness_WindowExpiryJudgesTheRoad : State.reset.pc.state ≠ .parked ∧ State.reset.sm.windowTimer ≠ .stopped ∧
    ({ State.reset.sm with windowTimer := .stopped } : Shock).windowTimer = .stopped ∧
    6 ≤ ({ State.reset.sm with count := 6 } : Shock).count ∧ 2 ≤ ({ State.reset.sm with count := 2 } : Shock).count ∧
    ({ State.reset.sm with count := 5 } : Shock).count ≤ 5 ∧ ({ State.reset.sm with count := 1 } : Shock).count ≤ 1 ∧
    ({ State.reset.sm with roughRoad := true } : Shock).roughRoad = true := by decide
theorem witness_TheSwitchMovesTheMagazine :
    (State.reset.pins.magClosed = false ∧ State.reset.pc.state ≠ .parked ∧ State.reset.lm.magazine = .absent) ∧
    (parkedWarm.pins.magClosed = false ∧ parkedWarm.pc.state = .parked) ∧ seated.lm.magazine ≠ .absent ∧
    (∀ m, (let s : State := { zoneA .playing .resync with
        pins := { State.reset.pins with magClosed := true }, lm := { State.reset.lm with magazine := m } }
      s.pins.magClosed = true ∧ s.lm.magazine = m ∧ s.pc.state ≠ .parked ∧ (s.zone .a).supply = .resync ∧
        (s.zone .b).supply = .idle ∧ s.da.state ≠ .held ∧ s.da.state ≠ .fault)) ∧
    ({ State.reset.lm with magazine := .ejecting, ejectStage := .latchWait } : Loader).ejectStage = .latchWait ∧
    ((reading .refill .joining (zoneA .playing .feeding)).da.claim = some (claim .refill (some .a)) ∧
      (reading .refill .joining (zoneA .playing .feeding)).da.out = none) :=
  ⟨by decide, by decide, by decide, fun _ => ⟨rfl, rfl, fun h => (nomatch h), rfl, rfl, fun h => (nomatch h),
    fun h => (nomatch h)⟩, rfl, rfl, rfl⟩
theorem witness_PartParksAndWakes :
    let s : State := { State.reset with
      pc := { State.reset.pc with state := .parking, driveDone := true, silenceDone := true } }
    parkedWarm.pc.state = .parked ∧ (s.pc.state = .parking ∧ s.pc.wakePending = none) ∧ State.reset.pc.state = .active ∧
    (s.pc.driveDone = true ∧ s.pc.silenceDone = true ∧ s.cl.transmitter = none ∧ s.cl.notices = []) ∧
    ({ s.pc with wakePending := some .link } : Power).wakePending = some .link := by decide
theorem witness_FramesQueueAndGoOutInOrder :
    let n : Frame := ⟨0x72, [0]⟩
    let l : Link := { State.reset.cl with transmitter := some (.notice n) }
    State.reset.pc.state ≠ .parked ∧ State.reset.cl.transmitter = none ∧
    (({ l with transmitter := some (.reply n) } : Link).transmitter = some (.reply n) ∧ l.refusals = [] ∧ l.notices = []) ∧
    ({ l with refusals := [n], notices := [n] } : Link).refusals = n :: [] ∧
    ({ l with request := some ⟨⟨1, []⟩, some n, 0⟩ } : Link).request = some ⟨⟨1, []⟩, some n, 0⟩ ∧
    ({ l with request := some ⟨⟨1, []⟩, some n, 1⟩, refusals := [n] } : Link).request = some ⟨⟨1, []⟩, some n, 0 + 1⟩ ∧
    ({ l with request := some ⟨⟨1, []⟩, none, 0⟩ } : Link).request = some ⟨⟨1, []⟩, none, 0⟩ ∧
    ({ l with hush := true } : Link).hush = true ∧ l.hush = false ∧
    16 ≤ ({ l with notices := List.replicate 16 n } : Link).notices.length ∧ l.notices.length < 16 := by decide
theorem witness_TrailingBlocksAreThrownAway : State.reset.pc.state ≠ .parked ∧
    (∀ o, State.reset.da.out = some o → o.cmd ≠ .read) ∧ State.reset.da.state ≠ .reading ∧
    (let s := sent .read .reading (reading .refill .joining (zoneA .playing .feeding))
     s.pc.state ≠ .parked ∧ s.da.out = some ⟨.read, false, .running 1000000000, none⟩ ∧ s.da.state = .reading ∧
       s.da.startDue = false ∧ s.liveClaim ≠ none ∧ (sent .read .reading State.reset).liveClaim = none ∧
       (sent .read .reading State.reset).tagLive = false ∧ ({ s.da with startDue := true } : Drive).startDue = true) :=
  ⟨by decide, fun o h => (nomatch h), by decide, by decide⟩
theorem test_first_block_completes_read :
    after (.blockPresented (plainBlock (some 7))) (sent .read .reading (reading .refill .appending (zoneA .priming .feeding)))
      (fun t => (t.fill .a, t.da.out)) = some (1, none) := by decide
theorem test_first_block_of_an_ended_claim_pauses :
    after (.blockPresented (plainBlock (some 7))) (sent .read .reading State.reset) (·.da.out.map (·.cmd)) = some (some .pause) := by
  decide
theorem witness_BlockInOrderIsAppended :
    let s := reading .refill .appending (zoneA .priming .feeding)
    s.bs.sound ∧ s.pc.state ≠ .parked ∧ s.da.out = none ∧ s.da.state = .reading ∧
    s.bi.tag = some ⟨.refill, some .a, some .appending, .live, none⟩ ∧ s.da.claim = some (claim .refill (some .a)) ∧
    s.bs.intake = 0 ∧ s.bs.freeHead ≠ 0 ∧ s.bs.freeCount ≠ 0 ∧ (s.zone .a).nextRead = some 7 ∧ 7 ≤ s.programEnd .a ∧
    ((plainBlock (some 7)).stamp = some 7 ∧ (plainBlock (some 7)).stampStatus = .good ∧ 7 ≤ 479999) ∧
    ({ plainBlock none with stampStatus := .missing } : PortBlock).stampStatus ≠ .good ∧
    s.fill .a < s.quota .a ∧ ({ s with params := { s.params with quota := ⟨0, 0⟩ } } : State).quota .a ≤ s.fill .a ∧
    ({ s.params with burstLimit := 1 } : Params).burstLimit ≤ min 4095 ((claim .refill (some .a)).commits + 1) ∧
    s.params.burstLimit = 64 ∧ s.quota .a ≠ s.fill .a + 1 ∧ s.pressing .b = false ∧ (s.zone .a).supply = .feeding :=
  ⟨Store.sound_cold, by decide, rfl, rfl, rfl, rfl, rfl, by decide, by decide, by decide, by decide, by decide, by decide, by decide,
    by decide, by decide, by decide, by decide, by decide, by decide⟩
theorem test_unstamped_block_is_appended_unconfirmed :
    after (.blockPresented { plainBlock none with stampStatus := .missing }) (reading .refill .appending (zoneA .priming .feeding))
      (fun t => (t.fill .a, (t.info 1).expected, (t.info 1).confirmed)) = some (1, some 7, false) := by decide
theorem witness_SkipSendsAZoneToRejoining :
    let s := reading .refill .appending (zoneA .priming .feeding)
    s.pc.state ≠ .parked ∧ s.da.out = none ∧ s.da.state = .reading ∧
    s.bi.tag = some ⟨.refill, some .a, some .appending, .live, none⟩ ∧ s.da.claim = some (claim .refill (some .a)) ∧
    s.bs.intake = 0 ∧ s.bs.freeHead ≠ 0 ∧ s.bs.freeCount ≠ 0 ∧ (s.zone .a).nextRead = some 7 ∧
    (plainBlock (some 9)).stamp = some 9 ∧ 9 ≤ 479999 ∧ 9 ≠ 7 ∧ 7 ≤ s.programEnd .a ∧ (s.zone .a).supply = .feeding ∧
    ((reading .refill .appending (zoneA .priming .ended)).zone .a).supply ≠ .feeding := by decide
theorem test_skip_records_a_region : after (.blockPresented (plainBlock (some 9)))
    (reading .refill .appending (zoneA .priming .feeding)) (fun t => (t.record 0).map (·.defects)) =
    some (some [⟨7, 7, .skipProne, 1⟩]) := by decide
/-- A LIVE refill of zone A is reading in phase `p`, with link-up context `x`, next read address `e` and store `st`. -/
def joining (p : Phase) (x : Option LinkCtx) (e : Nat) (st : Store) : State :=
  { ((reading .refill p (zoneA .playing .feeding)).modZone .a fun r => { r with nextRead := some e }).setCtx .a x with bs := st }

/-- A context in stage `g` and mode `m` with anchor `a`, verify address `v` and `w` blocks of its window left. -/
def context (g : LinkStage) (m : LinkMode) (a : AnchorRef) (v : Option Nat) (w : Nat) : LinkCtx := ⟨g, m, a, 0, v, 0, 8, w, 24⟩

/-- Searching for the start 7 of zone A, behind a block with the GOOD stamp 6. -/
def searching : State :=
  { joining .joining (some (context .searching .locate .none none 10)) 7 .cold with
    bi := ⟨some ⟨.refill, some .a, some .joining, .live, none⟩, 0, some 6⟩ }

theorem test_start_taken_by_the_stamp_before_it :
    after (.blockPresented { plainBlock none with stampStatus := .missing }) searching (fun t => (t.fill .a, (t.zone .a).nextRead)) =
      some (1, some 8) := by decide
theorem test_start_with_another_good_stamp :
    startPreceding 7 .good (some 9) (some 6) = (if Config.startDespiteStamp 7 9 then some 6 else none) ∧
      stampLocate 7 .good (some 9) (some 6) = .taken ∧ stampLocate 7 .good (some 9) none = .overshoot ∧
      stampLocate 7 .good (some 5) none = .notTaken := ⟨rfl, by decide, by decide, by decide⟩

theorem witness_JoiningBlocksLinkUpOrFail :
    (∀ p x e st, (let s := joining p x e st
      s.pc.state ≠ .parked ∧ s.da.out = none ∧ s.da.state = .reading ∧ s.bi.tag = some ⟨.refill, some .a, some p, .live, none⟩ ∧
        s.da.claim = some (claim .refill (some .a)) ∧ (claim .refill (some .a)).standing = .live ∧ s.bs = st ∧
        (s.zone .a).nextRead = some e ∧ (s.zone .a).supply = .feeding ∧ s.ctx .a = x ∧ (s.zone .a).resume = some ⟨7, 0⟩ ∧
        s.params.luAttempts = 3)) ∧
    (twoBlocks.sound ∧ twoBlocks.intake = 0 ∧ twoBlocks.freeHead ≠ 0 ∧ twoBlocks.freeCount ≠ 0) ∧
    (let s := joining .appending none 5001 oneBlock
     s.programEnd .a < 5001 ∧ s.fill .a ≠ 0 ∧ (s.zone .a).play = .playing) ∧
    (∀ a, (plainBlock (some a)).stamp = some a ∧ (plainBlock (some a)).stampStatus = .good) ∧
    (∀ g m w, (context g m (.chain 8) (some 8) w).stage = g ∧ (context g m (.chain 8) (some 8) w).mode = m ∧
      (context g m (.chain 8) (some 8) w).windowLeft = w ∧ (context g m (.chain 8) (some 8) w).anchor = .chain 8 ∧
      min 7 ((context g m (.chain 8) (some 8) w).failed + 1) < 3 ∧
      3 ≤ min 7 (({ context g m (.chain 8) (some 8) w with failed := 2 } : LinkCtx).failed + 1)) ∧
    ((joining .joining none 7 .cold).fill .a < (joining .joining none 7 .cold).quota .a ∧ 6 < 7 ∧ 7 < 8 ∧
      (joining .joining none 7 .cold).bi.nonGood = 1 ∧
      (searching.bi.nonGood = 0 ∧ searching.bi.lastGood = some (7 - 1) ∧
        ({ plainBlock none with stampStatus := .missing } : PortBlock).stampStatus ≠ .good)) ∧
    (let s := joining .joining (some (context .searching .anchor (.chain 8) none 1)) 9 twoBlocks
     s.posOf .a 7 = some 0 ∧ s.posOf .a 8 = some 1 ∧ (s.info (s.bucketAt .a 0)).stampStatus = .good ∧
       (s.info (s.bucketAt .a 1)).stampStatus = .good) ∧
    (let s := joining .joining (some (context .verifying .anchor (.chain 7) (some 8) 1)) 9 twoBlocks
     8 < 9 ∧ s.headAddr .a = some 7 ∧ 7 ≤ 7 ∧ 7 < 8 ∧ s.posOf .a 8 = some (0 + 1) ∧ 8 - 7 < s.fill .a ∧ 8 - 7 < s.quota .a ∧
       8 ≤ s.programEnd .a ∧ 9 ≤ 9 ∧ 9 ≤ s.programEnd .a ∧ s.fill .a < s.quota .a) ∧
    (let s := joining .joining none 9 twoBlocks
     let same : PortBlock := { plainBlock none with stampStatus := .missing }
     let other : PortBlock := { same with samples := some (List.replicate 960 6) }
     same.stampStatus ≠ .good ∧
       agrees (dataCompare (s.bs.bucket (s.bucketAt .a 1)) ⟨Bucket.blank.info, portSamples same, portFlags same⟩) = true ∧
       agrees (dataCompare (s.bs.bucket (s.bucketAt .a 1)) ⟨Bucket.blank.info, portSamples other, portFlags other⟩) = false) :=
  ⟨fun _ _ _ _ => ⟨fun h => (nomatch h), rfl, rfl, rfl, rfl, rfl, rfl, rfl, rfl, rfl, rfl, rfl⟩,
    ⟨sound_twoBlocks, by decide, by decide, by decide⟩, by decide, fun _ => ⟨rfl, rfl⟩,
    fun _ _ _ => ⟨rfl, rfl, rfl, rfl, by show min 7 (0 + 1) < 3; decide, by show 3 ≤ min 7 (2 + 1); decide⟩, by decide, by decide,
    by decide, by decide⟩
theorem witness_HearMovesTheHeadBlock : (oneBlock.sound ∧ (oneBlock.chain.get .a).length = 1) ∧ twoBlocks.sound ∧
    1 < (twoBlocks.chain.get .a).length := ⟨⟨sound_oneBlock, by decide⟩, sound_twoBlocks, by decide⟩
/-- A LIVE claim of kind `k` of zone A on target `a` is reading, with two blocks in the chain. -/
def targeting (k : ClaimKind) (a : Nat) : State :=
  { reading k .joining (zoneA .playing .feeding) with
    bs := twoBlocks
    da := { (reading k .joining (zoneA .playing .feeding)).da with claim := some { claim k (some .a) with target := some a } }
    bi := ⟨some ⟨k, some .a, none, .live, some a⟩, 0, some 6⟩ }

theorem witness_MergesAndTargetClaims :
    (let x : Bucket := ⟨Bucket.blank.info, List.replicate 960 0, List.replicate 960 true⟩
     let y : Bucket := ⟨Bucket.blank.info, List.replicate 960 1, List.replicate 960 false⟩
     x.samples.length = 960 ∧ x.flags.length = 960 ∧ y.samples.length = 960 ∧ y.flags.length = 960 ∧
       x.flags.getD 959 true = true ∧ y.flags.getD 959 true = false ∧ fillCount y.flags x.flags = 0) ∧
    (∀ k a, (let s := targeting k a
      s.pc.state ≠ .parked ∧ s.da.out = none ∧ s.da.state = .reading ∧ s.bi.tag = some ⟨k, some .a, none, .live, some a⟩ ∧
        s.da.claim = some { claim k (some .a) with target := some a } ∧ s.bs = twoBlocks)) ∧
    (twoBlocks.sound ∧ twoBlocks.intake = 0 ∧ twoBlocks.freeHead ≠ 0 ∧ twoBlocks.freeCount ≠ 0) ∧
    ((targeting .reread 8).posOf .a 8 = some (0 + 1) ∧ (targeting .reread 8).bi.lastGood ≠ some (8 - 1) ∧
      (targeting .reread 7).bi.lastGood = some (7 - 1) ∧ (targeting .reread 7).bi.nonGood = 0 ∧ 7 < 8 ∧ 8 < 9 ∧
      2 ≤ ({ (targeting .reread 8).ru with left := 2 } : Reread).left ∧ (targeting .reread 8).ru.left ≤ 1) ∧
    ((plainBlock (some 8)).stamp = some 8 ∧ (plainBlock (some 8)).stampStatus = .good ∧
      isBad 24 (measured (plainBlock (some 8)) 1).info = false ∧
      isBad 24 { (measured (plainBlock (some 8)) 1).info with decoder := .lost } = true) ∧
    ((targeting .audit 3).posOf .a 3 = none ∧ (targeting .audit 8).posOf .a 8 = some 1 ∧ (targeting .audit 8).headAddr .a = some 7 ∧
      8 - 7 < (targeting .audit 8).fill .a ∧ 2 ≤ (targeting .audit 7).fill .a ∧ (targeting .audit 7).posOf .a 7 = some 0 ∧
      2 ≤ ({ (targeting .audit 8).lu with auditLeft := 2 } : LinkUp).auditLeft ∧ (targeting .audit 8).lu.auditLeft ≤ 1 ∧
      ((targeting .audit 8).zone .a).supply = .feeding) ∧
    (let chain := (targeting .audit 8).bs.bucket ((targeting .audit 8).bucketAt .a 1)
     let copy := fun (b : PortBlock) => (⟨Bucket.blank.info, portSamples b, portFlags b⟩ : Bucket)
     let few : PortBlock := { plainBlock (some 8) with
       decoder := .flagged, flags := List.replicate 239 false ++ List.replicate 721 true }
     let other : PortBlock := { plainBlock (some 8) with samples := some (List.replicate 960 6) }
     (dataCompare chain (copy few)).1 = 239 ∧ dataCompare chain (copy (plainBlock (some 8))) = (960, 960) ∧
       dataCompare chain (copy other) = (960, 0)) ∧
    (let s : State := { reading .ident .joining seated with
       da := { (reading .ident .joining seated).da with claim := some (claim .ident none) }
       bi := ⟨some ⟨.ident, none, none, .live, none⟩, 0, none⟩ }
     s.bi.tag = some ⟨.ident, none, none, .live, none⟩ ∧ s.da.claim = some (claim .ident none) ∧
       ({ s.dd with ident := some ⟨1, 30⟩ } : Directory).ident = some ⟨1, 30⟩ ∧ 30 + 1 < 32 ∧ 32 ≤ 31 + 1) ∧
    (let none' : PortBlock := plainBlock none
     readDirectory none'.track none'.decoder (portSamples none') (portFlags none') = none ∧
       (readDirectory 0 .clean directorySamples (List.replicate 960 false)).isSome = true) :=
  ⟨by decide, fun _ _ => ⟨fun h => (nomatch h), rfl, rfl, rfl, rfl, rfl⟩, ⟨sound_twoBlocks, by decide, by decide, by decide⟩,
    by decide, by decide, by decide, by decide, by decide, by decide⟩
theorem witness_DirectoryRequestsAnswerTheRecord : seated.pc.state ≠ .parked ∧ seated.cl.request = none ∧ 7 < (8 : Byte).toNat ∧
    ((7 : Byte).toNat ≤ 7 ∧ seated.record (7 : Byte).toNat = some .blank ∧ DiscRecord.blank.print = none) ∧
    (seated.record (0 : Byte).toNat = some disc ∧ disc.print = some ⟨2, 5000, 1000⟩) ∧ 31 < (32 : Byte).toNat ∧
    (31 : Byte).toNat ≤ 31 ∧ 98 < (99 : Byte).toNat ∧ (98 : Byte).toNat ≤ 98 := by decide
theorem witness_ForgetDiscClearsARecord : seated.listening ∧ 7 < (8 : Byte).toNat ∧
    (seated.record (0 : Byte).toNat = some disc ∧ disc.state ≠ .free ∧ ∀ z, (seated.zone z).selected ≠ some (0 : Byte).toNat) ∧
    (seated.record (7 : Byte).toNat = some .blank ∧ DiscRecord.blank.state = .free) ∧
    ∃ z, ((zoneA .stopped .idle).zone z).selected = some (0 : Byte).toNat :=
  ⟨⟨rfl, rfl⟩, by decide, ⟨by decide, by decide, fun z => by cases z <;> decide⟩, by decide, .a, by decide⟩
theorem witness_InsertedRegionsStayCovered :
    let l : List Region := [⟨100, 100, .unreadable, 15⟩]
    lawfulRegions l ∧ (105 ≤ 105 ∧ 1 ≤ 1 ∧ 1 ≤ 15) ∧ ∃ x ∈ l, x.first ≤ 100 ∧ 100 ≤ x.last :=
  ⟨⟨by decide, by decide, by decide⟩, by decide, ⟨100, 100, .unreadable, 15⟩, by decide, by decide, by decide⟩
theorem witness_RefreshedRecordRanksHighest :
    let y : DiscRecord := { disc with rank := 254, print := some ⟨1, 4, 0⟩ }
    let d : Directory := ⟨disc :: y :: List.replicate 6 .blank, 255, none⟩
    d.ranked ∧ d.records[0]? = some disc ∧ d.records[1]? = some y ∧ disc.state ≠ .free ∧ y.state ≠ .free ∧ 0 ≠ 2 ∧ 1 ≠ 2 ∧
    2 < 8 ∧ disc.rank < y.rank :=
  ⟨⟨rfl, by decide, by decide, by decide⟩, rfl, rfl, by decide, by decide, by decide, by decide, by decide, by decide⟩
theorem witness_IdentifiedDiscTakesItsRecord :
    (let r : DiscRecord := { disc with state := .departed, slot := none }
     let s : State := { seated with dd := ⟨r :: List.replicate 7 .blank, 1, none⟩ }
     s.record 0 = some r ∧ s.dd.find (DiscInfo.print ⟨5000, [0, 1000]⟩) = some 0 ∧ r.state = .departed) ∧
    seated.dd.find (DiscInfo.print ⟨4, [0]⟩) = none ∧ seated.record 1 = some .blank ∧
    ∀ j x, j < 1 → seated.record j = some x → x.state ≠ .free :=
  ⟨by decide, by decide, by decide, fun j x hj h => by
    obtain rfl : j = 0 := by omega
    cases h
    decide⟩

end Sys2Proof.Tests
end

section
/-! PROOF. The start values after reset (O4). -/

namespace Sys2Proof.Machine

/-- What holds of zone A and of zone B holds of every zone. -/
theorem forall_zones {p : ZoneId → Prop} (h : p .a ∧ p .b) : ∀ z, p z
  | .a => h.1
  | .b => h.2

/-- What holds of the left and of the right channel holds of every channel. -/
theorem forall_sides {p : Side → Prop} (h : p .left ∧ p .right) : ∀ d, p d
  | .left => h.1
  | .right => h.2

/-- Settles O4: reset is the cold start of every block at the pin levels of log entry 1, so each value is read off it, zone by zone
and channel by channel. -/
theorem resetLeavesTheStartValues : Obligations.ResetLeavesTheStartValues :=
  ⟨by decide, by decide, forall_zones (by decide), by decide, forall_zones (by decide), by decide,
    forall_zones ⟨forall_sides (by decide), forall_sides (by decide)⟩, by decide, by decide, by decide, by decide, by decide,
    by decide, by decide, by decide, by decide⟩

end Sys2Proof.Machine
end

section
/-! PROOF. Blocks at the port (chapter 1): which block completes READ, which is thrown away, when the block timer runs; and the
statement on trailing blocks (O50). -/

namespace Sys2Proof.Machine

/-! ## READ completes (R57, R71) -/

/-- With no READ outstanding a block completes nothing. -/
theorem State.readComplete_other {s : State} (h : ∀ o, s.da.out = some o → o.cmd ≠ .read) : s.readComplete = s := by
  unfold State.readComplete
  split
  · next o ho => exact if_neg (h o ho)
  · rfl

/-- With READ outstanding and a soft start waiting for it, DA takes its start values. -/
theorem State.readComplete_start {s : State} {o : Outstanding} (ho : s.da.out = some o) (hr : o.cmd = .read)
    (hs : s.da.startDue = true) : s.readComplete = s.modDa Drive.takeStart := by
  simp only [State.readComplete, ho, hr, hs, if_true]

/-- READ completes under a claim that was ended or cancelled meanwhile. -/
theorem State.readComplete_over {s : State} {o : Outstanding} (ho : s.da.out = some o) (hr : o.cmd = .read)
    (hs : s.da.startDue = false) (hl : s.liveClaim = none) :
    s.readComplete = (s.modDa fun d => { d with out := none }).releasePickup := by
  simp only [State.readComplete, ho, hr, if_true]
  rw [if_neg (by simp [hs])]
  exact if_pos hl

/-- READ completes under a LIVE claim. -/
theorem State.readComplete_live {s : State} {o : Outstanding} (ho : s.da.out = some o) (hr : o.cmd = .read)
    (hs : s.da.startDue = false) (hl : s.liveClaim ≠ none) : s.readComplete = s.modDa fun d => { d with out := none } := by
  simp only [State.readComplete, ho, hr, if_true]
  rw [if_neg (by simp [hs])]
  exact if_neg hl

/-- A claim whose standing is final leaves the free pickup of a drive that is READING, with PAUSE (R70, R71). -/
theorem State.releasePickup_reading {s : State} (ho : s.da.out = none) (hr : s.da.state = .reading) :
    s.releasePickup = { s with da := { s.da.sending .pause 300000000 .stopping with claim := none } } := by
  simp only [State.releasePickup, ho, hr, if_true]
  rfl

/-! ## Acceptance and the block timer (R8, R57) -/

/-- A block presented while the drive is not READING, or under a tag that is not LIVE, is a trailing block (R8). -/
theorem State.acceptTag_trailing {s : State} (h : s.da.state ≠ .reading ∨ s.tagLive = false) : s.acceptTag = none := by
  unfold State.acceptTag
  split
  · next t ht =>
    refine if_neg fun ⟨hr, hl⟩ => h.elim (· hr) fun hf => ?_
    simp [State.tagLive, ht, hl] at hf
  · rfl

/-- The block timer stands unless reading is in progress under a LIVE claim. -/
theorem State.runBlockTimer_stands {s : State} (h : s.da.state ≠ .reading ∨ s.tagLive = false) : s.runBlockTimer = s :=
  if_neg fun ⟨hr, _, hl⟩ => h.elim (· hr) fun hf => by simp [hl] at hf

/-- While reading is in progress under a LIVE claim, the block timer runs for 1 s. -/
theorem State.runBlockTimer_running {s : State} (hr : s.da.state = .reading) (ho : s.da.out = none) (hl : s.tagLive = true) :
    s.runBlockTimer = s.modDa fun d => { d with blockTimer := .running 1000000000 } :=
  if_pos ⟨hr, ho, hl⟩

/-- After the block timer has been seen to, it runs for 1 s wherever reading is in progress under a LIVE claim. -/
theorem State.blockTimer_runBlockTimer {s : State} (hl : s.runBlockTimer.tagLive = true)
    (hr : s.runBlockTimer.da.state = .reading) (ho : s.runBlockTimer.da.out = none) :
    s.runBlockTimer.da.blockTimer = .running 1000000000 := by
  by_cases h : s.da.state = .reading ∧ s.da.out = none ∧ s.tagLive = true
  · rw [State.runBlockTimer_running h.1 h.2.1 h.2.2]
    rfl
  · rw [State.runBlockTimer, if_neg h] at hl hr ho
    exact absurd ⟨hr, ho, hl⟩ h

/-- A trailing block does no more than what its completion of READ does. -/
theorem State.present_trailing {s t : State} (b : PortBlock) (hc : s.readComplete = t)
    (h : t.da.state ≠ .reading ∨ t.tagLive = false) : s.present b = t := by
  simp only [State.present, hc, State.acceptTag_trailing h]
  exact State.runBlockTimer_stands h

/-- The block that completes READ under a LIVE claim is taken as one that finds no command outstanding. -/
theorem State.present_readComplete {s t : State} (b : PortBlock) (hc : s.readComplete = t) (ht : t.readComplete = t) :
    s.present b = t.present b := by
  simp only [State.present, hc, ht]

/-- A presented block, with what every command ends with. -/
theorem exec_blockPresented {s t : State} {b : PortBlock} (hp : s.pc.state ≠ .parked) (h : s.present b = t) :
    exec (.blockPresented b) s = .next (State.finish s t) := by
  have harm : exec (.blockPresented b) s = s.whenPowered fun t => t.present b := rfl
  rw [harm, State.whenPowered_powered hp h]

/-- Of the state before a command, what the command ends with looks at the zones' claimant conditions only (R69). -/
theorem State.finish_congr {old old' : State} (h : ∀ z, old.conditions z = old'.conditions z) (s : State) :
    State.finish old s = State.finish old' s := by
  have hp : ∀ (t : State) (z : ZoneId), State.pressChanged old t z = State.pressChanged old' t z := fun t z => by
    unfold State.pressChanged
    rw [h]
  simp only [State.finish, hp]

/-- A block has the same effect in two states that make the same of it and have the same claimant conditions. -/
theorem exec_blockPresented_congr {s t : State} {b : PortBlock} (hs : s.pc.state ≠ .parked) (ht : t.pc.state ≠ .parked)
    (h : s.present b = t.present b) (hz : ∀ z, s.conditions z = t.conditions z) :
    exec (.blockPresented b) s = exec (.blockPresented b) t := by
  rw [exec_blockPresented hs h, exec_blockPresented ht rfl, State.finish_congr hz]

/-! ## Trailing blocks, and the first block after READ -/

/-- Settles O50: by what the block completes. -/
theorem trailingBlocksAreThrownAway : Obligations.TrailingBlocksAreThrownAway := by
  refine ⟨fun s b hp ho h => exec_blockPresented hp (State.present_trailing b (State.readComplete_other ho) h),
    fun s b o hp ho hr hst => ⟨fun hs => ?_, fun hs hl => ?_, fun hs hl => ?_⟩⟩
  · exact exec_blockPresented hp (State.present_trailing b (State.readComplete_start ho hr hs) (.inl nofun))
  · have hc := (State.readComplete_over ho hr hs hl).trans (State.releasePickup_reading rfl hst)
    exact exec_blockPresented hp (State.present_trailing b hc (.inl nofun))
  · have hc := State.readComplete_live ho hr hs hl
    have ht := State.readComplete_other (s := s.modDa fun d => { d with out := none }) fun _ h => nomatch h
    exact ⟨exec_blockPresented_congr hp hp (State.present_readComplete b hc ht) fun _ => rfl, s.present b,
      exec_blockPresented hp rfl, State.blockTimer_runBlockTimer, fun hf => State.present_trailing b hc (.inr hf)⟩

end Sys2Proof.Machine
end

section
/-! PROOF. A block of an appending zone (chapter 1): the block in the intake bucket, the end of the burst that reads it, and the
statement on skips (O52). -/

namespace Sys2Proof.Machine

/-! ## The burst -/

/-- The LIVE LINK-UP or REFILL claim `c` of zone `z` is reading in the APPENDING phase under the tag `tag`, with no command
outstanding. -/
structure AppendingBurst (s : State) (z : ZoneId) (tag : Tag) (c : Claim) : Prop where
  out      : s.da.out = none
  reading  : s.da.state = .reading
  tagged   : s.bi.tag = some tag
  tagLive  : tag.standing = .live
  kind     : tag.kind = .linkUp ∨ tag.kind = .refill
  zone     : tag.zone = some z
  phase    : tag.phase = some .appending
  claim    : s.da.claim = some c
  live     : c.standing = .live
  sameKind : c.kind = tag.kind
  ofZone   : c.zone = some z

/-- The state when the burst under way has ended: the claim is gone with PAUSE sent, and the tag is ENDED (R57, R70). -/
def State.burstOver (s : State) : State :=
  { s with da := { s.da.sending .pause 300000000 .stopping with claim := none }, bi := s.bi.close .ended }

/-- A closed tag is not LIVE. -/
theorem State.tagLive_burstOver (s : State) : s.burstOver.tagLive = false := by
  unfold State.tagLive State.burstOver Intake.close
  cases h : s.bi.tag with
  | none => simp [h]
  | some t => by_cases hl : t.standing = .live <;> simp [h, hl]

/-- Closing a tag leaves the count of non-GOOD stamps and the last GOOD stamp. -/
theorem Intake.close_fields (b : Intake) (st : Standing) :
    (b.close st).nonGood = b.nonGood ∧ (b.close st).lastGood = b.lastGood := by
  unfold Intake.close
  cases b.tag with
  | none => exact ⟨rfl, rfl⟩
  | some t => by_cases h : t.standing = .live <;> simp [h]

namespace AppendingBurst

variable {s t : State} {z : ZoneId} {tag : Tag} {c : Claim}

/-- The burst is a matter of the drive and the tag alone. -/
theorem congr (h : AppendingBurst s z tag c) (hd : t.da = s.da) (hb : t.bi = s.bi) : AppendingBurst t z tag c :=
  { h with out := hd ▸ h.out, reading := hd ▸ h.reading, tagged := hb ▸ h.tagged, claim := hd ▸ h.claim }

theorem claimKind (h : AppendingBurst s z tag c) : c.kind = .linkUp ∨ c.kind = .refill := h.sameKind ▸ h.kind

theorem liveClaim (h : AppendingBurst s z tag c) : s.liveClaim = some c := by simp [State.liveClaim, h.claim, h.live]

theorem ownsClaim (h : AppendingBurst s z tag c) : s.ownsClaim z = true := by simp [State.ownsClaim, h.liveClaim, h.ofZone]

theorem live_tag (h : AppendingBurst s z tag c) : s.tagLive = true := by simp [State.tagLive, h.tagged, h.tagLive]

theorem acceptTag (h : AppendingBurst s z tag c) : s.acceptTag = some tag := by
  simp [State.acceptTag, h.tagged, h.reading, h.tagLive]

/-- The claim of a burst is no RE-READ claim. -/
theorem claimOn_reread (h : AppendingBurst s z tag c) (w : ZoneId) (a : Nat) : s.claimOn .reread w a = false := by
  rcases h.claimKind with hk | hk <;> simp [State.claimOn, h.liveClaim, hk]

/-- Ending the claim ends the burst (R57, R70). -/
theorem closeClaim (h : AppendingBurst s z tag c) : s.closeClaim .ended = s.burstOver := by
  have hm : s.markClaim c .ended = { s with
      da := { s.da with claim := some { c with standing := .ended }, blockTimer := .stopped }, bi := s.bi.close .ended } := by
    rcases h.claimKind with hk | hk <;> simp [State.markClaim, hk, h.ofZone, State.modDa, State.modBi]
  have hh : c.kind ≠ .hold := by rcases h.claimKind with hk | hk <;> simp [hk]
  simp only [State.closeClaim, h.liveClaim, if_neg hh, hm]
  exact State.releasePickup_reading h.out h.reading

theorem closeZoneClaim (h : AppendingBurst s z tag c) : s.closeZoneClaim z .ended = s.burstOver :=
  (if_pos h.ownsClaim).trans h.closeClaim

/-- A block of the burst is routed to the zone's chain (R14). -/
theorem route (h : AppendingBurst s z tag c) : s.route tag = s.appendBlock z := by
  rcases h.kind with hk | hk <;> simp [State.route, hk, h.zone, h.phase]

end AppendingBurst

/-! ## The block in the intake bucket (R8, R10, R11, R23, R26) -/

/-- The store with its free head taken as the intake bucket (R23, R26). -/
def Store.allocated (st : Store) : Store :=
  { st.setNext st.freeHead 0 with
    freeHead := st.nextOf st.freeHead, freeCount := st.freeCount - 1, intake := st.freeHead }

/-- With no intake bucket held and a bucket free, the free head is allocated. -/
theorem Store.allocate_free {st : Store} (hi : st.intake = 0) (hh : st.freeHead ≠ 0) (hc : st.freeCount ≠ 0) :
    st.allocate = some st.allocated :=
  if_neg (by simp [hi, hh, hc])

/-- The state with block `b`, accepted under the tag `tag`, in the intake bucket. -/
def State.taking (s : State) (tag : Tag) (b : PortBlock) : State :=
  s.modBs fun st => st.allocated.setBucket st.freeHead (measured b (s.recordedTrack tag b.track))

/-- A measured block has 960 samples, so that its bucket does not read as one that nothing has written. -/
theorem measured_ne_blank (b : PortBlock) (n : Nat) : measured b n ≠ .blank := fun h => by
  have hl : (portSamples b).length = 0 := congrArg (fun v => v.samples.length) h
  have h960 : (portSamples b).length = 960 := by
    unfold portSamples
    split
    · exact List.length_replicate
    · rw [List.length_take, List.length_append, List.length_replicate]
      omega
  omega

/-- The intake bucket holds the block as BI measured it. -/
theorem State.bucket_taking (s : State) (tag : Tag) (b : PortBlock) :
    (s.taking tag b).bs.bucket s.bs.freeHead = measured b (s.recordedTrack tag b.track) := by
  have hne : measured b (s.recordedTrack tag b.track) ≠ bucketDefault s.bs.freeHead := measured_ne_blank b _
  show tableGet bucketDefault (tableSet bucketDefault s.bs.mem s.bs.freeHead _) s.bs.freeHead = _
  rw [tableSet, if_neg hne, tableGet_insert_self]

/-- The block record of the intake bucket is the one that BI measured. -/
theorem State.info_taking (s : State) (tag : Tag) (b : PortBlock) :
    (s.taking tag b).info (s.taking tag b).bs.intake = (measured b (s.recordedTrack tag b.track)).info :=
  congrArg Bucket.info (s.bucket_taking tag b)

/-- A block presented to a burst is taken into the intake bucket and appended or not; then its stamp is counted and the block timer
seen to (R8, R13, R57). -/
theorem State.present_appending {s : State} {z : ZoneId} {tag : Tag} {c : Claim} (b : PortBlock) (h : AppendingBurst s z tag c)
    (hi : s.bs.intake = 0) (hh : s.bs.freeHead ≠ 0) (hc : s.bs.freeCount ≠ 0) : s.present b =
    (((s.taking tag b).appendBlock z).modBi fun i =>
      i.count (correctStamp b.stamp b.stampStatus).2 (correctStamp b.stamp b.stampStatus).1).runBlockTimer := by
  have hr : s.readComplete = s := State.readComplete_other fun o ho => by simp [h.out] at ho
  have ht : (s.taking tag b).route tag = (s.taking tag b).appendBlock z := (h.congr (t := s.taking tag b) rfl rfl).route
  simp only [State.present, hr, h.acceptTag, State.acceptBlock, Store.allocate_free hi hh hc, ← ht]
  rfl

/-- A block taken and discarded leaves the pool's counts, lists' heads and chains as they were. -/
theorem State.pool_discard_taking {s : State} (tag : Tag) (b : PortBlock) (hh : s.bs.freeHead ≠ 0) (hc : s.bs.freeCount ≠ 0) :
    (s.taking tag b).discard.bs.freeHead = s.bs.freeHead ∧
    (s.taking tag b).discard.bs.freeCount = s.bs.freeCount ∧ (s.taking tag b).discard.bs.intake = 0 ∧
    (s.taking tag b).discard.bs.chain = s.bs.chain ∧ (s.taking tag b).discard.bs.anchor = s.bs.anchor := by
  have hd : (s.taking tag b).discard.bs = { (s.taking tag b).bs.release s.bs.freeHead with intake := 0 } := if_neg hh
  rw [hd]
  exact ⟨rfl, Nat.succ_pred hc, rfl, rfl, rfl⟩

/-- Once PAUSE is sent the block timer stands. -/
theorem State.runBlockTimer_stopping {s : State} (h : s.da.state = .stopping) : s.runBlockTimer = s :=
  State.runBlockTimer_stands (.inl (by simp [h]))

/-! ## The count of non-GOOD stamps, and the end of a command's block (R13) -/

/-- Counting a stamp leaves the tag. -/
theorem Intake.count_tag (b : Intake) (status : StampStatus) (stamp : Option Nat) : (b.count status stamp).tag = b.tag := by
  cases status <;> rfl

/-- Counting a stamp leaves the tag LIVE or not, as it was. -/
theorem State.tagLive_count (s : State) (status : StampStatus) (stamp : Option Nat) :
    (s.modBi fun i => i.count status stamp).tagLive = s.tagLive := by
  simp only [State.tagLive, State.modBi_bi, Intake.count_tag]

/-! ## Play states that follow a supply state (R39, R40) -/

/-- The play state of zone `z` after the tests of R39 and R40. -/
def State.readyPlay (s : State) (z : ZoneId) : Play :=
  if (s.zone z).play = .priming ∧ s.readyToStart z = true ∨ (s.zone z).play = .starved ∧ s.readyToRestart z = true then
    .playing
  else (s.zone z).play

/-- The state with zone `z` in play state `p`, concealers `oc`, link `cl` and `n` free values used. -/
def State.playTo (s : State) (z : ZoneId) (p : Play) (oc : Pair Concealer) (cl : Link) (n : Nat) : State :=
  { s with zc := s.zc.mod z fun r => { r with play := p }, oc := oc, cl := cl, free := n }

@[simp] theorem State.zone_playTo (s : State) (z : ZoneId) (p : Play) (oc : Pair Concealer) (cl : Link) (n : Nat) :
    (s.playTo z p oc cl n).zone z = { s.zone z with play := p } := s.zc.get_mod_self z _

@[simp] theorem State.zone_playTo_other (s : State) (z : ZoneId) (p : Play) (oc : Pair Concealer) (cl : Link) (n : Nat) :
    (s.playTo z p oc cl n).zone z.other = s.zone z.other := s.zc.get_mod_other z _

/-- A zone that keeps its play state. -/
theorem State.playTo_self {s : State} {z : ZoneId} {p : Play} (h : (s.zone z).play = p) (cl : Link) :
    s.playTo z p s.oc cl s.free = { s with cl := cl } := by
  subst h
  cases z <;> rfl

/-- The tests of R39 and R40 change the zone's play state, its concealer's mark and the notices. -/
theorem State.testReady_spec (s : State) (z : ZoneId) : ∃ oc cl, s.testReady z = s.playTo z (s.readyPlay z) oc cl s.free := by
  have kept (h : s.readyPlay z = (s.zone z).play) : ∃ oc cl, s = s.playTo z (s.readyPlay z) oc cl s.free :=
    ⟨s.oc, s.cl, (State.playTo_self h.symm s.cl).symm⟩
  have started (h : s.readyPlay z = .playing) (d : Bool) (v : ZoneCause) :
      ∃ oc cl, (s.becomePlaying z d).zoneNotice z v = s.playTo z (s.readyPlay z) oc cl s.free := ⟨_, _, by rw [h]; rfl⟩
  unfold State.testReady
  cases hp : (s.zone z).play with
  | priming =>
    by_cases hr : s.readyToStart z = true
    · simpa [hr] using started (by simp [State.readyPlay, hp, hr]) true .primed
    · simpa [hr] using kept (by simp [State.readyPlay, hp, hr])
  | starved =>
    by_cases hr : s.readyToRestart z = true
    · simpa [hr] using started (by simp [State.readyPlay, hp, hr]) false .refilled
    · simpa [hr] using kept (by simp [State.readyPlay, hp, hr])
  | stopped => exact kept (by simp [State.readyPlay, hp])
  | playing => exact kept (by simp [State.readyPlay, hp])
  | paused => exact kept (by simp [State.readyPlay, hp])

/-- What follows a change of supply state changes the zone's play state, its concealer's mark, the notices and the count of free
values. -/
theorem State.supplyChanged_spec (s : State) (z : ZoneId) (v : ZoneCause) :
    ∃ oc cl n, s.supplyChanged z v = s.playTo z (s.readyPlay z) oc cl n := by
  unfold State.supplyChanged
  split
  · next h => exact ⟨_, _, _, by rw [State.readyPlay, if_pos (.inl h)]; rfl⟩
  · next h1 =>
    split
    · next h => exact ⟨_, _, _, by rw [State.readyPlay, if_pos (.inr h)]; rfl⟩
    · next h2 => exact ⟨s.oc, _, s.free, (State.playTo_self (if_neg fun h => h.elim h1 h2).symm _).symm⟩

/-! ## Skips (R16, R80, R91, R92) -/

/-- The region of a skip is recorded in the zone's selected record, and nothing else changes. -/
theorem State.markDefect_spec (s : State) (z : ZoneId) (a : Nat) :
    ∃ dd, s.markDefect z .skipProne a = { s with dd := dd } ∧ s.marksSkip { s with dd := dd } z a := by
  unfold State.markDefect State.modSelRec State.marksSkip State.record
  by_cases ha : a ≤ 479999
  · cases hz : (s.zone z).selected with
    | none => exact ⟨s.dd, by simp [ha], fun i => by simp⟩
    | some j =>
      refine ⟨_, by rw [if_pos ha]; rfl, fun i => ?_⟩
      simp only [Directory.modRecord, List.getElem?_modify, Option.some.injEq, ha, and_true]
      by_cases hj : j = i <;> simp [hj]
  · exact ⟨s.dd, by simp [ha], fun i => by simp [ha]⟩

/-- A FEEDING zone becomes REJOINING with a fresh context, and R39 and R40 are tested (R80). -/
theorem State.rejoin_feeding {s : State} {z : ZoneId} (v : ZoneCause) (h : (s.zone z).supply = .feeding) :
    (∃ p, (s.rejoin z v).zone z = { s.zone z with supply := .rejoining, play := p }) ∧
    (s.rejoin z v).zone z.other = s.zone z.other ∧
    (∃ x, (s.rejoin z v).ctx z = some x ∧ x.stage = .waiting ∧ x.failed = 0 ∧ x.backoff = s.params.luBackoff) ∧
    (s.rejoin z v).bs = s.bs ∧ (s.rejoin z v).bi = s.bi ∧ (s.rejoin z v).da = s.da ∧ (s.rejoin z v).dd = s.dd := by
  obtain ⟨p, oc, cl, n, hc⟩ : ∃ p oc cl n, (s.modZone z fun r => { r with supply := .rejoining }).supplyChanged z v =
      (s.modZone z fun r => { r with supply := .rejoining }).playTo z p oc cl n := ⟨_, State.supplyChanged_spec _ z v⟩
  have hs : s.setSupply z .rejoining v = (s.modZone z fun r => { r with supply := .rejoining }).supplyChanged z v := by
    simp [State.setSupply, State.putSupply, dropsCtx, h]
  rw [State.rejoin, hs, hc]
  refine ⟨⟨p, ?_⟩, ?_, ⟨_, State.ctx_setCtx _ z _, rfl, rfl, rfl⟩, rfl, rfl, rfl, rfl⟩
  · cases z <;> rfl
  · cases z <;> rfl

/-- A block whose GOOD stamp is not the expected address is a skip (R16). -/
theorem State.appendBlock_skip {s : State} {z : ZoneId} {e : Nat} (hn : (s.zone z).nextRead = some e) (he : e ≤ s.programEnd z)
    (hg : (s.info s.bs.intake).stampStatus = .good) (hs : (s.info s.bs.intake).stamp ≠ some e) :
    s.appendBlock z = s.skip z e := by
  have ha : s.nextAddr z = e := by simp [State.nextAddr, hn]
  simp only [State.appendBlock, ha]
  rw [if_neg (Nat.not_lt.2 he), if_pos ⟨hg, hs⟩]

/-- A skip of a zone that is not FEEDING ends the burst and does no more. -/
theorem AppendingBurst.skip_other {s : State} {z : ZoneId} {tag : Tag} {c : Claim} (e : Nat) (h : AppendingBurst s z tag c)
    (hf : (s.zone z).supply ≠ .feeding) : s.skip z e = s.discard.burstOver := by
  have hc : s.discard.closeZoneClaim z .ended = s.discard.burstOver := (h.congr (t := s.discard) rfl rfl).closeZoneClaim
  simp only [State.skip, hc]
  exact if_neg hf

/-- A skip of a FEEDING zone ends the burst, records a region and sends the zone to REJOINING with a fresh context. -/
theorem AppendingBurst.skip_feeding {s : State} {z : ZoneId} {tag : Tag} {c : Claim} (e : Nat) (h : AppendingBurst s z tag c)
    (hf : (s.zone z).supply = .feeding) :
    (∃ p, (s.skip z e).zone z = { s.zone z with supply := .rejoining, play := p }) ∧
    (s.skip z e).zone z.other = s.zone z.other ∧
    (∃ x, (s.skip z e).ctx z = some x ∧ x.stage = .waiting ∧ x.failed = 0 ∧ x.backoff = s.params.luBackoff) ∧
    (s.skip z e).bs = s.discard.bs ∧ (s.skip z e).da = s.burstOver.da ∧ s.marksSkip (s.skip z e) z e := by
  have hc : s.discard.closeZoneClaim z .ended = s.discard.burstOver := (h.congr (t := s.discard) rfl rfl).closeZoneClaim
  obtain ⟨dd, hd, hm⟩ := s.discard.burstOver.markDefect_spec z e
  obtain ⟨hz, ho, hx, hbs, -, hda, hdd⟩ :=
    State.rejoin_feeding (s := { s.discard.burstOver with dd := dd }) (z := z) .skip hf
  have hs : s.skip z e = ({ s.discard.burstOver with dd := dd } : State).rejoin z .skip := by
    rw [← hd]
    simp only [State.skip, hc]
    exact if_pos hf
  rw [← hs] at hz ho hx hbs hda hdd
  refine ⟨hz, ho, hx, hbs, hda, fun i => ?_⟩
  rw [State.record, hdd]
  exact hm i

/-- Settles O52: the block is not committed, and the two cases of the supply state differ in what follows the end of the burst. -/
theorem skipSendsAZoneToRejoining : Obligations.SkipSendsAZoneToRejoining := by
  intro s b z tag c e a hp hout hrd htag hlive hkind hzone hph hcl hcs hck hcz hi hh hn hnx hst hgood ha hne he
  have hb : AppendingBurst s z tag c := ⟨hout, hrd, htag, hlive, hkind, hzone, hph, hcl, hcs, hck, hcz⟩
  have hw : AppendingBurst (s.taking tag b) z tag c := hb.congr rfl rfl
  have hcor : correctStamp b.stamp b.stampStatus = (some a, .good) := by simp [correctStamp, hst, hgood, Nat.not_lt.2 ha]
  have hskip : (s.taking tag b).appendBlock z = (s.taking tag b).skip z e := by
    refine State.appendBlock_skip hnx he ?_ ?_ <;> rw [State.info_taking] <;> simp [measured, hcor, hne]
  obtain ⟨hfh, hfc, hin, hch, han⟩ := State.pool_discard_taking tag b hh hn
  have hpres := State.present_appending b hb hi hh hn
  rw [hskip] at hpres
  by_cases hf : (s.zone z).supply = .feeding
  · obtain ⟨⟨p, hz⟩, ho, hx, hbs, hda, hm⟩ := hw.skip_feeding e hf
    have hstop : ((s.taking tag b).skip z e).da.state = .stopping := by rw [hda]; rfl
    refine ⟨_, exec_blockPresented hp (hpres.trans (State.runBlockTimer_stopping hstop)),
      fun _ => ⟨congrArg Zone.supply hz, hm, hx⟩, fun h => absurd hf h, (congrArg Zone.nextRead hz).trans hnx, ?_⟩
    rw [State.modBi_bs, hbs, State.modBi_da, hda]
    exact ⟨fun w => ⟨congrArg (·.get w) hch, congrArg (·.get w) han⟩, hfh, hfc, hin, rfl, rfl, rfl, ho⟩
  · rw [hw.skip_other e hf] at hpres
    exact ⟨_, exec_blockPresented hp (hpres.trans (State.runBlockTimer_stopping rfl)), fun h => absurd h hf,
      fun _ => ⟨rfl, rfl, rfl⟩, hnx, fun w => ⟨congrArg (·.get w) hch, congrArg (·.get w) han⟩, hfh, hfc, hin, rfl, rfl,
      rfl, rfl⟩

end Sys2Proof.Machine
end

section
/-! PROOF. The commit by append (chapters 1, 2 and 5): what it makes of the store, what the reports that follow it leave, when it is
the last of its burst; and the statement on blocks in order (O51). -/

namespace Sys2Proof.Machine

/-! ## What an append makes of the store (R25, R27) -/

theorem Store.releaseAnchor_fields (st : Store) (z : ZoneId) : (st.releaseAnchor z).chain = st.chain ∧
    (st.releaseAnchor z).intake = st.intake ∧ (st.releaseAnchor z).mem = st.mem ∧ (st.releaseAnchor z).anchor.get z = 0 := by
  unfold Store.releaseAnchor
  split
  · next h => exact ⟨rfl, rfl, rfl, h⟩
  · exact ⟨rfl, rfl, rfl, Pair.get_set_self _ z 0⟩

/-- Linked at the tail, the intake bucket is the tail of a chain longer by one. -/
theorem Store.link_tail (st : Store) (z : ZoneId) : ((st.link z).chain.get z).length = (st.chain.get z).length + 1 ∧
    ((st.link z).chain.get z).tail = st.intake ∧ (st.link z).intake = 0 ∧ (st.link z).mem = st.mem := by
  unfold Store.link
  by_cases h : (st.chain.get z).length = 0 <;> simp [h, Store.setNext]

/-- The bucket of a block that is committed at address `e`: its expected address is `e`, and a GOOD stamp confirms it (R17). -/
def Bucket.committed (v : Bucket) (e : Nat) : Bucket :=
  { v with info := { v.info with expected := some e, confirmed := decide (v.info.stampStatus = .good) } }

/-- An append moves the intake bucket, committed, to the tail of the zone's chain, and the zone holds no anchor any more. -/
theorem Store.append_spec {st : Store} (z : ZoneId) (e : Nat) (hw : st.wf = true) (hi : st.intake ≠ 0) :
    ((st.append z e).chain.get z).length = (st.chain.get z).length + 1 ∧ ((st.append z e).chain.get z).tail = st.intake ∧
    (st.append z e).chain.get z.other = st.chain.get z.other ∧ (st.append z e).anchor.get z = 0 ∧ (st.append z e).intake = 0 ∧
    (st.append z e).bucket st.intake = (st.bucket st.intake).committed e := by
  let st1 := st.setBucket st.intake ((st.bucket st.intake).committed e)
  have ha : st.append z e = (st1.link z).releaseAnchor z := if_neg hi
  obtain ⟨hlen, htail, hin, hmem⟩ := st1.link_tail z
  obtain ⟨-, hother⟩ := st1.link_fields z
  obtain ⟨hch, hri, hrm, hra⟩ := (st1.link z).releaseAnchor_fields z
  rw [ha]
  rw [hch]
  refine ⟨hlen, htail, hother _ (ZoneId.other_ne z), hra, hri.trans hin, ?_⟩
  have hb : ((st1.link z).releaseAnchor z).bucket st.intake = st1.bucket st.intake := by
    simp only [Store.bucket, hrm, hmem]
  rw [hb, Store.bucket_setBucket hw, if_pos rfl]

/-! ## The reports that follow an append (R44, R96, R102, R105, R114) -/

/-- From `s` to `t` nothing that an append's own zone reads of the pool, its burst or the claimant conditions has changed: the
reports of an append mark blocks as listed, write the track, the audit and re-read lists and the defect lists, and send notices. -/
structure Reported (s t : State) : Prop where
  params  : t.params = s.params
  da      : t.da = s.da
  bi      : t.bi = s.bi
  chain   : t.bs.chain = s.bs.chain
  anchor  : t.bs.anchor = s.bs.anchor
  intake  : t.bs.intake = s.bs.intake
  block   : s.bs.wf = true → t.bs.wf = true ∧ ∀ b, ∃ l,
    t.bs.bucket b = { s.bs.bucket b with info := { (s.bs.bucket b).info with listed := l } }
  zone    : ∀ z, ∃ n, t.zone z = { s.zone z with track := n }
  present : ∀ z, t.selPresent z = s.selPresent z

/-- Whether a zone's selected record is PRESENT is a matter of the selection and the records' states. -/
theorem State.selPresent_congr {s t : State} {z : ZoneId} (hz : (t.zone z).selected = (s.zone z).selected)
    (hd : t.dd.records.map (·.state) = s.dd.records.map (·.state)) : t.selPresent z = s.selPresent z := by
  have form (u : State) : u.selPresent z =
      decide (((u.zone z).selected.bind fun i => (u.dd.records.map (·.state))[i]?) = some .present) := by
    unfold State.selPresent State.selRec State.record
    cases (u.zone z).selected with
    | none => rfl
    | some i =>
      simp only [Option.bind_some, List.getElem?_map]
      cases u.dd.records[i]? <;> simp
  rw [form, form, hz, hd]

/-- Whether a claim is on an entry is a matter of the drive. -/
theorem State.claimOn_congr {s t : State} (h : t.da = s.da) (k : ClaimKind) (z : ZoneId) (a : Nat) :
    t.claimOn k z a = s.claimOn k z a := by
  simp only [State.claimOn, State.liveClaim, h]

namespace Reported

variable {s t u : State} {z : ZoneId}

theorem refl (s : State) : Reported s s :=
  ⟨rfl, rfl, rfl, rfl, rfl, rfl, fun h => ⟨h, fun _ => ⟨_, rfl⟩⟩, fun _ => ⟨_, rfl⟩, fun _ => rfl⟩

theorem trans (h : Reported s t) (k : Reported t u) : Reported s u where
  params  := k.params.trans h.params
  da      := k.da.trans h.da
  bi      := k.bi.trans h.bi
  chain   := k.chain.trans h.chain
  anchor  := k.anchor.trans h.anchor
  intake  := k.intake.trans h.intake
  block   := fun hw => by
    obtain ⟨ht, hb⟩ := h.block hw
    obtain ⟨hu, kb⟩ := k.block ht
    refine ⟨hu, fun b => ?_⟩
    obtain ⟨l, hl⟩ := hb b
    obtain ⟨m, hm⟩ := kb b
    exact ⟨m, by rw [hm, hl]⟩
  zone    := fun w => by
    obtain ⟨n, hn⟩ := h.zone w
    obtain ⟨m, hm⟩ := k.zone w
    exact ⟨m, by rw [hm, hn]⟩
  present := fun w => (k.present w).trans (h.present w)

/-- What leaves the state still, with the drive, the intake and the zones as they are. -/
theorem of_still (h : Still s t) (hda : t.da = s.da) (hbi : t.bi = s.bi) (hzc : t.zc = s.zc) : Reported s t where
  params  := h.whole.2.2.1
  da      := hda
  bi      := hbi
  chain   := h.pool.2.2.2.1
  anchor  := h.pool.2.2.2.2.1
  intake  := h.pool.2.2.2.2.2
  block   := fun hw => by
    obtain ⟨ht, hb⟩ := h.block hw
    exact ⟨ht, fun b => ⟨(t.info b).listed, by rw [← hb b]; rfl⟩⟩
  zone    := fun w => ⟨_, congrArg (Pair.get · w) hzc⟩
  present := fun w => by
    refine State.selPresent_congr (congrArg (fun p => (Pair.get p w).selected) hzc) ?_
    have hd := congrArg (List.map DiscRecord.state) h.dd.2
    rw [List.map_map, List.map_map] at hd
    exact hd

/-! ### One change at a time -/

theorem modAudit {f : Audit → Audit} (h : Reported s t) : Reported s (t.modAudit z f) :=
  h.trans ⟨rfl, rfl, rfl, rfl, rfl, rfl, fun h => ⟨h, fun _ => ⟨_, rfl⟩⟩, fun _ => ⟨_, rfl⟩, fun _ => rfl⟩

theorem notice {k : Byte} {b : List Byte} (h : Reported s t) : Reported s (t.notice k b) :=
  h.trans ⟨rfl, rfl, rfl, rfl, rfl, rfl, fun h => ⟨h, fun _ => ⟨_, rfl⟩⟩, fun _ => ⟨_, rfl⟩, fun _ => rfl⟩

theorem setTrack {n : Nat} (h : Reported s t) : Reported s (t.modZone z fun r => { r with track := n }) := by
  have hz (w : ZoneId) : ∃ m, (t.modZone z fun r => { r with track := n }).zone w = { t.zone w with track := m } := by
    by_cases e : w = z
    · subst e
      exact ⟨n, State.zone_modZone t w _⟩
    · exact ⟨_, State.zone_modZone_ne t _ e⟩
  refine h.trans ⟨rfl, rfl, rfl, rfl, rfl, rfl, fun h => ⟨h, fun _ => ⟨_, rfl⟩⟩, hz, fun w => ?_⟩
  obtain ⟨m, hm⟩ := hz w
  exact State.selPresent_congr (by rw [hm]) rfl

theorem markDefect {k : DefectKind} {a : Nat} (h : Reported s t) : Reported s (t.markDefect z k a) := by
  have hf : (t.markDefect z k a).da = t.da ∧ (t.markDefect z k a).bi = t.bi ∧ (t.markDefect z k a).zc = t.zc := by
    unfold State.markDefect State.modSelRec
    split
    · split <;> exact ⟨rfl, rfl, rfl⟩
    · exact ⟨rfl, rfl, rfl⟩
  obtain ⟨hda, hbi, hzc⟩ := hf
  exact h.trans (of_still (Still.refl t).markDefect hda hbi hzc)

theorem clearListed {a : Nat} (h : Reported s t) : Reported s (t.clearListed z a) := by
  have hf : (t.clearListed z a).da = t.da ∧ (t.clearListed z a).bi = t.bi ∧ (t.clearListed z a).zc = t.zc := by
    unfold State.clearListed
    split <;> exact ⟨rfl, rfl, rfl⟩
  obtain ⟨hda, hbi, hzc⟩ := hf
  exact h.trans (of_still (Still.refl t).clearListed hda hbi hzc)

theorem modList {f : List Entry → List Entry} (h : Reported s t) : Reported s (t.modList z f) :=
  h.trans (of_still (Still.refl t).modList rfl rfl rfl)

/-- An entry leaves the list while no RE-READ claim is on it. -/
theorem dropEntry {a : Nat} (h : Reported s t) (hc : s.claimOn .reread z a = false) : Reported s (t.dropEntry z a) := by
  have h1 : Reported s ((t.clearListed z a).modList z fun l => l.filter fun e => decide (e.addr ≠ a)) := h.clearListed.modList
  have h2 := State.claimOn_congr h1.da .reread z a
  simp only [State.dropEntry]
  rw [if_neg (by rw [h2, hc]; exact Bool.false_ne_true)]
  exact h1

/-! ### The reports -/

theorem listBlock {p : Nat} (h : Reported s t) : Reported s (t.listBlock z p) := by
  simp only [State.listBlock]
  split
  · exact h.trans (Reported.modList (of_still (Still.refl t).modListed rfl rfl rfl))
  · exact h

theorem countAppend {e : Nat} (h : Reported s t) : Reported s (t.countAppend z e) := by
  simp only [State.countAppend]
  split <;> exact h.modAudit

theorem missAudit (h : Reported s t) : Reported s (t.missAudit z) := by
  simp only [State.missAudit]
  split
  · exact h.modAudit.modAudit.notice
  · exact h.modAudit

theorem rereadAtHead {e : Nat} {r : BlockRec} (h : Reported s t) (hc : s.claimOn .reread z e = false) :
    Reported s (t.rereadAtHead z e r) := by
  simp only [State.rereadAtHead]
  split
  · split
    · exact (h.dropEntry hc).markDefect
    · exact h.dropEntry hc
  · exact h

theorem auditAtHead {e : Nat} (h : Reported s t) : Reported s (t.auditAtHead z e) := by
  unfold State.auditAtHead
  split
  · exact h.missAudit
  · exact h

theorem trackAtHead {e n : Nat} (h : Reported s t) : Reported s (t.trackAtHead z e n) := by
  unfold State.trackAtHead
  split
  · exact h
  · exact h.setTrack.notice

/-- A block comes to the head while no RE-READ claim is current. -/
theorem newHead (h : Reported s t) (hc : ∀ a, s.claimOn .reread z a = false) : Reported s (t.newHead z) := by
  simp only [State.newHead]
  split
  · exact h
  · exact (h.rereadAtHead (hc _)).auditAtHead.trackAtHead

end Reported

/-! ## The claimant conditions of the other zone (R38, R69) -/

/-- Whether a zone is pressing is a matter of its record less the track, its fill, its disc record's state and the parameters. -/
theorem State.pressing_congr {s t : State} {w : ZoneId} (hp : t.params = s.params)
    (hz : ∃ n, t.zone w = { s.zone w with track := n }) (hf : t.fill w = s.fill w) (hs : t.selPresent w = s.selPresent w) :
    t.pressing w = s.pressing w := by
  obtain ⟨n, hz⟩ := hz
  simp only [State.pressing, State.urgent, State.refillClaimant, State.rejoinClaimant, State.offered, State.room, State.quota, hp,
    hz, hf, hs]
  rfl

/-- The other zone presses as before when a zone's play state changes. -/
theorem State.floorReached_playTo (s : State) (z : ZoneId) (p : Play) (oc : Pair Concealer) (cl : Link) (n : Nat) :
    (s.playTo z p oc cl n).floorReached z = s.floorReached z := by
  have hz : (s.playTo z p oc cl n).zone z.other = s.zone z.other := State.zone_playTo_other ..
  have hp : (s.playTo z p oc cl n).pressing z.other = s.pressing z.other :=
    State.pressing_congr rfl ⟨_, hz⟩ rfl (State.selPresent_congr (congrArg Zone.selected hz) rfl)
  simp only [State.floorReached, hp]
  rfl

/-! ## The end of a burst (R68, R69) -/

/-- The commit that claim `c` has just counted for zone `z` is the last of its burst: at the burst limit when no LOAD was issued, at
room 0, or at the floor while the other zone is pressing. -/
def State.lastCommit (s : State) (z : ZoneId) (c : Claim) : Bool :=
  decide (c.swap = false ∧ s.params.burstLimit ≤ c.commits ∨ s.room z = 0) || s.floorReached z

/-- The drive's own state does not make a commit the last. -/
theorem State.lastCommit_modDa (s : State) (f : Drive → Drive) (z : ZoneId) (c : Claim) :
    (s.modDa f).lastCommit z c = s.lastCommit z c := rfl

/-- The claim with one commit more counted, up to 4,095 (R68). -/
def Claim.counted (c : Claim) : Claim := { c with commits := min 4095 (c.commits + 1) }

namespace AppendingBurst

variable {s : State} {z : ZoneId} {tag : Tag} {c : Claim}

theorem countCommit (h : AppendingBurst s z tag c) : s.countCommit z = s.modDa fun d => { d with claim := some c.counted } := by
  simp only [State.countCommit, h.liveClaim]
  exact if_pos ⟨h.ofZone, h.claimKind⟩

/-- The burst goes on with the commit counted. -/
theorem counted (h : AppendingBurst s z tag c) :
    AppendingBurst (s.countCommit z) z tag c.counted := by
  rw [h.countCommit]
  exact { h with claim := rfl }

theorem pressTest (h : AppendingBurst s z tag c) : s.pressTest z = if s.floorReached z = true then s.burstOver else s := by
  have hk := h.claimKind
  simp only [State.pressTest, h.liveClaim, hk, h.ofZone, h.closeClaim, true_and]

theorem burstTest (h : AppendingBurst s z tag c) : s.burstTest z =
    if c.swap = false ∧ s.params.burstLimit ≤ c.commits ∨ s.room z = 0 then s.burstOver else s := by
  simp only [State.burstTest, h.liveClaim, h.closeZoneClaim]

/-- After a counted commit the zone's readiness is tested, and the burst is over when the commit was its last. -/
theorem after_commit (h : AppendingBurst s z tag c) : ∃ oc cl, ((s.burstTest z).testReady z).pressTest z =
    (if s.lastCommit z c = true then s.burstOver else s).playTo z (s.readyPlay z) oc cl s.free := by
  rw [h.burstTest]
  by_cases hl : c.swap = false ∧ s.params.burstLimit ≤ c.commits ∨ s.room z = 0
  · obtain ⟨oc, cl, ht⟩ := s.burstOver.testReady_spec z
    refine ⟨oc, cl, ?_⟩
    rw [if_pos hl, ht, if_pos (by simp [State.lastCommit, hl])]
    rfl
  · obtain ⟨oc, cl, ht⟩ := s.testReady_spec z
    have hb : AppendingBurst (s.playTo z (s.readyPlay z) oc cl s.free) z tag c := h.congr rfl rfl
    refine ⟨oc, cl, ?_⟩
    have hlast : s.lastCommit z c = s.floorReached z := by simp [State.lastCommit, hl]
    rw [if_neg hl, ht, hb.pressTest, State.floorReached_playTo, hlast]
    split <;> rfl

end AppendingBurst

/-! ## A commit by append (R17, R27, R35) -/

/-- The intake bucket is appended to zone `z` at address `e`, and the next read address rises (R27, R35). -/
def State.appended (s : State) (z : ZoneId) (e : Nat) : State :=
  (s.modBs fun st => st.append z e).modZone z fun r => { r with nextRead := some (e + 1), resume := none }

/-- A block whose stamp does not speak against the expected address is committed, and R69 is tested (R15, R16, R17). -/
theorem State.appendBlock_commit {s : State} {z : ZoneId} {e : Nat} (hn : (s.zone z).nextRead = some e) (he : e ≤ s.programEnd z)
    (hs : (s.info s.bs.intake).stampStatus = .good → (s.info s.bs.intake).stamp = some e) :
    s.appendBlock z = (s.commit z e).pressTest z := by
  have ha : s.nextAddr z = e := by simp [State.nextAddr, hn]
  simp only [State.appendBlock, ha]
  rw [if_neg (Nat.not_lt.2 he), if_neg fun ⟨hg, hne⟩ => hne (hs hg)]

namespace AppendingBurst

variable {s : State} {z : ZoneId} {tag : Tag} {c : Claim}

/-- An append to a full chain is refused: the bucket is discarded and the burst is over (R27, R68). -/
theorem commit_refused (e : Nat) (h : AppendingBurst s z tag c) (hf : s.quota z ≤ s.fill z) :
    (s.commit z e).pressTest z = s.discard.burstOver := by
  have hc : s.discard.closeZoneClaim z .ended = s.discard.burstOver := (h.congr (t := s.discard) rfl rfl).closeZoneClaim
  have hm : s.commit z e = s.discard.burstOver := by rw [State.commit, if_pos hf, hc]
  rw [hm]
  rfl

/-- A commit appends the block, makes its reports, counts for the claim and tests the zone's readiness. -/
theorem commit_reports (e : Nat) (h : AppendingBurst s z tag c) (hf : s.fill z < s.quota z) :
    ∃ r, Reported (s.appended z e) r ∧ s.commit z e = ((r.countCommit z).burstTest z).testReady z := by
  let s2 := if decide (s.fill z = 0) = true then (s.appended z e).newHead z else s.appended z e
  have ha : AppendingBurst (s.appended z e) z tag c := h.congr rfl rfl
  have h2 : Reported (s.appended z e) s2 := by
    unfold s2
    split
    · exact (Reported.refl _).newHead fun a => ha.claimOn_reread z a
    · exact Reported.refl _
  exact ⟨(s2.listBlock z (s2.fill z - 1)).countAppend z e, h2.listBlock.countAppend, if_neg (Nat.not_le.2 hf)⟩

/-- After the reports `r` of a commit the zone is given the play state it is ready for, and the burst is over when the commit was
its last. -/
theorem commit_appends (e : Nat) (h : AppendingBurst s z tag c) (hf : s.fill z < s.quota z) :
    ∃ r y, Reported (s.appended z e) r ∧ (s.commit z e).pressTest z = y ∧ y.bs = r.bs ∧
      y.zone z = { r.zone z with play := r.readyPlay z } ∧
      (r.lastCommit z c.counted = true → y.da = s.burstOver.da ∧ y.bi = s.burstOver.bi) ∧
      (r.lastCommit z c.counted = false → y.da = { s.da with claim := some c.counted } ∧ y.bi = s.bi) := by
  obtain ⟨r, hr, hcommit⟩ := h.commit_reports e hf
  have hda : r.da = s.da := hr.da
  have hbi : r.bi = s.bi := hr.bi
  have hb : AppendingBurst r z tag c := h.congr hda hbi
  obtain ⟨oc, cl, hy⟩ := hb.counted.after_commit
  rw [← hcommit, hb.countCommit, State.lastCommit_modDa] at hy
  refine ⟨r, _, hr, hy, ?_⟩
  by_cases hl : r.lastCommit z c.counted = true
  · rw [if_pos hl]
    refine ⟨rfl, State.zone_playTo _ z _ oc cl _, fun _ => ?_, fun h => absurd hl (by simp [h])⟩
    simp only [State.burstOver, State.playTo, State.modDa, Drive.sending, hda, hbi, and_self]
  · rw [if_neg hl]
    exact ⟨rfl, State.zone_playTo _ z _ oc cl _, fun h => absurd h hl,
      fun _ => ⟨congrArg (fun d : Drive => { d with claim := some c.counted }) hda, hbi⟩⟩

end AppendingBurst

/-! ## The stamp as recorded and counted (R10, R13) -/

theorem correctStamp_good {a : Nat} (h : a ≤ 479999) : correctStamp (some a) .good = (some a, .good) := by
  simp [correctStamp, Nat.not_lt.2 h]

/-- A stamp that is not GOOD, absent or out of range is recorded as DOUBTFUL or MISSING, with no address. -/
theorem correctStamp_unstamped {stamp : Option Nat} {status : StampStatus}
    (h : status ≠ .good ∨ stamp = none ∨ ∃ a, stamp = some a ∧ 479999 < a) :
    (correctStamp stamp status).1 = none ∧ (correctStamp stamp status).2 ≠ .good := by
  cases status with
  | missing => simp [correctStamp]
  | doubtful => cases stamp <;> simp [correctStamp]
  | good =>
    cases stamp with
    | none => simp [correctStamp]
    | some a =>
      have ha : 479999 < a := by simpa using h
      simp [correctStamp, ha]

/-- A status that is not GOOD counts. -/
theorem Intake.count_unstamped (b : Intake) {status : StampStatus} (stamp : Option Nat) (h : status ≠ .good) :
    b.count status stamp = { b with nonGood := min 255 (b.nonGood + 1) } := by
  cases status with
  | good => exact absurd rfl h
  | doubtful => rfl
  | missing => rfl

end Sys2Proof.Machine
end

section
/-! PROOF. A block in order, from the port to the end of its commit (chapters 1 to 4): the statement on blocks in order (O51). -/

namespace Sys2Proof.Machine

/-! ## After the commit (R13, R39, R40, R57) -/

/-- The block timer is the drive's alone. -/
theorem State.runBlockTimer_fields (s : State) :
    s.runBlockTimer.bs = s.bs ∧ s.runBlockTimer.zc = s.zc ∧ s.runBlockTimer.bi = s.bi := by
  unfold State.runBlockTimer
  split <;> exact ⟨rfl, rfl, rfl⟩

/-- When the burst is over the drive stays with PAUSE sent, and the tag is not LIVE. -/
theorem State.count_burstOver {s t : State} (status : StampStatus) (stamp : Option Nat) (hd : t.da = s.burstOver.da)
    (hb : t.bi = s.burstOver.bi) : (t.modBi fun i => i.count status stamp).runBlockTimer.da = s.burstOver.da ∧
    (t.modBi fun i => i.count status stamp).runBlockTimer.tagLive = false := by
  have hl : t.tagLive = s.burstOver.tagLive := by simp only [State.tagLive, hb]
  rw [State.runBlockTimer_stopping (s := t.modBi _) (congrArg Drive.state hd), State.tagLive_count, hl]
  exact ⟨hd, s.tagLive_burstOver⟩

/-- While the burst goes on the block timer runs for 1 s from the block. -/
theorem AppendingBurst.count_runs {s : State} {z : ZoneId} {tag : Tag} {c : Claim} (status : StampStatus) (stamp : Option Nat)
    (h : AppendingBurst s z tag c) :
    (s.modBi fun i => i.count status stamp).runBlockTimer.da = { s.da with blockTimer := .running 1000000000 } ∧
    (s.modBi fun i => i.count status stamp).runBlockTimer.tagLive = true := by
  have hl := (s.tagLive_count status stamp).trans h.live_tag
  rw [State.runBlockTimer_running (s := s.modBi _) h.reading h.out hl]
  exact ⟨rfl, hl⟩

/-- The play state of a FEEDING zone `z` once it has one block more: PLAYING at its threshold, or with room below 32 (R39, R40). -/
def State.grownPlay (s : State) (z : ZoneId) : Play :=
  if (s.zone z).play = .priming ∧ (s.params.startThr.get z ≤ s.fill z + 1 ∨ s.quota z < s.fill z + 33) ∨
      (s.zone z).play = .starved ∧ (s.params.restartThr.get z ≤ s.fill z + 1 ∨ s.quota z < s.fill z + 33) then .playing
  else (s.zone z).play

theorem State.readyPlay_grown {s t : State} {z : ZoneId} (hp : t.params = s.params) (hf : t.fill z = s.fill z + 1)
    (hz : (t.zone z).play = (s.zone z).play) (hs : (t.zone z).supply = .feeding) : t.readyPlay z = s.grownPlay z := by
  have hroom : t.room z < 32 ↔ s.quota z < s.fill z + 33 := by
    rw [State.room, State.quota, hp, hf, ← State.quota]
    omega
  simp only [State.readyPlay, State.grownPlay, State.readyToStart, State.readyToRestart, hs, hz, hp, hf, hroom, supplyOver,
    Bool.false_and, Bool.or_false, decide_true, Bool.true_and, Bool.or_eq_true, decide_eq_true_eq]

/-! ## The append -/

/-- What the append of a block just taken makes of a sound pool and of the zones. -/
theorem State.appended_taking {s : State} (z : ZoneId) (tag : Tag) (b : PortBlock) (e : Nat) (hs : s.bs.sound)
    (hi : s.bs.intake = 0) (hh : s.bs.freeHead ≠ 0) (hc : s.bs.freeCount ≠ 0) : let a := (s.taking tag b).appended z e
    (a.fill z = s.fill z + 1 ∧ (a.bs.chain.get z).tail = s.bs.freeHead ∧ a.bs.chain.get z.other = s.bs.chain.get z.other ∧
      a.bs.anchor.get z = 0 ∧ a.bs.intake = 0) ∧
    a.bs.wf = true ∧ a.bs.bucket s.bs.freeHead = (measured b (s.recordedTrack tag b.track)).committed e ∧
    a.zone z = { s.zone z with nextRead := some (e + 1), resume := none } ∧ a.zone z.other = s.zone z.other := by
  have hsound : (s.taking tag b).bs.sound :=
    Store.sound_setBucket _ _ (Store.sound_allocate hs (Store.allocate_free hi hh hc))
  obtain ⟨hwf, -⟩ := Store.sound_append z e hsound
  obtain ⟨hlen, htail, hother, hanchor, hintake, hbucket⟩ := Store.append_spec z e hsound.1 (st := (s.taking tag b).bs) hh
  have htaken : (s.taking tag b).bs.bucket (s.taking tag b).bs.intake = _ := s.bucket_taking tag b
  rw [htaken] at hbucket
  exact ⟨⟨hlen, htail, hother, hanchor, hintake⟩, hwf, hbucket, State.zone_modZone _ z _, Pair.get_mod_other _ z _⟩

/-- One more commit, counted by claim `c`, is the last of its burst: what `State.lastCommit` says after it, from the state before. -/
def State.endsBurst (s : State) (z : ZoneId) (c : Claim) : Prop :=
  c.swap = false ∧ s.params.burstLimit ≤ c.commits ∨ s.quota z = s.fill z + 1 ∨
    s.pressing z.other = true ∧ s.params.lowWater.get z + 200 ≤ s.fill z + 1

theorem State.lastCommit_grown {s t : State} {z : ZoneId} {c : Claim} (hp : t.params = s.params) (hf : t.fill z = s.fill z + 1)
    (hr : s.fill z < s.quota z) (ho : t.pressing z.other = s.pressing z.other) : t.lastCommit z c = true ↔ s.endsBurst z c := by
  have hq : t.quota z = s.quota z := by rw [State.quota, hp, State.quota]
  have hroom : t.room z = 0 ↔ s.quota z = s.fill z + 1 := by
    rw [State.room, hf, hq]
    omega
  simp only [State.lastCommit, State.endsBurst, State.floorReached, hroom, hp, hf, ho, Bool.or_eq_true, Bool.and_eq_true,
    decide_eq_true_eq, or_assoc]

/-- The reports of an append leave the other zone pressing or not, as before the block. -/
theorem Reported.pressing_other {s r : State} {z : ZoneId} {tag : Tag} {b : PortBlock} {e : Nat}
    (h : Reported ((s.taking tag b).appended z e) r)
    (hch : ((s.taking tag b).appended z e).bs.chain.get z.other = s.bs.chain.get z.other)
    (hz : ((s.taking tag b).appended z e).zone z.other = s.zone z.other) : r.pressing z.other = s.pressing z.other := by
  obtain ⟨n, hn⟩ := h.zone z.other
  refine State.pressing_congr h.params ⟨n, by rw [hn, hz]⟩ ?_ ((h.present _).trans (State.selPresent_congr (by rw [hz]) rfl))
  rw [State.fill, h.chain, hch, State.fill]

/-- A block of a burst is presented to a chain with room, and is committed at address `e`. -/
theorem AppendingBurst.present_appended {s t : State} {z : ZoneId} {tag : Tag} {c : Claim} {b : PortBlock} {e : Nat}
    (h : AppendingBurst s z tag c) (hs : s.bs.sound) (hi : s.bs.intake = 0) (hh : s.bs.freeHead ≠ 0) (hn : s.bs.freeCount ≠ 0)
    (hc : (s.taking tag b).appendBlock z = ((s.taking tag b).commit z e).pressTest z) (hf : s.fill z < s.quota z)
    (ht : s.present b = t) :
    (t.fill z = s.fill z + 1 ∧ (t.bs.chain.get z).tail = s.bs.freeHead ∧ t.bs.chain.get z.other = s.bs.chain.get z.other ∧
      t.bs.anchor.get z = 0 ∧ t.bs.intake = 0) ∧
    (∃ l, t.bs.bucket s.bs.freeHead = { (measured b (s.recordedTrack tag b.track)).committed e with
      info := { ((measured b (s.recordedTrack tag b.track)).committed e).info with listed := l } }) ∧
    (∃ n p, t.zone z = { s.zone z with nextRead := some (e + 1), resume := none, track := n, play := p } ∧
      ((s.zone z).supply = .feeding → p = s.grownPlay z)) ∧
    (∃ i : Intake, i.nonGood = s.bi.nonGood ∧ i.lastGood = s.bi.lastGood ∧
      t.bi = i.count (correctStamp b.stamp b.stampStatus).2 (correctStamp b.stamp b.stampStatus).1) ∧
    (s.endsBurst z c.counted → t.da = s.burstOver.da ∧ t.tagLive = false) ∧
    (¬ s.endsBurst z c.counted →
      t.da = { s.da with claim := some c.counted, blockTimer := .running 1000000000 } ∧ t.tagLive = true) := by
  have hw : AppendingBurst (s.taking tag b) z tag c := h.congr rfl rfl
  obtain ⟨⟨hfill, htail, hother, hanchor, hintake⟩, hwf, hbucket, hz, hzo⟩ := State.appended_taking z tag b e hs hi hh hn
  obtain ⟨r, y, hr, hy, hbs, hyz, hlast, hgoes⟩ := hw.commit_appends e hf
  have hrf : r.fill z = s.fill z + 1 := (congrArg (fun p => (Pair.get p z).length) hr.chain).trans hfill
  have hends := State.lastCommit_grown (s := s) (c := c.counted) hr.params hrf hf (hr.pressing_other hother hzo)
  rw [State.present_appending b h hi hh hn, hc, hy] at ht
  obtain ⟨htb, htz, hti⟩ := ht ▸ State.runBlockTimer_fields _
  have hpool : t.bs = r.bs := htb.trans hbs
  obtain ⟨n, hrz⟩ := hr.zone z
  obtain ⟨l, hrb⟩ := (hr.block hwf).2 s.bs.freeHead
  rw [hz] at hrz
  rw [hbucket] at hrb
  have hplay (hs : (s.zone z).supply = .feeding) : r.readyPlay z = s.grownPlay z :=
    State.readyPlay_grown hr.params hrf (by rw [hrz]) (by rw [hrz]; exact hs)
  refine ⟨?_, ⟨l, by rw [hpool, hrb]⟩, ⟨n, r.readyPlay z, ?_, hplay⟩, ⟨y.bi, ?_⟩, fun hl => ?_, fun hl => ?_⟩
  · rw [State.fill, hpool, hr.chain, hr.anchor, hr.intake]
    exact ⟨hfill, htail, hother, hanchor, hintake⟩
  · calc t.zone z
      _ = y.zone z := congrArg (Pair.get · z) htz
      _ = _ := by rw [hyz, hrz]
  · rw [← and_assoc]
    refine ⟨?_, hti⟩
    cases hl : r.lastCommit z c.counted with
    | true =>
      rw [(hlast hl).2]
      exact s.bi.close_fields .ended
    | false =>
      rw [(hgoes hl).2]
      exact ⟨rfl, rfl⟩
  · obtain ⟨hda, hbi⟩ := hlast (hends.2 hl)
    exact ht ▸ State.count_burstOver _ _ hda hbi
  · obtain ⟨hda, hbi⟩ := hgoes (Bool.eq_false_iff.2 (mt hends.1 hl))
    have hb : AppendingBurst y z tag c.counted :=
      hw.counted.congr (by rw [hw.countCommit, hda]; rfl) (by rw [hw.countCommit, hbi]; rfl)
    obtain ⟨hd, hv⟩ := ht ▸ hb.count_runs (correctStamp b.stamp b.stampStatus).2 (correctStamp b.stamp b.stampStatus).1
    exact ⟨hd.trans (by rw [hda]; rfl), hv⟩

/-- Settles O51: the block is committed as it comes; the append is refused where the chain is full, and made elsewhere. -/
theorem blockInOrderIsAppended : Obligations.BlockInOrderIsAppended := by
  intro s b z tag c e hp hsound hout hrd htag hlive hkind hzone hph hcl hcs hck hcz hi hh hn hnx he good unstamped hst
  have hb : AppendingBurst s z tag c := ⟨hout, hrd, htag, hlive, hkind, hzone, hph, hcl, hcs, hck, hcz⟩
  have hgood : good → correctStamp b.stamp b.stampStatus = (some e, .good) := fun ⟨hs, hg, hr⟩ => by
    rw [hs, hg, correctStamp_good hr]
  have hun : unstamped → (correctStamp b.stamp b.stampStatus).1 = none ∧ (correctStamp b.stamp b.stampStatus).2 ≠ .good :=
    correctStamp_unstamped
  have hcommit : (s.taking tag b).appendBlock z = ((s.taking tag b).commit z e).pressTest z := by
    refine State.appendBlock_commit hnx he fun hg => ?_
    rw [State.info_taking] at hg ⊢
    exact hst.elim (fun h => congrArg Prod.fst (hgood h)) fun h => absurd hg (hun h).2
  have hcount {i : Intake} (hng : i.nonGood = s.bi.nonGood) (hlg : i.lastGood = s.bi.lastGood) :
      let j := i.count (correctStamp b.stamp b.stampStatus).2 (correctStamp b.stamp b.stampStatus).1
      (good → j.nonGood = 0 ∧ j.lastGood = some e) ∧
      (unstamped → j.nonGood = min 255 (s.bi.nonGood + 1) ∧ j.lastGood = s.bi.lastGood) := by
    refine ⟨fun h => ?_, fun h => ?_⟩
    · rw [hgood h]
      exact ⟨rfl, rfl⟩
    · rw [Intake.count_unstamped i _ (hun h).2, hng, hlg]
      exact ⟨rfl, rfl⟩
  rcases Nat.lt_or_ge (s.fill z) (s.quota z) with hf | hf
  · generalize ht : s.present b = t
    obtain ⟨⟨hfill, htail, hother, hanchor, hintake⟩, ⟨l, hblock⟩, ⟨n, p, hz, hplay⟩, ⟨i, hng, hlg, hbi⟩, hends, hgoes⟩ :=
      hb.present_appended hsound hi hh hn hcommit hf ht
    obtain ⟨hc1, hc2⟩ := hbi ▸ hcount hng hlg
    refine ⟨t, exec_blockPresented hp ht, hc1, hc2, fun h => absurd hf (Nat.not_lt.2 h), fun _ => ?_⟩
    simp only [State.info, hblock, hz]
    refine ⟨hfill, htail, hintake, trivial, trivial, hother, hanchor, rfl, fun h => ?_, fun h => ?_, rfl, rfl, rfl, rfl,
      ⟨hends, fun h => (hgoes h).symm⟩, hplay⟩
    · simp [Bucket.committed, measured, hgood h]
    · simp [Bucket.committed, measured, hun h]
  · have hw : AppendingBurst (s.taking tag b) z tag c := hb.congr rfl rfl
    have hpres := State.present_appending b hb hi hh hn
    rw [hcommit, hw.commit_refused e hf] at hpres
    obtain ⟨hfh, hfc, hin, hch, han⟩ := State.pool_discard_taking tag b hh hn
    obtain ⟨hng, hlg⟩ := s.bi.close_fields .ended
    obtain ⟨hc1, hc2⟩ := hcount hng hlg
    have hdead := (State.tagLive_count (s.taking tag b).discard.burstOver (correctStamp b.stamp b.stampStatus).2
      (correctStamp b.stamp b.stampStatus).1).trans (State.tagLive_burstOver _)
    exact ⟨_, exec_blockPresented hp (hpres.trans (State.runBlockTimer_stopping rfl)), hc1, hc2,
      fun _ => ⟨⟨rfl, hdead⟩, rfl, hch, han, hfh, hfc, hin, rfl, rfl⟩, fun h => absurd h (Nat.not_lt.2 hf)⟩

end Sys2Proof.Machine
end

section
/-! PROOF. What a step can do, said once (chapters 1 to 11): a relation that holds along every calm change, and along the few
changes of a command that are not calm, holds of every step. -/

namespace Sys2Proof.Machine

/-- The relation `R` holds along every calm change and along each other change that a command is made of: of the queue, the pins,
the link, the power state, the gains at a frame event, a selection, the rotation table, a parameter that CONFIGURE applies, and the
starts; and it chains. -/
structure StepLaw (R : State → State → Prop) : Prop where
  trans     : ∀ {s t u}, R s t → R t u → R s u
  calm      : ∀ {s t}, Calm s t → R s t
  queue     : ∀ s l, R s { s with pending := l }
  pins      : ∀ s f, R s (s.modPins f)
  link      : ∀ s f, (∀ l, l.bounded → (f l).bounded) → R s (s.modCl f)
  power     : ∀ s f, R s (s.modPc f)
  gains     : ∀ s z, R s (s.modOc z fun _ => s.concealed z)
  select    : ∀ s z i, R s (s.modZone z fun r => { r with selected := some i })
  rotation  : ∀ s l, l.length = 16 → R s (s.modDa fun d => { d with rotation := l, rotPtr := 0 })
  configure : ∀ s id zone v p w, s.applyParam id zone v = .applied p w → R s (s.modParams fun _ => p)
  restart   : ∀ s, R s s.restartBlocks
  cold      : ∀ s p, R s { State.cold p with free := s.free, pending := s.pending }

/-- What an owner's answer does to the state is in the relation `R`. -/
def Answer.meets (R : State → State → Prop) (s : State) : Answer → Prop
  | .accepted t _ => R s t
  | .unanswered t => R s t
  | .rejected _ => True

/-- What the owner of a request does with a body of the length its form requires is in the relation `R`. -/
def OwnerLaw (R : State → State → Prop) (form : Form) (owner : State → List Byte → Answer) : Prop :=
  ∀ s body, (form.length.isSome = true → form.length = some body.length) → (owner s body).meets R s

/-- SET-ROTATION codes one entry per byte (R65, R184). -/
theorem rotEntries_length {straps : Straps} {body : List Byte} {l : List RotEntry} (h : rotEntries straps body = some l) :
    l.length = body.length := by
  induction body generalizing l with
  | nil => cases h; rfl
  | cons b body ih =>
    simp only [rotEntries] at h
    split at h
    · rename_i e es _ hes
      cases h
      simp [ih hes]
    · cases h

/-- A list without regions keeps the law of a record's defect list (R144). -/
theorem discRegions_nil : discRegions [] := ⟨⟨by decide, nofun, .nil⟩, nofun⟩

namespace StepLaw

variable {R : State → State → Prop} {s t u : State}

/-- A calm change keeps the relation. -/
theorem next (hR : StepLaw R) (h : R s t) (k : Calm t u) : R s u := hR.trans h (hR.calm k)

theorem refl (hR : StepLaw R) (s : State) : R s s := hR.calm (.refl s)

/-! ## Power (chapter 10) -/

theorem beginParking (hR : StepLaw R) (h : R s t) : R s t.beginParking :=
  hR.next (hR.trans h (hR.power t _)) (Calm.refl _).parkZone.parkZone.modPc.modSm.reportSilence.askParking

theorem wakeUp {x : WakeSource} (hR : StepLaw R) (h : R s t) : R s (t.wakeUp x) := by
  unfold State.wakeUp
  split
  · have h1 : R s t.restartBlocks := hR.trans h (hR.restart t)
    have h2 := hR.next h1 ((Calm.refl _).freeDa (f := Drive.restart) ⟨rfl, rfl, rfl⟩)
    exact hR.next (hR.trans h2 (hR.link _ _ fun _ _ => Link.bounded_start)) (Calm.refl _).wakeNotice
  · exact hR.next (hR.trans h (hR.cold t t.pins)) (Calm.refl _).wakeNotice

theorem whenPowered {f : State → State} (hR : StepLaw R) (h : s.whenPowered f = .next t) (hf : R s (f s)) : R s t := by
  unfold State.whenPowered at h
  split at h
  · cases h
    exact hR.refl s
  · cases h
    exact hR.next hf (Calm.refl _).finish

theorem orWake {x : WakeSource} {f : State → State} (hR : StepLaw R) (h : s.orWake x f = .next t) (hf : R s (f s)) : R s t := by
  unfold State.orWake at h
  split at h
  · cases h
    exact hR.next (hR.wakeUp (hR.refl s)) (Calm.refl _).finish
  · cases h
    exact hR.next hf (Calm.refl _).finish

theorem park (hR : StepLaw R) (s : State) : R s s.park :=
  hR.next (hR.power s _) (((Calm.refl _).modBs Store.sound_forget).modOc.modOc)

theorem parkOrWake (hR : StepLaw R) (s : State) : R s s.parkOrWake := by
  unfold State.parkOrWake
  dsimp only
  split
  · exact hR.next (hR.wakeUp (hR.park s)) (Calm.refl _).finish
  · exact hR.park s

/-- The soft start takes the warm-start changes, answers RESET, and begins the parking that a fall of the run line has asked for
(R170, R165). -/
theorem softStart (hR : StepLaw R) (s : State) : R s s.softStart := by
  have hda : (s.da.softStart).rotation = s.da.rotation ∧ (s.da.kept → s.da.softStart.kept) := by
    unfold Drive.softStart
    cases ho : s.da.out with
    | some o => exact ⟨rfl, fun ⟨hk, hl⟩ => ⟨fun e => absurd (ho.symm.trans (hk e)) nofun, hl⟩⟩
    | none => exact ⟨rfl, fun ⟨_, hl⟩ => ⟨fun _ => rfl, hl⟩⟩
  have h1 : R s (s.restartBlocks.modDa Drive.softStart) := hR.next (hR.restart s) ((Calm.refl _).modDa hda)
  have h2 : R s s.softChanges := hR.trans h1 (hR.link _ _ fun _ => Link.bounded_softStart)
  have h3 : R s (s.softChanges.reply 0x05 [powerCode .active]) :=
    hR.trans h2 (hR.link _ _ fun _ => Link.bounded_formReply _)
  unfold State.softStart
  dsimp only
  split
  · exact hR.beginParking h3
  · exact h3

theorem runFalls (hR : StepLaw R) (h : R s t) : R s t.runFalls := by
  unfold State.runFalls
  split
  · split
    · exact hR.next h (Calm.refl _).modPc
    · exact hR.beginParking h
  · exact h

theorem onSwitch {b : Bool} {f : State → State} (hR : StepLaw R) (h : s.onSwitch b f = .next t) (hf : ∀ u, Calm u (f u)) :
    R s t := by
  unfold State.onSwitch at h
  split at h
  · cases h
    exact hR.refl s
  · dsimp only at h
    have h1 : R s (s.setSwitch b) := hR.pins s _
    split at h
    · cases h
      exact hR.next (hR.wakeUp h1) (Calm.refl _).finish
    · cases h
      exact hR.next h1 (hf _).finish

/-! ## The frame event (chapter 7) -/

theorem frameEvent (hR : StepLaw R) (s : State) (z : ZoneId) : R s (s.frameEvent z) := by
  unfold State.frameEvent
  split
  · exact hR.calm (Calm.refl s).modOc
  · unfold State.frame
    dsimp only
    split
    · exact hR.next (hR.gains s z) (Calm.refl _).afterDraw.reportZero.reportSilence
    · exact hR.next (hR.gains s z) (Calm.refl _).reportZero.reportSilence

/-! ## A request's frame (chapter 11) -/

theorem refuse {k : Byte} {r : Reason} (hR : StepLaw R) (h : R s t) : R s (t.refuse k r) :=
  hR.trans h (hR.link _ _ fun _ => Link.bounded_formReply _)

theorem openRequest {f : Frame} (hR : StepLaw R) (h : R s t) : R s (t.openRequest f) :=
  hR.trans h (hR.link _ _ fun _ => id)

theorem busy {k : Byte} (hR : StepLaw R) (h : R s t) : R s (t.modCl fun l => l.busy k) :=
  hR.trans h (hR.link _ _ fun _ => Link.bounded_busy k)

/-- An assembler's change is no more than one of the link. -/
theorem setRx {f : Link → Assembler} (hR : StepLaw R) (h : R s t) : R s (t.modCl fun l => { l with rx := f l }) :=
  hR.trans h (hR.link _ _ fun _ => id)

theorem rxDone (hR : StepLaw R) (h : R s t) : R s t.rxDone := hR.setRx h

theorem answer {k : Byte} {a : Answer} (hR : StepLaw R) (h : R s t) (ha : a.meets R t) : R s (t.answer k a) := by
  cases a with
  | accepted u b => exact hR.trans (hR.trans h ha) (hR.link _ _ fun _ => Link.bounded_formReply _)
  | unanswered u => exact hR.trans h ha
  | rejected r => exact hR.refuse h

theorem takeRequest {k : Byte} {body : List Byte} {form : Form} {own : State → List Byte → Answer} (hR : StepLaw R)
    (ho : OwnerLaw R form own) (h : R s t) : R s (t.takeRequest k body form own) := by
  unfold State.takeRequest
  split
  · exact h
  · split
    · exact hR.busy h
    · have h1 : R s (t.openRequest ⟨k, body⟩) := hR.openRequest h
      unfold State.handle
      dsimp only
      split
      · exact hR.refuse h1
      · rename_i hlen
        split
        · exact hR.refuse h1
        · exact hR.answer h1 (ho _ _ fun hs => not_not.1 fun hne => hlen ⟨hs, hne⟩)

theorem takeUnknown {k : Byte} {body : List Byte} (hR : StepLaw R) (h : R s t) : R s (t.takeUnknown k body) := by
  unfold State.takeUnknown
  split
  · exact h
  · split
    · exact hR.busy h
    · exact hR.refuse (hR.openRequest h)

theorem request {k : Byte} {body : List Byte} {form : Form} {own : State → List Byte → Answer} (hR : StepLaw R)
    (ho : OwnerLaw R form own) (h : s.request k body form own = .next t) : R s t :=
  hR.orWake h (hR.takeRequest ho (hR.rxDone (hR.refl s)))

/-! ## The owners of the requests -/

theorem meets_onZone {body : List Byte} {f : ZoneId → Answer} (h : ∀ z, (f z).meets R s) : (s.onZone body f).meets R s := by
  unfold State.onZone
  split
  · exact h _
  · trivial

theorem meets_onRecord {body : List Byte} {f : Nat → DiscRecord → Answer} (h : ∀ i r, (f i r).meets R s) :
    (s.onRecord body f).meets R s := by
  unfold State.onRecord
  dsimp only
  split
  · trivial
  · exact h _ _

theorem meets_ite {p : Prop} [Decidable p] {a b : Answer} (ha : p → a.meets R s) (hb : ¬ p → b.meets R s) :
    (if p then a else b).meets R s := by
  split
  · exact ha ‹_›
  · exact hb ‹_›

variable {form : Form}

theorem ownEcho (hR : StepLaw R) : OwnerLaw R form ownEcho := fun s _ _ => hR.refl s

theorem ownIdentify (hR : StepLaw R) : OwnerLaw R form ownIdentify := fun s _ _ => hR.refl s

theorem ownConfigure (hR : StepLaw R) : OwnerLaw R form ownConfigure := fun s body _ => by
  unfold Machine.ownConfigure
  dsimp only
  split
  · trivial
  · rename_i p v hp
    have h1 : R s (s.modParams fun _ => p) := hR.configure s _ _ _ p v hp
    simp only [Answer.meets]
    split
    · exact hR.next h1 (Calm.refl _).testReady.testReady
    · exact h1

theorem ownQueryParam (hR : StepLaw R) : OwnerLaw R form ownQueryParam := fun s body _ => by
  unfold Machine.ownQueryParam
  split
  · exact hR.refl s
  · trivial

theorem ownReset (hR : StepLaw R) : OwnerLaw R form ownReset := fun s _ _ => hR.calm (Calm.refl s).resetZone.resetZone

theorem ownStandby (hR : StepLaw R) : OwnerLaw R form ownStandby := fun s _ _ => hR.beginParking (hR.refl s)

theorem ownHush (hR : StepLaw R) : OwnerLaw R form ownHush := fun s _ _ =>
  meets_ite (fun _ => hR.link s _ fun _ => Link.bounded_setHush _) fun _ => trivial

theorem ownDeviceStatus (hR : StepLaw R) : OwnerLaw R form ownDeviceStatus := fun s _ _ => hR.link s _ fun _ => id

theorem ownSetRotation (hR : StepLaw R) : OwnerLaw R ⟨some 16, true⟩ ownSetRotation := fun s body hlen => by
  have h16 : body.length = 16 := (Option.some.inj (hlen rfl)).symm
  unfold Machine.ownSetRotation
  split
  · rename_i l hl
    exact hR.rotation s l ((rotEntries_length hl).trans h16)
  · trivial

theorem ownSelect (hR : StepLaw R) : OwnerLaw R form ownSelect := fun s body _ => meets_onZone fun z => by
  unfold State.select
  refine meets_ite (fun _ => trivial) fun _ => meets_ite (fun _ => trivial) fun _ => ?_
  split
  · trivial
  · exact hR.select s z _

theorem ownPlay (hR : StepLaw R) : OwnerLaw R form ownPlay := fun s body _ => meets_onZone fun z => by
  unfold State.play
  refine meets_ite (fun _ => trivial) fun _ => meets_ite (fun _ => trivial) fun _ => ?_
  split
  · trivial
  · exact hR.calm (Calm.refl s).startZone

theorem ownPause (hR : StepLaw R) : OwnerLaw R form ownPause := fun s body _ => meets_onZone fun z => by
  split
  · exact hR.calm ((Calm.refl s).pause ‹_›)
  · trivial

theorem ownResume (hR : StepLaw R) : OwnerLaw R form ownResume := fun s _ _ => meets_onZone fun _ =>
  meets_ite (fun _ => trivial) fun _ => hR.calm (Calm.refl s).unpause

theorem ownStop (hR : StepLaw R) : OwnerLaw R form ownStop := fun s _ _ => meets_onZone fun _ =>
  meets_ite (fun _ => trivial) fun _ => hR.calm (Calm.refl s).beginStop

theorem ownSeek (hR : StepLaw R) : OwnerLaw R form ownSeek := fun s _ _ => meets_onZone fun _ =>
  meets_ite (fun _ => trivial) fun _ => meets_ite (fun _ => hR.calm (Calm.refl s).beginSeek) fun _ => trivial

theorem ownZoneStatus (hR : StepLaw R) : OwnerLaw R form ownZoneStatus := fun s _ _ => meets_onZone fun _ => hR.refl s

theorem ownHoldPickup (hR : StepLaw R) : OwnerLaw R form ownHoldPickup := fun s _ _ => meets_ite (fun _ => trivial) fun _ => by
  cases s.da.hold with
  | none => exact hR.calm (Calm.refl s).modDa
  | lapsed => exact hR.calm (Calm.refl s).modDa
  | queued => trivial
  | granted => trivial
  | revoking => trivial

theorem ownReleasePickup (hR : StepLaw R) : OwnerLaw R form ownReleasePickup := fun s _ _ => by
  unfold Machine.ownReleasePickup
  cases s.da.hold with
  | none => trivial
  | queued => exact hR.calm (Calm.refl s).modDa
  | granted => exact hR.calm (Calm.refl s).endHold
  | revoking => exact hR.calm (Calm.refl s).endHold
  | lapsed => exact hR.calm (Calm.refl s).modDa

theorem ownEject (hR : StepLaw R) : OwnerLaw R form ownEject := fun s _ _ =>
  meets_ite (fun _ => hR.calm (Calm.refl s).takeEject.ejectOrWait) fun _ => trivial

theorem ownResetDrive (hR : StepLaw R) : OwnerLaw R form ownResetDrive := fun s _ _ =>
  meets_ite (fun _ => hR.calm (Calm.refl s).moveDa.zoneReset.zoneReset) fun _ => trivial

theorem ownDiscRecord (hR : StepLaw R) : OwnerLaw R form ownDiscRecord := fun s _ _ => meets_onRecord fun _ r => by
  simp only [Answer.meets]
  split
  · exact hR.calm (Calm.refl s).useFree
  · exact hR.refl s

theorem ownDefectList (hR : StepLaw R) : OwnerLaw R form ownDefectList := fun s _ _ => meets_onRecord fun _ _ =>
  meets_ite (fun _ => trivial) fun _ => hR.refl s

theorem ownTrackList (hR : StepLaw R) : OwnerLaw R form ownTrackList := fun s _ _ => meets_onRecord fun _ _ =>
  meets_ite (fun _ => trivial) fun _ => hR.refl s

theorem ownForgetDisc (hR : StepLaw R) : OwnerLaw R form ownForgetDisc := fun s _ _ => meets_onRecord fun i _ =>
  meets_ite (fun _ => trivial) fun _ => meets_ite (fun _ => hR.refl s) fun _ =>
    hR.calm ((Calm.refl s).modDd
      ⟨fun h => Directory.lawful_modRecord i h fun _ _ => discRegions_nil, Directory.ranked_blank i⟩)

/-! ## Bytes on the line (chapter 11) -/

/-- A completed frame of any kind. -/
theorem takeFrame {f : Frame} (hR : StepLaw R) (h : R s t) : R s (t.takeFrame f) := by
  unfold State.takeFrame
  split
  · exact hR.takeRequest hR.ownEcho h
  · exact hR.takeRequest hR.ownIdentify h
  · exact hR.takeRequest hR.ownConfigure h
  · exact hR.takeRequest hR.ownQueryParam h
  · exact hR.takeRequest hR.ownReset h
  · exact hR.takeRequest hR.ownStandby h
  · exact hR.takeRequest hR.ownHush h
  · exact hR.takeRequest hR.ownDeviceStatus h
  · exact hR.takeRequest hR.ownSetRotation h
  · exact hR.takeRequest hR.ownSelect h
  · exact hR.takeRequest hR.ownPlay h
  · exact hR.takeRequest hR.ownPause h
  · exact hR.takeRequest hR.ownResume h
  · exact hR.takeRequest hR.ownStop h
  · exact hR.takeRequest hR.ownSeek h
  · exact hR.takeRequest hR.ownZoneStatus h
  · exact hR.takeRequest hR.ownHoldPickup h
  · exact hR.takeRequest hR.ownReleasePickup h
  · exact hR.takeRequest hR.ownEject h
  · exact hR.takeRequest hR.ownResetDrive h
  · exact hR.takeRequest hR.ownDiscRecord h
  · exact hR.takeRequest hR.ownDefectList h
  · exact hR.takeRequest hR.ownTrackList h
  · exact hR.takeRequest hR.ownForgetDisc h
  · exact hR.takeUnknown h

theorem rxByte {b : RxByte} (hR : StepLaw R) (h : R s t) : R s (t.rxByte b) := by
  unfold State.rxByte
  dsimp only
  split
  · exact hR.next (hR.takeFrame (hR.setRx h)) (Calm.refl _).finish
  · exact hR.setRx h

theorem rxBytes {l : List RxByte} (hR : StepLaw R) (h : R s t) : R s (t.rxBytes l) := by
  unfold State.rxBytes
  induction l generalizing t with
  | nil => exact h
  | cons b l ih => exact ih (hR.rxByte h)

theorem gapExpires (hR : StepLaw R) (h : R s t) : R s t.gapExpires := hR.setRx h

theorem unknownKindFrame {k : Byte} {body : List Byte} (hR : StepLaw R) (h : execUnknownKindFrame k body s = .next t) : R s t :=
  hR.orWake h (hR.takeFrame (hR.rxDone (hR.refl s)))

theorem frameDiscarded {l : List RxByte} (hR : StepLaw R) (h : execFrameDiscarded l s = .next t) : R s t := by
  unfold execFrameDiscarded at h
  split at h
  · cases h
    exact hR.refl s
  · exact hR.orWake h (hR.rxBytes (hR.refl s))

theorem linkGapTimeout {l : List RxByte} (hR : StepLaw R) (h : execLinkGapTimeout l s = .next t) : R s t := by
  unfold execLinkGapTimeout at h
  split at h
  · exact hR.whenPowered h (hR.gapExpires (hR.refl s))
  · exact hR.orWake h (hR.gapExpires (hR.rxBytes (hR.refl s)))

theorem sent (hR : StepLaw R) (s : State) : R s (s.modCl Link.sent) := hR.link s Link.sent fun _ => Link.bounded_sent

theorem transmitFrameDone (hR : StepLaw R) (h : execTransmitFrameDone s = .next t) : R s t := hR.whenPowered h (hR.sent s)

/-! ## Every command -/

/-- A command that does a calm change while the part is powered. -/
theorem calmly {f : State → State} (hR : StepLaw R) (h : s.whenPowered f = .next t) (hf : Calm s (f s)) : R s t :=
  hR.whenPowered h (hR.calm hf)

/-- A servo completion whose effect is calm in a drive state other than HELD and FAULT (R58). -/
theorem completed {n : ServoName} {f : Outstanding → State → State} (hR : StepLaw R)
    (h : s.whenPowered (fun u => u.complete n f) = .next t)
    (hf : ∀ o u, Calm s u → u.da.state ≠ .held ∧ u.da.state ≠ .fault → Calm s (f o u)) : R s t :=
  hR.calmly h ((Calm.refl s).complete hf)

/-- A command that sets the level of a pin, and does more only while the part is powered. -/
theorem levelled {f : Pins → Pins} {v : State} (hR : StepLaw R)
    (h : (if s.pc.state = .parked then Host.Outcome.next (s.modPins f) else .next (State.finish s v)) =
      (.next t : Host.Outcome State Fault Refusal)) (hv : R (s.modPins f) v) : R s t := by
  split at h
  · cases h
    exact hR.pins s f
  · cases h
    exact hR.next (hR.trans (hR.pins s f) hv) (Calm.refl _).finish

theorem runLineRises (hR : StepLaw R) (h : execRunLineRises s = .next t) : R s t := by
  have h1 : R s (s.setRun true) := hR.pins s _
  unfold execRunLineRises at h
  dsimp only at h
  split at h
  · cases h
    exact hR.next (hR.wakeUp h1) (Calm.refl _).finish
  · cases h
    exact hR.next h1 (Calm.refl _).runRises.finish

theorem enterParked (hR : StepLaw R) (h : execEnterParked s = .next t) : R s t := by
  unfold execEnterParked at h
  split at h
  · cases h
    exact hR.parkOrWake s
  · cases h
    exact hR.refl s

theorem wake {x : WakeSource} {straps : Straps} (hR : StepLaw R) (h : execWake x straps s = .next t) : R s t := by
  unfold execWake at h
  split at h
  · cases h
    exact hR.next (hR.wakeUp (hR.pins s _)) (Calm.refl _).finish
  · cases h
    exact hR.refl s

theorem execSoftStart (hR : StepLaw R) (h : execSoftStart s = .next t) : R s t := by
  unfold Machine.execSoftStart at h
  split at h
  · cases h
    exact hR.next (hR.softStart s) (Calm.refl _).finish
  · cases h
    exact hR.refl s

/-- Every command is in the relation. -/
theorem exec (hR : StepLaw R) {c : Instr} (h : exec c s = .next t) : R s t := by
  have h0 := Calm.refl s
  cases c with
  | echo body => exact hR.request hR.ownEcho h
  | identify body => exact hR.request hR.ownIdentify h
  | configure body => exact hR.request hR.ownConfigure h
  | queryParam body => exact hR.request hR.ownQueryParam h
  | reset body => exact hR.request hR.ownReset h
  | standby body => exact hR.request hR.ownStandby h
  | hush body => exact hR.request hR.ownHush h
  | deviceStatus body => exact hR.request hR.ownDeviceStatus h
  | setRotation body => exact hR.request hR.ownSetRotation h
  | select body => exact hR.request hR.ownSelect h
  | play body => exact hR.request hR.ownPlay h
  | pause body => exact hR.request hR.ownPause h
  | resume body => exact hR.request hR.ownResume h
  | stop body => exact hR.request hR.ownStop h
  | seek body => exact hR.request hR.ownSeek h
  | zoneStatus body => exact hR.request hR.ownZoneStatus h
  | holdPickup body => exact hR.request hR.ownHoldPickup h
  | releasePickup body => exact hR.request hR.ownReleasePickup h
  | eject body => exact hR.request hR.ownEject h
  | resetDrive body => exact hR.request hR.ownResetDrive h
  | discRecord body => exact hR.request hR.ownDiscRecord h
  | defectList body => exact hR.request hR.ownDefectList h
  | trackList body => exact hR.request hR.ownTrackList h
  | forgetDisc body => exact hR.request hR.ownForgetDisc h
  | unknownKindFrame kind body => exact hR.unknownKindFrame h
  | frameDiscarded bytes => exact hR.frameDiscarded h
  | linkGapTimeout bytes => exact hR.linkGapTimeout h
  | transmitFrameDone => exact hR.transmitFrameDone h
  | blockPresented block => exact hR.calmly (f := fun u => u.present block) h h0.present
  | frameEvent z => exact hR.whenPowered (f := fun u => u.frameEvent z) h (hR.frameEvent s z)
  | loadDone => exact hR.completed h fun _ _ k _ => k.loadCompletes
  | unloadDone => exact hR.completed h fun _ _ k _ => k.unloadCompletes
  | spinDone => exact hR.completed h fun _ _ k _ => k.spinCompletes
  | seekDone => exact hR.completed h fun _ _ k _ => k.seekCompletes
  | pauseDone => exact hR.completed h fun _ _ k _ => k.pauseCompletes
  | latchOpenDone => exact hR.completed h fun _ _ k _ => k.latchCompletes
  | abortDone => exact hR.completed h fun _ _ k hs => k.abortCompletes hs
  | commandFailed cmd reason => exact hR.completed h fun _ _ k hs => k.failed hs
  | trackLost => exact hR.calmly h h0.trackingLost
  | commandTimeout => exact hR.calmly h h0.timeout
  | blockTimerExpiry => exact hR.calmly h h0.blockTimeout
  | graceTimerExpiry => exact hR.calmly h h0.graceExpires
  | idleTimerExpiry => exact hR.calmly h h0.idleExpires
  | shockRise => exact hR.levelled h (hR.calm (Calm.refl _).modSm.shockCancels)
  | shockFall => exact hR.levelled h (hR.calm (Calm.refl _).startSettle)
  | settleTimerExpiry => exact hR.calmly h h0.settled
  | windowTimerExpiry => exact hR.calmly h h0.windowEnds
  | magazineSwitchCloses => exact hR.onSwitch h fun u => (Calm.refl u).switchCloses
  | magazineSwitchOpens => exact hR.onSwitch h fun u => (Calm.refl u).switchOpens
  | debounceTimerExpiry => exact hR.calmly h h0.debounced
  | slotTimerExpiry => exact hR.calmly h h0.slotExpires
  | ejectButton => exact hR.calmly h h0.pressButton
  | latchTimerExpiry => exact hR.calmly h h0.latchExpires
  | runLineFalls => exact hR.levelled h (hR.runFalls (hR.refl _))
  | runLineRises => exact hR.runLineRises h
  | enterParked => exact hR.enterParked h
  | wake source straps => exact hR.wake h
  | softStart => exact hR.execSoftStart h
  | powerUp pins => cases h; exact hR.cold s pins

/-- Every step is in the relation. -/
theorem step (hR : StepLaw R) (h : step s = .next t) : R s t := by
  unfold Machine.step at h
  split at h
  · cases h
    exact hR.refl s
  · exact hR.trans (hR.queue s _) (hR.exec h)

end StepLaw

end Sys2Proof.Machine
end

section
/-! PROOF. The bucket pool (chapter 2): every step keeps it sound, and a sound pool holds all 4,095 buckets (O8). -/

namespace Sys2Proof.Machine

/-- The bucket that a field holds, 0 standing for none. -/
def heldBucket (field : Nat) : List Nat := if field = 0 then [] else [field]

theorem count_heldBucket (f b : Nat) : (heldBucket f).count b = heldCount f b := by
  unfold heldBucket heldCount
  by_cases hf : f = 0
  · simp [hf]
  · simp [hf, List.count_singleton]

theorem length_heldBucket (f : Nat) : (heldBucket f).length = if f = 0 then 0 else 1 := by
  unfold heldBucket
  split <;> rfl

/-- Each of the buckets 1..4,095 stands once in their list. -/
theorem count_buckets (b : Nat) : (List.range' 1 4095).count b = if 1 ≤ b ∧ b ≤ 4095 then 1 else 0 := by
  have hm : b ∈ List.range' 1 4095 ↔ 1 ≤ b ∧ b ≤ 4095 := by
    rw [List.mem_range'_1]
    omega
  split
  · exact List.count_eq_one_of_mem List.nodup_range' (hm.2 ‹_›)
  · exact List.count_eq_zero.2 fun h => absurd (hm.1 h) ‹_›

/-- A sound pool holds all 4,095 buckets (R22): its places, listed one after the other, are a permutation of 1..4,095. -/
theorem Store.total_of_sound {st : Store} (h : st.sound) : st.total = 4095 := by
  obtain ⟨-, ⟨fl, ch, hp⟩, -⟩ := h
  have hperm : (fl ++ ch.a ++ ch.b ++ heldBucket st.anchor.a ++ heldBucket st.anchor.b ++ heldBucket st.intake).Perm
      (List.range' 1 4095) := List.perm_iff_count.2 fun b => by
    rw [count_buckets, ← PoolLaw.places hp b]
    simp only [Store.placesOf, List.count_append, count_heldBucket, List.count_nil, Nat.add_zero]
  have hlen := hperm.length_eq
  have ha : ch.a.length = st.chain.a.length := (PoolLaw.chainA hp).2.1
  have hb : ch.b.length = st.chain.b.length := (PoolLaw.chainB hp).2.1
  simp only [List.length_append, length_heldBucket, List.length_range', PoolLaw.count hp, ha, hb] at hlen
  exact hlen

/-- What keeps the bucket pool sound is a law of every step: the store is changed by calm changes and by the starts alone. -/
theorem stepLaw_sound : StepLaw fun s t => s.bs.sound → t.bs.sound where
  trans h k x := k (h x)
  calm h := h.sound
  queue _ _ := id
  pins _ _ := id
  link _ _ _ := id
  power _ _ := id
  gains _ _ := id
  select _ _ _ := id
  rotation _ _ _ := id
  configure _ _ _ _ _ _ _ := id
  restart _ := Store.sound_returnAll
  cold _ _ _ := Store.sound_cold

/-- Settles O8: soundness is a law of every step, and the places of a sound pool are counted. -/
theorem stepKeepsTheBucketPool : Obligations.StepKeepsTheBucketPool :=
  ⟨fun _ _ hs h => stepLaw_sound.step h hs, fun _ => Store.total_of_sound⟩

end Sys2Proof.Machine
end

section
/-! PROOF. The parameters (chapters 3 and 11): CONFIGURE applies a value in its range only, and nothing else but a cold start
changes a parameter (O12). -/

namespace Sys2Proof.Machine

/-! ## The law of the parameters by zones and by ids (R180) -/

/-- The quota and the thresholds of zone `z` stand in their ranges (R26, R32, R37). -/
structure ZoneParamsLawful (p : Params) (z : ZoneId) : Prop where
  quota      : 64 ≤ p.quota.get z ∧ p.quota.get z ≤ 4028
  lowWater   : 50 ≤ p.lowWater.get z ∧ p.lowWater.get z ≤ lowWaterMax (p.quota.get z)
  startThr   : 10 ≤ p.startThr.get z ∧ p.startThr.get z ≤ p.quota.get z
  restartThr : 10 ≤ p.restartThr.get z ∧ p.restartThr.get z ≤ p.quota.get z

/-- The parameters that are not per zone stand in their ranges (R67, R180). -/
structure SingleParamsLawful (p : Params) : Prop where
  refillSpeed   : p.refillSpeed = 1 ∨ p.refillSpeed = 2 ∨ p.refillSpeed = 4
  burstLimit    : 8 ≤ p.burstLimit ∧ p.burstLimit ≤ 512
  interpLimit   : 1 ≤ p.interpLimit ∧ p.interpLimit ≤ 32
  patchLimit    : 0 ≤ p.patchLimit ∧ p.patchLimit ≤ 960
  rereadMargin  : 10 ≤ p.rereadMargin ∧ p.rereadMargin ≤ 400
  luBackoff     : 2 ≤ p.luBackoff ∧ p.luBackoff ≤ 32
  luWindow      : 8 ≤ p.luWindow ∧ p.luWindow ≤ 64
  luAttempts    : 1 ≤ p.luAttempts ∧ p.luAttempts ≤ 7
  auditInterval : 128 ≤ p.auditInterval ∧ p.auditInterval ≤ 4096
  idleSpinDown  : 1 ≤ p.idleSpinDown ∧ p.idleSpinDown ≤ 255
  shockSettle   : 1 ≤ p.shockSettle ∧ p.shockSettle ≤ 50
  magDebounce   : 1 ≤ p.magDebounce ∧ p.magDebounce ≤ 255
  holdGrace     : 1 ≤ p.holdGrace ∧ p.holdGrace ≤ 100
  autoResume    : 0 ≤ p.autoResume ∧ p.autoResume ≤ 1

theorem lawfulParams_iff {p : Params} {straps : Straps} : lawfulParams p straps ↔
    (∀ z, ZoneParamsLawful p z) ∧ (straps.singleZone = false → p.quota.a + p.quota.b ≤ 4092) ∧ SingleParamsLawful p := by
  constructor
  · rintro ⟨hq, hsum, hl, hs, hr, hsp, h⟩
    exact ⟨fun z => ⟨hq z, hl z, hs z, hr z⟩, hsum, hsp, h 6 _ _ _ rfl rfl, h 8 _ _ _ rfl rfl, h 9 _ _ _ rfl rfl,
      h 10 _ _ _ rfl rfl, h 11 _ _ _ rfl rfl, h 12 _ _ _ rfl rfl, h 13 _ _ _ rfl rfl, h 14 _ _ _ rfl rfl, h 15 _ _ _ rfl rfl,
      h 16 _ _ _ rfl rfl, h 17 _ _ _ rfl rfl, h 18 _ _ _ rfl rfl, h 19 _ _ _ rfl rfl⟩
  · rintro ⟨hz, hsum, h⟩
    refine ⟨fun z => (hz z).quota, hsum, fun z => (hz z).lowWater, fun z => (hz z).startThr, fun z => (hz z).restartThr,
      h.refillSpeed, fun id lo hi v hr hv => ?_⟩
    unfold singleRange at hr
    split at hr <;> cases hr <;> cases hv
    · exact h.burstLimit
    · exact h.interpLimit
    · exact h.patchLimit
    · exact h.rereadMargin
    · exact h.luBackoff
    · exact h.luWindow
    · exact h.luAttempts
    · exact h.auditInterval
    · exact h.idleSpinDown
    · exact h.shockSettle
    · exact h.magDebounce
    · exact h.holdGrace
    · exact h.autoResume

/-- The default parameters stand in their ranges, whatever the straps (R180). -/
theorem lawfulParams_default (straps : Straps) : lawfulParams .default straps :=
  lawfulParams_iff.2 ⟨forall_zones ⟨by constructor <;> decide, by constructor <;> decide⟩, fun _ => by decide,
    by constructor <;> decide⟩

/-! ## The values that CONFIGURE applies -/

theorem clampTo_bounds {lo hi : Nat} (v : Nat) (h : lo ≤ hi) : lo ≤ clampTo lo hi v ∧ clampTo lo hi v ≤ hi := by
  unfold clampTo
  omega

theorem mapSpeed_cases (v : Nat) : mapSpeed v = 1 ∨ mapSpeed v = 2 ∨ mapSpeed v = 4 := by
  unfold mapSpeed
  split
  · exact .inl rfl
  · split
    · exact .inr (.inl rfl)
    · exact .inr (.inr rfl)

/-- A zone's law is a matter of its own quota and thresholds. -/
theorem ZoneParamsLawful.congr {p q : Params} {z : ZoneId} (h : ZoneParamsLawful p z) (hq : q.quota.get z = p.quota.get z)
    (hl : q.lowWater.get z = p.lowWater.get z) (hs : q.startThr.get z = p.startThr.get z)
    (hr : q.restartThr.get z = p.restartThr.get z) : ZoneParamsLawful q z :=
  ⟨hq ▸ h.quota, by rw [hl, hq]; exact h.lowWater, by rw [hs, hq]; exact h.startThr, by rw [hr, hq]; exact h.restartThr⟩

/-- A quota in its range clamps the zone's thresholds to theirs, and leaves the other zone's (R32, R37). -/
theorem zoneParamsLawful_setQuota {p : Params} {z : ZoneId} {w : Nat} (h : ∀ y, ZoneParamsLawful p y)
    (hw : 64 ≤ w ∧ w ≤ 4028) (y : ZoneId) : ZoneParamsLawful (setQuota p z w) y := by
  by_cases e : y = z
  · subst e
    constructor <;> simp only [setQuota, reclamp, Pair.get_set_self, Pair.get_mod_self]
    · exact hw
    · exact clampTo_bounds _ (le_max_left _ _)
    · exact clampTo_bounds _ (by omega)
    · exact clampTo_bounds _ (by omega)
  · exact (h y).congr (Pair.get_set_ne _ _ e) (Pair.get_mod_ne _ _ e) (Pair.get_mod_ne _ _ e) (Pair.get_mod_ne _ _ e)

theorem singleParamsLawful_setQuota {p : Params} {z : ZoneId} {w : Nat} (h : SingleParamsLawful p) :
    SingleParamsLawful (setQuota p z w) := { h with }

/-- A quota is applied when it and what the other zone's counts for do not exceed 4,092 (R32). -/
theorem State.applyQuota_applied {s : State} {z : ZoneId} {other v w : Nat} {p : Params}
    (h : s.applyQuota z other v = .applied p w) : p = setQuota s.params z w ∧ 64 ≤ w ∧ w ≤ 4028 ∧ w + other ≤ 4092 := by
  unfold State.applyQuota at h
  dsimp only at h
  split at h
  · cases h
  · split at h
    · cases h
    · cases h
      obtain ⟨h1, h2⟩ := clampTo_bounds v (show 64 ≤ 4028 by decide)
      exact ⟨rfl, h1, h2, by omega⟩

/-- A threshold is clamped to its range for the zone's quota (R37). -/
theorem lawfulParams_setThreshold {p q : Params} {straps : Straps} {id v w : Nat} {z : ZoneId} (h : lawfulParams p straps)
    (hq : setThreshold p id z v = .applied q w) : lawfulParams q straps := by
  obtain ⟨hz, hsum, hs⟩ := lawfulParams_iff.1 h
  have h10 : 10 ≤ p.quota.get z := by have := (hz z).quota; omega
  unfold setThreshold at hq
  dsimp only at hq
  split at hq <;> cases hq <;> refine lawfulParams_iff.2 ⟨fun y => ?_, hsum, { hs with }⟩ <;> by_cases e : y = z
  · subst e
    exact { hz y with lowWater := by rw [Pair.get_set_self]; exact clampTo_bounds v (le_max_left _ _) }
  · exact (hz y).congr rfl (Pair.get_set_ne _ _ e) rfl rfl
  · subst e
    exact { hz y with startThr := by rw [Pair.get_set_self]; exact clampTo_bounds v h10 }
  · exact (hz y).congr rfl rfl (Pair.get_set_ne _ _ e) rfl
  · subst e
    exact { hz y with restartThr := by rw [Pair.get_set_self]; exact clampTo_bounds v h10 }
  · exact (hz y).congr rfl rfl rfl (Pair.get_set_ne _ _ e)

/-- A parameter that is not per zone is clamped to its range, or mapped to a speed (R67, R180); no other one changes. -/
theorem lawfulParams_setSingle {p q : Params} {straps : Straps} {id v w : Nat} (h : lawfulParams p straps)
    (hq : setSingle p id v = .applied q w) : lawfulParams q straps := by
  obtain ⟨hz, hsum, hs⟩ := lawfulParams_iff.1 h
  unfold setSingle at hq
  dsimp only at hq
  split at hq <;> cases hq <;> refine lawfulParams_iff.2 ⟨fun y => { hz y with }, hsum, ?_⟩
  · exact { hs with burstLimit := clampTo_bounds v (by decide) }
  · exact { hs with refillSpeed := mapSpeed_cases v }
  · exact { hs with interpLimit := clampTo_bounds v (by decide) }
  · exact { hs with patchLimit := clampTo_bounds v (by decide) }
  · exact { hs with rereadMargin := clampTo_bounds v (by decide) }
  · exact { hs with luBackoff := clampTo_bounds v (by decide) }
  · exact { hs with luWindow := clampTo_bounds v (by decide) }
  · exact { hs with luAttempts := clampTo_bounds v (by decide) }
  · exact { hs with auditInterval := clampTo_bounds v (by decide) }
  · exact { hs with idleSpinDown := clampTo_bounds v (by decide) }
  · exact { hs with shockSettle := clampTo_bounds v (by decide) }
  · exact { hs with magDebounce := clampTo_bounds v (by decide) }
  · exact { hs with holdGrace := clampTo_bounds v (by decide) }
  · exact { hs with autoResume := ⟨Nat.zero_le _, min_le_left 1 v⟩ }

/-- CONFIGURE applies a value in its range only (R32, R37, R180). -/
theorem lawfulParams_applyParam {s : State} {id v w : Nat} {zone : Byte} {p : Params}
    (hp : s.applyParam id zone v = .applied p w) (h : lawfulParams s.params s.straps) : lawfulParams p s.straps := by
  obtain ⟨hz, hsum, hs⟩ := lawfulParams_iff.1 h
  unfold State.applyParam at hp
  split at hp
  · obtain ⟨rfl, h1, h2, h3⟩ := State.applyQuota_applied hp
    refine lawfulParams_iff.2 ⟨zoneParamsLawful_setQuota hz ⟨h1, h2⟩, fun hb => ?_, singleParamsLawful_setQuota hs⟩
    rw [State.countedQuotaB, hb] at h3
    exact h3
  · split at hp
    · cases hp
    · obtain ⟨rfl, h1, h2, h3⟩ := State.applyQuota_applied hp
      exact lawfulParams_iff.2 ⟨zoneParamsLawful_setQuota hz ⟨h1, h2⟩, fun _ => (Nat.add_comm _ _).trans_le h3,
        singleParamsLawful_setQuota hs⟩
  · split at hp
    · exact lawfulParams_setThreshold h hp
    · cases hp
  · split at hp
    · exact lawfulParams_setThreshold h hp
    · cases hp
  · split at hp
    · exact lawfulParams_setThreshold h hp
    · cases hp
  · exact lawfulParams_setSingle h hp

/-- What keeps the parameters in their ranges is a law of every step. -/
theorem stepLaw_lawfulParams : StepLaw fun s t => lawfulParams s.params s.straps → lawfulParams t.params t.straps where
  trans h k x := k (h x)
  calm h x := by rw [h.params, h.straps]; exact x
  queue _ _ := id
  pins _ _ := id
  link _ _ _ := id
  power _ _ := id
  gains _ _ := id
  select _ _ _ := id
  rotation _ _ _ := id
  configure _ _ _ _ _ _ := lawfulParams_applyParam
  restart _ := id
  cold _ p _ := lawfulParams_default p.straps

/-- Settles O12: the ranges are a law of every step. -/
theorem stepKeepsTheParameterRanges : Obligations.StepKeepsTheParameterRanges :=
  fun _ _ hs h => stepLaw_lawfulParams.step h hs

end Sys2Proof.Machine
end

section
/-! PROOF. The state after reset meets the laws (O5). -/

namespace Sys2Proof.Machine

/-- Settles O5: every block at reset is as a cold start leaves it. -/
theorem resetMeetsTheLaws : Obligations.ResetMeetsTheLaws :=
  ⟨Store.sound_cold, Link.bounded_start, Directory.lawful_cold, Directory.ranked_cold, ⟨fun _ => rfl, by decide, by decide⟩,
    lawfulParams_default _, forall_zones ⟨forall_sides (by decide), forall_sides (by decide)⟩⟩

end Sys2Proof.Machine
end

section
/-! PROOF. Hearing a head block (chapter 2): what becomes of the chain, of the bucket heard and of the other zone (O53). -/

namespace Sys2Proof.Machine

/-! ## Hear, by what is left of the chain (R29) -/

theorem Store.hear_more {st : Store} {z : ZoneId} (keep : Bool) (h : 1 < (st.chain.get z).length) :
    st.hear z keep = ({ st with
      chain := st.chain.set z
        ⟨st.nextOf (st.chain.get z).head, (st.chain.get z).tail, (st.chain.get z).length - 1⟩ } : Store).release
        (st.chain.get z).head := by
  simp [Store.hear, show (st.chain.get z).length ≠ 0 by omega, show (st.chain.get z).length ≠ 1 by omega]

theorem Store.hear_kept {st : Store} {z : ZoneId} (h : (st.chain.get z).length = 1) :
    st.hear z true = { ({ st with chain := st.chain.set z ⟨0, 0, 0⟩ } : Store).setNext (st.chain.get z).head 0 with
      anchor := st.anchor.set z (st.chain.get z).head } := by
  simp [Store.hear, h, Store.setNext]

theorem Store.hear_last {st : Store} {z : ZoneId} (h : (st.chain.get z).length = 1) :
    st.hear z false = ({ st with chain := st.chain.set z ⟨0, 0, 0⟩ } : Store).release (st.chain.get z).head := by
  simp [Store.hear, h]

/-- A hear that leaves blocks moves the head to the next block, and the bucket heard to the free head (R29). -/
theorem Store.hear_more_fields {st : Store} {z : ZoneId} (keep : Bool) (h : 1 < (st.chain.get z).length) :
    (st.hear z keep).chain.get z = ⟨st.nextOf (st.chain.get z).head, (st.chain.get z).tail, (st.chain.get z).length - 1⟩ ∧
      (st.hear z keep).freeHead = (st.chain.get z).head ∧ (st.hear z keep).freeCount = st.freeCount + 1 := by
  rw [Store.hear_more keep h]
  exact ⟨Pair.get_set_self _ _ _, rfl, rfl⟩

/-- A hear that empties the chain and keeps an anchor leaves the free list (R29). -/
theorem Store.hear_kept_fields {st : Store} {z : ZoneId} (h : (st.chain.get z).length = 1) :
    (st.hear z true).chain.get z = ⟨0, 0, 0⟩ ∧ (st.hear z true).anchor.get z = (st.chain.get z).head ∧
      (st.hear z true).freeHead = st.freeHead ∧ (st.hear z true).freeCount = st.freeCount := by
  rw [Store.hear_kept h]
  exact ⟨Pair.get_set_self _ _ _, Pair.get_set_self _ _ _, rfl, rfl⟩

/-- A hear that empties the chain and keeps no anchor moves the bucket heard to the free head (R29). -/
theorem Store.hear_last_fields {st : Store} {z : ZoneId} (h : (st.chain.get z).length = 1) :
    (st.hear z false).chain.get z = ⟨0, 0, 0⟩ ∧ (st.hear z false).anchor = st.anchor ∧
      (st.hear z false).freeHead = (st.chain.get z).head ∧ (st.hear z false).freeCount = st.freeCount + 1 := by
  rw [Store.hear_last h]
  exact ⟨Pair.get_set_self _ _ _, rfl, rfl, rfl⟩

/-- Hearing a block writes the entry of that block alone, and leaves the other zone's chain and anchor, the intake bucket and the
block memory. -/
theorem Store.hear_frame {st : Store} {z : ZoneId} (keep : Bool) (h : (st.chain.get z).length ≠ 0) :
    (∃ v, (st.hear z keep).next = (st.setNext (st.chain.get z).head v).next) ∧
      (st.hear z keep).chain.get z.other = st.chain.get z.other ∧ (st.hear z keep).anchor.get z.other = st.anchor.get z.other ∧
      (st.hear z keep).intake = st.intake ∧ (st.hear z keep).mem = st.mem := by
  rcases Nat.lt_or_ge 1 (st.chain.get z).length with h1 | h1
  · rw [Store.hear_more keep h1]
    exact ⟨⟨_, rfl⟩, Pair.get_set_other _ _ _, rfl, rfl, rfl⟩
  · have h1 : (st.chain.get z).length = 1 := by omega
    cases keep with
    | true =>
      rw [Store.hear_kept h1]
      exact ⟨⟨_, rfl⟩, Pair.get_set_other _ _ _, Pair.get_set_other _ _ _, rfl, rfl⟩
    | false =>
      rw [Store.hear_last h1]
      exact ⟨⟨_, rfl⟩, Pair.get_set_other _ _ _, rfl, rfl, rfl⟩

/-! ## Chains that do not hold the bucket heard -/

/-- In a sound pool, the block at the head of a chain stands neither behind it nor in the other zone's chain. -/
theorem PoolLaw.head_of_chain {st : Store} {fl : List Nat} {ch : Pair (List Nat)} (h : st.pooledAs fl ch []) {z : ZoneId}
    (h0 : (st.chain.get z).length ≠ 0) :
    ∃ l, ch.get z = (st.chain.get z).head :: l ∧ (st.chain.get z).head ∉ l ∧ (st.chain.get z).head ∉ ch.get z.other ∧
      st.lists (st.nextOf (st.chain.get z).head) l := by
  obtain ⟨hl, hlen, -⟩ := PoolLaw.chain h z
  have h1 : ({ st with chain := st.chain.set z ⟨0, 0, 0⟩ } : Store).pooledAs fl (ch.set z []) (ch.get z ++ []) :=
    PoolLaw.unchain z h ⟨rfl, rfl, rfl⟩ rfl rfl rfl
  cases e : ch.get z with
  | nil =>
    rw [e] at hlen
    exact absurd hlen.symm h0
  | cons c l =>
    rw [e] at hl h1
    obtain ⟨rfl, -, hl⟩ := hl
    have hnd := PoolLaw.loose_nodup h1
    obtain ⟨-, -, -, hoth, -⟩ := PoolLaw.loose h1 List.mem_cons_self
    rw [List.append_nil, List.nodup_cons] at hnd
    exact ⟨l, rfl, hnd.1, Pair.get_set_other ch z _ ▸ hoth z.other, hl⟩

/-- A chain that does not hold the bucket whose entry was written is read as before. -/
theorem Store.chainOf_of_setNext {st t : Store} {z : ZoneId} {b v : Nat} {l : List Nat} (hn : t.next = (st.setNext b v).next)
    (hl : st.lists (t.chain.get z).head l) (hb : b ∉ l) (hlen : l.length = (t.chain.get z).length) : t.chainOf z = l := by
  unfold Store.chainOf
  rw [← hlen]
  exact Store.walk_lists ((Store.lists_congr hn _ _).2 ((st.lists_setNext hb).2 hl))

/-- Settles O53: by what is left of the chain, and by the pool law for the chains, in which the bucket heard stands once. -/
theorem hearMovesTheHeadBlock : Obligations.HearMovesTheHeadBlock := by
  intro st z keep hs h0
  have ⟨_, ⟨fl, ch, hp⟩, hanch⟩ := hs
  obtain ⟨l, hch, hnl, hno, hl⟩ := PoolLaw.head_of_chain hp h0
  obtain ⟨⟨v, hnext⟩, hchain, hanchor, hintake, -⟩ := Store.hear_frame keep h0
  obtain ⟨hlo, hleno, -⟩ := PoolLaw.chain hp z.other
  have hlen : l.length + 1 = (st.chain.get z).length := by
    rw [← (PoolLaw.chain hp z).2.1, hch, List.length_cons]
  refine ⟨fun h1 => ?_, fun h1 => ?_, ?_, hanchor, hintake, Store.sound_hear z keep hs⟩
  · obtain ⟨hc, hh, hf⟩ := Store.hear_more_fields keep h1
    refine ⟨hc, hh, hf, ?_⟩
    rw [Store.chainOf_eq (PoolLaw.chain hp z), hch, List.tail_cons]
    exact Store.chainOf_of_setNext hnext (by rw [hc]; exact hl) hnl (by rw [hc]; exact (Nat.sub_eq_of_eq_add hlen.symm).symm)
  · cases keep with
    | true =>
      obtain ⟨hc, ha, hh, hf⟩ := Store.hear_kept_fields h1
      exact ⟨hc, fun _ => ⟨ha, hh, hf⟩, nofun⟩
    | false =>
      obtain ⟨hc, ha, hh, hf⟩ := Store.hear_last_fields h1
      exact ⟨hc, nofun, fun _ => ⟨ha ▸ hanch z h0, hh, hf⟩⟩
  · rw [Store.chainOf_eq (PoolLaw.chain hp z.other)]
    exact Store.chainOf_of_setNext hnext (by rw [hchain]; exact hlo) hno (by rw [hchain]; exact hleno)

end Sys2Proof.Machine
end

section
/-! PROOF. What a hear and a flush leave alone (chapters 2 to 6): a claim that ends, an entry that is dropped, a block that comes to
the head; and what a hear and a pending action make of their zone. -/

namespace Sys2Proof.Machine

/-! ## Changes aside from the zones, the store, the outputs and the link -/

/-- From `s` to `t` no more has changed than the drive, the tag, the slot timer, the link-up contexts and the re-read lists: what
the end of a claim changes (R70, R71). -/
def Aside (s t : State) : Prop :=
  ∃ da bi lm ctx ru, t = { s with da := da, bi := bi, lm := lm, lu := { s.lu with ctx := ctx }, ru := ru }

namespace Aside

variable {s t u : State} {z : ZoneId}

theorem refl (s : State) : Aside s s := ⟨_, _, _, _, _, rfl⟩

theorem trans (h : Aside s t) (k : Aside t u) : Aside s u := by
  obtain ⟨_, _, _, _, _, rfl⟩ := h
  obtain ⟨_, _, _, _, _, rfl⟩ := k
  exact ⟨_, _, _, _, _, rfl⟩

theorem modDa {f : Drive → Drive} (h : Aside s t) : Aside s (t.modDa f) := h.trans ⟨_, _, _, _, _, rfl⟩
theorem modBi {f : Intake → Intake} (h : Aside s t) : Aside s (t.modBi f) := h.trans ⟨_, _, _, _, _, rfl⟩
theorem modLm {f : Loader → Loader} (h : Aside s t) : Aside s (t.modLm f) := h.trans ⟨_, _, _, _, _, rfl⟩
theorem setCtx {c : Option LinkCtx} (h : Aside s t) : Aside s (t.setCtx z c) := h.trans ⟨_, _, _, _, _, rfl⟩
theorem modList {f : List Entry → List Entry} (h : Aside s t) : Aside s (t.modList z f) := h.trans ⟨_, _, _, _, _, rfl⟩

theorem ctxWait (h : Aside s t) : Aside s (t.ctxWait z) := by
  unfold State.ctxWait
  split
  · exact h.setCtx
  · exact h

theorem markClaim {c : Claim} {st : Standing} (h : Aside s t) : Aside s (t.markClaim c st) := by
  have h1 : Aside s ((t.modDa fun d => { d with claim := some { c with standing := st }, blockTimer := .stopped }).modBi
      fun b => b.close st) := h.modDa.modBi
  unfold State.markClaim
  dsimp only
  split
  · exact h1.modLm
  · split
    · exact h1.ctxWait
    · exact h1
  · split
    · exact h1.ctxWait
    · exact h1
  · exact h1

theorem releasePickup (h : Aside s t) : Aside s t.releasePickup := by
  unfold State.releasePickup
  split
  · exact h
  · split
    · exact h.modDa.modDa
    · exact h.modDa

theorem closeClaim {st : Standing} (h : Aside s t) : Aside s (t.closeClaim st) := by
  unfold State.closeClaim
  split
  · split
    · exact h
    · exact h.markClaim.releasePickup
  · exact h

theorem closeZoneClaim {st : Standing} (h : Aside s t) : Aside s (t.closeZoneClaim z st) := by
  unfold State.closeZoneClaim
  split
  · exact h.closeClaim
  · exact h

theorem dropEntriesFrom {a : Nat} (h : Aside s t) : Aside s (t.dropEntriesFrom z a) := by
  unfold State.dropEntriesFrom
  dsimp only
  split
  · split
    · exact h.modList.closeClaim
    · exact h.modList
  · exact h.modList

theorem anchorHeard {e : Nat} (h : Aside s t) : Aside s (t.anchorHeard z e) := by
  unfold State.anchorHeard
  split
  · split
    · split
      · exact h.setCtx
      · exact h.closeZoneClaim.ctxWait
    · exact h
  · exact h

theorem bs (h : Aside s t) : t.bs = s.bs := by obtain ⟨_, _, _, _, _, rfl⟩ := h; rfl
theorem zc (h : Aside s t) : t.zc = s.zc := by obtain ⟨_, _, _, _, _, rfl⟩ := h; rfl
theorem oc (h : Aside s t) : t.oc = s.oc := by obtain ⟨_, _, _, _, _, rfl⟩ := h; rfl
theorem dd (h : Aside s t) : t.dd = s.dd := by obtain ⟨_, _, _, _, _, rfl⟩ := h; rfl
theorem pc (h : Aside s t) : t.pc = s.pc := by obtain ⟨_, _, _, _, _, rfl⟩ := h; rfl
theorem cl (h : Aside s t) : t.cl = s.cl := by obtain ⟨_, _, _, _, _, rfl⟩ := h; rfl
theorem audit (h : Aside s t) : t.lu.audit = s.lu.audit := by obtain ⟨_, _, _, _, _, rfl⟩ := h; rfl

end Aside

/-- From `s` to `t` no more has changed than the end of a claim changes, the block memory and the records: what RU changes when a
block it has listed comes to the head (R114). -/
def Behind (s t : State) : Prop := ∃ m dd, Aside { s with bs := { s.bs with mem := m }, dd := dd } t

namespace Behind

variable {s t u : State} {z : ZoneId}

theorem of_aside (h : Aside s t) : Behind s t := ⟨_, _, h⟩

theorem refl (s : State) : Behind s s := of_aside (.refl s)

theorem trans (h : Behind s t) (k : Behind t u) : Behind s u := by
  obtain ⟨_, _, _, _, _, _, _, rfl⟩ := h
  obtain ⟨_, _, _, _, _, _, _, rfl⟩ := k
  exact ⟨_, _, _, _, _, _, _, rfl⟩

theorem clearListed {a : Nat} (h : Behind s t) : Behind s (t.clearListed z a) := by
  unfold State.clearListed
  split
  · exact h.trans ⟨_, _, .refl _⟩
  · exact h

theorem dropEntry {a : Nat} (h : Behind s t) : Behind s (t.dropEntry z a) := by
  have h1 : Behind s ((t.clearListed z a).modList z fun l => l.filter fun e => decide (e.addr ≠ a)) :=
    h.clearListed.trans (of_aside (Aside.refl _).modList)
  unfold State.dropEntry
  dsimp only
  split
  · exact h1.trans (of_aside (Aside.refl _).closeClaim)
  · exact h1

theorem markDefect {k : DefectKind} {a : Nat} (h : Behind s t) : Behind s (t.markDefect z k a) := by
  unfold State.markDefect State.modSelRec
  split
  · split
    · exact h.trans ⟨_, _, .refl _⟩
    · exact h
  · exact h

theorem rereadAtHead {e : Nat} {r : BlockRec} (h : Behind s t) : Behind s (t.rereadAtHead z e r) := by
  unfold State.rereadAtHead
  dsimp only
  split
  · split
    · exact h.dropEntry.markDefect
    · exact h.dropEntry
  · exact h

/-- The places of the pool are those of `s` (R20). -/
theorem bs (h : Behind s t) : ∃ m, t.bs = { s.bs with mem := m } := by obtain ⟨m, _, k⟩ := h; exact ⟨m, k.bs⟩
theorem zc (h : Behind s t) : t.zc = s.zc := by obtain ⟨_, _, k⟩ := h; exact k.zc
theorem oc (h : Behind s t) : t.oc = s.oc := by obtain ⟨_, _, k⟩ := h; exact k.oc
theorem pc (h : Behind s t) : t.pc = s.pc := by obtain ⟨_, _, k⟩ := h; exact k.pc
theorem cl (h : Behind s t) : t.cl = s.cl := by obtain ⟨_, _, k⟩ := h; exact k.cl
theorem audit (h : Behind s t) : t.lu.audit = s.lu.audit := by obtain ⟨_, _, k⟩ := h; exact k.audit

end Behind

/-! ## A hear with no audit pending (R29, R40, R41, R44) -/

/-- A heard block is kept as the anchor, if the chain empties, when more blocks may come (R29). -/
def State.keepsAnchor (s : State) (z : ZoneId) : Bool := !(s.zone z).stopPending && decide ((s.zone z).supply ≠ .ended)

/-- The state when BS has heard the head block of zone `z`, before the other blocks are told (R29, steps 1 and 2). -/
def State.heard (s : State) (z : ZoneId) : State :=
  (s.modBs fun st => st.hear z (s.keepsAnchor z)).modZone z fun r => { r with offset := 0 }

theorem State.auditAtHead_none {s : State} {z : ZoneId} (ht : (s.lu.audit.get z).target = none) (e : Nat) :
    s.auditAtHead z e = s := by
  simp [State.auditAtHead, ht]

theorem State.auditHeard_none {s : State} {z : ZoneId} (ht : (s.lu.audit.get z).target = none) (e : Nat) :
    s.auditHeard z e = s := by
  simp [State.auditHeard, ht]

/-- A block with record `r` that comes to the head, with no audit of the zone pending, is told to RU and its track is tested. -/
theorem State.newHead_spec {s : State} {z : ZoneId} {r : BlockRec} (ht : (s.lu.audit.get z).target = none) (h : s.fill z ≠ 0)
    (hr : s.info (s.bs.chain.get z).head = r) :
    ∃ u, Behind s u ∧ s.newHead z = u.trackAtHead z (r.expected.getD 0) r.track := by
  have hu : Behind s (s.rereadAtHead z (r.expected.getD 0) r) := (Behind.refl s).rereadAtHead
  have ha := State.auditAtHead_none (hu.audit ▸ ht) (r.expected.getD 0)
  refine ⟨_, hu, ?_⟩
  unfold State.newHead
  dsimp only
  rw [if_neg h, hr, ha]

/-- A hear with no audit of the zone pending: LU hears of the block heard, and RU and ZC of the new head. -/
theorem State.hearZone_eq {s : State} {z : ZoneId} (ht : (s.lu.audit.get z).target = none) (h : s.fill z ≠ 0) :
    ∃ u, Aside (s.heard z) u ∧ s.hearZone z = if (u.newHead z).fill z = 0 then (u.newHead z).ranDry z else u.newHead z := by
  have ha := State.auditHeard_none (s := s.heard z) ht ((s.info (s.bs.chain.get z).head).expected.getD 0)
  refine ⟨_, (Aside.refl (s.heard z)).anchorHeard (z := z) (e := (s.info (s.bs.chain.get z).head).expected.getD 0), ?_⟩
  conv_rhs => rw [← ha]
  exact if_neg h

/-- The track of the block at the head becomes the zone's, with a TRACK notice where it is another (R44). -/
theorem State.trackAtHead_eq (s : State) (z : ZoneId) (e n : Nat) : s.trackAtHead z e n =
    { s with
      zc := s.zc.mod z fun r => { r with track := n }
      cl := if n = (s.zone z).track then s.cl else s.cl.notice ⟨0x71, [zoneCode z, byte n] ++ be3 e⟩ } := by
  unfold State.trackAtHead
  split
  · next h =>
    subst h
    cases z <;> rfl
  · rfl

/-- A hear that leaves blocks in the chain: the next block, with record `r`, becomes the head, and its track is tested (R29,
R44). -/
theorem State.hearZone_more {s : State} {z : ZoneId} {r : BlockRec} (ht : (s.lu.audit.get z).target = none) (h : 2 ≤ s.fill z)
    (hr : s.info (s.bs.nextOf (s.bs.chain.get z).head) = r) :
    ∃ u, Behind (s.heard z) u ∧ s.hearZone z = u.trackAtHead z (r.expected.getD 0) r.track := by
  obtain ⟨u, hu, he⟩ := State.hearZone_eq ht (by omega)
  have hbs : u.bs = s.bs.hear z (s.keepsAnchor z) := hu.bs
  obtain ⟨hchain, -⟩ := Store.hear_more_fields (s.keepsAnchor z) h
  rw [← hbs] at hchain
  have hmem : u.bs.mem = s.bs.mem := by rw [hbs, Store.hear_more _ h]; rfl
  have hfill : u.fill z = s.fill z - 1 := by rw [State.fill, hchain]; rfl
  have hinfo : u.info (u.bs.chain.get z).head = r := by
    rw [← hr, hchain]
    simp only [State.info, Store.bucket, hmem]
  obtain ⟨v, hv, hn⟩ := State.newHead_spec (hu.audit ▸ ht) (by omega) hinfo
  refine ⟨v, (Behind.of_aside hu).trans hv, ?_⟩
  obtain ⟨m, hm⟩ := hv.bs
  have hfillv : (v.trackAtHead z (r.expected.getD 0) r.track).fill z = u.fill z := by
    rw [State.trackAtHead_eq]
    simp only [State.fill, hm]
  rw [he, hn, if_neg (by omega)]

/-- Hearing the only block empties the chain (R29). -/
theorem Store.hear_empties {st : Store} {z : ZoneId} (keep : Bool) (h : (st.chain.get z).length = 1) :
    (st.hear z keep).chain.get z = ⟨0, 0, 0⟩ := by
  cases keep with
  | true => exact (Store.hear_kept_fields h).1
  | false => exact (Store.hear_last_fields h).1

/-- A hear that empties the chain: no block comes to the head (R29, R40, R41). -/
theorem State.hearZone_last {s : State} {z : ZoneId} (ht : (s.lu.audit.get z).target = none) (h : s.fill z = 1) :
    ∃ u, Aside (s.heard z) u ∧ s.hearZone z = u.ranDry z := by
  obtain ⟨u, hu, he⟩ := State.hearZone_eq ht (by omega)
  have hfill : u.fill z = 0 := by
    rw [State.fill, hu.bs]
    exact congrArg Chain.length (Store.hear_empties _ h)
  have hn : u.newHead z = u := if_pos hfill
  exact ⟨u, hu, by rw [he, hn, if_pos hfill]⟩

/-- What ZC makes of a chain that has run dry in supply state ENDED (R41). -/
theorem State.ranDry_ended {s : State} {z : ZoneId} (h : (s.zone z).supply = .ended) : s.ranDry z = s.endOfProgram z := if_pos h

/-- What ZC makes of a chain that has run dry under a PLAYING zone with no mark pending (R40). -/
theorem State.ranDry_starved {s : State} {z : ZoneId} (h : (s.zone z).supply ≠ .ended) (hp : (s.zone z).play = .playing)
    (hn : (s.zone z).pendingAny = false) :
    s.ranDry z = (s.modZone z fun r => { r with play := .starved }).zoneNotice z .dry := by
  simp [State.ranDry, h, hp, hn]

/-- The selected record of a zone is changed. -/
theorem State.record_modSelRec {s : State} {z : ZoneId} {i : Nat} {x : DiscRecord} (f : DiscRecord → DiscRecord)
    (hs : (s.zone z).selected = some i) (hx : s.record i = some x) : (s.modSelRec z f).record i = some (f x) := by
  simp only [State.record] at hx
  simp [State.modSelRec, hs, State.record, Directory.modRecord, hx]

/-- A change of the selected record changes the records alone. -/
theorem State.modSelRec_eq (s : State) (z : ZoneId) (f : DiscRecord → DiscRecord) :
    s.modSelRec z f = { s with dd := (s.modSelRec z f).dd } := by
  unfold State.modSelRec
  split <;> rfl

/-! ## Pending actions (R50, R51, R53) -/

/-- A concealer at a flush: its decided runs end, and no cut stands (R125). -/
def Concealer.flushed (c : Concealer) : Concealer :=
  { c with left := c.left.flushRun, right := c.right.flushRun, cutAt := none }

/-- A flush empties the zone's chain in the store, ends its decided runs, and changes the drive, the tag and what LU and RU hold
(R31, R115). -/
theorem State.flushZone_spec (s : State) (z : ZoneId) : ∃ da bi lm lu ru,
    s.flushZone z = { s with
      bs := s.bs.flush z, oc := s.oc.mod z Concealer.flushed, da := da, bi := bi, lm := lm, lu := lu, ru := ru } := by
  obtain ⟨_, _, _, _, _, he⟩ := (Aside.refl (s.modBs fun st => st.flush z)).dropEntriesFrom (z := z) (a := 0)
  unfold State.flushZone
  dsimp only
  rw [he]
  exact ⟨_, _, _, _, _, rfl⟩

/-- A flush leaves the zone with no chain and no anchor (R31). -/
theorem Store.flush_zone (st : Store) (z : ZoneId) : (st.flush z).chain.get z = ⟨0, 0, 0⟩ ∧ (st.flush z).anchor.get z = 0 := by
  obtain ⟨hc, -, -, ha⟩ := Store.releaseAnchor_fields
    { st.releaseAll (st.chainOf z) with chain := (st.releaseAll (st.chainOf z)).chain.set z ⟨0, 0, 0⟩ } z
  exact ⟨(congrArg (Pair.get · z) hc).trans (Pair.get_set_self _ _ _), ha⟩

/-- A zone that stops (R53). -/
def Zone.halted (r : Zone) : Zone := { Zone.cold with selected := r.selected, supply := r.supply }

theorem State.writeResume_eq (s : State) (z : ZoneId) (p : Option ResumePt) :
    s.writeResume z p = { s with dd := (s.writeResume z p).dd } := by
  unfold State.writeResume
  split
  · exact s.modSelRec_eq z _
  · rfl

/-- A stop that takes effect writes the next unheard frame, flushes the zone and clears its record (R51, R53). -/
theorem State.stopEffect_spec (s : State) (z : ZoneId) : ∃ da bi lm lu ru,
    s.stopEffect z = { s with
      bs := s.bs.flush z, zc := s.zc.mod z Zone.halted, oc := s.oc.mod z Concealer.flushed
      dd := (s.writeResume z (s.unheard z)).dd, da := da, bi := bi, lm := lm, lu := lu, ru := ru } := by
  obtain ⟨_, _, _, _, _, he⟩ := (s.writeResume z (s.unheard z)).flushZone_spec z
  unfold State.stopEffect
  dsimp only
  rw [he, s.writeResume_eq]
  exact ⟨_, _, _, _, _, rfl⟩

/-- A zone that takes up its seek to `t` (R50). -/
def Zone.sought (r : Zone) (t : SeekTarget) : Zone :=
  { r with
    nextRead := some t.addr, offset := 0, resume := some ⟨t.addr, 0⟩, track := t.track,
    play := if r.pausePending = true ∨ r.play = .paused then .paused else .priming, pausePending := false, seekPending := none }

/-- A seek that takes effect flushes the zone and asks for a fresh start; then R39 and R40 are tested (R50, R120). -/
theorem State.seekEffect_spec (s : State) (z : ZoneId) (t : SeekTarget) : ∃ u : State, s.seekEffect z t = u.testReady z ∧
    u.bs = s.bs.flush z ∧ u.zone z = (s.zone z).sought t ∧ u.oc = (s.oc.mod z fun c => { c.flushed with fresh := true }) ∧
    u.cl = s.cl ∧ u.pc = s.pc ∧ u.params = s.params ∧ u.straps = s.straps := by
  obtain ⟨_, _, _, _, _, he⟩ := s.flushZone_spec z
  unfold State.seekEffect
  dsimp only
  rw [he]
  exact ⟨_, rfl, rfl, Pair.get_mod_self _ _ _, by cases z <;> rfl, rfl, rfl, rfl, rfl⟩

/-- With lawful parameters, a zone with an empty chain whose supply is to be tested does not start (R37, R39). -/
theorem State.readyToStart_empty {s : State} {z : ZoneId} (hl : lawfulParams s.params s.straps) (h : s.fill z = 0) :
    s.readyToStart z = false := by
  obtain ⟨hz, -, -⟩ := lawfulParams_iff.1 hl
  have hq := (hz z).quota.1
  have ht := (hz z).startThr.1
  simp only [State.readyToStart, State.room, State.quota, h]
  simp
  omega

end Sys2Proof.Machine
end

section
/-! PROOF. A frame event (chapter 7): the gains it steps, the runs it decides, the hear and the pending action that follow it, and
the report of silence (O33). -/

namespace Sys2Proof.Machine

/-! ## Channels (R119, R121, R126) -/

/-- The channel of a side. -/
def Concealer.side (c : Concealer) : Side → Channel
  | .left => c.left
  | .right => c.right

theorem State.gain_eq (s : State) (z : ZoneId) (d : Side) : s.gain z d = ((s.oc.get z).side d).gain := by cases d <;> rfl

theorem Channel.gain_begin (c : Channel) (r : Run) : (c.begin r).gain = c.gain := by cases r <;> rfl

theorem Channel.gain_fromNone (c : Channel) (v : Int) (erased : Bool) (g0 : Int) (f : Int → Run) :
    (c.fromNone v erased g0 f).gain = c.gain := by
  unfold Channel.fromNone
  split
  · exact c.gain_begin _
  · rfl

theorem Channel.gain_repair (c : Channel) (offset : Nat) (v : Int) (erased : Bool) (f : Int → Run) :
    (c.repair offset v erased f).gain = c.gain := by
  unfold Channel.repair
  split
  · exact c.gain_fromNone ..
  · split
    · exact c.gain_fromNone ..
    · rfl
    · split <;> rfl

/-- A frame's sample leaves its channel's gain, which the envelope steps after it (R119, R126). -/
theorem State.gain_channelValue (s : State) (z : ZoneId) (d : Side) (c : Channel) : (s.channelValue z d c).gain = c.gain := by
  have hd (x : Channel) : (s.drawChannel z d x).gain = x.gain := by
    unfold State.drawChannel
    split
    · dsimp only
      split
      · exact x.gain_fromNone ..
      · exact x.gain_repair ..
    · rfl
  unfold State.channelValue
  split
  · rw [hd]
    split <;> rfl
  · rfl

/-- Under a condition of R127 the target is 0, and the gain steps toward it. -/
theorem Channel.envelope_hushed (c : Channel) : c.envelope true = { c with target := 0, gain := c.gain - 1 } := by
  have h : stepGain c.gain 0 = c.gain - 1 := by
    unfold stepGain
    split
    · omega
    · split <;> omega
  simp only [Channel.envelope, Bool.true_or, if_true, h]

theorem State.concealed_side (s : State) (z : ZoneId) (d : Side) : (s.concealed z).side d =
    (s.channelValue z d ((s.oc.get z).side d)).envelope (s.silenced z (s.drawingNow z)) := by cases d <;> rfl

/-- A silenced zone's channels aim at 0 and step down (R126, R127). -/
theorem State.concealed_silenced {s : State} {z : ZoneId} (h : s.silenced z (s.drawingNow z) = true) (d : Side) :
    ((s.concealed z).side d).target = 0 ∧ ((s.concealed z).side d).gain = s.gain z d - 1 := by
  rw [s.concealed_side, h, Channel.envelope_hushed, s.gain_channelValue, s.gain_eq]
  exact ⟨rfl, rfl⟩

/-! ## Runs (R121, R125) -/

/-- A look ahead that finds an unerased sample behind erased ones (R121). -/
theorem State.lookahead_found {s : State} {z : ZoneId} {d : Side} {len : Nat} {v : Sample} (hv : s.ahead z d len = some (v, false))
    {n k : Nat} (hk : k ≤ len) (hn : len < k + n) (he : ∀ m, k ≤ m → m < len → ∃ x, s.ahead z d m = some (x, true)) :
    s.lookahead z d n k = some (len, v.toInt) := by
  induction n generalizing k with
  | zero => omega
  | succ n ih =>
    unfold State.lookahead
    rcases Nat.lt_or_ge k len with h | h
    · obtain ⟨x, hx⟩ := he k (Nat.le_refl k) h
      simp only [hx, if_true]
      exact ih h (by omega) fun m hm => he m (by omega)
    · obtain rfl : k = len := by omega
      simp [hv]

/-- A look ahead that finds no unerased sample (R121). -/
theorem State.lookahead_none {s : State} {z : ZoneId} {d : Side} {n k : Nat}
    (h : ∀ m v, k ≤ m → m < k + n → s.ahead z d m ≠ some (v, false)) : s.lookahead z d n k = none := by
  induction n generalizing k with
  | zero => rfl
  | succ n ih =>
    unfold State.lookahead
    split
    · rfl
    · next v erased hx =>
      cases erased with
      | true => exact ih fun m v hm hm' => h m v (by omega) (by omega)
      | false => exact absurd hx (h k v (Nat.le_refl k) (by omega))

/-- The frame is drawn across a cut (R125). -/
theorem State.acrossCut_iff (s : State) (z : ZoneId) : s.acrossCut z = true ↔
    (s.zone z).offset = 0 ∧ (s.oc.get z).cutAt ≠ none ∧ s.headAddr z = (s.oc.get z).cutAt := by
  simp [State.acrossCut, Option.isSome_iff_ne_none, and_assoc]

/-- The bounding value from which a run is decided at this frame (R121, R125). -/
def State.lastValue (s : State) (z : ZoneId) (c : Channel) : Int := if s.acrossCut z = true then c.lastRepaired else c.lastGood

/-- An erased sample in run state NONE begins the run decided there (R121, R125). -/
theorem State.drawChannel_erased {s : State} {z : ZoneId} {d : Side} {c : Channel} {x : Sample}
    (hx : s.ahead z d 0 = some (x, true)) (hr : c.run = .none) :
    s.drawChannel z d c = c.begin (s.decideRun z d (s.lastValue z c)) := by
  unfold State.drawChannel State.lastValue
  by_cases ha : s.acrossCut z = true
  · simp [hx, hr, ha, Channel.fromNone]
  · simp [hx, hr, ha, Channel.repair, Channel.cutHere, Channel.fromNone]

/-- A frame that is drawn without a fresh start leaves what the sample made of the channel, but for its target and gain. -/
theorem State.concealed_drawn {s : State} {z : ZoneId} (hd : s.draws z = true) (hf : (s.oc.get z).fresh = false) (d : Side) :
    ∃ hush, (s.concealed z).side d = (s.drawChannel z d ((s.oc.get z).side d)).envelope hush := by
  have hv : s.channelValue z d ((s.oc.get z).side d) = s.drawChannel z d ((s.oc.get z).side d) := by
    simp [State.channelValue, hd, hf]
  exact ⟨_, (s.concealed_side z d).trans (by rw [hv])⟩

/-! ## What follows a drawn frame -/

/-- From `s` to `t` Power Control and the outputs stand, and a zone without a pending action has none: what a hear leaves alone. -/
structure AfterHear (s t : State) : Prop where
  pc   : t.pc = s.pc
  oc   : t.oc = s.oc
  idle : ∀ z, (s.zone z).pendingAny = false → (t.zone z).pendingAny = false

namespace AfterHear

variable {s t u : State} {z : ZoneId}

theorem refl (s : State) : AfterHear s s := ⟨rfl, rfl, fun _ => id⟩

theorem trans (h : AfterHear s t) (k : AfterHear t u) : AfterHear s u :=
  ⟨k.pc.trans h.pc, k.oc.trans h.oc, fun w hw => k.idle w (h.idle w hw)⟩

theorem of_behind (h : Behind s t) : AfterHear s t := ⟨h.pc, h.oc, fun w hw => by rwa [State.zone, h.zc]⟩

theorem modBs {f : Store → Store} (h : AfterHear s t) : AfterHear s (t.modBs f) := h.trans ⟨rfl, rfl, fun _ => id⟩
theorem modAudit {f : Audit → Audit} (h : AfterHear s t) : AfterHear s (t.modAudit z f) := h.trans ⟨rfl, rfl, fun _ => id⟩
theorem notice {k : Byte} {b : List Byte} (h : AfterHear s t) : AfterHear s (t.notice k b) := h.trans ⟨rfl, rfl, fun _ => id⟩

theorem modZone {f : Zone → Zone} (h : AfterHear s t)
    (hf : ∀ r, r.pendingAny = false → (f r).pendingAny = false := by exact fun _ => id) : AfterHear s (t.modZone z f) := by
  refine h.trans ⟨rfl, rfl, fun w hw => ?_⟩
  by_cases e : w = z
  · subst e
    rw [State.zone_modZone]
    exact hf _ hw
  · rwa [State.zone_modZone_ne t _ e]

theorem missAudit (h : AfterHear s t) : AfterHear s (t.missAudit z) := by
  unfold State.missAudit
  dsimp only
  split
  · exact h.modAudit.modAudit.notice
  · exact h.modAudit

theorem auditHeard {e : Nat} (h : AfterHear s t) : AfterHear s (t.auditHeard z e) := by
  unfold State.auditHeard
  split
  · exact h.missAudit
  · exact h

theorem newHead (h : AfterHear s t) : AfterHear s (t.newHead z) := by
  have haudit {e : Nat} {v : State} (k : AfterHear s v) : AfterHear s (v.auditAtHead z e) := by
    unfold State.auditAtHead
    split
    · exact k.missAudit
    · exact k
  have htrack {e n : Nat} {v : State} (k : AfterHear s v) : AfterHear s (v.trackAtHead z e n) := by
    unfold State.trackAtHead
    split
    · exact k
    · exact k.modZone.notice
  unfold State.newHead
  dsimp only
  split
  · exact h
  · exact htrack (haudit (h.trans (of_behind (Behind.refl t).rereadAtHead)))

theorem modSelRec {f : DiscRecord → DiscRecord} (h : AfterHear s t) : AfterHear s (t.modSelRec z f) :=
  h.trans (by rw [State.modSelRec_eq]; exact ⟨rfl, rfl, fun _ => id⟩)

theorem endOfProgram (h : AfterHear s t) : AfterHear s (t.endOfProgram z) := by
  have h1 : AfterHear s (t.modZone z fun r => { r with
      play := .stopped, supply := .idle, nextRead := none, track := 0, pausePending := false, resume := none }) :=
    h.modZone fun r hr => by
      simp only [Zone.pendingAny, Bool.or_eq_false_iff] at hr ⊢
      obtain ⟨⟨-, hstop⟩, hseek⟩ := hr
      exact ⟨⟨trivial, hstop⟩, hseek⟩
  exact (h1.trans (of_behind (.of_aside (Aside.refl _).setCtx))).modSelRec.notice

theorem ranDry (h : AfterHear s t) : AfterHear s (t.ranDry z) := by
  unfold State.ranDry
  dsimp only
  split
  · exact h.endOfProgram
  · split
    · exact h.modZone.notice
    · exact h

theorem hearZone (h : AfterHear s t) : AfterHear s (t.hearZone z) := by
  unfold State.hearZone
  dsimp only
  split
  · exact h
  · have h1 {e : Nat} : AfterHear s (((((t.modBs fun st => st.hear z (t.keepsAnchor z)).modZone z fun r =>
        { r with offset := 0 }).auditHeard z e).anchorHeard z e).newHead z) :=
      (h.modBs.modZone.auditHeard.trans (of_behind (.of_aside (Aside.refl _).anchorHeard))).newHead
    split
    · exact h1.ranDry
    · exact h1

theorem afterDraw (h : AfterHear s t) : AfterHear s (t.afterDraw z) := by
  unfold State.afterDraw
  split
  · exact h.hearZone
  · exact h.modZone

end AfterHear

/-! ## The frame event, step by step -/

/-- The state when the outputs have taken their values of this frame (R117, R126). -/
def State.played (s : State) (z : ZoneId) : State := s.modOc z fun _ => s.concealed z

/-- The state when the frame drawn has been counted, and its block heard if it was the last (R29, R119). -/
def State.drawn (s : State) (z : ZoneId) : State := if s.draws z then (s.played z).afterDraw z else s.played z

theorem State.frame_eq (s : State) (z : ZoneId) : s.frame z = ((s.drawn z).reportZero z).reportSilence := rfl

/-- A frame event of an output that the straps allow. -/
theorem exec_frameEvent {s : State} {z : ZoneId} (hp : s.pc.state ≠ .parked) (hz : z = .a ∨ s.straps.singleZone = false) :
    exec (.frameEvent z) s = .next (State.finish s (s.frame z)) := by
  refine State.whenPowered_powered (f := fun t => t.frameEvent z) hp (if_neg ?_)
  rintro ⟨rfl, hb⟩
  exact hz.elim nofun fun h => Bool.noConfusion (hb.symm.trans h)

/-- The report of silence changes Power Control alone (R134). -/
theorem State.reportSilence_eq (s : State) : s.reportSilence =
    { s with pc := if s.pc.silence = true ∧ s.allSilent = true then { s.pc with silenceDone := true } else s.pc } := by
  unfold State.reportSilence
  split
  · next h => simp [State.modPc, h]
  · rfl

theorem State.reportZero_idle {s : State} {z : ZoneId} (h : (s.zone z).pendingAny = false) : s.reportZero z = s := by
  simp [State.reportZero, h]

theorem State.reportZero_silent {s : State} {z : ZoneId} (hs : s.audible z = false) (h : (s.zone z).pendingAny = true) :
    s.reportZero z = (s.pendingEffect z).zoneNotice z .requestDone := by
  simp [State.reportZero, hs, h]

/-- A zone is not audible when its gains stand at 0 (R39). -/
theorem State.audible_iff (s : State) (z : ZoneId) : s.audible z = false ↔ ∀ d, s.gain z d = 0 := by
  constructor
  · intro h d
    simp only [State.audible, Bool.or_eq_false_iff, decide_eq_false_iff_not] at h
    cases d with
    | left => exact Nat.eq_zero_of_not_pos h.1
    | right => exact Nat.eq_zero_of_not_pos h.2
  · intro h
    have hl : (s.oc.get z).left.gain = 0 := h .left
    have hr : (s.oc.get z).right.gain = 0 := h .right
    simp [State.audible, hl, hr]

theorem State.oc_played (s : State) (z : ZoneId) : (s.played z).oc.get z = s.concealed z := Pair.get_mod_self _ _ _

theorem State.gain_played (s : State) (z : ZoneId) (d : Side) : (s.played z).gain z d = ((s.concealed z).side d).gain := by
  rw [State.gain_eq, s.oc_played]

theorem State.gain_played_other (s : State) (z : ZoneId) (d : Side) : (s.played z).gain z.other d = s.gain z.other d := by
  have h : (s.played z).oc.get z.other = s.oc.get z.other := Pair.get_mod_other _ _ _
  rw [State.gain_eq, h, State.gain_eq]

/-- What follows the outputs' values leaves the gains (R126). -/
theorem State.gain_frame (s : State) (z w : ZoneId) (d : Side) : (s.frame z).gain w d = (s.played z).gain w d := by
  have h : Calm (s.played z) (s.frame z) := by
    rw [s.frame_eq]
    unfold State.drawn
    split
    · exact (Calm.refl _).afterDraw.reportZero.reportSilence
    · exact (Calm.refl _).reportZero.reportSilence
  exact h.gain w d

/-- Before the end of a block, a frame drawn raises the head frame offset, and no block is heard (R119). -/
theorem State.drawn_within {s : State} {z : ZoneId} (h : s.draws z = false ∨ (s.zone z).offset < 479) :
    s.drawn z = (s.played z).modZone z fun r => { r with offset := if s.draws z then r.offset + 1 else r.offset } := by
  unfold State.drawn
  by_cases hd : s.draws z = true
  · have ho : ¬ 479 ≤ ((s.played z).zone z).offset := Nat.not_le.2 (h.resolve_left (by simp [hd]))
    simp only [hd, if_true, State.afterDraw]
    rw [if_neg ho]
  · simp only [hd]
    cases z <;> rfl

/-- The head frame offset after a frame that does not end a block (R119). -/
def State.nextOffset (s : State) (z : ZoneId) : Nat := if s.draws z then (s.zone z).offset + 1 else (s.zone z).offset

theorem State.zone_drawn_within {s : State} {z : ZoneId} (h : s.draws z = false ∨ (s.zone z).offset < 479) :
    (s.drawn z).zone z = { s.zone z with offset := s.nextOffset z } := by
  rw [State.drawn_within h, State.zone_modZone]
  rfl

/-- The frame event ends the head block of a zone in which no stop, seek or audit is pending: its last frame is drawn. -/
structure State.EndsBlock (s : State) (z : ZoneId) : Prop where
  draws  : s.draws z = true
  last   : (s.zone z).offset = 479
  noStop : (s.zone z).stopPending = false
  noSeek : (s.zone z).seekPending = none
  noAudit : (s.lu.audit.get z).target = none

namespace State.EndsBlock

variable {s : State} {z : ZoneId}

theorem drawn_eq (h : s.EndsBlock z) : s.drawn z = (s.played z).hearZone z := by
  have ho : 479 ≤ ((s.played z).zone z).offset := h.last.ge
  simp only [State.drawn, h.draws, if_true, State.afterDraw, if_pos ho]

theorem playing (h : s.EndsBlock z) : (s.zone z).play = .playing := by
  have hd := h.draws
  simp only [State.draws, State.drawingNow, Bool.and_eq_true, decide_eq_true_eq] at hd
  obtain ⟨⟨⟨hplay, -⟩, -⟩, -⟩ := hd
  exact hplay

/-- What stands after the hear is what stands after the frame event, when no action is pending then. -/
theorem frame_eq (h : s.EndsBlock z) (hi : (((s.played z).hearZone z).zone z).pendingAny = false) :
    s.frame z = ((s.played z).hearZone z).reportSilence := by
  rw [s.frame_eq, h.drawn_eq, State.reportZero_idle hi]

/-- After frame 479 the next block is the head (R29, R44). -/
theorem hears_on (h : s.EndsBlock z) (hp : (s.zone z).pausePending = false) (h2 : 2 ≤ s.fill z) {c : Nat} {r : BlockRec}
    (hc : (s.bs.chain.get z).head = c) (hr : s.info (s.bs.nextOf c) = r) :
    (s.frame z).bs.chain.get z = ⟨s.bs.nextOf c, (s.bs.chain.get z).tail, s.fill z - 1⟩ ∧ (s.frame z).bs.freeHead = c ∧
      (s.frame z).bs.freeCount = s.bs.freeCount + 1 ∧ (s.frame z).zone z = { s.zone z with offset := 0, track := r.track } ∧
      (s.frame z).cl = if r.track = (s.zone z).track then s.cl
        else s.cl.notice ⟨0x71, [zoneCode z, byte r.track] ++ be3 (r.expected.getD 0)⟩ := by
  subst hc
  obtain ⟨u, hu, he⟩ := State.hearZone_more (s := s.played z) h.noAudit h2 hr
  obtain ⟨m, hm⟩ := hu.bs
  obtain ⟨hchain, hhead, hcount⟩ := Store.hear_more_fields ((s.played z).keepsAnchor z) h2
  have hz : u.zone z = { s.zone z with offset := 0 } := by
    rw [State.zone, hu.zc]
    exact Pair.get_mod_self _ _ _
  rw [State.trackAtHead_eq] at he
  have hi : (((s.played z).hearZone z).zone z) = { s.zone z with offset := 0, track := r.track } := by
    rw [he]
    exact (Pair.get_mod_self _ _ _).trans (by rw [show u.zc.get z = _ from hz])
  rw [h.frame_eq (by rw [hi]; simp [Zone.pendingAny, hp, h.noStop, h.noSeek]), State.reportSilence_eq]
  refine ⟨?_, ?_, ?_, hi, ?_⟩ <;> rw [he]
  · exact (congrArg (fun b => b.chain.get z) hm).trans hchain
  · exact (congrArg Store.freeHead hm).trans hhead
  · exact (congrArg Store.freeCount hm).trans hcount
  · simp only [hz, hu.cl]
    rfl

/-- After frame 479 of the only block a zone whose supply is not ENDED is STARVED, and keeps the block as its anchor (R29, R40). -/
theorem runs_dry (h : s.EndsBlock z) (hp : (s.zone z).pausePending = false) (h1 : s.fill z = 1)
    (hs : (s.zone z).supply ≠ .ended) :
    (s.frame z).zone z = { s.zone z with offset := 0, play := .starved } ∧ (s.frame z).bs.chain.get z = ⟨0, 0, 0⟩ ∧
      (s.frame z).bs.anchor.get z = (s.bs.chain.get z).head ∧ (s.frame z).bs.freeCount = s.bs.freeCount ∧
      (s.frame z).cl = s.cl.notice ⟨0x70, [zoneCode z, 4, supplyCode (s.zone z).supply, 3]⟩ := by
  obtain ⟨u, hu, he⟩ := State.hearZone_last (s := s.played z) h.noAudit h1
  have hkeep : (s.played z).keepsAnchor z = true := by
    have hst : ((s.played z).zone z).stopPending = false := h.noStop
    have hsu : ((s.played z).zone z).supply ≠ .ended := hs
    simp [State.keepsAnchor, hst, hsu]
  have hbs : u.bs = s.bs.hear z true := hu.bs.trans (congrArg (s.bs.hear z) hkeep)
  obtain ⟨hchain, hanchor, -, hcount⟩ := Store.hear_kept_fields h1
  have hz : u.zone z = { s.zone z with offset := 0 } := by
    rw [State.zone, hu.zc]
    exact Pair.get_mod_self _ _ _
  have hn : (s.zone z).pendingAny = false := by simp [Zone.pendingAny, hp, h.noStop, h.noSeek]
  rw [State.ranDry_starved (by rw [hz]; exact hs) (by rw [hz]; exact h.playing) (by rw [hz]; exact hn)] at he
  have hi : ((s.played z).hearZone z).zone z = { s.zone z with offset := 0, play := .starved } := by
    rw [he]
    exact (State.zone_modZone _ _ _).trans (by rw [hz])
  rw [h.frame_eq (by rw [hi]; exact hn), State.reportSilence_eq]
  refine ⟨hi, ?_, ?_, ?_, ?_⟩ <;> rw [he]
  · exact (congrArg (fun b => b.chain.get z) hbs).trans hchain
  · exact (congrArg (fun b => b.anchor.get z) hbs).trans hanchor
  · exact (congrArg Store.freeCount hbs).trans hcount
  · show Link.notice u.cl _ = _
    rw [hu.cl, State.zone_modZone, hz]
    rfl

/-- After frame 479 of the last block of an ENDED zone its program has ended (R29, R41). -/
theorem ends_program (h : s.EndsBlock z) (h1 : s.fill z = 1) (hs : (s.zone z).supply = .ended) :
    (s.frame z).zone z = { s.zone z with
        offset := 0, play := .stopped, supply := .idle, nextRead := none, track := 0, pausePending := false, resume := none } ∧
      (s.frame z).ctx z = none ∧ (s.frame z).bs.chain.get z = ⟨0, 0, 0⟩ ∧ (s.frame z).bs.freeHead = (s.bs.chain.get z).head ∧
      (s.frame z).bs.freeCount = s.bs.freeCount + 1 ∧ (s.frame z).cl = s.cl.notice ⟨0x72, [zoneCode z]⟩ ∧
      ∀ i x, (s.zone z).selected = some i → s.record i = some x → (s.frame z).record i = some { x with resume := none } := by
  obtain ⟨u, hu, he⟩ := State.hearZone_last (s := s.played z) h.noAudit h1
  have hkeep : (s.played z).keepsAnchor z = false := by
    have hsu : ((s.played z).zone z).supply = .ended := hs
    simp [State.keepsAnchor, hsu]
  have hbs : u.bs = s.bs.hear z false := hu.bs.trans (congrArg (s.bs.hear z) hkeep)
  obtain ⟨hchain, -, hhead, hcount⟩ := Store.hear_last_fields h1
  have hz : u.zone z = { s.zone z with offset := 0 } := by
    rw [State.zone, hu.zc]
    exact Pair.get_mod_self _ _ _
  rw [State.ranDry_ended (by rw [hz]; exact hs)] at he
  let v := (u.modZone z fun r => { r with
    play := .stopped, supply := .idle, nextRead := none, track := 0, pausePending := false, resume := none }).setCtx z none
  have hv : (s.played z).hearZone z = (v.modSelRec z fun r => { r with resume := none }).endNotice z := he
  have hvz : v.zone z = { s.zone z with
      offset := 0, play := .stopped, supply := .idle, nextRead := none, track := 0, pausePending := false, resume := none } :=
    (State.zone_modZone _ _ _).trans (by rw [hz])
  rw [State.modSelRec_eq] at hv
  have hi : ((s.played z).hearZone z).zone z = v.zone z := by rw [hv]; rfl
  rw [h.frame_eq (by rw [hi, hvz]; simp [Zone.pendingAny, h.noStop, h.noSeek]), State.reportSilence_eq]
  refine ⟨hi.trans hvz, ?_, ?_, ?_, ?_, ?_, fun i x hsel hx => ?_⟩ <;> rw [hv]
  · exact State.ctx_setCtx _ _ _
  · exact (congrArg (fun b => b.chain.get z) hbs).trans hchain
  · exact (congrArg Store.freeHead hbs).trans hhead
  · exact (congrArg Store.freeCount hbs).trans hcount
  · exact congrArg (Link.notice · _) hu.cl
  · refine State.record_modSelRec (s := v) _ (by rw [hvz]; exact hsel) ?_
    have hdd : v.dd = s.dd := hu.dd
    rw [State.record, hdd]
    exact hx

end State.EndsBlock

/-! ## A pending action that takes effect (R50, R51, R131) -/

theorem Zone.pendingAny_iff {r : Zone} :
    r.pendingAny = true ↔ r.pausePending = true ∨ r.stopPending = true ∨ ∃ t, r.seekPending = some t := by
  simp [Zone.pendingAny, Option.isSome_iff_exists, or_assoc]

/-- An action is pending in a zone whose gains step to 0 at this frame event, which does not end a block. -/
structure State.FallsSilent (s : State) (z : ZoneId) : Prop where
  gains   : ∀ d, s.gain z d ≤ 1
  within  : s.draws z = false ∨ (s.zone z).offset < 479
  pending : (s.zone z).pendingAny = true

/-- The next unheard frame of a zone whose chain is not empty stands in its head block (R51). -/
theorem State.unheard_head {s : State} {z : ZoneId} {a : Nat} (h : s.headAddr z = some a) :
    s.unheard z = some ⟨a, (s.zone z).offset⟩ := by
  have hf : s.fill z ≠ 0 := fun e => by simp [State.headAddr, e] at h
  simp [State.unheard, hf, h]

theorem State.unheard_resume {s : State} {z : ZoneId} {p : ResumePt} (hf : s.fill z = 0) (h : (s.zone z).resume = some p) :
    s.unheard z = some p := by simp [State.unheard, hf, h]

theorem State.unheard_next {s : State} {z : ZoneId} {a : Nat} (hf : s.fill z = 0) (h : (s.zone z).resume = none)
    (hn : (s.zone z).nextRead = some a) : s.unheard z = some ⟨a, 0⟩ := by simp [State.unheard, hf, h, hn]

/-- With lawful parameters a zone with an empty chain does not pass the test of R39 (R37, R39). -/
theorem State.testReady_empty {s : State} {z : ZoneId} (hl : lawfulParams s.params s.straps) (hf : s.fill z = 0)
    (hp : (s.zone z).play ≠ .starved) : s.testReady z = s := by
  unfold State.testReady
  split
  · simp [State.readyToStart_empty hl hf]
  · next h => exact absurd h hp
  · rfl
  · rfl
  · rfl

/-- A zone that has taken up a seek is PAUSED or PRIMING (R50). -/
theorem Zone.sought_play (r : Zone) (t : SeekTarget) : (r.sought t).play ≠ .starved := by
  unfold Zone.sought
  dsimp only
  split <;> decide

namespace State.FallsSilent

variable {s : State} {z : ZoneId}

/-- The pending action takes effect (R131). -/
theorem frame_eq (h : s.FallsSilent z) :
    s.frame z = (((s.drawn z).pendingEffect z).zoneNotice z .requestDone).reportSilence := by
  have hsil : s.silenced z (s.drawingNow z) = true := by simp [State.silenced, h.pending]
  have hg (d : Side) : (s.drawn z).gain z d = 0 := by
    have hd : (s.drawn z).gain z d = (s.played z).gain z d := by rw [State.drawn_within h.within]; rfl
    rw [hd, s.gain_played, (State.concealed_silenced hsil d).2]
    exact Nat.sub_eq_zero_of_le (h.gains d)
  have hp : ((s.drawn z).zone z).pendingAny = true := by
    rw [State.zone_drawn_within h.within]
    exact h.pending
  rw [s.frame_eq, State.reportZero_silent (((s.drawn z).audible_iff z).2 hg) hp]

/-- But for the outputs and the head frame offset, the state is as before the frame event. -/
theorem drawn_fields (h : s.FallsSilent z) : (s.drawn z).bs = s.bs ∧ (s.drawn z).dd = s.dd ∧ (s.drawn z).cl = s.cl ∧
    (s.drawn z).params = s.params ∧ (s.drawn z).straps = s.straps ∧ (s.drawn z).headAddr z = s.headAddr z := by
  rw [State.drawn_within h.within]
  exact ⟨rfl, rfl, rfl, rfl, rfl, rfl⟩

/-- A stop (R51, R53). -/
theorem stops (h : s.FallsSilent z) (hst : (s.zone z).stopPending = true) :
    (s.frame z).zone z = (s.zone z).halted ∧ (s.frame z).bs.chain.get z = ⟨0, 0, 0⟩ ∧ (s.frame z).bs.anchor.get z = 0 ∧
      (s.frame z).cl = s.cl.notice ⟨0x70, [zoneCode z, 0, supplyCode (s.zone z).supply, 1]⟩ ∧
      ∀ i x p, (s.zone z).selected = some i → s.record i = some x → (s.drawn z).unheard z = some p →
        (s.frame z).record i = some { x with resume := some p } := by
  obtain ⟨-, hdd, hcl, -, -, -⟩ := h.drawn_fields
  have hwz := State.zone_drawn_within h.within
  obtain ⟨da, bi, lm, lu, ru, he⟩ := (s.drawn z).stopEffect_spec z
  have hpe : (s.drawn z).pendingEffect z = (s.drawn z).stopEffect z := by simp [State.pendingEffect, hwz, hst]
  have hz : ((s.drawn z).stopEffect z).zone z = (s.zone z).halted := by
    rw [he]
    exact (Pair.get_mod_self _ _ _).trans (by rw [show (s.drawn z).zc.get z = _ from hwz]; rfl)
  obtain ⟨hchain, hanchor⟩ := (s.drawn z).bs.flush_zone z
  rw [h.frame_eq, State.reportSilence_eq, hpe]
  refine ⟨hz, ?_, ?_, ?_, fun i x p hsel hx hp => ?_⟩
  · rw [he]
    exact hchain
  · rw [he]
    exact hanchor
  · show Link.notice ((s.drawn z).stopEffect z).cl _ = _
    rw [hz, he, hcl]
    rfl
  · have hx' : (s.drawn z).record i = some x := by rw [State.record, hdd]; exact hx
    have hr := State.record_modSelRec (z := z) (fun r => { r with resume := some p }) (by rw [hwz]; exact hsel) hx'
    rw [he, hp]
    exact hr

/-- A seek (R50). -/
theorem seeks (h : s.FallsSilent z) {t : SeekTarget} (hst : (s.zone z).stopPending = false) (hsk : (s.zone z).seekPending = some t)
    (hl : lawfulParams s.params s.straps) :
    (s.frame z).zone z = (s.zone z).sought t ∧ (s.frame z).bs.chain.get z = ⟨0, 0, 0⟩ ∧ (s.frame z).bs.anchor.get z = 0 ∧
      ((s.frame z).oc.get z).fresh = true ∧ (s.frame z).cl =
        s.cl.notice ⟨0x70, [zoneCode z, playCode ((s.zone z).sought t).play, supplyCode (s.zone z).supply, 1]⟩ := by
  obtain ⟨-, -, hcl, hpar, hstr, -⟩ := h.drawn_fields
  have hwz := State.zone_drawn_within h.within
  obtain ⟨u, he, hub, huz, huo, huc, -, hup, hus⟩ := (s.drawn z).seekEffect_spec z t
  obtain ⟨hchain, hanchor⟩ := (s.drawn z).bs.flush_zone z
  rw [← hub] at hchain hanchor
  have huz : u.zone z = (s.zone z).sought t := by
    rw [huz, hwz]
    rfl
  have hlu : lawfulParams u.params u.straps := by
    rw [hup, hus, hpar, hstr]
    exact hl
  have hpe : (s.drawn z).pendingEffect z = u := by
    rw [← State.testReady_empty hlu (congrArg Chain.length hchain) (by rw [huz]; exact Zone.sought_play _ _), ← he]
    simp [State.pendingEffect, hwz, hst, hsk]
  rw [h.frame_eq, State.reportSilence_eq, hpe]
  refine ⟨huz, hchain, hanchor, ?_, ?_⟩
  · show (u.oc.get z).fresh = true
    rw [huo, Pair.get_mod_self]
  · show Link.notice u.cl _ = _
    rw [huz, huc, hcl]
    rfl

/-- A pause (R48, R50). -/
theorem pauses (h : s.FallsSilent z) (hst : (s.zone z).stopPending = false) (hsk : (s.zone z).seekPending = none)
    (hp : (s.zone z).pausePending = true) :
    (s.frame z).zone z = { s.zone z with play := .paused, pausePending := false, offset := s.nextOffset z } ∧
      (s.frame z).bs.chain.get z = s.bs.chain.get z ∧
      (s.frame z).cl = s.cl.notice ⟨0x70, [zoneCode z, 3, supplyCode (s.zone z).supply, 1]⟩ := by
  obtain ⟨hbs, -, hcl, -, -, -⟩ := h.drawn_fields
  have hwz := State.zone_drawn_within h.within
  have hpe : (s.drawn z).pendingEffect z = (s.drawn z).modZone z fun r => { r with play := .paused, pausePending := false } := by
    simp [State.pendingEffect, hwz, hst, hsk, hp]
  have hz : ((s.drawn z).modZone z fun r => { r with play := .paused, pausePending := false }).zone z =
      { s.zone z with play := .paused, pausePending := false, offset := s.nextOffset z } := by
    rw [State.zone_modZone, hwz]
  rw [h.frame_eq, State.reportSilence_eq, hpe]
  refine ⟨hz, congrArg (fun b => b.chain.get z) hbs, ?_⟩
  show Link.notice (s.drawn z).cl _ = _
  rw [hz, hcl]
  rfl

end State.FallsSilent

/-! ## The report of silence, and starvation (R128, R134) -/

/-- What a pending action makes of the outputs and of Power Control: the targets and Power Control stand. -/
structure TargetsStand (s t : State) : Prop where
  pc     : t.pc = s.pc
  target : ∀ z d, ((t.oc.get z).side d).target = ((s.oc.get z).side d).target

namespace TargetsStand

variable {s t u : State} {z : ZoneId}

theorem trans (h : TargetsStand s t) (k : TargetsStand t u) : TargetsStand s u :=
  ⟨k.pc.trans h.pc, fun z d => (k.target z d).trans (h.target z d)⟩

theorem of_oc (hp : t.pc = s.pc) (ho : t.oc = s.oc) : TargetsStand s t := ⟨hp, fun _ _ => by rw [ho]⟩

theorem of_mod {f : Concealer → Concealer} (hp : t.pc = s.pc) (ho : t.oc = s.oc.mod z f)
    (hf : ∀ c d, ((f c).side d).target = (c.side d).target) : TargetsStand s t := by
  refine ⟨hp, fun w d => ?_⟩
  rw [ho]
  by_cases e : w = z
  · subst e
    rw [Pair.get_mod_self]
    exact hf _ d
  · rw [Pair.get_mod_ne _ _ e]

theorem becomePlaying (s : State) (z : ZoneId) (b : Bool) (c : ZoneCause) :
    TargetsStand s ((s.becomePlaying z b).zoneNotice z c) :=
  of_mod (z := z) (f := fun c => { c with drawAtOnce := !b }) rfl rfl fun _ d => by cases d <;> rfl

theorem testReady (s : State) (z : ZoneId) : TargetsStand s (s.testReady z) := by
  unfold State.testReady
  split
  · split
    · exact becomePlaying s z _ _
    · exact of_oc rfl rfl
  · split
    · exact becomePlaying s z _ _
    · exact of_oc rfl rfl
  · exact of_oc rfl rfl
  · exact of_oc rfl rfl
  · exact of_oc rfl rfl

theorem pendingEffect (s : State) (z : ZoneId) : TargetsStand s (s.pendingEffect z) := by
  unfold State.pendingEffect
  dsimp only
  split
  · obtain ⟨da, bi, lm, lu, ru, he⟩ := s.stopEffect_spec z
    rw [he]
    exact of_mod (z := z) rfl rfl fun _ d => by cases d <;> rfl
  · split
    · next t _ =>
      obtain ⟨u, he, -, -, huo, -, hup, -⟩ := s.seekEffect_spec z t
      rw [he]
      exact (of_mod hup huo fun _ d => by cases d <;> rfl).trans (testReady u z)
    · split <;> exact of_oc rfl rfl

theorem reportZero (s : State) (z : ZoneId) : TargetsStand s (s.reportZero z) := by
  unfold State.reportZero
  split
  · exact (pendingEffect s z).trans (of_oc rfl rfl)
  · exact of_oc rfl rfl

end TargetsStand

/-- What follows the outputs' values up to the report of silence. -/
theorem State.drawn_after (s : State) (z : ZoneId) : AfterHear (s.played z) (s.drawn z) := by
  unfold State.drawn
  split
  · exact (AfterHear.refl _).afterDraw
  · exact .refl _

theorem State.targets_reportZero (s : State) (z : ZoneId) : TargetsStand (s.played z) ((s.drawn z).reportZero z) :=
  (TargetsStand.of_oc (s.drawn_after z).pc (s.drawn_after z).oc).trans (.reportZero _ z)

/-- The targets after a frame event are those that the outputs decided (R127). -/
theorem State.target_frame (s : State) (z : ZoneId) (d : Side) :
    (((s.frame z).oc.get z).side d).target = ((s.concealed z).side d).target := by
  rw [s.frame_eq, State.reportSilence_eq]
  exact ((s.targets_reportZero z).target z d).trans (by rw [s.oc_played])

theorem State.allSilent_iff (s : State) : s.allSilent = true ↔ ∀ w d, s.gain w d = 0 := by
  simp only [State.allSilent, Bool.and_eq_true, Bool.not_eq_true', State.audible_iff]
  exact ⟨fun h => forall_zones h, fun h => ⟨h .a, h .b⟩⟩

/-- Silence is reported when it is ordered and all four gains stand at 0 (R134). -/
theorem State.pc_frame (s : State) (z : ZoneId) : (s.frame z).pc =
    if s.pc.silence = true ∧ (s.played z).allSilent = true then { s.pc with silenceDone := true } else s.pc := by
  have hpc : ((s.drawn z).reportZero z).pc = s.pc := (s.targets_reportZero z).pc
  have hg (w : ZoneId) (d : Side) : ((s.drawn z).reportZero z).gain w d = (s.played z).gain w d := by
    rw [← s.gain_frame, s.frame_eq, State.reportSilence_eq]
    rfl
  have hall : ((s.drawn z).reportZero z).allSilent = true ↔ (s.played z).allSilent = true := by
    simp only [State.allSilent_iff, hg]
  rw [s.frame_eq, State.reportSilence_eq]
  simp only [hpc, hall]

/-- What holds of a zone and of the other one holds of every zone. -/
theorem forall_other {p : ZoneId → Prop} {z : ZoneId} (h : p z) (ho : p z.other) : ∀ w, p w := by
  cases z with
  | a => exact forall_zones ⟨h, ho⟩
  | b => exact forall_zones ⟨ho, h⟩

/-- Under the order of silence the frame event of zone `z` reports silence when its gains step to 0 and the other zone's stand there
(R134). -/
theorem State.silence_frame {s : State} {z : ZoneId} (hs : s.pc.silence = true) :
    ((∀ d, s.gain z d ≤ 1) → (∀ d, s.gain z.other d = 0) → (s.frame z).pc = { s.pc with silenceDone := true }) ∧
      (((∃ d, 1 < s.gain z d) ∨ ∃ d, s.gain z.other d ≠ 0) → (s.frame z).pc = s.pc) := by
  have hsil : s.silenced z (s.drawingNow z) = true := by simp [State.silenced, hs]
  have hg (d : Side) : (s.played z).gain z d = s.gain z d - 1 := (s.gain_played z d).trans (State.concealed_silenced hsil d).2
  rw [s.pc_frame]
  refine ⟨fun h1 h2 => if_pos ⟨hs, (State.allSilent_iff _).2 (forall_other (z := z) (fun d => ?_) fun d => ?_)⟩,
    fun h => if_neg fun ⟨_, h0⟩ => ?_⟩
  · rw [hg]
    exact Nat.sub_eq_zero_of_le (h1 d)
  · rw [s.gain_played_other]
    exact h2 d
  · rw [State.allSilent_iff] at h0
    rcases h with ⟨d, hd⟩ | ⟨d, hd⟩
    · have := (hg d).symm.trans (h0 z d)
      omega
    · exact hd ((s.gain_played_other z d).symm.trans (h0 z.other d))

/-- The starvation rule takes the targets of a PLAYING zone to 0 (R128). -/
theorem State.starved_frame {s : State} {z : ZoneId} (hs : (s.zone z).supply ≠ .ended)
    (hf : s.fill z * 480 - (s.zone z).offset ≤ max (s.gain z .left) (s.gain z .right)) (d : Side) :
    (((s.frame z).oc.get z).side d).target = 0 ∧ (s.frame z).gain z d = s.gain z d - 1 := by
  have hst : s.starving z = true := by
    simp only [State.starving, Bool.and_eq_true, decide_eq_true_eq]
    exact ⟨hs, hf⟩
  have hsil : s.silenced z (s.drawingNow z) = true := by simp [State.silenced, hst]
  obtain ⟨ht, hg⟩ := State.concealed_silenced hsil d
  exact ⟨(s.target_frame z d).trans ht, (s.gain_frame z z d).trans ((s.gain_played z d).trans hg)⟩

/-! ## A run that is decided (R121, R122, R123, R125) -/

/-- With no action pending, the outputs keep what they have drawn. -/
theorem State.oc_frame {s : State} {z : ZoneId} (h : (s.zone z).pendingAny = false) : (s.frame z).oc.get z = s.concealed z := by
  have hi : ((s.drawn z).zone z).pendingAny = false := (s.drawn_after z).idle z h
  rw [s.frame_eq, State.reportZero_idle hi, State.reportSilence_eq]
  exact (congrArg (Pair.get · z) (s.drawn_after z).oc).trans (s.oc_played z)

/-- A run that an unerased sample bounds within the limit is SHORT (R121, R122). -/
theorem State.decideRun_short {s : State} {z : ZoneId} {d : Side} {len : Nat} {v : Sample} (g0 : Int)
    (hl : len ≤ s.params.interpLimit) (he : ∀ n, n < len → ∃ x, s.ahead z d n = some (x, true))
    (hv : s.ahead z d len = some (v, false)) : s.decideRun z d g0 = .short g0 v.toInt len 1 false := by
  simp [State.decideRun, State.lookahead_found hv (n := s.params.interpLimit + 1) (Nat.zero_le len) (by omega) fun m _ => he m]

/-- A run that none bounds is LONG (R121, R123). -/
theorem State.decideRun_long {s : State} {z : ZoneId} {d : Side} (g0 : Int)
    (h : ∀ n v, n ≤ s.params.interpLimit → s.ahead z d n ≠ some (v, false)) : s.decideRun z d g0 = .long g0 := by
  simp [State.decideRun, State.lookahead_none (n := s.params.interpLimit + 1) (k := 0) fun m v _ hm => h m v (by omega)]

/-- A frame drawn at an erased sample in run state NONE, with nothing pending and no fresh start, begins the run decided there. -/
theorem State.run_frame {s : State} {z : ZoneId} {d : Side} {c : Channel} {x : Sample} (hd : s.draws z = true)
    (hp : (s.zone z).pendingAny = false) (hf : (s.oc.get z).fresh = false) (hc : (s.oc.get z).side d = c) (hr : c.run = .none)
    (hx : s.ahead z d 0 = some (x, true)) :
    ∃ hush, ((s.frame z).oc.get z).side d = (c.begin (s.decideRun z d (s.lastValue z c))).envelope hush := by
  subst hc
  obtain ⟨hush, he⟩ := State.concealed_drawn hd hf d
  exact ⟨hush, by rw [State.oc_frame hp, he, State.drawChannel_erased hx hr]⟩

/-- The first sample of a SHORT run takes the first value between its bounds, and ends a run of one sample (R122). -/
theorem Channel.begin_short (c : Channel) (g0 g1 : Int) {len : Nat} (h : 1 ≤ len) : c.begin (.short g0 g1 len 1 false) = { c with
    lastRepaired := g0 + Int.fdiv (2 * (g1 - g0) + ((len : Int) + 1)) (2 * ((len : Int) + 1))
    run := if len = 1 then .none else .short g0 g1 len 2 false } := by
  have hle : len ≤ 1 ↔ len = 1 := by omega
  simp [Channel.begin, Channel.shortStep, interpolate, hle]

/-- Settles O33, clause by clause: what a hear, a pending action, the order of silence, the starvation rule and a decided run make
of the frame event. -/
theorem frameEventsHearAndTakeEffect : Obligations.FrameEventsHearAndTakeEffect := by
  intro s z hp hz
  refine ⟨s.frame z, exec_frameEvent hp hz, ?_⟩
  intro r c h ends
  have hends : ends → s.EndsBlock z := fun ⟨hd, ho, hst, hsk, ha⟩ => ⟨hd, ho, hst, hsk, ha⟩
  refine ⟨fun x hpp h2 => (hends x).hears_on hpp h2 rfl rfl, fun x hpp h1 hs => (hends x).runs_dry hpp h1 hs,
    fun x h1 hs => (hends x).ends_program h1 hs, fun hl hr hw => ?_, State.silence_frame, fun _ hs hf => ?_, fun hd hpa hf d => ?_⟩
  · have hg : ∀ d, s.gain z d ≤ 1 := forall_sides ⟨hl, hr⟩
    refine ⟨fun hst => ?_, fun t hst hsk hlaw => ?_, fun hst hsk hpp => ?_⟩
    · have hsil : s.FallsSilent z := ⟨hg, hw, Zone.pendingAny_iff.2 (.inr (.inl hst))⟩
      obtain ⟨hzone, hchain, hanchor, hcl, hrec⟩ := hsil.stops hst
      obtain ⟨hbs, -, -, -, -, hhead⟩ := hsil.drawn_fields
      have hwz := State.zone_drawn_within hw
      have hfill : (s.drawn z).fill z = s.fill z := congrArg (fun b => (b.chain.get z).length) hbs
      refine ⟨hzone, hchain, hanchor, hcl, fun i x hsel hx => ⟨fun a ha => ?_, fun hf p hres => ?_, fun hf hres a hn => ?_⟩⟩
      · refine hrec i x _ hsel hx ((State.unheard_head (hhead.trans ha)).trans ?_)
        rw [hwz]
        rfl
      · exact hrec i x p hsel hx (State.unheard_resume (hfill.trans hf) (by rw [hwz]; exact hres))
      · exact hrec i x _ hsel hx (State.unheard_next (hfill.trans hf) (by rw [hwz]; exact hres) (by rw [hwz]; exact hn))
    · have hsil : s.FallsSilent z := ⟨hg, hw, Zone.pendingAny_iff.2 (.inr (.inr ⟨t, hsk⟩))⟩
      exact hsil.seeks hst hsk hlaw
    · have hsil : s.FallsSilent z := ⟨hg, hw, Zone.pendingAny_iff.2 (.inl hpp)⟩
      exact hsil.pauses hst hsk hpp
  · obtain ⟨ht, -⟩ := State.starved_frame hs hf .left
    exact ⟨ht, (State.starved_frame hs hf .right).1, fun d => (State.starved_frame hs hf d).2⟩
  · intro chan k k' g0 hrun
    have hk : (s.oc.get z).side d = k := by cases d <;> rfl
    have hk' : ((s.frame z).oc.get z).side d = k' := by cases d <;> rfl
    have hg0 : g0 = s.lastValue z k := (if_congr (s.acrossCut_iff z) rfl rfl).symm
    refine ⟨fun len v h1 hlen he hv => ?_, fun x hx hnone => ?_⟩
    · obtain ⟨x, hx⟩ := he 0 h1
      obtain ⟨hush, hb⟩ := State.run_frame hd hpa hf hk hrun hx
      rw [hk', ← hg0, State.decideRun_short g0 hlen he hv, Channel.begin_short _ _ _ h1] at hb
      rw [hb]
      exact ⟨rfl, rfl, rfl⟩
    · obtain ⟨hush, hb⟩ := State.run_frame hd hpa hf hk hrun hx
      rw [hk', ← hg0, State.decideRun_long g0 hnone] at hb
      rw [hb]
      exact ⟨rfl, rfl, rfl⟩

end Sys2Proof.Machine
end

section
/-! PROOF. Requests to a part that listens (chapters 3 and 11): how each is answered, which zone and which parameter it names; and the
statement on bad zones and ids (O20). -/

namespace Sys2Proof.Machine

/-! ## Requests of a fixed length (R175) -/

namespace State.listening

variable {s t : State} {kind : Byte} {body b : List Byte} {form : Form} {own : State → List Byte → Answer} {r : Reason}

/-- A part that listens answers a request of the required length as its owner does. -/
theorem answers (hs : s.listening) (hn : form.length = some body.length) (hb : body.length ≤ 63) :
    s.request kind body form own =
      .next (State.finish s ((s.asked ⟨kind, body⟩).answer kind (own (s.asked ⟨kind, body⟩) body))) := by
  obtain ⟨hp, hr⟩ := hs
  exact State.request_tested (by rw [hp]; nofun) hr hb (fun _ h => Option.some.inj (hn.symm.trans h)) fun _ => by rw [hp]; nofun

/-- A request of the required length that its owner accepts. -/
theorem accepts (hs : s.listening) (h : own (s.asked ⟨kind, body⟩) body = .accepted t b)
    (hn : form.length = some body.length := by rfl) (hb : body.length ≤ 63 := by exact Nat.le_of_ble_eq_true rfl) :
    s.request kind body form own = .next (State.finish s (t.reply kind b)) := by
  rw [hs.answers hn hb, h]
  rfl

/-- A request of the required length that its owner accepts, with the state `u` that the reply leaves written out. -/
theorem acceptsAs {u : State} (hs : s.listening) (h : own (s.asked ⟨kind, body⟩) body = .accepted t b) (hu : t.reply kind b = u)
    (hn : form.length = some body.length := by rfl) (hb : body.length ≤ 63 := by exact Nat.le_of_ble_eq_true rfl) :
    s.request kind body form own = .next (State.finish s u) := hu ▸ hs.accepts h hn hb

/-- A request of the required length that its owner refuses. -/
theorem refuses (hs : s.listening) (h : own (s.asked ⟨kind, body⟩) body = .rejected r)
    (hn : form.length = some body.length := by rfl) (hb : body.length ≤ 63 := by exact Nat.le_of_ble_eq_true rfl) :
    s.request kind body form own = .next (State.finish s { s with cl := s.afterRefusal ⟨kind, body⟩ r }) := by
  rw [hs.answers hn hb, h]
  rfl

end State.listening

/-! ## The zone that a request names (R45) -/

/-- A zone byte is the code of the zone it names. -/
theorem zoneCode_zoneOf {straps : Straps} {zb : Byte} {z : ZoneId} (h : zoneOf straps zb = some z) : zoneCode z = zb := by
  unfold zoneOf at h
  split at h
  · next h0 =>
    cases h
    exact h0.symm
  · split at h
    · next h1 =>
      cases h
      exact h1.1.symm
    · cases h

/-- A byte above 1 names no zone, and neither does 1 in single-zone strap. -/
theorem zoneOf_bad {straps : Straps} {zb : Byte} (h : 1 < zb.toNat ∨ zb = 1 ∧ straps.singleZone = true) :
    zoneOf straps zb = none := by
  unfold zoneOf
  rcases h with h | ⟨rfl, h⟩
  · rw [if_neg (by rintro rfl; exact absurd h (by decide)), if_neg (by rintro ⟨rfl, -⟩; exact absurd h (by decide))]
  · simp [h]

theorem State.onZone_named {s : State} {zb : Byte} {z : ZoneId} {l : List Byte} {f : ZoneId → Answer}
    (h : zoneOf s.straps zb = some z) : s.onZone (zb :: l) f = f z := by
  simp [State.onZone, bodyAt, h]

theorem State.onZone_bad {s : State} {zb : Byte} {l : List Byte} {f : ZoneId → Answer} (h : zoneOf s.straps zb = none) :
    s.onZone (zb :: l) f = .rejected .badValue := by
  simp [State.onZone, bodyAt, h]

/-! ## The parameter that a request names (R180, R181) -/

/-- An id that CONFIGURE and QUERY-PARAM refuse: outside 1..19, a per-zone id with a bad zone, and id 2 in single-zone strap. -/
def badParam (straps : Straps) (id : Nat) (zone : Byte) : Prop :=
  id = 0 ∨ 19 < id ∨ (id = 3 ∨ id = 4 ∨ id = 5) ∧ zoneOf straps zone = none ∨ id = 2 ∧ straps.singleZone = true

theorem setSingle_bad (p : Params) {id : Nat} (v : Nat) (h : id = 0 ∨ 19 < id) : setSingle p id v = .refused .badValue := by
  unfold setSingle
  split <;> first | omega | rfl

theorem singleParam_bad (p : Params) {id : Nat} (h : id = 0 ∨ 19 < id) : singleParam p id = none := by
  unfold singleParam
  split <;> first | omega | rfl

theorem State.applyParam_bad {s : State} {id : Nat} {zone : Byte} (v : Nat) (h : badParam s.straps id zone) :
    s.applyParam id zone v = .refused .badValue := by
  rcases h with rfl | h | ⟨rfl | rfl | rfl, h⟩ | ⟨rfl, h⟩
  · exact setSingle_bad s.params v (.inl rfl)
  · unfold State.applyParam
    split
    · omega
    · omega
    · omega
    · omega
    · omega
    · exact setSingle_bad _ _ (.inr h)
  all_goals simp [State.applyParam, h]

theorem State.queryParam_bad {s : State} {id : Nat} {zone : Byte} (h : badParam s.straps id zone) : s.queryParam id zone = none := by
  rcases h with rfl | h | ⟨rfl | rfl | rfl, h⟩ | ⟨rfl, h⟩
  · rfl
  · unfold State.queryParam
    split
    · omega
    · omega
    · omega
    · omega
    · omega
    · exact singleParam_bad _ (.inr h)
  all_goals simp [State.queryParam, h]

/-- CONFIGURE of a value that is refused (R180). -/
theorem ownConfigure_refused {s : State} {id zone vh vl : Byte} {r : Reason}
    (h : s.applyParam id.toNat zone (nat2 vh vl) = .refused r) : ownConfigure s [id, zone, vh, vl] = .rejected r := by
  simp [ownConfigure, bodyAt, h]

/-- QUERY-PARAM of a parameter that is refused (R181). -/
theorem ownQueryParam_refused {s : State} {id zone : Byte} (h : s.queryParam id.toNat zone = none) :
    ownQueryParam s [id, zone] = .rejected .badValue := by
  simp [ownQueryParam, bodyAt, h]

/-- Settles O20: a zone request is refused by its first test, and a parameter request by the range of its id. -/
theorem zonesAndParametersAreNamedRight : Obligations.ZonesAndParametersAreNamedRight := by
  refine ⟨fun s zb hs hbad => ?_, fun s id zone vh vl hs hbad => ?_⟩
  · have hz : zoneOf s.straps zb = none := zoneOf_bad hbad
    exact ⟨fun x => hs.refuses (State.onZone_bad hz), fun k a b c => hs.refuses (State.onZone_bad hz),
      hs.refuses (State.onZone_bad hz), hs.refuses (State.onZone_bad hz), hs.refuses (State.onZone_bad hz),
      fun k a b c => hs.refuses (State.onZone_bad hz), hs.refuses (State.onZone_bad hz)⟩
  · have hid : badParam s.straps id.toNat zone := by
      rcases hbad with rfl | h | ⟨rfl | rfl | rfl, h⟩ | ⟨rfl, h⟩
      · exact .inl rfl
      · exact .inr (.inl h)
      · exact .inr (.inr (.inl ⟨.inl rfl, h⟩))
      · exact .inr (.inr (.inl ⟨.inr (.inl rfl), h⟩))
      · exact .inr (.inr (.inl ⟨.inr (.inr rfl), h⟩))
      · exact .inr (.inr (.inr ⟨rfl, h⟩))
    exact ⟨hs.refuses (ownConfigure_refused (State.applyParam_bad _ hid)),
      hs.refuses (ownQueryParam_refused (State.queryParam_bad hid))⟩

end Sys2Proof.Machine
end

section
/-! PROOF. CONFIGURE of thresholds and quotas (chapters 2, 3 and 11): the tests of R39 and R40, case by case, and the value that a
zone's parameter takes (O24). -/

namespace Sys2Proof.Machine

/-! ## When a zone becomes PLAYING (R39, R40) -/

theorem supplyOver_iff {v : Supply} : supplyOver v = true ↔ v = .resync ∨ v = .lost ∨ v = .fault ∨ v = .ended := by
  cases v <;> simp [supplyOver]

/-- A zone has blocks, and no more are coming. -/
def State.lastBlocks (s : State) (z : ZoneId) : Prop :=
  ((s.zone z).supply = .resync ∨ (s.zone z).supply = .lost ∨ (s.zone z).supply = .fault ∨ (s.zone z).supply = .ended) ∧
    1 ≤ s.fill z

theorem State.room_lt_iff (s : State) (z : ZoneId) : s.room z < 32 ↔ s.params.quota.get z < s.fill z + 32 := by
  unfold State.room State.quota
  omega

theorem State.readyToStart_iff (s : State) (z : ZoneId) : s.readyToStart z = true ↔
    s.params.startThr.get z ≤ s.fill z ∨ s.params.quota.get z < s.fill z + 32 ∨ s.lastBlocks z := by
  simp only [State.readyToStart, Bool.or_eq_true, Bool.and_eq_true, decide_eq_true_iff, supplyOver_iff, s.room_lt_iff, or_assoc,
    State.lastBlocks]

theorem State.readyToRestart_iff (s : State) (z : ZoneId) : s.readyToRestart z = true ↔
    (s.zone z).supply = .feeding ∧ (s.params.restartThr.get z ≤ s.fill z ∨ s.params.quota.get z < s.fill z + 32) ∨
      s.lastBlocks z := by
  simp only [State.readyToRestart, Bool.or_eq_true, Bool.and_eq_true, decide_eq_true_iff, supplyOver_iff, s.room_lt_iff,
    State.lastBlocks]

/-- A zone that becomes PLAYING, with its notice (R43, R120). -/
theorem State.becomePlaying_notice (s : State) (z : ZoneId) (b : Bool) (c : ZoneCause) :
    (s.becomePlaying z b).zoneNotice z c = { s with
      zc := s.zc.mod z fun r => { r with play := .playing }
      oc := s.oc.mod z fun c => { c with drawAtOnce := !b }
      cl := s.cl.notice ⟨0x70, [zoneCode z, 2, supplyCode (s.zone z).supply, zoneCauseCode c]⟩ } := by
  cases z <;> rfl

theorem State.testReady_starts {s : State} {z : ZoneId} (hp : (s.zone z).play = .priming) (hr : s.readyToStart z = true) :
    s.testReady z = (s.becomePlaying z true).zoneNotice z .primed := by
  simp [State.testReady, hp, hr]

theorem State.testReady_restarts {s : State} {z : ZoneId} (hp : (s.zone z).play = .starved) (hr : s.readyToRestart z = true) :
    s.testReady z = (s.becomePlaying z false).zoneNotice z .refilled := by
  simp [State.testReady, hp, hr]

theorem State.testReady_stands {s : State} {z : ZoneId} (h1 : ¬ ((s.zone z).play = .priming ∧ s.readyToStart z = true))
    (h2 : ¬ ((s.zone z).play = .starved ∧ s.readyToRestart z = true)) : s.testReady z = s := by
  unfold State.testReady
  split
  · next hp => exact if_neg fun hr => h1 ⟨hp, hr⟩
  · next hp => exact if_neg fun hr => h2 ⟨hp, hr⟩
  · rfl
  · rfl
  · rfl

theorem State.testReady_stopped {s : State} {z : ZoneId} (h : (s.zone z).play = .stopped) : s.testReady z = s :=
  State.testReady_stands (fun ⟨hp, _⟩ => by simp [h] at hp) fun ⟨hp, _⟩ => by simp [h] at hp

/-! ## What CONFIGURE applies (R32, R37, R180) -/

/-- CONFIGURE of a quota or a threshold tests R39 and R40 again at once. -/
theorem ownConfigure_applied {s : State} {id zone vh vl : Byte} {p : Params} {w : Nat} (hid : id.toNat ≤ 5)
    (h : s.applyParam id.toNat zone (nat2 vh vl) = .applied p w) : ownConfigure s [id, zone, vh, vl] =
      .accepted (((s.modParams fun _ => p).testReady .a).testReady .b) ([id, zone] ++ be2 w) := by
  simp [ownConfigure, bodyAt, h, hid]

/-- With both zones STOPPED, R39 and R40 change nothing. -/
theorem ownConfigure_stopped {s : State} {id zone vh vl : Byte} {p : Params} {w : Nat} (hid : id.toNat ≤ 5)
    (h : s.applyParam id.toNat zone (nat2 vh vl) = .applied p w) (ha : (s.zone .a).play = .stopped)
    (hb : (s.zone .b).play = .stopped) :
    ownConfigure s [id, zone, vh, vl] = .accepted (s.modParams fun _ => p) ([id, zone] ++ be2 w) := by
  have h1 : (s.modParams fun _ => p).testReady .a = s.modParams fun _ => p := State.testReady_stopped ha
  have h2 : (s.modParams fun _ => p).testReady .b = s.modParams fun _ => p := State.testReady_stopped hb
  rw [ownConfigure_applied hid h, h1, h2]

/-- A threshold of the zone named (R37). -/
theorem State.applyParam_threshold {s : State} {id : Nat} {zone : Byte} {z : ZoneId} {v : Nat} (hz : zoneOf s.straps zone = some z)
    (hid : id = 3 ∨ id = 4 ∨ id = 5) : s.applyParam id zone v = setThreshold s.params id z v := by
  rcases hid with rfl | rfl | rfl <;> simp [State.applyParam, hz]

/-- The id of a zone's quota. -/
def quotaId (z : ZoneId) : Byte := if z = .a then 1 else 2

/-- What the other zone's quota counts for in the sum of R32. -/
def State.otherQuota (s : State) (z : ZoneId) : Nat := if s.straps.singleZone then 0 else s.params.quota.get z.other

theorem State.applyParam_quota {s : State} {z : ZoneId} (zone : Byte) (v : Nat) (hz : z = .b → s.straps.singleZone = false) :
    s.applyParam (quotaId z).toNat zone v = s.applyQuota z (s.otherQuota z) v := by
  cases z with
  | a => rfl
  | b => simp [State.applyParam, quotaId, State.otherQuota, hz rfl, ZoneId.other, Pair.get]

section

variable {s : State} {z : ZoneId} {other v : Nat}

theorem State.applyQuota_sounding (h : (s.zone .a).play ≠ .stopped ∨ (s.zone .b).play ≠ .stopped) :
    s.applyQuota z other v = .refused .wrongState := if_pos h

theorem State.applyQuota_tooMuch (ha : (s.zone .a).play = .stopped) (hb : (s.zone .b).play = .stopped)
    (h : 4092 < clampTo 64 4028 v + other) : s.applyQuota z other v = .refused .badValue :=
  (if_neg fun hp => hp.elim (· ha) (· hb)).trans (if_pos h)

theorem State.applyQuota_fits (ha : (s.zone .a).play = .stopped) (hb : (s.zone .b).play = .stopped)
    (h : clampTo 64 4028 v + other ≤ 4092) :
    s.applyQuota z other v = .applied (setQuota s.params z (clampTo 64 4028 v)) (clampTo 64 4028 v) :=
  (if_neg fun hp => hp.elim (· ha) (· hb)).trans (if_neg (Nat.not_lt.2 h))

end

/-- A quota that is taken, with the zone's thresholds clamped to their ranges for it (R32, R37). -/
theorem setQuota_eq (p : Params) (z : ZoneId) (w : Nat) : setQuota p z w = { p with
    quota := p.quota.set z w
    lowWater := p.lowWater.mod z fun x => max 50 (min (max 50 (w - 64)) x)
    startThr := p.startThr.mod z fun x => max 10 (min w x)
    restartThr := p.restartThr.mod z fun x => max 10 (min w x) } := by
  cases z <;> rfl

/-- Settles O24: a threshold is applied to the zone named, R39 and R40 are tested by cases, and a quota passes its tests in turn. -/
theorem configureSetsAZonesParameters : Obligations.ConfigureSetsAZonesParameters := by
  refine ⟨fun s zone vh vl z hs hz => ?_, fun s z => ?_, fun s zone vh vl z hs hb => ?_⟩
  · intro q v low thr done
    have happly (id : Byte) (hid : id.toNat = 3 ∨ id.toNat = 4 ∨ id.toNat = 5) :
        (s.asked ⟨0x03, [id, zone, vh, vl]⟩).applyParam id.toNat zone v = setThreshold s.params id.toNat z v :=
      State.applyParam_threshold hz hid
    exact ⟨hs.accepts (ownConfigure_applied (by decide) (happly 3 (.inl rfl))),
      hs.accepts (ownConfigure_applied (by decide) (happly 4 (.inr (.inl rfl)))),
      hs.accepts (ownConfigure_applied (by decide) (happly 5 (.inr (.inr rfl))))⟩
  · intro spent full starts again plays
    have hstart : starts ↔ (s.zone z).play = .priming ∧ s.readyToStart z = true := and_congr_right' (s.readyToStart_iff z).symm
    have hagain : again ↔ (s.zone z).play = .starved ∧ s.readyToRestart z = true := and_congr_right' (s.readyToRestart_iff z).symm
    refine ⟨fun h => ?_, fun h => ?_, fun h1 h2 => State.testReady_stands (h1 ∘ hstart.2) (h2 ∘ hagain.2)⟩
    · obtain ⟨hp, hr⟩ := hstart.1 h
      exact (State.testReady_starts hp hr).trans (s.becomePlaying_notice z true .primed)
    · obtain ⟨hp, hr⟩ := hagain.1 h
      exact (State.testReady_restarts hp hr).trans (s.becomePlaying_notice z false .refilled)
  · intro id w other p
    have happly : (s.asked ⟨0x03, [id, zone, vh, vl]⟩).applyParam id.toNat zone (nat2 vh vl) =
        (s.asked ⟨0x03, [id, zone, vh, vl]⟩).applyQuota z other (nat2 vh vl) := State.applyParam_quota zone _ hb
    refine ⟨fun h => ?_, fun ha hb hlt => ?_, fun ha hb hle => ?_⟩
    · exact hs.refuses (ownConfigure_refused (happly.trans (State.applyQuota_sounding h)))
    · exact hs.refuses (ownConfigure_refused (happly.trans (State.applyQuota_tooMuch ha hb hlt)))
    · have hid : id.toNat ≤ 5 := by cases z <;> decide
      have hp : setQuota s.params z w = p := setQuota_eq s.params z w
      have hfit : (s.asked ⟨0x03, [id, zone, vh, vl]⟩).applyQuota z other (nat2 vh vl) = .applied p w :=
        hp ▸ State.applyQuota_fits ha hb hle
      exact hs.acceptsAs (ownConfigure_stopped hid (happly.trans hfit) ha hb) rfl

end Sys2Proof.Machine
end

section
/-! PROOF. SELECT, PLAY, PAUSE and RESUME (chapter 3): what each makes of a zone, and what it refuses (O27, O28, O29). -/

namespace Sys2Proof.Machine

/-! ## SELECT (R46) -/

section

variable {s : State} {z : ZoneId} {slot : Nat}

theorem State.select_noSlot (h : slot ∉ magazineSlots s.straps) : s.select z slot = .rejected .badValue := by
  simp [State.select, h]

theorem State.select_wrongState (h : slot ∈ magazineSlots s.straps) (hw : (s.zone z).play ≠ .stopped ∨ s.dd.inSlot slot = none) :
    s.select z slot = .rejected .wrongState := by
  by_cases hp : (s.zone z).play = .stopped
  · simp [State.select, h, hp, hw.resolve_left (· hp)]
  · simp [State.select, h, hp]

theorem State.select_accepted {i : Nat} {r : DiscRecord} (h : slot ∈ magazineSlots s.straps) (hp : (s.zone z).play = .stopped)
    (hi : s.dd.inSlot slot = some i) (hr : s.record i = some r) : s.select z slot =
      .accepted (s.modZone z fun x => { x with selected := some i }) (selectBody (zoneCode z) i r) := by
  simp [State.select, h, hp, hi, hr]

end

/-- The record found in a slot is PRESENT, and in that slot. -/
theorem Directory.inSlot_spec {d : Directory} {slot i : Nat} {r : DiscRecord} (h : d.inSlot slot = some i)
    (hr : d.records[i]? = some r) : r.state = .present ∧ r.slot = some slot := by
  obtain ⟨hi, hp, -⟩ := List.findIdx?_eq_some_iff_getElem.1 h
  obtain ⟨_, rfl⟩ := List.getElem?_eq_some_iff.1 hr
  simpa using hp

/-- Settles O27: by the tests of SELECT, in their order. -/
theorem selectChoosesTheRecordInASlot : Obligations.SelectChoosesTheRecordInASlot := by
  intro s zb slot z hs hz
  have hcode : zoneCode z = zb := zoneCode_zoneOf hz
  refine ⟨fun h => ?_, fun h hw => ?_, fun i r h hp hi hr => ?_⟩
  · exact hs.refuses ((State.onZone_named hz).trans (State.select_noSlot h))
  · exact hs.refuses ((State.onZone_named hz).trans (State.select_wrongState h hw))
  · obtain ⟨hpresent, hslot⟩ := Directory.inSlot_spec hi hr
    refine ⟨hpresent, hslot, ?_⟩
    subst hcode
    exact hs.acceptsAs ((State.onZone_named hz).trans (State.select_accepted h hp hi hr)) rfl

/-! ## PLAY (R47) -/

section

variable {s : State} {z : ZoneId}

/-- The start of a track of the disc. -/
theorem State.startPoint_track {n : Nat} (h1 : 1 ≤ n) (h2 : n ≤ (s.tracks z).length) :
    s.startPoint z 1 n = some ⟨startOf (s.tracks z) n, 0⟩ := if_pos ⟨h1, h2⟩

/-- A track outside the disc. -/
theorem State.startPoint_noTrack {n : Nat} (h : n = 0 ∨ (s.tracks z).length < n) : s.startPoint z 1 n = none :=
  if_neg fun ⟨h1, h2⟩ => by omega

theorem State.clampAddr_within {a : Nat} (h : a ≤ s.programEnd z) : s.clampAddr z a = a := if_neg (Nat.not_lt.2 h)

theorem State.clampAddr_beyond {a : Nat} (h : s.programEnd z < a) : s.clampAddr z a = lastStart (s.tracks z) := if_pos h

/-- The resume point of the record, within the disc. -/
theorem State.startPoint_resume {v : Nat} {p : ResumePt} (h : (s.selRec z).bind (·.resume) = some p)
    (hp : p.addr ≤ s.programEnd z) : s.startPoint z 3 v = some p := by
  simp [State.startPoint, h, Nat.not_lt.2 hp]

/-- A record without a resume point starts at track 1. -/
theorem State.startPoint_noResume {v : Nat} (h : (s.selRec z).bind (·.resume) = none) :
    s.startPoint z 3 v = some ⟨startOf (s.tracks z) 1, 0⟩ := by
  simp [State.startPoint, h]

variable {zb kind v2 v1 v0 : Byte}

theorem ownPlay_badKind (hz : zoneOf s.straps zb = some z) (h : kind.toNat < 1 ∨ 3 < kind.toNat) :
    ownPlay s [zb, kind, v2, v1, v0] = .rejected .badValue := (State.onZone_named hz).trans (if_pos h)

theorem ownPlay_wrongState (hz : zoneOf s.straps zb = some z) (h1 : 1 ≤ kind.toNat) (h3 : kind.toNat ≤ 3)
    (h : (s.zone z).play ≠ .stopped ∨ s.selPresent z = false) : ownPlay s [zb, kind, v2, v1, v0] = .rejected .wrongState :=
  (State.onZone_named hz).trans ((if_neg (show ¬ (kind.toNat < 1 ∨ 3 < kind.toNat) by omega)).trans (if_pos h))

/-- A PLAY that meets its state conditions goes by its start point. -/
theorem ownPlay_ready (hz : zoneOf s.straps zb = some z) (h1 : 1 ≤ kind.toNat) (h3 : kind.toNat ≤ 3)
    (hp : (s.zone z).play = .stopped) (hr : s.selPresent z = true) : ownPlay s [zb, kind, v2, v1, v0] =
      match s.startPoint z kind.toNat (nat3 v2 v1 v0) with
      | none => .rejected .badValue
      | some p => .accepted (s.startZone z p)
        ([zoneCode z] ++ be3 p.addr ++ be2 p.offset ++ [byte (trackOf (s.tracks z) p.addr)]) :=
  (State.onZone_named hz).trans ((if_neg (show ¬ (kind.toNat < 1 ∨ 3 < kind.toNat) by omega)).trans
    (if_neg (show ¬ ((s.zone z).play ≠ .stopped ∨ s.selPresent z = false) by simp [hp, hr])))

theorem ownPlay_noPoint (hz : zoneOf s.straps zb = some z) (h1 : 1 ≤ kind.toNat) (h3 : kind.toNat ≤ 3)
    (hp : (s.zone z).play = .stopped) (hr : s.selPresent z = true)
    (h : s.startPoint z kind.toNat (nat3 v2 v1 v0) = none) : ownPlay s [zb, kind, v2, v1, v0] = .rejected .badValue := by
  rw [ownPlay_ready hz h1 h3 hp hr, h]

theorem ownPlay_starts {p : ResumePt} (hz : zoneOf s.straps zb = some z) (h1 : 1 ≤ kind.toNat) (h3 : kind.toNat ≤ 3)
    (hp : (s.zone z).play = .stopped) (hr : s.selPresent z = true)
    (h : s.startPoint z kind.toNat (nat3 v2 v1 v0) = some p) : ownPlay s [zb, kind, v2, v1, v0] =
      .accepted (s.startZone z p)
        ([zb] ++ be3 p.addr ++ be2 p.offset ++ [byte (trackOf (s.tracks z) p.addr)]) := by
  rw [ownPlay_ready hz h1 h3 hp hr, h, zoneCode_zoneOf hz]

end

/-- A zone that starts at `p` (R47, R120). -/
theorem State.startZone_eq (s : State) (z : ZoneId) (p : ResumePt) : s.startZone z p = { s with
    zc := s.zc.mod z fun x => { x with
      play := .priming, supply := .feeding, nextRead := some p.addr, offset := p.offset, resume := some p
      track := trackOf (s.tracks z) p.addr }
    oc := s.oc.mod z fun c => { c with fresh := true } } := by
  cases z <;> rfl

/-- Settles O28: by the start point, and by the tests of PLAY in their order. -/
theorem playPrimesAZone : Obligations.PlayPrimesAZone := by
  refine ⟨fun s zb kind v2 v1 v0 z p hs hz h1 h3 hp hr hpt => ?_, fun s z => ?_⟩
  · refine hs.acceptsAs (ownPlay_starts hz h1 h3 hp hr hpt) ?_
    rw [State.startZone_eq]
    rfl
  · refine ⟨fun n h1 h2 => State.startPoint_track h1 h2, fun a ha => ?_, fun a ha => ?_,
      fun v p hp hle => State.startPoint_resume hp hle, fun v hn => State.startPoint_noResume hn,
      fun zb kind v2 v1 v0 hs hz => ⟨fun h => ?_, fun h1 h3 h => ?_, fun hk hp hr h => ?_⟩⟩
    · exact congrArg (fun x => some (⟨x, 0⟩ : ResumePt)) (State.clampAddr_within ha)
    · exact congrArg (fun x => some (⟨x, 0⟩ : ResumePt)) (State.clampAddr_beyond ha)
    · exact hs.refuses (ownPlay_badKind hz h)
    · exact hs.refuses (ownPlay_wrongState hz h1 h3 h)
    · subst hk
      exact hs.refuses (ownPlay_noPoint hz (by decide) (by decide) hp hr (State.startPoint_noTrack h))

/-! ## PAUSE and RESUME (R48, R49) -/

section

variable {s : State} {z : ZoneId}

theorem State.pause_refused (h : (s.zone z).stopPending = true ∨ (s.zone z).play = .paused ∨ (s.zone z).play = .stopped) :
    s.pause z = none := by
  unfold State.pause
  split
  · rfl
  · next hs =>
    rcases h.resolve_left hs with h | h <;> rw [h]

/-- The change that PAUSE makes to a zone that is not PLAYING. -/
theorem State.pause_silent (hs : (s.zone z).stopPending = false) (h : (s.zone z).play = .priming ∨ (s.zone z).play = .starved) :
    s.pause z = some (s.modZone z fun r => { r with play := .paused }) := by
  rcases h with h | h <;> simp [State.pause, hs, h]

/-- A PAUSE of a zone with the mark set changes nothing. -/
theorem State.pause_again (hs : (s.zone z).stopPending = false) (hp : (s.zone z).play = .playing)
    (hm : (s.zone z).pausePending = true) : s.pause z = some s := by
  simp [State.pause, hs, hp, State.pausePlaying, hm]

/-- A PAUSE of a zone that sounds sets the mark. -/
theorem State.pause_sounding (hs : (s.zone z).stopPending = false) (hp : (s.zone z).play = .playing)
    (hm : (s.zone z).pausePending = false) (ha : s.audible z = true) :
    s.pause z = some (s.modZone z fun r => { r with pausePending := true }) := by
  have he : (s.modZone z fun r => { r with pausePending := true }).effectIfSilent z = _ := if_pos ha
  simp [State.pause, hs, hp, State.pausePlaying, hm, he]

/-- A PAUSE of a silent zone takes effect at once. -/
theorem State.pause_atOnce (hs : (s.zone z).stopPending = false) (hp : (s.zone z).play = .playing)
    (hm : (s.zone z).pausePending = false) (ha : s.audible z = false) (hk : (s.zone z).seekPending = none) :
    s.pause z = some (s.modZone z fun r => { r with play := .paused, pausePending := false }) := by
  have he : (s.modZone z fun r => { r with pausePending := true }).effectIfSilent z =
      (s.modZone z fun r => { r with pausePending := true }).pendingEffect z := if_neg (ne_true_of_eq_false ha)
  have hz : (s.modZone z fun r => { r with pausePending := true }).pendingEffect z =
      s.modZone z fun r => { r with play := .paused, pausePending := false } := by
    simp only [State.pendingEffect, State.zone_modZone, hs, hk, if_true, Bool.false_eq_true, if_false]
    cases z <;> rfl
  simp [State.pause, hs, hp, State.pausePlaying, hm, he, hz]

variable {zb : Byte}

theorem ownPause_refused (hz : zoneOf s.straps zb = some z) (h : s.pause z = none) :
    ownPause s [zb] = .rejected .wrongState := by
  rw [ownPause, State.onZone_named hz, h]

/-- An accepted PAUSE that leaves zone record `r`. -/
theorem ownPause_accepted {t : State} {r : Zone} (hz : zoneOf s.straps zb = some z) (h : s.pause z = some t) (hr : t.zone z = r) :
    ownPause s [zb] = .accepted t [zb, playCode r.play, r.pendingCode] := by
  simp only [ownPause, State.onZone_named hz, h, State.pendingBody, hr, zoneCode_zoneOf hz]

theorem ownResume_refused (hz : zoneOf s.straps zb = some z) (h : (s.zone z).play ≠ .paused) :
    ownResume s [zb] = .rejected .wrongState := (State.onZone_named hz).trans (if_pos h)

/-- RESUME of a zone that is ready. -/
theorem ownResume_ready (hz : zoneOf s.straps zb = some z) (hp : (s.zone z).play = .paused) (hr : s.readyToStart z = true) :
    ownResume s [zb] = .accepted (s.becomePlaying z false) [zb, 2] := by
  have hu : s.unpause z = s.becomePlaying z false := if_pos hr
  have hz' : ((s.becomePlaying z false).zone z).play = .playing := congrArg Zone.play (State.zone_modZone s z _)
  simp only [ownResume, State.onZone_named hz, if_neg (not_not.2 hp), hu, zoneCode_zoneOf hz, hz', playCode]

/-- RESUME of a zone that is not. -/
theorem ownResume_waits (hz : zoneOf s.straps zb = some z) (hp : (s.zone z).play = .paused) (hr : s.readyToStart z = false) :
    ownResume s [zb] = .accepted (s.modZone z fun r => { r with play := .priming }) [zb, 1] := by
  have hu : s.unpause z = s.modZone z fun r => { r with play := .priming } := if_neg (ne_true_of_eq_false hr)
  simp only [ownResume, State.onZone_named hz, if_neg (not_not.2 hp), hu, zoneCode_zoneOf hz, State.zone_modZone, playCode]

end

theorem Zone.pendingCode_pause {r : Zone} (hs : r.stopPending = false) (hp : r.pausePending = true) :
    r.pendingCode = if r.seekPending.isSome then 3 else 1 := by
  cases h : r.seekPending <;> simp [Zone.pendingCode, hs, hp, h]

theorem Zone.pendingCode_none {r : Zone} (hs : r.stopPending = false) (hp : r.pausePending = false) (hk : r.seekPending = none) :
    r.pendingCode = 0 := by
  simp [Zone.pendingCode, hs, hp, hk]

/-- Settles O29: PAUSE by the play state and by whether the zone sounds, RESUME by whether the zone is ready. -/
theorem pauseAndResumeByThePlayState : Obligations.PauseAndResumeByThePlayState := by
  refine ⟨fun s zb z hs hz => ⟨fun h => ?_, fun hst => ⟨fun hp hm ha => ?_, fun hp hm ha hk => ?_, fun hp hm => ?_, fun hp => ?_⟩⟩,
    fun s zb z hs hz => ⟨fun h => ?_, fun hp hr => ?_, fun hp hr => ?_⟩⟩
  · exact hs.refuses (ownPause_refused hz (State.pause_refused h))
  · rw [← Zone.pendingCode_pause (r := { s.zone z with pausePending := true }) hst rfl, show (2 : Byte) = playCode .playing from rfl,
      ← hp]
    exact hs.acceptsAs (ownPause_accepted hz (State.pause_sounding hst hp hm ha) (State.zone_modZone _ z _)) rfl
  · rw [← Zone.pendingCode_none (r := { s.zone z with play := .paused, pausePending := false }) hst rfl hk]
    exact hs.acceptsAs (ownPause_accepted hz (State.pause_atOnce hst hp hm ha hk) (State.zone_modZone _ z _)) rfl
  · rw [← Zone.pendingCode_pause (r := s.zone z) hst hm, show (2 : Byte) = playCode .playing from rfl, ← hp]
    exact hs.acceptsAs (ownPause_accepted hz (State.pause_again hst hp hm) rfl) rfl
  · exact hs.acceptsAs (ownPause_accepted hz (State.pause_silent hst hp) (State.zone_modZone _ z _)) rfl
  · exact hs.refuses (ownResume_refused hz h)
  · exact hs.acceptsAs (ownResume_ready hz hp hr) rfl
  · exact hs.acceptsAs (ownResume_waits hz hp hr) rfl

end Sys2Proof.Machine
end

section
/-! PROOF. A zone that stops or seeks (chapters 2 to 7): the claim that is closed for it, the flush that follows, and what it leaves of
the other zone; and STOP (O30). -/

namespace Sys2Proof.Machine

theorem Pair.set_get {α : Type} (p : Pair α) (z : ZoneId) : p.set z (p.get z) = p := by cases z <;> rfl

/-! ## The claim of a zone is closed (R70, R71) -/

/-- From `s` to `t` no more has changed than the drive, the tag, the slot timer and the link-up context of zone `z`: what the end of
a claim of zone `z` changes. -/
def ClaimClosed (z : ZoneId) (s t : State) : Prop :=
  ∃ da bi lm c, t = { s with da := da, bi := bi, lm := lm, lu := { s.lu with ctx := s.lu.ctx.set z c } }

namespace ClaimClosed

variable {s t u : State} {z : ZoneId}

theorem refl (z : ZoneId) (s : State) : ClaimClosed z s s := ⟨s.da, s.bi, s.lm, s.lu.ctx.get z, by rw [Pair.set_get]⟩

theorem trans (h : ClaimClosed z s t) (k : ClaimClosed z t u) : ClaimClosed z s u := by
  obtain ⟨_, _, _, _, rfl⟩ := h
  obtain ⟨da, bi, lm, c, rfl⟩ := k
  exact ⟨da, bi, lm, c, by simp only [Pair.set_set]⟩

theorem modDa {f : Drive → Drive} (h : ClaimClosed z s t) : ClaimClosed z s (t.modDa f) :=
  h.trans ⟨f t.da, t.bi, t.lm, t.lu.ctx.get z, by rw [Pair.set_get]; rfl⟩

theorem modBi {f : Intake → Intake} (h : ClaimClosed z s t) : ClaimClosed z s (t.modBi f) :=
  h.trans ⟨t.da, f t.bi, t.lm, t.lu.ctx.get z, by rw [Pair.set_get]; rfl⟩

theorem modLm {f : Loader → Loader} (h : ClaimClosed z s t) : ClaimClosed z s (t.modLm f) :=
  h.trans ⟨t.da, t.bi, f t.lm, t.lu.ctx.get z, by rw [Pair.set_get]; rfl⟩

theorem ctxWait (h : ClaimClosed z s t) : ClaimClosed z s (t.ctxWait z) := by
  unfold State.ctxWait
  split
  · exact h.trans ⟨t.da, t.bi, t.lm, _, rfl⟩
  · exact h

theorem markClaim {c : Claim} {st : Standing} (hc : c.zone = some z) (h : ClaimClosed z s t) :
    ClaimClosed z s (t.markClaim c st) := by
  have h1 : ClaimClosed z s ((t.modDa fun d => { d with claim := some { c with standing := st }, blockTimer := .stopped }).modBi
      fun b => b.close st) := h.modDa.modBi
  unfold State.markClaim
  dsimp only
  split
  · exact h1.modLm
  · next w _ hw =>
    obtain rfl : w = z := Option.some.inj (hw.symm.trans hc)
    split
    · exact h1.ctxWait
    · exact h1
  · next w _ hw =>
    obtain rfl : w = z := Option.some.inj (hw.symm.trans hc)
    split
    · exact h1.ctxWait
    · exact h1
  · exact h1

theorem releasePickup (h : ClaimClosed z s t) : ClaimClosed z s t.releasePickup := by
  unfold State.releasePickup
  split
  · exact h
  · split
    · exact h.modDa.modDa
    · exact h.modDa

theorem closeZoneClaim {st : Standing} (h : ClaimClosed z s t) : ClaimClosed z s (t.closeZoneClaim z st) := by
  unfold State.closeZoneClaim
  split
  · next ho =>
    unfold State.closeClaim
    split
    · next c hc =>
      have hz : c.zone = some z := by simpa [State.ownsClaim, hc] using ho
      split
      · exact h
      · exact (h.markClaim hz).releasePickup
    · exact h
  · exact h

end ClaimClosed

/-- The claim of a zone is closed: the drive, the tag, the loader and the zone's context alone change. -/
theorem State.closeZoneClaim_eq (s : State) (z : ZoneId) (st : Standing) : ∃ c, s.closeZoneClaim z st = { s with
    da := (s.closeZoneClaim z st).da, bi := (s.closeZoneClaim z st).bi, lm := (s.closeZoneClaim z st).lm
    lu := { s.lu with ctx := s.lu.ctx.set z c } } := by
  obtain ⟨_, _, _, c, h⟩ := (ClaimClosed.refl z s).closeZoneClaim (st := st)
  exact ⟨c, by rw [h]⟩

theorem State.closeZoneClaim_none {s : State} {z : ZoneId} {st : Standing} (h : s.ownsClaim z = false) :
    s.closeZoneClaim z st = s := if_neg (ne_true_of_eq_false h)

theorem State.da_markClaim (s : State) (c : Claim) (st : Standing) :
    (s.markClaim c st).da = { s.da with claim := some { c with standing := st }, blockTimer := .stopped } := by
  have hw (t : State) (z : ZoneId) : (t.ctxWait z).da = t.da := by
    unfold State.ctxWait
    split <;> rfl
  unfold State.markClaim
  dsimp only
  split
  · rfl
  · split
    · exact hw _ _
    · rfl
  · split
    · exact hw _ _
    · rfl
  · rfl

/-- The LIVE claim is the current claim. -/
theorem State.claim_of_liveClaim {s : State} {c : Claim} (h : s.liveClaim = some c) : s.da.claim = some c := by
  unfold State.liveClaim at h
  split at h
  · next hc =>
    split at h
    · exact hc.trans h
    · cases h
  · cases h

/-- A claim that is marked with a final standing is LIVE no more. -/
theorem State.liveClaim_marked (s : State) (c : Claim) {st : Standing} (hst : st ≠ .live) :
    (s.markClaim c st).releasePickup.liveClaim = none := by
  have hda := s.da_markClaim c st
  unfold State.releasePickup
  split
  · simp [State.liveClaim, hda, hst]
  · split <;> rfl

/-- After the claim of a zone is closed, a LIVE claim is a hold, or another zone's (R38). -/
theorem State.liveClaim_closeZoneClaim {s : State} {z : ZoneId} {st : Standing} (hst : st ≠ .live) {c : Claim}
    (h : (s.closeZoneClaim z st).liveClaim = some c) :
    s.liveClaim = some c ∧ (s.ownsClaim z = true → c.kind = .hold) := by
  by_cases ho : s.ownsClaim z = true
  · rw [State.closeZoneClaim, if_pos ho, State.closeClaim] at h
    split at h
    · next c0 hc =>
      split at h
      · next hh =>
        have hcc : c0 = c := Option.some.inj (hc.symm.trans h)
        exact ⟨h, fun _ => hcc ▸ hh⟩
      · rw [State.liveClaim_marked _ _ hst] at h
        cases h
    · next hc =>
      rw [hc] at h
      cases h
  · rw [State.closeZoneClaim, if_neg ho] at h
    exact ⟨h, fun hx => absurd hx ho⟩

/-! ## A flush that ends no claim (R31, R115) -/

/-- No re-read of zone `z` is under way. -/
def State.notRereading (s : State) (z : ZoneId) : Prop := ∀ c, s.liveClaim = some c → ¬ (c.kind = .reread ∧ c.zone = some z)

theorem State.notRereading_closeZoneClaim (s : State) (z : ZoneId) {st : Standing} (hst : st ≠ .live) :
    (s.closeZoneClaim z st).notRereading z := fun c hc ⟨hk, hz⟩ => by
  obtain ⟨hl, hh⟩ := State.liveClaim_closeZoneClaim hst hc
  have ho : s.ownsClaim z = true := by simp [State.ownsClaim, hl, hz]
  rw [hh ho] at hk
  cases hk

theorem State.dropEntriesFrom_quiet {s : State} {z : ZoneId} (a : Nat) (h : s.notRereading z) :
    s.dropEntriesFrom z a = s.modList z fun l => l.filter fun e => decide (e.addr < a) := by
  unfold State.dropEntriesFrom
  dsimp only
  split
  · next c hc => exact if_neg fun ⟨hk, hz, _⟩ => h c hc ⟨hk, hz⟩
  · rfl

/-- Zone `z` flushed: its blocks are released, its list is emptied, its context and audit target are dropped, and its decided runs
end (R31, R79, R96, R115, R125). -/
def State.flushed (s : State) (z : ZoneId) : State := { s with
  bs := s.bs.flush z
  lu := { s.lu with
    ctx := s.lu.ctx.set z none, audit := s.lu.audit.mod z fun u => { u with commits := 0, start := none, target := none } }
  ru := { s.ru with lists := s.ru.lists.set z [] }
  oc := s.oc.mod z Concealer.flushed }

theorem State.flushZone_quiet {s : State} {z : ZoneId} (h : s.notRereading z) : s.flushZone z = s.flushed z := by
  have hl : (fun l : List Entry => l.filter fun e => decide (e.addr < 0)) = fun _ => [] := by
    funext l
    simp
  have hd : (s.modBs fun st => st.flush z).dropEntriesFrom z 0 = (s.modBs fun st => st.flush z).modList z fun _ => [] := by
    rw [← hl]
    exact State.dropEntriesFrom_quiet 0 h
  unfold State.flushZone
  rw [hd]
  rfl

/-- A flush leaves the other zone's chain and anchor, and the block memory. -/
theorem Store.flush_other (st : Store) (z : ZoneId) : (st.flush z).chain.get z.other = st.chain.get z.other ∧
    (st.flush z).anchor.get z.other = st.anchor.get z.other ∧ (st.flush z).mem = st.mem := by
  obtain ⟨hc, ha, -, hm⟩ := st.releaseAll_fields (st.chainOf z)
  have hr (u : Store) : (u.releaseAnchor z).anchor.get z.other = u.anchor.get z.other := by
    unfold Store.releaseAnchor
    split
    · rfl
    · exact Pair.get_set_other _ _ _
  obtain ⟨hac, -, ham, -⟩ := Store.releaseAnchor_fields
    { st.releaseAll (st.chainOf z) with chain := (st.releaseAll (st.chainOf z)).chain.set z ⟨0, 0, 0⟩ } z
  refine ⟨?_, (hr _).trans (congrArg (Pair.get · z.other) ha), ham.trans hm⟩
  refine (congrArg (Pair.get · z.other) hac).trans ((Pair.get_set_other _ _ _).trans ?_)
  exact congrArg (Pair.get · z.other) hc

/-! ## A stop (R53) -/

/-- The zone record of a zone that is to stop when it has faded. -/
def Zone.stopping (r : Zone) : Zone := { r with supply := .idle, stopPending := true, pausePending := false, seekPending := none }

/-- Zone `z` stopped at once: flushed, its next unheard frame written into the selected record, its record and audit history
cleared. -/
def State.stoppedNow (s : State) (z : ZoneId) : State := { s.flushed z with
  da := (s.closeZoneClaim z .cancelled).da, bi := (s.closeZoneClaim z .cancelled).bi, lm := (s.closeZoneClaim z .cancelled).lm
  zc := s.zc.mod z fun r => { Zone.cold with selected := r.selected }
  dd := (s.writeResume z (s.unheard z)).dd
  lu := { s.lu with ctx := s.lu.ctx.set z none, audit := s.lu.audit.set z ⟨0, none, none, 0, false⟩ } }

/-- Zone `z`, which sounds, with its stop pending. -/
def State.stoppedLater (s : State) (z : ZoneId) : State := { s with
  da := (s.closeZoneClaim z .cancelled).da, bi := (s.closeZoneClaim z .cancelled).bi, lm := (s.closeZoneClaim z .cancelled).lm
  zc := s.zc.mod z Zone.stopping
  lu := { s.lu with ctx := s.lu.ctx.set z none } }

theorem State.stopEffect_quiet {s : State} {z : ZoneId} (h : s.notRereading z) : s.stopEffect z = { s.flushed z with
    zc := s.zc.mod z Zone.halted
    dd := (s.writeResume z (s.unheard z)).dd
    lu := { s.lu with ctx := s.lu.ctx.set z none, audit := s.lu.audit.set z ⟨0, none, none, 0, false⟩ } } := by
  have hf : (s.writeResume z (s.unheard z)).flushZone z = (s.writeResume z (s.unheard z)).flushed z := by
    refine State.flushZone_quiet ?_
    rw [s.writeResume_eq]
    exact h
  unfold State.stopEffect
  rw [hf, s.writeResume_eq]
  cases z <;> rfl

section

variable {s : State} {z : ZoneId}

/-- Before it takes effect, a stop has closed the zone's claim, and made the zone IDLE with the stop pending. -/
theorem State.beginStop_eq (h : (s.zone z).stopPending = false) : s.beginStop z = (s.stoppedLater z).effectIfSilent z := by
  obtain ⟨c, hc⟩ := s.closeZoneClaim_eq z .cancelled
  have hu : ((s.closeZoneClaim z .cancelled).putSupply z .idle).modZone z
      (fun r => { r with stopPending := true, pausePending := false, seekPending := none }) = s.stoppedLater z := by
    rw [hc]
    cases z <;> rfl
  unfold State.beginStop
  rw [if_neg (by simp [h])]
  exact congrArg (State.effectIfSilent · z) hu

theorem State.beginStop_pending (h : (s.zone z).stopPending = true) : s.beginStop z = s := if_pos h

theorem State.beginStop_later (h : (s.zone z).stopPending = false) (ha : s.audible z = true) :
    s.beginStop z = s.stoppedLater z := (State.beginStop_eq h).trans (if_pos ha)

theorem State.beginStop_now (h : (s.zone z).stopPending = false) (ha : s.audible z = false) :
    s.beginStop z = s.stoppedNow z := by
  have hz : (s.stoppedLater z).zone z = (s.zone z).stopping := Pair.get_mod_self _ _ _
  have hp : (s.stoppedLater z).pendingEffect z = (s.stoppedLater z).stopEffect z := by
    rw [State.pendingEffect, hz]
    rfl
  have hq : (s.stoppedLater z).notRereading z := s.notRereading_closeZoneClaim z nofun
  have hun : (s.stoppedLater z).unheard z = s.unheard z := by
    unfold State.unheard
    rw [hz]
    rfl
  have hw (p : Option ResumePt) : ((s.stoppedLater z).writeResume z p).dd = (s.writeResume z p).dd := by
    unfold State.writeResume State.modSelRec
    rw [hz]
    cases p <;> cases hs : (s.zone z).selected <;> simp [Zone.stopping, hs] <;> rfl
  rw [State.beginStop_eq h, State.effectIfSilent, if_neg (by exact ne_true_of_eq_false ha), hp, State.stopEffect_quiet hq, hun, hw]
  cases z <;> rfl

/-! ## STOP -/

variable {zb : Byte}

theorem ownStop_stopped (hz : zoneOf s.straps zb = some z) (h : (s.zone z).play = .stopped) :
    ownStop s [zb] = .rejected .wrongState := (State.onZone_named hz).trans (if_pos h)

/-- An accepted STOP that makes `t` of the state. -/
theorem ownStop_accepted {t : State} {r : Zone} (hz : zoneOf s.straps zb = some z) (h : (s.zone z).play ≠ .stopped)
    (ht : s.beginStop z = t) (hr : t.zone z = r) : ownStop s [zb] = .accepted t [zb, playCode r.play, r.pendingCode] := by
  rw [ownStop, State.onZone_named hz, if_neg h, ht, zoneCode_zoneOf hz |>.symm]
  simp only [State.pendingBody, hr]

/-- STOP of a silent zone. -/
theorem ownStop_now (hz : zoneOf s.straps zb = some z) (h : (s.zone z).play ≠ .stopped) (hp : (s.zone z).stopPending = false)
    (ha : s.audible z = false) : ownStop s [zb] = .accepted (s.stoppedNow z) [zb, 0, 0] :=
  ownStop_accepted hz h (State.beginStop_now hp ha) (Pair.get_mod_self _ _ _)

end

theorem Zone.pendingCode_stop {r : Zone} (h : r.stopPending = true) : r.pendingCode = 4 := if_pos h

/-- Settles O30: by the zone's play state, its marks and whether it sounds. -/
theorem stopStopsAZone : Obligations.StopStopsAZone := by
  intro s zb z hs hz
  refine ⟨fun h => hs.refuses (ownStop_stopped hz h), fun h hp => ?_, fun h hp ha ho => ?_, fun h hp ha => ?_⟩
  · rw [← Zone.pendingCode_stop hp]
    exact hs.acceptsAs (ownStop_accepted hz h (State.beginStop_pending hp) rfl) rfl
  · rw [← Zone.pendingCode_stop (r := (s.zone z).stopping) rfl]
    refine hs.acceptsAs (ownStop_accepted hz h (State.beginStop_later hp ha) (Pair.get_mod_self _ _ _)) ?_
    have hc : (s.asked ⟨0x14, [zb]⟩).closeZoneClaim z .cancelled = s.asked ⟨0x14, [zb]⟩ := State.closeZoneClaim_none ho
    rw [State.stoppedLater, hc]
    rfl
  · obtain ⟨hchain, hanchor⟩ := s.bs.flush_zone z
    obtain ⟨hother, -, -⟩ := s.bs.flush_other z
    refine ⟨(s.asked ⟨0x14, [zb]⟩).stoppedNow z, ?_, Pair.get_mod_self _ _ _, hchain, hanchor, Pair.get_set_self _ _ _,
      Pair.get_set_self _ _ _, Pair.get_set_self _ _ _, Pair.get_mod_other _ _ _, hother, rfl, rfl, rfl, rfl, rfl,
      Pair.get_mod_other _ _ _, fun ho hh => ?_, fun ho => ?_⟩
    · exact hs.accepts (ownStop_now hz h hp ha)
    · refine Option.eq_none_iff_forall_ne_some.2 fun c hc => ?_
      obtain ⟨hl, hk⟩ := State.liveClaim_closeZoneClaim (s := s.asked ⟨0x14, [zb]⟩) (st := .cancelled) nofun hc
      exact hh c (State.claim_of_liveClaim hl) (hk ho)
    · have hc : (s.asked ⟨0x14, [zb]⟩).closeZoneClaim z .cancelled = s.asked ⟨0x14, [zb]⟩ := State.closeZoneClaim_none ho
      rw [State.stoppedNow, hc]
      exact ⟨rfl, rfl, rfl⟩

end Sys2Proof.Machine
end

section
/-! PROOF. SEEK (chapter 3): its target, what it refuses, and what it makes of a zone that sounds and of a silent one (O31). -/

namespace Sys2Proof.Machine

/-! ## The target (R44, R52) -/

/-- In ascending starts, the starts at or below an address of track k + 1 are the first k + 1. -/
theorem countP_starts {l : List Nat} {k a x : Nat} (hl : l.Pairwise (· < ·)) (ha : l[k]? = some a) (hx : a ≤ x)
    (hn : ∀ n, l[k + 1]? = some n → x < n) : l.countP (fun t => decide (t ≤ x)) = k + 1 := by
  induction l generalizing k with
  | nil => simp at ha
  | cons b l ih =>
    obtain ⟨hb, hl⟩ := List.pairwise_cons.1 hl
    cases k with
    | zero =>
      obtain rfl : b = a := by simpa using ha
      have h0 : l.countP (fun t => decide (t ≤ x)) = 0 := by
        cases l with
        | nil => rfl
        | cons c l =>
          have hc : x < c := hn c rfl
          refine List.countP_eq_zero.2 fun t ht => ?_
          rcases List.mem_cons.1 ht with rfl | ht
          · simpa using hc
          · have hct : c < t := (List.pairwise_cons.1 hl).1 t ht
            simp
            omega
      rw [List.countP_cons_of_pos (by simpa using hx), h0]
    | succ k =>
      have hba : b < a := hb a (List.mem_of_getElem? ha)
      rw [List.countP_cons_of_pos (by simp; omega), ih hl ha hn]

/-- The track of an address from its start on, and below the next track's start (R44). -/
theorem trackOf_within {l : List Nat} {k a x : Nat} (hl : l.Pairwise (· < ·)) (ha : l[k]? = some a) (hx : a ≤ x)
    (hn : ∀ n, l[k + 1]? = some n → x < n) : trackOf l x = k + 1 := by
  rw [trackOf, countP_starts hl ha hx hn]
  omega

/-- Below the start of track 1 lies track 1 (R44). -/
theorem trackOf_below {l : List Nat} {x : Nat} (hl : l.Pairwise (· < ·)) (hx : x < l[0]?.getD 0) : trackOf l x = 1 := by
  have h0 : l.countP (fun t => decide (t ≤ x)) = 0 := by
    cases l with
    | nil => rfl
    | cons c l =>
      have hc : x < c := hx
      refine List.countP_eq_zero.2 fun t ht => ?_
      rcases List.mem_cons.1 ht with rfl | ht
      · simpa using hc
      · have hct : c < t := (List.pairwise_cons.1 hl).1 t ht
        simp
        omega
  rw [trackOf, h0]
  rfl

section

variable {s : State} {z : ZoneId} {v : Nat}

theorem State.seekTarget_track_zero : (s.seekTarget z 1 0).addr = (s.tracks z)[0]?.getD 0 := by
  simp [State.seekTarget, startOf]

theorem State.seekTarget_track {a : Nat} (h1 : 1 ≤ v) (ha : (s.tracks z)[v - 1]? = some a) : (s.seekTarget z 1 v).addr = a := by
  obtain ⟨hlt, -⟩ := List.getElem?_eq_some_iff.1 ha
  have hv : max 1 (min v (s.tracks z).length) = v := by omega
  simp [State.seekTarget, startOf, hv, ha]

theorem State.seekTarget_lastTrack (h : (s.tracks z).length < v) (hne : s.tracks z ≠ []) :
    (s.seekTarget z 1 v).addr = (s.tracks z).getLast?.getD 0 := by
  have hpos : 0 < (s.tracks z).length := List.length_pos_of_ne_nil hne
  have hv : max 1 (min v (s.tracks z).length) = (s.tracks z).length := by omega
  simp [State.seekTarget, startOf, hv, List.getLast?_eq_getElem?]

theorem State.seekTarget_within (h : v ≤ s.programEnd z) : (s.seekTarget z 2 v).addr = v := State.clampAddr_within h

theorem State.seekTarget_beyond (h : s.programEnd z < v) : (s.seekTarget z 2 v).addr = (s.tracks z).getLast?.getD 0 :=
  State.clampAddr_beyond h

end

/-! ## What SEEK refuses (R45, R52) -/

theorem State.selPresent_iff {s : State} {z : ZoneId} :
    s.selPresent z = true ↔ ∃ r, s.selRec z = some r ∧ r.state = .present := by
  unfold State.selPresent
  split <;> simp_all

theorem State.canSeek_iff (s : State) (z : ZoneId) : s.canSeek z = true ↔ (s.zone z).play ≠ .stopped ∧
    (s.zone z).stopPending = false ∧ (s.zone z).supply ≠ .absent ∧ (s.zone z).supply ≠ .fault ∧
      ((s.zone z).supply = .resync ∨ (s.zone z).supply = .lost ∨ (s.zone z).supply = .ended →
        ∃ r, s.selRec z = some r ∧ r.state = .present) := by
  rw [← State.selPresent_iff]
  simp only [State.canSeek]
  generalize (s.zone z).supply = v
  cases v <;> simp [and_assoc]

section

variable {s : State} {z : ZoneId} {zb kind v2 v1 v0 : Byte}

theorem ownSeek_badKind (hz : zoneOf s.straps zb = some z) (h : kind.toNat < 1 ∨ 2 < kind.toNat) :
    ownSeek s [zb, kind, v2, v1, v0] = .rejected .badValue := (State.onZone_named hz).trans (if_pos h)

theorem ownSeek_wrongState (hz : zoneOf s.straps zb = some z) (h1 : 1 ≤ kind.toNat) (h2 : kind.toNat ≤ 2)
    (h : s.canSeek z = false) : ownSeek s [zb, kind, v2, v1, v0] = .rejected .wrongState :=
  (State.onZone_named hz).trans ((if_neg (show ¬ (kind.toNat < 1 ∨ 2 < kind.toNat) by omega)).trans
    (if_neg (ne_true_of_eq_false h)))

/-- An accepted SEEK that makes `t` of the state. -/
theorem ownSeek_accepted {t : State} {r : Zone} (hz : zoneOf s.straps zb = some z) (h1 : 1 ≤ kind.toNat) (h2 : kind.toNat ≤ 2)
    (h : s.canSeek z = true) (ht : s.beginSeek z (s.seekTarget z kind.toNat (nat3 v2 v1 v0)) = t) (hr : t.zone z = r) :
    ownSeek s [zb, kind, v2, v1, v0] = .accepted t ([zb] ++ be3 (s.seekTarget z kind.toNat (nat3 v2 v1 v0)).addr ++
      [byte (s.seekTarget z kind.toNat (nat3 v2 v1 v0)).track, if r.seekPending.isSome then 0 else 1]) := by
  have hacc : ownSeek s [zb, kind, v2, v1, v0] = .accepted (s.beginSeek z (s.seekTarget z kind.toNat (nat3 v2 v1 v0)))
      ((s.beginSeek z (s.seekTarget z kind.toNat (nat3 v2 v1 v0))).seekBody z (s.seekTarget z kind.toNat (nat3 v2 v1 v0))) :=
    (State.onZone_named hz).trans ((if_neg (show ¬ (kind.toNat < 1 ∨ 2 < kind.toNat) by omega)).trans (if_pos h))
  rw [hacc, ht, State.seekBody, hr, zoneCode_zoneOf hz]

end

/-! ## What an accepted SEEK does (R39, R50, R52) -/

/-- The tests of R39 and R40 change the play state, the concealer's mark and the notices. -/
theorem State.testReady_marks (s : State) (z : ZoneId) : ∃ p d cl, s.testReady z = { s with
    zc := s.zc.mod z fun r => { r with play := p }, oc := s.oc.mod z fun c => { c with drawAtOnce := d }, cl := cl } := by
  by_cases h1 : (s.zone z).play = .priming ∧ s.readyToStart z = true
  · exact ⟨_, _, _, (State.testReady_starts h1.1 h1.2).trans (s.becomePlaying_notice z true .primed)⟩
  · by_cases h2 : (s.zone z).play = .starved ∧ s.readyToRestart z = true
    · exact ⟨_, _, _, (State.testReady_restarts h2.1 h2.2).trans (s.becomePlaying_notice z false .refilled)⟩
    · exact ⟨(s.zone z).play, (s.oc.get z).drawAtOnce, s.cl, (State.testReady_stands h1 h2).trans (by cases z <;> rfl)⟩

/-- The tests of R39 and R40 that issue no notice change the play state, but not to or from PAUSED, and the concealer's mark. -/
theorem State.readyQuietly_marks (s : State) (z : ZoneId) : ∃ p d, s.readyQuietly z = { s with
    zc := s.zc.mod z fun r => { r with play := p }, oc := s.oc.mod z fun c => { c with drawAtOnce := d } } ∧
      (p = .paused ↔ (s.zone z).play = .paused) := by
  unfold State.readyQuietly
  split
  · next h => exact ⟨_, _, rfl, by simp [h.1]⟩
  · split
    · next h => exact ⟨_, _, rfl, by simp [h.1]⟩
    · exact ⟨(s.zone z).play, (s.oc.get z).drawAtOnce, by cases z <;> rfl, Iff.rfl⟩

/-- Zone `z`, which sounds, with the pending seek `t`; `c`, `p` and `d` are its context, play state and concealer mark. -/
def State.soughtLater (s : State) (z : ZoneId) (t : SeekTarget) (c : Option LinkCtx) (p : Play) (d : Bool) : State := { s with
  da := (s.closeZoneClaim z .cancelled).da, bi := (s.closeZoneClaim z .cancelled).bi, lm := (s.closeZoneClaim z .cancelled).lm
  lu := { s.lu with ctx := s.lu.ctx.set z c }
  zc := s.zc.mod z fun r => { r with supply := .feeding, play := p, seekPending := some t }
  oc := s.oc.mod z fun c => { c with drawAtOnce := d } }

/-- Zone `z` flushed and FEEDING from the target `t`; `q`, `d` and `cl` are what the tests of R39 and R40 make of its play state,
its concealer's mark and the link. -/
def State.soughtNow (s : State) (z : ZoneId) (t : SeekTarget) (q : Play) (d : Bool) (cl : Link) : State := { s.flushed z with
  da := (s.closeZoneClaim z .cancelled).da, bi := (s.closeZoneClaim z .cancelled).bi, lm := (s.closeZoneClaim z .cancelled).lm
  zc := s.zc.mod z fun r => { r.sought t with supply := .feeding, play := q }
  oc := s.oc.mod z fun c => { c.flushed with fresh := true, drawAtOnce := d }
  cl := cl }

/-- Before it takes effect, an accepted SEEK has closed the zone's claim, made the zone FEEDING, tested R39 and R40, and noted the
target. -/
theorem State.beginSeek_eq (s : State) (z : ZoneId) (t : SeekTarget) : ∃ u c p d, s.beginSeek z t = u.effectIfSilent z ∧
    u = s.soughtLater z t c p d ∧ (p = .paused ↔ (s.zone z).play = .paused) := by
  obtain ⟨c, hc⟩ := s.closeZoneClaim_eq z .cancelled
  have hz : (s.closeZoneClaim z .cancelled).zone z = s.zone z := by rw [hc]; rfl
  unfold State.beginSeek
  dsimp only
  split
  · next hf =>
    rw [hz] at hf
    refine ⟨_, c, (s.zone z).play, (s.oc.get z).drawAtOnce, rfl, ?_, Iff.rfl⟩
    rw [State.soughtLater, hc, ← hf]
    cases z <;> rfl
  · obtain ⟨p, d, hq, hp⟩ := ((s.closeZoneClaim z .cancelled).putSupply z .feeding).readyQuietly_marks z
    refine ⟨_, c, p, d, rfl, ?_, hp.trans ?_⟩
    · rw [State.soughtLater, hq, hc]
      cases z <;> rfl
    · rw [hc]
      cases z <;> exact Iff.rfl

/-- A seek that takes effect while no re-read of the zone is under way. -/
theorem State.seekEffect_quiet {s : State} {z : ZoneId} (t : SeekTarget) (h : s.notRereading z) :
    s.seekEffect z t = ({ s.flushed z with
      zc := s.zc.mod z (Zone.sought · t), oc := s.oc.mod z fun c => { c.flushed with fresh := true } } : State).testReady z := by
  unfold State.seekEffect
  rw [State.flushZone_quiet h]
  cases z <;> rfl

/-- SEEK of a zone that sounds: the target is pending. -/
theorem State.beginSeek_later {s : State} {z : ZoneId} (t : SeekTarget) (ha : s.audible z = true) :
    ∃ c p d, s.beginSeek z t = s.soughtLater z t c p d := by
  obtain ⟨u, c, p, d, hb, hu, -⟩ := s.beginSeek_eq z t
  have hau : u.audible z = s.audible z := by
    rw [hu]
    cases z <;> rfl
  exact ⟨c, p, d, hb.trans ((if_pos (hau.trans ha)).trans hu)⟩

/-- SEEK of a FEEDING zone that sounds, and is not read for. -/
theorem State.beginSeek_feeding {s : State} {z : ZoneId} (t : SeekTarget) (ha : s.audible z = true) (ho : s.ownsClaim z = false)
    (hf : (s.zone z).supply = .feeding) : s.beginSeek z t = s.modZone z fun r => { r with seekPending := some t } := by
  unfold State.beginSeek
  rw [State.closeZoneClaim_none ho]
  dsimp only
  rw [if_pos hf]
  exact if_pos ha

/-- SEEK of a silent zone is done at once: what it leaves, before R39 and R40 are tested, is `u`. -/
theorem State.beginSeek_now {s : State} {z : ZoneId} (t : SeekTarget) (ha : s.audible z = false)
    (hs : (s.zone z).stopPending = false) : ∃ u p d, s.beginSeek z t = u.testReady z ∧ u = { s.flushed z with
      da := (s.closeZoneClaim z .cancelled).da, bi := (s.closeZoneClaim z .cancelled).bi, lm := (s.closeZoneClaim z .cancelled).lm
      zc := s.zc.mod z fun r => ({ r with supply := .feeding, play := p, seekPending := some t } : Zone).sought t
      oc := s.oc.mod z fun c => { c.flushed with fresh := true, drawAtOnce := d } } ∧
    (p = .paused ↔ (s.zone z).play = .paused) := by
  obtain ⟨u, c, p, d, hb, hu, hp⟩ := s.beginSeek_eq z t
  have hau : u.audible z = s.audible z := by
    rw [hu]
    cases z <;> rfl
  have hz : u.zone z = { s.zone z with supply := .feeding, play := p, seekPending := some t } := by
    rw [hu]
    exact Pair.get_mod_self _ _ _
  have hq : u.notRereading z := by
    have h := s.notRereading_closeZoneClaim z (st := .cancelled) nofun
    rw [hu]
    exact h
  have he : u.effectIfSilent z = u.seekEffect z t := by
    rw [State.effectIfSilent, if_neg (by rw [hau, ha]; nofun), State.pendingEffect, hz]
    simp [hs]
  refine ⟨_, p, d, hb.trans (he.trans (State.seekEffect_quiet t hq)), ?_, hp⟩
  rw [hu]
  cases z <;> rfl

/-- SEEK of a silent zone is done at once. -/
theorem State.beginSeek_silent {s : State} {z : ZoneId} (t : SeekTarget) (ha : s.audible z = false)
    (hs : (s.zone z).stopPending = false) : ∃ q d cl, s.beginSeek z t = s.soughtNow z t q d cl ∧
      (lawfulParams s.params s.straps → q = ((s.zone z).sought t).play) := by
  obtain ⟨u, p, d, hb, hu, hp⟩ := State.beginSeek_now t ha hs
  obtain ⟨q, d', cl, ht⟩ := u.testReady_marks z
  have hz : u.zone z = ({ s.zone z with supply := .feeding, play := p, seekPending := some t } : Zone).sought t := by
    rw [hu]
    exact Pair.get_mod_self _ _ _
  have hf : u.fill z = 0 := by
    rw [hu]
    exact congrArg Chain.length (s.bs.flush_zone z).1
  refine ⟨q, d', cl, hb.trans (ht.trans ?_), fun hl => ?_⟩
  · rw [hu]
    cases z <;> rfl
  · have hl' : lawfulParams u.params u.straps := by
      rw [hu]
      exact hl
    have hq : (u.testReady z).zone z = { u.zone z with play := q } := by
      rw [ht]
      exact Pair.get_mod_self _ _ _
    rw [State.testReady_empty hl' hf (by rw [hz]; exact Zone.sought_play _ _), hz] at hq
    refine (congrArg Zone.play hq).symm.trans ?_
    simp [Zone.sought, hp]

section

variable {s : State} {z : ZoneId} {zb kind v2 v1 v0 : Byte} {x : SeekTarget}

/-- An accepted SEEK of a zone that sounds. -/
theorem ownSeek_later (hz : zoneOf s.straps zb = some z) (h1 : 1 ≤ kind.toNat) (h2 : kind.toNat ≤ 2) (h : s.canSeek z = true)
    (hx : s.seekTarget z kind.toNat (nat3 v2 v1 v0) = x) (ha : s.audible z = true) : ∃ c p d,
      ownSeek s [zb, kind, v2, v1, v0] = .accepted (s.soughtLater z x c p d) ([zb] ++ be3 x.addr ++ [byte x.track, 0]) := by
  obtain ⟨c, p, d, hb⟩ := State.beginSeek_later x ha
  subst hx
  exact ⟨c, p, d, ownSeek_accepted hz h1 h2 h hb (Pair.get_mod_self _ _ _)⟩

/-- An accepted SEEK of a FEEDING zone that sounds, and is not read for. -/
theorem ownSeek_feeding (hz : zoneOf s.straps zb = some z) (h1 : 1 ≤ kind.toNat) (h2 : kind.toNat ≤ 2) (h : s.canSeek z = true)
    (hx : s.seekTarget z kind.toNat (nat3 v2 v1 v0) = x) (ha : s.audible z = true) (ho : s.ownsClaim z = false)
    (hf : (s.zone z).supply = .feeding) : ownSeek s [zb, kind, v2, v1, v0] =
      .accepted (s.modZone z fun r => { r with seekPending := some x }) ([zb] ++ be3 x.addr ++ [byte x.track, 0]) := by
  subst hx
  exact ownSeek_accepted hz h1 h2 h (State.beginSeek_feeding _ ha ho hf) (Pair.get_mod_self _ _ _)

/-- An accepted SEEK of a silent zone. -/
theorem ownSeek_silent (hz : zoneOf s.straps zb = some z) (h1 : 1 ≤ kind.toNat) (h2 : kind.toNat ≤ 2) (h : s.canSeek z = true)
    (hx : s.seekTarget z kind.toNat (nat3 v2 v1 v0) = x) (ha : s.audible z = false) : ∃ q d cl,
      ownSeek s [zb, kind, v2, v1, v0] = .accepted (s.soughtNow z x q d cl) ([zb] ++ be3 x.addr ++ [byte x.track, 1]) ∧
        (lawfulParams s.params s.straps → q = ((s.zone z).sought x).play) := by
  obtain ⟨-, hst, -⟩ := (s.canSeek_iff z).1 h
  obtain ⟨q, d, cl, hb, hq⟩ := State.beginSeek_silent x ha hst
  subst hx
  exact ⟨q, d, cl, ownSeek_accepted hz h1 h2 h hb (Pair.get_mod_self _ _ _), hq⟩

end

/-- Settles O31: the target by its kind, the refusals in their order, and the seek by whether the zone sounds. -/
theorem seekMovesAZone : Obligations.SeekMovesAZone := by
  intro s zb kind v2 v1 v0 z hs hz x v supply first last
  refine ⟨s.canSeek_iff z, fun hk => ?_, fun hk => ?_, fun hl => ?_, fun hk => hs.refuses (ownSeek_badKind hz hk),
    fun h1 h2 => ⟨fun hc => hs.refuses (ownSeek_wrongState hz h1 h2 hc), fun hc hf ho ha => ?_, fun hc ha => ?_, fun hc ha => ?_⟩⟩
  · subst hk
    refine ⟨fun hv => ?_, fun a hv ha => State.seekTarget_track hv ha, fun hv hne => State.seekTarget_lastTrack hv hne⟩
    show (s.seekTarget z 1 v).addr = _
    rw [hv]
    exact State.seekTarget_track_zero
  · subst hk
    exact ⟨fun hv => State.seekTarget_within hv, fun hv => State.seekTarget_beyond hv⟩
  · exact ⟨fun k a ha hle hn => trackOf_within hl ha hle hn, fun hlt => trackOf_below hl hlt⟩
  · exact hs.acceptsAs (ownSeek_feeding (x := x) hz h1 h2 hc rfl ha ho hf) rfl
  · obtain ⟨c, p, d, hb⟩ := ownSeek_later (s := s.asked ⟨0x15, [zb, kind, v2, v1, v0]⟩) (x := x) hz h1 h2 hc rfl ha
    refine ⟨_, hs.accepts hb, ?_, Pair.get_mod_other _ _ _, rfl, rfl⟩
    have hr := Pair.get_mod_self s.zc z fun r => { r with supply := .feeding, play := p, seekPending := some x }
    exact congrArg (fun r : Zone => { r with play := (s.zone z).play }) hr
  · obtain ⟨q, d, cl, hb, hq⟩ := ownSeek_silent (s := s.asked ⟨0x15, [zb, kind, v2, v1, v0]⟩) (x := x) hz h1 h2 hc rfl ha
    have hr : ((s.asked ⟨0x15, [zb, kind, v2, v1, v0]⟩).soughtNow z x q d cl).zone z =
        { (s.zone z).sought x with supply := .feeding, play := q } := Pair.get_mod_self _ _ _
    obtain ⟨hchain, hanchor⟩ := s.bs.flush_zone z
    obtain ⟨hother, -, -⟩ := s.bs.flush_other z
    refine ⟨_, hs.accepts hb, congrArg Zone.seekPending hr, congrArg Zone.nextRead hr, congrArg Zone.resume hr,
      congrArg Zone.offset hr, congrArg Zone.track hr, congrArg Zone.pausePending hr, congrArg Zone.supply hr, hchain, hanchor,
      congrArg Concealer.fresh (Pair.get_mod_self s.oc z _), fun hl => (congrArg Zone.play hr).trans (hq hl),
      Pair.get_mod_other _ _ _, hother, rfl, rfl, rfl, rfl, rfl, fun ho => ?_⟩
    have hcc : (s.asked ⟨0x15, [zb, kind, v2, v1, v0]⟩).closeZoneClaim z .cancelled = s.asked ⟨0x15, [zb, kind, v2, v1, v0]⟩ :=
      State.closeZoneClaim_none ho
    rw [State.soughtNow, hcc]
    exact ⟨rfl, rfl, rfl⟩

end Sys2Proof.Machine
end

section
/-! PROOF. Resume points and the beginning of parking (chapters 3 and 10): what two zones write into their selected records, and what
STANDBY and a fall of the run line make of the part (O26). -/

namespace Sys2Proof.Machine

/-! ## Resume points (R51, R148) -/

/-- The directory with the resume point `p`, where there is one, written into record `i`, where there is one. -/
def Directory.resumed (d : Directory) (i : Option Nat) (p : Option ResumePt) : Directory :=
  match i, p with
  | some i, some p => d.modRecord i fun r => { r with resume := some p }
  | _, _ => d

theorem State.writeResume_dd (s : State) (z : ZoneId) (p : Option ResumePt) :
    (s.writeResume z p).dd = s.dd.resumed (s.zone z).selected p := by
  cases p with
  | none => cases (s.zone z).selected <;> rfl
  | some p =>
    simp only [State.writeResume, State.modSelRec]
    cases (s.zone z).selected <;> rfl

section

variable {d : Directory} {i : Nat} {j : Option Nat} {r : DiscRecord} {p : ResumePt}

theorem Directory.resumed_none (d : Directory) (i : Option Nat) : d.resumed i none = d := by cases i <;> rfl

theorem Directory.resumed_same (hr : d.records[i]? = some r) :
    (d.resumed (some i) (some p)).records[i]? = some { r with resume := some p } := by
  simp [Directory.resumed, Directory.modRecord, hr]

theorem Directory.resumed_other (h : j ≠ some i) (p : Option ResumePt) : (d.resumed j p).records[i]? = d.records[i]? := by
  cases j with
  | none => rfl
  | some j =>
    have hji : j ≠ i := fun e => h (congrArg some e)
    cases p <;> simp [Directory.resumed, Directory.modRecord, hji]

/-- A write leaves a record that it was before but for its resume point. -/
theorem Directory.resumed_record (hr : d.records[i]? = some r) (j : Option Nat) (q : Option ResumePt) :
    ∃ v, (d.resumed j q).records[i]? = some { r with resume := v } := by
  by_cases h : j = some i
  · subst h
    cases q with
    | none => exact ⟨r.resume, hr⟩
    | some q => exact ⟨some q, Directory.resumed_same hr⟩
  · exact ⟨r.resume, (Directory.resumed_other h q).trans hr⟩

/-- Where both zones write their resume points, zone B's after zone A's, the later write to a record stands (R148). -/
theorem Directory.resumed_both {sel : ZoneId → Option Nat} {q : ZoneId → Option ResumePt} {z : ZoneId} (hs : sel z = some i)
    (hr : d.records[i]? = some r) (hq : q z = some p) (hb : z = .b ∨ sel .b ≠ some i ∨ q .b = none) :
    ((d.resumed (sel .a) (q .a)).resumed (sel .b) (q .b)).records[i]? = some { r with resume := some p } := by
  cases z with
  | b =>
    obtain ⟨v, hv⟩ := Directory.resumed_record hr (sel .a) (q .a)
    rw [hs, hq]
    exact Directory.resumed_same (r := { r with resume := v }) hv
  | a =>
    have ha : (d.resumed (sel .a) (q .a)).records[i]? = some { r with resume := some p } := by
      rw [hs, hq]
      exact Directory.resumed_same hr
    rcases hb with h | h | h
    · cases h
    · exact (Directory.resumed_other h _).trans ha
    · rw [h, Directory.resumed_none]
      exact ha

end

/-! ## The beginning of parking (R165, R166) -/

theorem Pair.mod_congr {α : Type} {f g : α → α} {p : Pair α} {z : ZoneId} (h : f (p.get z) = g (p.get z)) :
    p.mod z f = p.mod z g := by
  cases z with
  | a => exact congrArg (fun v => { p with a := v }) h
  | b => exact congrArg (fun v => { p with b := v }) h

/-- The zone record once parking has begun: a zone that is not STOPPED has no pending mark. -/
def Zone.parking (r : Zone) : Zone :=
  if r.play = .stopped then r else { r with pausePending := false, stopPending := false, seekPending := none }

/-- The resume point that a zone writes when parking begins, where it writes one. -/
def State.parkPoint (s : State) (z : ZoneId) : Option ResumePt :=
  if (s.zone z).play = .stopped then none
  else match (s.zone z).seekPending with
    | some t => some ⟨t.addr, 0⟩
    | none => s.unheard z

theorem State.parkZone_eq (s : State) (z : ZoneId) : s.parkZone z = { s with
    zc := s.zc.mod z Zone.parking, dd := s.dd.resumed (s.zone z).selected (s.parkPoint z) } := by
  unfold State.parkZone State.parkPoint
  dsimp only
  by_cases h : (s.zone z).play = .stopped
  · have hz : s.zc.mod z Zone.parking = s.zc :=
      (Pair.mod_congr (f := Zone.parking) (g := fun r => r) (if_pos h)).trans (Pair.mod_id _ _)
    rw [if_pos h, if_pos h, Directory.resumed_none, hz]
  · have hz : s.zc.mod z Zone.parking =
        s.zc.mod z fun r => { r with pausePending := false, stopPending := false, seekPending := none } :=
      Pair.mod_congr (if_neg h)
    rw [if_neg h, if_neg h, ← State.writeResume_dd, hz, State.writeResume_eq]
    rfl

/-- The part once parking has begun, before the drive is asked for the parking sequence. -/
def State.hushed (s : State) : State := { s with
  pc := { s.pc with state := .parking, driveDone := false, silence := true, silenceDone := s.allSilent }
  sm := { s.sm with windowTimer := .stopped }
  zc := (s.zc.mod .a Zone.parking).mod .b Zone.parking
  dd := (s.dd.resumed (s.zone .a).selected (s.parkPoint .a)).resumed (s.zone .b).selected (s.parkPoint .b) }

theorem State.beginParking_eq (s : State) : s.beginParking = s.hushed.askParking := by
  unfold State.beginParking
  dsimp only
  rw [State.parkZone_eq, State.parkZone_eq, State.reportSilence_eq]
  refine congrArg State.askParking ?_
  unfold State.hushed
  by_cases h : s.allSilent = true
  · rw [h, if_pos ⟨rfl, h⟩]
    rfl
  · rw [Bool.not_eq_true _ |>.mp h, if_neg fun k => h k.2]
    rfl

theorem State.zone_hushed (s : State) (z : ZoneId) : s.hushed.zone z = (s.zone z).parking := by cases z <;> rfl

/-- The hold once parking is asked for: a granted one has lapsed, and a waiting one is withdrawn (R76). -/
def Hold.atParking : Hold → Hold
  | .granted => .lapsed
  | .revoking => .lapsed
  | .queued => .none
  | .none => .none
  | .lapsed => .lapsed

/-- In a drive FAULT the parking sequence is done at once. -/
theorem State.askParking_fault {s : State} (h : s.da.state = .fault) : ∃ da, s.askParking = { s with
    da := da, pc := { s.pc with driveDone := true } } := ⟨_, if_pos h⟩

/-- In another drive state the parking sequence waits, with the hold ended or withdrawn. -/
theorem State.askParking_waits {s : State} (h : s.da.state ≠ .fault) : ∃ da lm cl, s.askParking =
    { s with da := da, lm := lm, cl := cl } ∧ da.parkStage = .waiting ∧ da.hold = s.da.hold.atParking := by
  have hl : ∃ da lm cl, s.lapseHold = { s with da := da, lm := lm, cl := cl } ∧ da.hold = .lapsed := by
    unfold State.lapseHold State.endHold
    dsimp only
    split
    · exact ⟨_, _, _, rfl, rfl⟩
    · exact ⟨_, _, _, rfl, rfl⟩
  obtain ⟨da, lm, cl, he, hh⟩ := hl
  unfold State.askParking
  rw [if_neg h]
  cases hd : s.da.hold with
  | granted => exact ⟨{ da with parkStage := .waiting }, lm, cl, congrArg (State.modDa · _) he, rfl, hh⟩
  | revoking => exact ⟨{ da with parkStage := .waiting }, lm, cl, congrArg (State.modDa · _) he, rfl, hh⟩
  | queued => exact ⟨_, s.lm, s.cl, rfl, rfl, rfl⟩
  | none => exact ⟨_, s.lm, s.cl, rfl, rfl, hd⟩
  | lapsed => exact ⟨_, s.lm, s.cl, rfl, rfl, hd⟩

/-- What the beginning of parking leaves and does. -/
theorem State.beginParking_spec (s : State) : ∃ da lm pc cl, s.beginParking =
      { s.hushed with da := da, lm := lm, pc := pc, cl := cl } ∧
    pc = { s.hushed.pc with driveDone := decide (s.da.state = .fault) } ∧
    (s.da.state ≠ .fault → da.parkStage = .waiting ∧ da.hold = s.da.hold.atParking) := by
  rw [s.beginParking_eq]
  by_cases h : s.da.state = .fault
  · obtain ⟨da, he⟩ := State.askParking_fault (s := s.hushed) h
    exact ⟨da, s.lm, _, s.cl, he, by simp [h], fun hn => absurd h hn⟩
  · obtain ⟨da, lm, cl, he, hp, hh⟩ := State.askParking_waits (s := s.hushed) h
    exact ⟨da, lm, s.hushed.pc, cl, he, by simp [h, State.hushed], fun _ => ⟨hp, hh⟩⟩

/-- Of the resume points that parking writes, the later of two to one record stands (R148). -/
theorem State.record_hushed {s : State} {z : ZoneId} {i : Nat} {r : DiscRecord} {p : ResumePt} (hs : (s.zone z).selected = some i)
    (hr : s.record i = some r) (hp : s.parkPoint z = some p)
    (hb : z = .b ∨ (s.zone .b).selected ≠ some i ∨ s.parkPoint .b = none) :
    s.hushed.record i = some { r with resume := some p } :=
  Directory.resumed_both (sel := fun z => (s.zone z).selected) hs hr hp hb

/-- A fall of the run line in ACTIVE while no RESET is being carried out. -/
theorem execRunLineFalls_parks {s : State} (ha : s.pc.state = .active) (hr : s.resetting = false) :
    exec .runLineFalls s = .next (State.finish s (s.setRun false).beginParking) := by
  have hf : (s.setRun false).runFalls = (s.setRun false).beginParking := (if_pos ha).trans (if_neg (ne_true_of_eq_false hr))
  rw [← hf]
  exact if_neg (by rw [ha]; nofun)

/-- A fall of the run line in ACTIVE while a RESET is being carried out is kept. -/
theorem execRunLineFalls_kept {s : State} (ha : s.pc.state = .active) (hr : s.resetting = true) :
    exec .runLineFalls s = .next (State.finish s ((s.setRun false).modPc fun p => { p with runFell := true })) := by
  have hf : (s.setRun false).runFalls = (s.setRun false).modPc fun p => { p with runFell := true } := (if_pos ha).trans (if_pos hr)
  rw [← hf]
  exact if_neg (by rw [ha]; nofun)

/-- Settles O26: the parts of `State.beginParking` in their order, for STANDBY and for a fall of the run line. -/
theorem parkingBegins : Obligations.ParkingBegins := by
  unfold Obligations.ParkingBegins
  intro parks
  have hparks (s : State) : parks s s.beginParking ∧ s.beginParking.pins = s.pins := by
    obtain ⟨da, lm, pc, cl, he, hpc, hwait⟩ := s.beginParking_spec
    rw [he]
    have hdone : pc.driveDone = decide (s.da.state = .fault) := congrArg Power.driveDone hpc
    have hsilent : pc.silenceDone = s.allSilent := congrArg Power.silenceDone hpc
    refine ⟨⟨congrArg Power.state hpc, congrArg Power.silence hpc, rfl, fun z => ⟨fun h => ?_, fun h => ?_⟩, ?_, fun _ => rfl,
      fun h => by simp [hdone, h], fun h => ⟨by simp [hdone, h], (hwait h).1⟩, fun h => (hwait h).2.trans ?_,
      fun z i r p h hs hr hp hb => ?_, rfl, rfl, rfl, rfl, rfl, rfl, rfl⟩, rfl⟩
    · exact (s.zone_hushed z).trans (if_pos h)
    · exact (s.zone_hushed z).trans (if_neg h)
    · rw [← State.allSilent_iff, ← hsilent]
    · cases s.da.hold <;> rfl
    · refine State.record_hushed hs hr ((if_neg h).trans hp) (hb.imp_right fun hb => ?_)
      by_cases hstop : (s.zone .b).play = .stopped
      · exact .inr (if_pos hstop)
      · exact (hb.resolve_left hstop).imp_right (if_neg hstop).trans
  refine ⟨fun s hs => ?_, fun s ha hr => ?_, fun s ha hr => execRunLineFalls_kept ha hr⟩
  · obtain ⟨hp, hpins⟩ := hparks (s.asked ⟨0x06, []⟩)
    exact ⟨_, hs.accepts rfl, hp, hpins⟩
  · obtain ⟨hp, hpins⟩ := hparks (s.setRun false)
    exact ⟨_, execRunLineFalls_parks ha hr, hp, hpins⟩

end Sys2Proof.Machine
end

section
/-! PROOF. RESET-DRIVE (chapter 4): how it moves a zone out of supply FAULT (O37). -/

namespace Sys2Proof.Machine

/-- What RESET-DRIVE makes of a zone record, with the zone's selected record PRESENT or not: out of supply FAULT the supply state
changes, and the play state may. -/
def Zone.movedTo (r : Zone) (present : Bool) (v : Zone) : Prop :=
  (r.supply = .fault → v.supply = (if present then .rejoining else .absent) ∧ v.nextRead = r.nextRead ∧ v.resume = r.resume) ∧
    (r.supply ≠ .fault → v = r)

/-- A change of supply state, but to ENDED, changes the zone's supply and play state, its context, its concealer's mark and the
notices. -/
theorem State.setSupply_spec {s : State} {z : ZoneId} {v : Supply} (c : ZoneCause) (hv : v ≠ .ended) :
    ∃ p x oc cl n, s.setSupply z v c = { s with
      zc := s.zc.mod z fun r => { r with supply := v, play := p }
      lu := { s.lu with ctx := s.lu.ctx.set z x }, oc := oc, cl := cl, free := n } := by
  unfold State.setSupply
  split
  · next h =>
    refine ⟨(s.zone z).play, s.lu.ctx.get z, s.oc, s.cl, s.free, ?_⟩
    rw [Pair.set_get, ← h]
    cases z <;> rfl
  · dsimp only
    rw [if_neg fun k => hv k.1]
    obtain ⟨oc, cl, n, hc⟩ := State.supplyChanged_spec (s.putSupply z v) z c
    rw [hc]
    generalize (s.putSupply z v).readyPlay z = p
    unfold State.putSupply
    dsimp only
    split
    · exact ⟨p, none, oc, cl, n, by cases z <;> rfl⟩
    · exact ⟨p, s.lu.ctx.get z, oc, cl, n, by cases z <;> rfl⟩

/-- RESET-DRIVE moves one zone (R42, R62). -/
theorem State.zoneReset_spec (s : State) (z : ZoneId) : ∃ v x oc cl n, s.zoneReset z = { s with
    zc := s.zc.set z v, lu := { s.lu with ctx := s.lu.ctx.set z x }, oc := oc, cl := cl, free := n } ∧
      (s.zone z).movedTo (s.selPresent z) v := by
  unfold State.zoneReset
  split
  · next h =>
    split
    · next hp =>
      obtain ⟨p, x, oc, cl, n, hs⟩ := State.setSupply_spec (s := s) (z := z) (v := .rejoining) .driveReset nofun
      obtain ⟨k, hk⟩ : ∃ k, s.rejoin z .driveReset = (s.setSupply z .rejoining .driveReset).setCtx z k := ⟨_, rfl⟩
      refine ⟨{ s.zone z with supply := .rejoining, play := p }, k, oc, cl, n, ?_, fun _ => ⟨by rw [hp]; rfl, rfl, rfl⟩, absurd h⟩
      rw [hk, hs]
      cases z <;> rfl
    · next hp =>
      obtain ⟨p, x, oc, cl, n, hs⟩ := State.setSupply_spec (s := s) (z := z) (v := .absent) .driveReset nofun
      refine ⟨{ s.zone z with supply := .absent, play := p }, x, oc, cl, n, ?_, fun _ => ⟨by rw [if_neg hp], rfl, rfl⟩, absurd h⟩
      rw [hs]
      cases z <;> rfl
  · next h => exact ⟨s.zone z, s.lu.ctx.get z, s.oc, s.cl, s.free, by cases z <;> rfl, fun k => absurd k h, fun _ => rfl⟩

/-- RESET-DRIVE moves both zones. -/
theorem State.zonesReset_spec (s : State) : ∃ v w x oc cl n, (s.zoneReset .a).zoneReset .b = { s with
    zc := ⟨v, w⟩, lu := { s.lu with ctx := x }, oc := oc, cl := cl, free := n } ∧
      (s.zone .a).movedTo (s.selPresent .a) v ∧ (s.zone .b).movedTo (s.selPresent .b) w := by
  obtain ⟨v, x, oc, cl, n, ha, hv⟩ := s.zoneReset_spec .a
  obtain ⟨w, y, oc', cl', n', hb, hw⟩ := (s.zoneReset .a).zoneReset_spec .b
  refine ⟨v, w, (s.lu.ctx.set .a x).set .b y, oc', cl', n', ?_, hv, ?_⟩
  · rw [hb, ha]
    rfl
  · rw [ha] at hw
    exact hw

/-- Settles O37: refused but in a drive FAULT, where each zone is moved by itself. -/
theorem resetDriveLeavesFault : Obligations.ResetDriveLeavesFault := by
  intro s hs
  refine ⟨fun h => hs.refuses (if_neg h), fun h => ?_⟩
  obtain ⟨v, w, x, oc, cl, n, he, hv, hw⟩ := ((s.asked ⟨0x23, []⟩).modDa fun d =>
    { d with state := .down, slot := .unknown, speed := .unknown }).zonesReset_spec
  refine ⟨_, hs.accepts (if_pos h), ?_⟩
  dsimp only
  rw [he]
  exact ⟨rfl, forall_zones ⟨hv, hw⟩, rfl, rfl, rfl, rfl, rfl, rfl, rfl, rfl, rfl, rfl, rfl, rfl⟩

end Sys2Proof.Machine
end

section
/-! PROOF. RESET and the soft start (chapters 3, 8 and 10): each zone is stopped by itself, the later resume point of two stands, and
every block takes its start values (O7). -/

namespace Sys2Proof.Machine

/-! ## What stands of one zone -/

/-- What the machine holds of one zone. -/
structure ZonePart where
  zone   : Zone
  chain  : Chain
  anchor : Nat
  ctx    : Option LinkCtx
  list   : List Entry
  audit  : Audit
  oc     : Concealer

def State.part (s : State) (z : ZoneId) : ZonePart :=
  ⟨s.zone z, s.bs.chain.get z, s.bs.anchor.get z, s.ctx z, s.ru.lists.get z, s.lu.audit.get z, s.oc.get z⟩

/-- The zone at a stop that must wait for its fade. -/
def ZonePart.later (p : ZonePart) : ZonePart := { p with zone := p.zone.stopping, ctx := none }

/-- The zone at a stop that is done at once. -/
def ZonePart.now (p : ZonePart) : ZonePart where
  zone   := { Zone.cold with selected := p.zone.selected }
  chain  := ⟨0, 0, 0⟩
  anchor := 0
  ctx    := none
  list   := []
  audit  := ⟨0, none, none, 0, false⟩
  oc     := p.oc.flushed

def ZonePart.audible (p : ZonePart) : Bool := decide (0 < p.oc.left.gain) || decide (0 < p.oc.right.gain)

/-- The zone at RESET (R53, R170). -/
def ZonePart.reset (p : ZonePart) : ZonePart :=
  if p.zone.play = .stopped ∨ p.zone.stopPending = true then p else if p.audible = true then p.later else p.now

section

variable {s : State} {z : ZoneId}

theorem State.reset_stands (h : (s.zone z).play = .stopped ∨ (s.zone z).stopPending = true) : (s.part z).reset = s.part z :=
  if_pos h

theorem State.reset_later (h : ¬ ((s.zone z).play = .stopped ∨ (s.zone z).stopPending = true)) (ha : s.audible z = true) :
    (s.part z).reset = (s.part z).later := (if_neg h).trans (if_pos ha)

theorem State.reset_now (h : ¬ ((s.zone z).play = .stopped ∨ (s.zone z).stopPending = true)) (ha : s.audible z = false) :
    (s.part z).reset = (s.part z).now := (if_neg h).trans (if_neg (ne_true_of_eq_false ha))

end

/-- The resume point that RESET writes for a zone, where it writes one. -/
def State.stopPoint (s : State) (z : ZoneId) : Option ResumePt :=
  if (s.zone z).play = .stopped ∨ (s.zone z).stopPending = true ∨ s.audible z = true then none else s.unheard z

section

variable {s t : State} {z : ZoneId}

/-- The point goes by what the machine holds of the zone, and by the block memory. -/
theorem State.stopPoint_congr (h : t.part z = s.part z) (hm : t.bs.mem = s.bs.mem) : t.stopPoint z = s.stopPoint z := by
  have hz : t.zone z = s.zone z := congrArg ZonePart.zone h
  have hc : t.bs.chain.get z = s.bs.chain.get z := congrArg ZonePart.chain h
  have ha : t.audible z = s.audible z := congrArg ZonePart.audible h
  have hb (b : Nat) : t.info b = s.info b := by
    unfold State.info Store.bucket
    rw [hm]
  unfold State.stopPoint State.unheard State.headAddr State.fill
  rw [hz, hc, ha, hb]

end

/-! ## One zone stopped -/

/-- What the stop of a zone leaves alone but for the zone, the block pool and the records. -/
structure StopFrame (s t : State) : Prop where
  mem      : t.bs.mem = s.bs.mem
  pins     : t.pins = s.pins
  straps   : t.straps = s.straps
  params   : t.params = s.params
  pc       : t.pc = s.pc
  sm       : t.sm = s.sm
  cl       : t.cl = s.cl
  pending  : t.pending = s.pending
  queue    : t.lm.queue = s.lm.queue
  magazine : t.lm.magazine = s.lm.magazine
  rotation : t.da.rotation = s.da.rotation

theorem StopFrame.trans {s t u : State} (h : StopFrame s t) (k : StopFrame t u) : StopFrame s u :=
  ⟨k.mem.trans h.mem, k.pins.trans h.pins, k.straps.trans h.straps, k.params.trans h.params, k.pc.trans h.pc, k.sm.trans h.sm,
    k.cl.trans h.cl, k.pending.trans h.pending, k.queue.trans h.queue, k.magazine.trans h.magazine, k.rotation.trans h.rotation⟩

/-- A stop of zone `z` that writes the resume point `q`. -/
structure StopOf (z : ZoneId) (q : Option ResumePt) (s t : State) : Prop where
  frame : StopFrame s t
  own   : t.part z = (s.part z).reset
  other : t.part z.other = s.part z.other
  dd    : t.dd = s.dd.resumed (s.zone z).selected q

section

variable {s t : State} {z : ZoneId}

/-- Closing a zone's claim, with any change of the zone, the pool and the records, keeps the frame. -/
theorem StopFrame.of_closed {bs : Store} {bi : Intake} {zc : Pair Zone} {lu : LinkUp} {ru : Reread} {oc : Pair Concealer}
    {dd : Directory} (hm : bs.mem = s.bs.mem) : StopFrame s { s with
      bs := bs, bi := bi, zc := zc, lu := lu, ru := ru, oc := oc, dd := dd
      da := (s.closeZoneClaim z .cancelled).da, lm := (s.closeZoneClaim z .cancelled).lm } := by
  have hl := ((Still.refl s).closeZoneClaim (z := z) (st := .cancelled)).lm
  have hr := ((Calm.refl s).closeZoneClaim (z := z) (st := .cancelled)).rotation
  exact ⟨hm, rfl, rfl, rfl, rfl, rfl, rfl, rfl, (congrArg Loader.queue hl :), (congrArg Loader.magazine hl :), hr⟩

theorem State.stopOf_stoppedLater (h : ¬ ((s.zone z).play = .stopped ∨ (s.zone z).stopPending = true))
    (ha : s.audible z = true) : StopOf z none s (s.stoppedLater z) where
  frame := .of_closed rfl
  own   := by
    rw [State.reset_later h ha]
    cases z <;> rfl
  other := by cases z <;> rfl
  dd    := (s.dd.resumed_none _).symm

theorem State.stopOf_stoppedNow (h : ¬ ((s.zone z).play = .stopped ∨ (s.zone z).stopPending = true))
    (ha : s.audible z = false) : StopOf z (s.unheard z) s (s.stoppedNow z) where
  frame := by
    obtain ⟨-, -, hm⟩ := s.bs.flush_other z
    exact .of_closed hm
  own   := by
    obtain ⟨hc, hn⟩ := s.bs.flush_zone z
    have hp : (s.stoppedNow z).part z =
        { (s.part z).now with chain := (s.bs.flush z).chain.get z, anchor := (s.bs.flush z).anchor.get z } := by cases z <;> rfl
    rw [hp, hc, hn, State.reset_now h ha]
    rfl
  other := by
    obtain ⟨hc, hn, -⟩ := s.bs.flush_other z
    have hp : (s.stoppedNow z).part z.other = { s.part z.other with
        chain := (s.bs.flush z).chain.get z.other, anchor := (s.bs.flush z).anchor.get z.other } := by cases z <;> rfl
    rw [hp, hc, hn]
    rfl
  dd    := s.writeResume_dd z _

end

/-- A zone that is STOPPED, or has a stop pending, stands at RESET. -/
theorem State.resetZone_stands {s : State} {z : ZoneId} (h : (s.zone z).play = .stopped ∨ (s.zone z).stopPending = true) :
    s.resetZone z = s := by
  unfold State.resetZone
  split
  · rfl
  · next hp => exact State.beginStop_pending (h.resolve_left hp)

theorem State.stopOf_resetZone (s : State) (z : ZoneId) : StopOf z (s.stopPoint z) s (s.resetZone z) := by
  by_cases h : (s.zone z).play = .stopped ∨ (s.zone z).stopPending = true
  · have hq : s.stopPoint z = none := if_pos (h.imp_right .inl)
    rw [State.resetZone_stands h, hq]
    exact ⟨⟨rfl, rfl, rfl, rfl, rfl, rfl, rfl, rfl, rfl, rfl, rfl⟩, (State.reset_stands h).symm, rfl, (s.dd.resumed_none _).symm⟩
  · obtain ⟨hp, hn⟩ := not_or.1 h
    have hr : s.resetZone z = s.beginStop z := if_neg hp
    rw [hr]
    cases ha : s.audible z with
    | true =>
      have hq : s.stopPoint z = none := if_pos (.inr (.inr ha))
      rw [State.beginStop_later (eq_false_of_ne_true hn) ha, hq]
      exact State.stopOf_stoppedLater h ha
    | false =>
      have hq : s.stopPoint z = s.unheard z := if_neg (by simp [hp, hn, ha])
      rw [State.beginStop_now (eq_false_of_ne_true hn) ha, hq]
      exact State.stopOf_stoppedNow h ha

/-! ## Both zones stopped (R148, R170) -/

/-- RESET stops each zone by itself, and zone B's resume point is the later. -/
theorem State.resetZones_spec (s : State) : StopFrame s ((s.resetZone .a).resetZone .b) ∧
    (∀ z, ((s.resetZone .a).resetZone .b).part z = (s.part z).reset) ∧
    ((s.resetZone .a).resetZone .b).dd =
      (s.dd.resumed (s.zone .a).selected (s.stopPoint .a)).resumed (s.zone .b).selected (s.stopPoint .b) := by
  have ha := s.stopOf_resetZone .a
  have hb := (s.resetZone .a).stopOf_resetZone .b
  have hz : (s.resetZone .a).zone .b = s.zone .b := congrArg ZonePart.zone ha.other
  refine ⟨ha.frame.trans hb.frame, forall_zones ⟨hb.other.trans ha.own, hb.own.trans (congrArg ZonePart.reset ha.other)⟩, ?_⟩
  have hq : (s.resetZone .a).stopPoint .b = s.stopPoint .b := State.stopPoint_congr ha.other ha.frame.mem
  rw [hb.dd, ha.dd, hz, hq]

/-- The next unheard frame, as the obligation writes it out. -/
theorem State.unheard_eq (s : State) (z : ZoneId) : s.unheard z =
    if s.fill z ≠ 0 then (s.headAddr z).map fun a => (⟨a, (s.zone z).offset⟩ : ResumePt)
    else match (s.zone z).resume with
      | some p => some p
      | none => (s.zone z).nextRead.map fun a => ⟨a, 0⟩ := by
  unfold State.unheard
  cases (s.zone z).resume <;> rfl

/-! ## The soft start (R34, R36, R56, R152, R164, R173) -/

/-- The soft start before a kept fall of the run line begins parking. -/
def State.softStarted (s : State) : State := s.softChanges.reply 0x05 [powerCode .active]

section

variable {s : State}

theorem execSoftStart_active (h : s.softDue = true) (hf : s.pc.runFell = false) :
    exec .softStart s = .next (State.finish s s.softStarted) := by
  have hs : s.softStart = s.softStarted := if_neg (ne_true_of_eq_false hf)
  rw [← hs]
  exact if_pos h

theorem execSoftStart_parks (h : s.softDue = true) (hf : s.pc.runFell = true) :
    exec .softStart s = .next (State.finish s s.softStarted.beginParking) := by
  have hs : s.softStart = s.softStarted.beginParking := if_pos hf
  rw [← hs]
  exact if_pos h

/-- With no command outstanding the drive takes its start values at once, and keeps the rotation table and its pointer (R56). -/
theorem Drive.softStart_idle {d : Drive} (h : d.out = none) :
    d.softStart = { Drive.cold with rotation := d.rotation, rotPtr := d.rotPtr } := by
  unfold Drive.softStart
  rw [h]
  rfl

/-- With a command outstanding the start values are awaited (R56). -/
theorem Drive.softStart_busy {d : Drive} (h : d.out ≠ none) : d.softStart = { d with
    claim := none, hold := .none, graceTimer := .stopped, parkStage := .none, blockTimer := .stopped, idleTimer := .stopped
    removalDue := false, startDue := true } := by
  unfold Drive.softStart
  dsimp only
  split
  · rfl
  · next hn => exact absurd hn h

/-- What a soft start makes of the drive, with a command outstanding or not. -/
theorem Drive.softStart_fields (d : Drive) : d.softStart.claim = none ∧ d.softStart.hold = .none ∧ d.softStart.out = d.out ∧
    d.softStart.rotation = d.rotation ∧ d.softStart.rotPtr = d.rotPtr := by
  by_cases h : d.out = none
  · rw [Drive.softStart_idle h, h]
    exact ⟨rfl, rfl, rfl, rfl, rfl⟩
  · rw [Drive.softStart_busy h]
    exact ⟨rfl, rfl, rfl, rfl, rfl⟩

/-- The return of every bucket empties both zones and the intake (R34). -/
theorem Store.returnAll_empty (st : Store) : (∀ z, st.returnAll.chain.get z = ⟨0, 0, 0⟩ ∧ st.returnAll.anchor.get z = 0) ∧
    st.returnAll.intake = 0 := by
  obtain ⟨hc, ha, -⟩ := (st.discard.flush .a).flush_other .b
  refine ⟨forall_zones ⟨?_, (st.discard.flush .a).flush_zone .b⟩, ?_⟩
  · obtain ⟨hac, haa⟩ := st.discard.flush_zone .a
    exact ⟨hc.trans hac, ha.trans haa⟩
  · have hi (st : Store) (z : ZoneId) : (st.flush z).intake = st.intake := by
      obtain ⟨-, -, hall, -⟩ := st.releaseAll_fields (st.chainOf z)
      obtain ⟨-, hrel, -⟩ := Store.releaseAnchor_fields
        { st.releaseAll (st.chainOf z) with chain := (st.releaseAll (st.chainOf z)).chain.set z ⟨0, 0, 0⟩ } z
      exact hrel.trans hall
    refine (hi _ .b).trans ((hi _ .a).trans ?_)
    unfold Store.discard
    split
    · next h => exact h
    · rfl

theorem Store.freeCount_returnAll {st : Store} (h : st.sound) : st.returnAll.freeCount = 4095 := by
  have ht := Store.total_of_sound (Store.sound_returnAll h)
  obtain ⟨hz, hi⟩ := st.returnAll_empty
  generalize st.returnAll = u at ht hz hi
  obtain ⟨hca, haa⟩ : u.chain.a = ⟨0, 0, 0⟩ ∧ u.anchor.a = 0 := hz .a
  obtain ⟨hcb, hab⟩ : u.chain.b = ⟨0, 0, 0⟩ ∧ u.anchor.b = 0 := hz .b
  simpa [Store.total, hca, haa, hcb, hab, hi] using ht

end

section

variable (s : State) (z : ZoneId)

theorem State.softStarted_eq : s.softStarted = { s with
    bs := s.bs.returnAll
    bi := ⟨none, 1, none⟩
    zc := ⟨s.zc.a.restart, s.zc.b.restart⟩
    da := s.da.softStart
    lu := .start
    sm := .start
    ru := .start
    oc := .both .start
    dd := s.dd.departAll
    lm := .start s.pins.magClosed (ms (8 * s.params.magDebounce))
    pc := ⟨.active, s.pc.checkSum, none, false, false, false, false⟩
    cl := ({ s.cl with notices := [], hush := false, lost := false } : Link).formReply ⟨0x45, [0]⟩ } := by
  unfold State.softStarted State.softChanges State.restartBlocks State.reply State.modDa State.modCl
  rfl

theorem State.zone_softStarted : s.softStarted.zone z = { Zone.cold with selected := (s.zone z).selected } := by
  cases z <;> rfl

/-- After a soft start no zone has a resume point to write, nor marks to clear. -/
theorem State.hushed_softStarted :
    s.softStarted.hushed.zone z = s.softStarted.zone z ∧ s.softStarted.hushed.dd = s.softStarted.dd := by
  have hq (w : ZoneId) : s.softStarted.parkPoint w = none := if_pos (by rw [s.zone_softStarted]; rfl)
  refine ⟨(s.softStarted.zone_hushed z).trans (if_pos (by rw [s.zone_softStarted]; rfl)), ?_⟩
  show (s.softStarted.dd.resumed _ _).resumed _ _ = _
  rw [hq, hq, Directory.resumed_none, Directory.resumed_none]

theorem State.allSilent_softStarted : s.softStarted.allSilent = true :=
  (State.allSilent_iff _).2 fun w d => by cases w <;> cases d <;> rfl

end

/-- Parking that begins while there is no hold to end or to withdraw. -/
theorem State.beginParking_free {s : State} (hh : s.da.hold = .none) : ∃ da pc, s.beginParking = { s.hushed with da := da, pc := pc } ∧
    pc = { s.hushed.pc with driveDone := decide (s.da.state = .fault) } ∧
    (s.da.state ≠ .fault → da = { s.da with parkStage := .waiting }) := by
  rw [State.beginParking_eq]
  by_cases h : s.da.state = .fault
  · obtain ⟨da, he⟩ := State.askParking_fault (s := s.hushed) h
    exact ⟨da, _, he, by simp [h], fun hn => absurd h hn⟩
  · have hk : s.hushed.askParking = s.hushed.modDa fun d => { d with parkStage := .waiting } := by
      have hu : s.hushed.da.hold = .none := hh
      unfold State.askParking
      rw [if_neg (show ¬ s.hushed.da.state = .fault from h), hu]
    exact ⟨_, s.hushed.pc, hk, by simp [h, State.hushed], fun _ => rfl⟩

section

variable {s : State}

/-! ## The obligation's parts -/

theorem State.exec_stop_record {zb : Byte} {z : ZoneId} {i : Nat} {r : DiscRecord} {p : ResumePt} (hs : s.listening)
    (hz : zoneOf s.straps zb = some z) (hp : (s.zone z).play ≠ .stopped) (hn : (s.zone z).stopPending = false)
    (ha : s.audible z = false) (hsel : (s.zone z).selected = some i) (hr : s.record i = some r) (hq : s.unheard z = some p) :
    ∃ e : State, exec (.stop [zb]) s = .next (State.finish s e) ∧ e.record i = some { r with resume := some p } := by
  refine ⟨_, hs.accepts (ownStop_now hz hp hn ha), ?_⟩
  have hdd : ((s.asked ⟨0x14, [zb]⟩).stoppedNow z).dd = s.dd.resumed (s.zone z).selected (s.unheard z) :=
    (s.asked ⟨0x14, [zb]⟩).writeResume_dd z _
  rw [hsel, hq] at hdd
  exact (congrArg (fun d : Directory => d.records[i]?) hdd).trans (Directory.resumed_same hr)

/-- A zone that does not stop at once writes nothing. -/
theorem State.stopPoint_none {z : ZoneId}
    (h : ¬ ((s.zone z).play ≠ .stopped ∧ (s.zone z).stopPending = false ∧ s.audible z = false)) : s.stopPoint z = none :=
  if_pos (by
    by_contra hn
    simp only [not_or, Bool.not_eq_true] at hn
    exact h hn)

theorem State.stopPoint_now {z : ZoneId} (hp : (s.zone z).play ≠ .stopped) (hn : (s.zone z).stopPending = false)
    (ha : s.audible z = false) : s.stopPoint z = s.unheard z := if_neg (by simp [hp, hn, ha])

/-- Of the resume points that RESET writes, the later of two to one record stands (R148). -/
theorem State.record_resetZones {z : ZoneId} {i : Nat} {r : DiscRecord} {p : ResumePt} (hsel : (s.zone z).selected = some i)
    (hr : s.record i = some r) (hq : s.stopPoint z = some p)
    (hb : z = .b ∨ (s.zone .b).selected ≠ some i ∨ s.stopPoint .b = none) :
    ((s.resetZone .a).resetZone .b).record i = some { r with resume := some p } := by
  obtain ⟨-, -, hdd⟩ := s.resetZones_spec
  unfold State.record
  rw [hdd]
  exact Directory.resumed_both (sel := fun z => (s.zone z).selected) hsel hr hq hb

theorem exec_reset (hs : s.listening) : exec (.reset []) s =
    .next (State.finish s (((s.asked ⟨0x05, []⟩).resetZone .a).resetZone .b)) :=
  hs.answers (own := ownReset) rfl (Nat.zero_le _)

theorem State.parks_softStarted : ∃ da pc, s.softStarted.beginParking = { s.softStarted.hushed with da := da, pc := pc } ∧
    pc.state = .parking ∧ pc.silence = true ∧ pc.silenceDone = true ∧ pc.runFell = false ∧
    (s.da.out = none → pc.driveDone = false ∧ da.parkStage = .waiting ∧ da.state = .down) := by
  obtain ⟨-, hhold, -⟩ := s.da.softStart_fields
  obtain ⟨da, pc, he, hpc, hda⟩ := State.beginParking_free (s := s.softStarted) hhold
  refine ⟨da, pc, he, ?_⟩
  rw [hpc]
  refine ⟨rfl, rfl, s.allSilent_softStarted, rfl, fun ho => ?_⟩
  have hcold : s.softStarted.da = { Drive.cold with rotation := s.da.rotation, rotPtr := s.da.rotPtr } := Drive.softStart_idle ho
  have hnf : s.softStarted.da.state ≠ .fault := by
    rw [hcold]
    nofun
  rw [hda hnf, hcold]
  exact ⟨rfl, rfl, rfl⟩

end

/-- Settles O7: RESET by its two zones, STOP by the record that it writes, and the soft start by the fall of the run line. -/
theorem resetStopsTheZonesAndRestarts : Obligations.ResetStopsTheZonesAndRestarts := by
  unfold Obligations.ResetStopsTheZonesAndRestarts
  intro point stopsAtOnce
  have hpoint (s : State) (z : ZoneId) : point s z = s.unheard z := (s.unheard_eq z).symm
  refine ⟨fun s hs => ?_, fun s zb z i r p hs hz hstop hsel hr hq => ?_, fun s hd hf => ?_, fun s hd hf => ?_⟩
  · obtain ⟨hfr, hparts, hdd⟩ := (s.asked ⟨0x05, []⟩).resetZones_spec
    refine ⟨_, exec_reset hs, ?_, fun z => ⟨fun h => ?_, fun hp hn ha => ?_, fun hstop => ?_⟩, hfr.pins, hfr.straps, hfr.params,
      hfr.pc, hfr.sm, hfr.queue, hfr.magazine, hfr.pending, hfr.rotation, fun ha hb => ?_⟩
    · rw [hfr.cl]
      rfl
    · exact congrArg ZonePart.zone ((hparts z).trans (State.reset_stands h))
    · have h : ¬ ((s.zone z).play = .stopped ∨ (s.zone z).stopPending = true) := by simp [hp, hn]
      have hpart := (hparts z).trans (State.reset_later h ha)
      exact ⟨congrArg ZonePart.zone hpart, congrArg ZonePart.chain hpart, congrArg ZonePart.ctx hpart⟩
    · obtain ⟨hp, hn, ha⟩ := hstop
      have h : ¬ ((s.zone z).play = .stopped ∨ (s.zone z).stopPending = true) := by simp [hp, hn]
      have hpart := (hparts z).trans (State.reset_now h ha)
      refine ⟨congrArg ZonePart.zone hpart, congrArg ZonePart.chain hpart, congrArg ZonePart.anchor hpart,
        congrArg ZonePart.ctx hpart, congrArg ZonePart.list hpart, congrArg ZonePart.audit hpart, fun i r p hsel hr hq hb => ?_⟩
      refine State.record_resetZones hsel hr ((State.stopPoint_now hp hn ha).trans ((hpoint s z).symm.trans hq))
        (hb.imp_right fun hb => ?_)
      by_cases hbs : stopsAtOnce s .b
      · obtain ⟨hp', hn', ha'⟩ := hbs
        have hqb : (s.asked ⟨0x05, []⟩).stopPoint .b = point s .b := (State.stopPoint_now hp' hn' ha').trans (hpoint s .b).symm
        exact (hb.resolve_left (not_not_intro ⟨hp', hn', ha'⟩)).imp_right hqb.trans
      · exact .inr (State.stopPoint_none hbs)
    · have hra : (s.asked ⟨0x05, []⟩).resetZone .a = s.asked ⟨0x05, []⟩ := State.resetZone_stands (.inl ha)
      have hrb : (s.asked ⟨0x05, []⟩).resetZone .b = s.asked ⟨0x05, []⟩ := State.resetZone_stands (.inl hb)
      rw [hra, hrb]
      rfl
  · obtain ⟨hp, hn, ha⟩ := hstop
    exact State.exec_stop_record hs hz hp hn ha hsel hr ((hpoint s z).symm.trans hq)
  · obtain ⟨da, pc, he, hstate, hsil, hdone, hfell, hdrive⟩ := s.parks_softStarted
    have hzone (z : ZoneId) : s.softStarted.hushed.zone z = { Zone.cold with selected := (s.zone z).selected } :=
      (s.hushed_softStarted z).1.trans (s.zone_softStarted z)
    have hdd : s.softStarted.hushed.dd.records = s.softStarted.dd.records :=
      congrArg Directory.records (s.hushed_softStarted .a).2
    refine ⟨s.softStarted.beginParking, execSoftStart_parks hd hf, ?_⟩
    have hcl : s.softStarted.hushed.cl = s.softStarted.cl := rfl
    rw [he]
    generalize s.softStarted.hushed = u at hzone hdd hcl
    exact ⟨hstate, hsil, hdone, hfell, hdrive, hzone, hdd, hcl⟩
  · obtain ⟨hclaim, hhold, hout, hrot, hptr⟩ := s.da.softStart_fields
    obtain ⟨hempty, hintake⟩ := s.bs.returnAll_empty
    refine ⟨s.softStarted, execSoftStart_active hd hf, ?_⟩
    rw [s.softStarted_eq]
    dsimp only
    refine ⟨⟨rfl, rfl, rfl, rfl, hrot, hptr, rfl⟩, fun z => ⟨?_, (hempty z).1, (hempty z).2, ?_⟩, hintake,
      fun h => ⟨Store.sound_returnAll h, Store.freeCount_returnAll h⟩, rfl, rfl, rfl, rfl, rfl, rfl,
      ⟨hclaim, hhold, hout, Drive.softStart_idle, fun h => ?_⟩, rfl, rfl, rfl⟩
    · cases z <;> rfl
    · cases z <;> rfl
    · rw [Drive.softStart_busy h]
      exact ⟨rfl, rfl⟩

end Sys2Proof.Machine
end

section
/-! PROOF. What changes the straps, the parameters, the selections and the rotation table of a part that stays powered (chapters 3, 4
and 11): only the requests that are for it (O14). -/

namespace Sys2Proof.Machine

/-- From `s` to `t` the straps stand, and so do the parameters when `pa` holds, the selections when `se`, and the rotation table when
`ro`. -/
structure Settled (pa se ro : Prop) (s t : State) : Prop where
  straps   : t.straps = s.straps
  params   : pa → t.params = s.params
  selected : se → ∀ z, (t.zone z).selected = (s.zone z).selected
  rotation : ro → t.da.rotation = s.da.rotation

/-! ## The owners whose answers are calm -/

namespace Calm

variable {form : Form}

theorem ownEcho : OwnerLaw Calm form ownEcho := fun s _ _ => .refl s

theorem ownIdentify : OwnerLaw Calm form ownIdentify := fun s _ _ => .refl s

theorem ownQueryParam : OwnerLaw Calm form ownQueryParam := fun s _ _ => by
  unfold Machine.ownQueryParam
  split
  · exact .refl s
  · trivial

theorem ownReset : OwnerLaw Calm form ownReset := fun s _ _ => (Calm.refl s).resetZone.resetZone

theorem ownPlay : OwnerLaw Calm form ownPlay := fun s _ _ => StepLaw.meets_onZone fun _ => by
  unfold State.play
  refine StepLaw.meets_ite (fun _ => trivial) fun _ => StepLaw.meets_ite (fun _ => trivial) fun _ => ?_
  split
  · trivial
  · exact (Calm.refl s).startZone

theorem ownPause : OwnerLaw Calm form ownPause := fun s _ _ => StepLaw.meets_onZone fun _ => by
  split
  · exact (Calm.refl s).pause ‹_›
  · trivial

theorem ownResume : OwnerLaw Calm form ownResume := fun s _ _ => StepLaw.meets_onZone fun _ =>
  StepLaw.meets_ite (fun _ => trivial) fun _ => (Calm.refl s).unpause

theorem ownStop : OwnerLaw Calm form ownStop := fun s _ _ => StepLaw.meets_onZone fun _ =>
  StepLaw.meets_ite (fun _ => trivial) fun _ => (Calm.refl s).beginStop

theorem ownSeek : OwnerLaw Calm form ownSeek := fun s _ _ => StepLaw.meets_onZone fun _ =>
  StepLaw.meets_ite (fun _ => trivial) fun _ => StepLaw.meets_ite (fun _ => (Calm.refl s).beginSeek) fun _ => trivial

theorem ownZoneStatus : OwnerLaw Calm form ownZoneStatus := fun s _ _ => StepLaw.meets_onZone fun _ => .refl s

theorem ownHoldPickup : OwnerLaw Calm form ownHoldPickup := fun s _ _ => StepLaw.meets_ite (fun _ => trivial) fun _ => by
  cases s.da.hold with
  | none => exact (Calm.refl s).modDa
  | lapsed => exact (Calm.refl s).modDa
  | queued => trivial
  | granted => trivial
  | revoking => trivial

theorem ownReleasePickup : OwnerLaw Calm form ownReleasePickup := fun s _ _ => by
  unfold Machine.ownReleasePickup
  cases s.da.hold with
  | none => trivial
  | queued => exact (Calm.refl s).modDa
  | granted => exact (Calm.refl s).endHold
  | revoking => exact (Calm.refl s).endHold
  | lapsed => exact (Calm.refl s).modDa

theorem ownEject : OwnerLaw Calm form ownEject := fun s _ _ =>
  StepLaw.meets_ite (fun _ => (Calm.refl s).takeEject.ejectOrWait) fun _ => trivial

theorem ownResetDrive : OwnerLaw Calm form ownResetDrive := fun s _ _ =>
  StepLaw.meets_ite (fun _ => (Calm.refl s).moveDa.zoneReset.zoneReset) fun _ => trivial

theorem ownDiscRecord : OwnerLaw Calm form ownDiscRecord := fun s _ _ => StepLaw.meets_onRecord fun _ _ => by
  simp only [Answer.meets]
  split
  · exact (Calm.refl s).useFree
  · exact .refl s

theorem ownDefectList : OwnerLaw Calm form ownDefectList := fun s _ _ => StepLaw.meets_onRecord fun _ _ =>
  StepLaw.meets_ite (fun _ => trivial) fun _ => .refl s

theorem ownTrackList : OwnerLaw Calm form ownTrackList := fun s _ _ => StepLaw.meets_onRecord fun _ _ =>
  StepLaw.meets_ite (fun _ => trivial) fun _ => .refl s

theorem ownForgetDisc : OwnerLaw Calm form ownForgetDisc := fun s _ _ => StepLaw.meets_onRecord fun i _ =>
  StepLaw.meets_ite (fun _ => trivial) fun _ => StepLaw.meets_ite (fun _ => .refl s) fun _ =>
    (Calm.refl s).modDd ⟨fun h => Directory.lawful_modRecord i h fun _ _ => discRegions_nil, Directory.ranked_blank i⟩

end Calm

/-- A frame whose kind is no request kind is tested as such (R175). -/
theorem State.takeFrame_unknown {s : State} {f : Frame} (h : f.kind.toNat ∉ requestKinds) :
    s.takeFrame f = s.takeUnknown f.kind f.body := by
  unfold State.takeFrame
  split
  case h_25 => rfl
  all_goals next hk => exact absurd (by rw [hk]; decide) h

namespace Settled

variable {pa se ro : Prop} {s t u : State}

theorem trans (h : Settled pa se ro s t) (k : Settled pa se ro t u) : Settled pa se ro s u :=
  ⟨k.straps.trans h.straps, fun p => (k.params p).trans (h.params p), fun p z => (k.selected p z).trans (h.selected p z),
    fun p => (k.rotation p).trans (h.rotation p)⟩

theorem calm (h : Calm s t) : Settled pa se ro s t :=
  ⟨h.straps, fun _ => h.params, fun _ => h.selected, fun _ => h.rotation⟩

/-- A calm change after others. -/
theorem next (h : Settled pa se ro s t) (k : Calm t u) : Settled pa se ro s u := h.trans (calm k)

/-! ## Changes that are not calm -/

theorem pins (s : State) (f : Pins → Pins) : Settled pa se ro s (s.modPins f) :=
  ⟨rfl, fun _ => rfl, fun _ _ => rfl, fun _ => rfl⟩

theorem link (s : State) (f : Link → Link) : Settled pa se ro s (s.modCl f) :=
  ⟨rfl, fun _ => rfl, fun _ _ => rfl, fun _ => rfl⟩

theorem reply (s : State) (k : Byte) (b : List Byte) : Settled pa se ro s (s.reply k b) := link s _

theorem refuse (s : State) (k : Byte) (r : Reason) : Settled pa se ro s (s.refuse k r) := link s _

theorem power (s : State) (f : Power → Power) : Settled pa se ro s (s.modPc f) :=
  ⟨rfl, fun _ => rfl, fun _ _ => rfl, fun _ => rfl⟩

theorem gains (s : State) (z : ZoneId) (f : Concealer → Concealer) : Settled pa se ro s (s.modOc z f) :=
  ⟨rfl, fun _ => rfl, fun _ _ => rfl, fun _ => rfl⟩

theorem beginParking (h : Settled pa se ro s t) : Settled pa se ro s t.beginParking :=
  (h.trans (power t _)).next (Calm.refl _).parkZone.parkZone.modPc.modSm.reportSilence.askParking

theorem runFalls (h : Settled pa se ro s t) : Settled pa se ro s t.runFalls := by
  unfold State.runFalls
  split
  · split
    · exact h.next (Calm.refl _).modPc
    · exact h.beginParking
  · exact h

/-- A soft start keeps what it is to keep (R36, R56, R170). -/
theorem softStart (s : State) : Settled pa se ro s s.softStart := by
  have h : Settled pa se ro s s.softStarted := by
    rw [s.softStarted_eq]
    obtain ⟨-, -, -, hrot, -⟩ := s.da.softStart_fields
    exact ⟨rfl, fun _ => rfl, fun _ z => by cases z <;> rfl, fun _ => hrot⟩
  unfold State.softStart
  dsimp only
  split
  · exact h.beginParking
  · exact h

theorem frameEvent (s : State) (z : ZoneId) : Settled pa se ro s (s.frameEvent z) := by
  unfold State.frameEvent
  split
  · exact calm (Calm.refl s).modOc
  · unfold State.frame
    dsimp only
    split
    · exact (gains s z _).next (Calm.refl _).afterDraw.reportZero.reportSilence
    · exact (gains s z _).next (Calm.refl _).reportZero.reportSilence

/-! ## Requests (R175) -/

theorem answer {k : Byte} {a : Answer} (h : Settled pa se ro s t) (ha : a.meets (Settled pa se ro) t) :
    Settled pa se ro s (t.answer k a) := by
  cases a with
  | accepted u b => exact (h.trans ha).trans (reply u k b)
  | unanswered u => exact h.trans ha
  | rejected r => exact h.trans (refuse t k r)

theorem takeRequest {k : Byte} {body : List Byte} {form : Form} {own : State → List Byte → Answer}
    (ho : OwnerLaw (Settled pa se ro) form own) (h : Settled pa se ro s t) : Settled pa se ro s (t.takeRequest k body form own) := by
  unfold State.takeRequest
  split
  · exact h
  · split
    · exact h.trans (link t _)
    · have h1 : Settled pa se ro s (t.openRequest ⟨k, body⟩) := h.trans (link t _)
      unfold State.handle
      dsimp only
      split
      · exact h1.trans (refuse _ _ _)
      · next hlen =>
        split
        · exact h1.trans (refuse _ _ _)
        · exact h1.answer (ho _ _ fun hs => not_not.1 fun hne => hlen ⟨hs, hne⟩)

theorem takeUnknown {k : Byte} {body : List Byte} (h : Settled pa se ro s t) : Settled pa se ro s (t.takeUnknown k body) := by
  unfold State.takeUnknown
  split
  · exact h
  · split
    · exact h.trans (link t _)
    · exact (h.trans (link t _)).trans (refuse _ _ _)

/-! ## The owners -/

section

variable {form : Form} {own : State → List Byte → Answer}

theorem ownCalm (h : OwnerLaw Calm form own) : OwnerLaw (Settled pa se ro) form own := fun s body hb => by
  have hm := h s body hb
  cases ha : own s body with
  | accepted t b =>
    rw [ha] at hm
    exact calm hm
  | unanswered t =>
    rw [ha] at hm
    exact calm hm
  | rejected r => trivial

theorem ownStandby : OwnerLaw (Settled pa se ro) form ownStandby := fun s _ _ => (calm (.refl s)).beginParking

theorem ownHush : OwnerLaw (Settled pa se ro) form ownHush := fun s _ _ =>
  StepLaw.meets_ite (fun _ => link s _) fun _ => trivial

theorem ownDeviceStatus : OwnerLaw (Settled pa se ro) form ownDeviceStatus := fun s _ _ => link s _

/-- CONFIGURE changes no more than the parameters. -/
theorem ownConfigure (hpa : ¬ pa) : OwnerLaw (Settled pa se ro) form ownConfigure := fun s _ _ => by
  unfold Machine.ownConfigure
  dsimp only
  split
  · trivial
  · next p v _ =>
    have h1 : Settled pa se ro s (s.modParams fun _ => p) := ⟨rfl, fun h => absurd h hpa, fun _ _ => rfl, fun _ => rfl⟩
    simp only [Answer.meets]
    split
    · exact h1.next (Calm.refl _).testReady.testReady
    · exact h1

/-- SELECT changes no more than a selection. -/
theorem ownSelect (hse : ¬ se) : OwnerLaw (Settled pa se ro) form ownSelect := fun s _ _ => StepLaw.meets_onZone fun z => by
  unfold State.select
  refine StepLaw.meets_ite (fun _ => trivial) fun _ => StepLaw.meets_ite (fun _ => trivial) fun _ => ?_
  split
  · trivial
  · exact ⟨rfl, fun _ => rfl, fun h => absurd h hse, fun _ => rfl⟩

/-- SET-ROTATION changes no more than the rotation table and its pointer. -/
theorem ownSetRotation (hro : ¬ ro) : OwnerLaw (Settled pa se ro) form ownSetRotation := fun s _ _ => by
  unfold Machine.ownSetRotation
  split
  · exact ⟨rfl, fun _ => rfl, fun _ _ => rfl, fun h => absurd h hro⟩
  · trivial

end

/-! ## Commands to a part that is powered (R164) -/

theorem whenPowered {f : State → State} (hp : s.pc.state ≠ .parked) (h : s.whenPowered f = .next t)
    (hf : Settled pa se ro s (f s)) : Settled pa se ro s t := by
  rw [State.whenPowered, if_neg hp] at h
  cases h
  exact hf.next (Calm.refl _).finish

theorem orWake {x : WakeSource} {f : State → State} (hp : s.pc.state ≠ .parked) (h : s.orWake x f = .next t)
    (hf : Settled pa se ro s (f s)) : Settled pa se ro s t := by
  rw [State.orWake, if_neg hp] at h
  cases h
  exact hf.next (Calm.refl _).finish

theorem calmly {f : State → State} (hp : s.pc.state ≠ .parked) (h : s.whenPowered f = .next t) (hf : Calm s (f s)) :
    Settled pa se ro s t := whenPowered hp h (calm hf)

theorem completed {n : ServoName} {f : Outstanding → State → State} (hp : s.pc.state ≠ .parked)
    (h : s.whenPowered (fun u => u.complete n f) = .next t)
    (hf : ∀ o u, Calm s u → u.da.state ≠ .held ∧ u.da.state ≠ .fault → Calm s (f o u)) : Settled pa se ro s t :=
  calmly hp h ((Calm.refl s).complete hf)

theorem request {k : Byte} {body : List Byte} {form : Form} {own : State → List Byte → Answer} (hp : s.pc.state ≠ .parked)
    (ho : OwnerLaw (Settled pa se ro) form own) (h : s.request k body form own = .next t) : Settled pa se ro s t :=
  orWake hp h (takeRequest ho (link s _))

theorem unknownKindFrame {k : Byte} {body : List Byte} (hp : s.pc.state ≠ .parked) (hk : k.toNat ∉ requestKinds)
    (h : execUnknownKindFrame k body s = .next t) : Settled pa se ro s t := by
  refine orWake hp h ?_
  rw [State.takeFrame_unknown hk]
  exact takeUnknown (link s _)

theorem onSwitch {b : Bool} {f : State → State} (hp : s.pc.state ≠ .parked) (h : s.onSwitch b f = .next t)
    (hf : ∀ u, Calm u (f u)) : Settled pa se ro s t := by
  unfold State.onSwitch at h
  split at h
  · cases h
    exact calm (.refl s)
  · dsimp only at h
    cases h
    exact (pins s _).next (hf _).finish

/-- A command that sets the level of a pin and does more. -/
theorem levelled {f : Pins → Pins} {v : State} (hp : s.pc.state ≠ .parked)
    (h : (if s.pc.state = .parked then Host.Outcome.next (s.modPins f) else .next (State.finish s v)) =
      (.next t : Host.Outcome State Fault Refusal)) (hv : Settled pa se ro (s.modPins f) v) : Settled pa se ro s t := by
  rw [if_neg hp] at h
  cases h
  exact ((pins s f).trans hv).next (Calm.refl _).finish

theorem transmitFrameDone (hp : s.pc.state ≠ .parked) (h : execTransmitFrameDone s = .next t) : Settled pa se ro s t :=
  whenPowered (f := fun u => u.modCl Link.sent) hp h (link s Link.sent)

theorem runLineRises (hp : s.pc.state ≠ .parked) (h : execRunLineRises s = .next t) : Settled pa se ro s t := by
  unfold execRunLineRises at h
  dsimp only at h
  rw [if_neg hp] at h
  cases h
  exact (pins s _).next (Calm.refl _).runRises.finish

/-- A wake event finds a part that is powered awake (R169). -/
theorem wake {x : WakeSource} {straps : Straps} (hp : s.pc.state ≠ .parked) (h : execWake x straps s = .next t) :
    Settled pa se ro s t := by
  rw [execWake, if_neg hp] at h
  cases h
  exact calm (.refl s)

theorem execSoftStart (h : execSoftStart s = .next t) : Settled pa se ro s t := by
  unfold Machine.execSoftStart at h
  split at h
  · cases h
    exact (softStart s).next (Calm.refl _).finish
  · cases h
    exact calm (.refl s)

/-- Every command but those that carry other frames, and the starts. -/
theorem exec {c : Instr} (hp : s.pc.state ≠ .parked) (h : exec c s = .next t) (hup : ∀ p, c ≠ .powerUp p) (hent : c ≠ .enterParked)
    (hk : ∀ k b, c = .unknownKindFrame k b → k.toNat ∉ requestKinds) (hd : ∀ l, c ≠ .frameDiscarded l)
    (hg : ∀ l, c ≠ .linkGapTimeout l) :
    Settled (∀ b, c ≠ .configure b) (∀ b, c ≠ .select b) (∀ b, c ≠ .setRotation b) s t := by
  have h0 := Calm.refl s
  cases c with
  | echo body => exact request hp (ownCalm Calm.ownEcho) h
  | identify body => exact request hp (ownCalm Calm.ownIdentify) h
  | configure body => exact request hp (ownConfigure fun k => k body rfl) h
  | queryParam body => exact request hp (ownCalm Calm.ownQueryParam) h
  | reset body => exact request hp (ownCalm Calm.ownReset) h
  | standby body => exact request hp ownStandby h
  | hush body => exact request hp ownHush h
  | deviceStatus body => exact request hp ownDeviceStatus h
  | setRotation body => exact request hp (ownSetRotation fun k => k body rfl) h
  | select body => exact request hp (ownSelect fun k => k body rfl) h
  | play body => exact request hp (ownCalm Calm.ownPlay) h
  | pause body => exact request hp (ownCalm Calm.ownPause) h
  | resume body => exact request hp (ownCalm Calm.ownResume) h
  | stop body => exact request hp (ownCalm Calm.ownStop) h
  | seek body => exact request hp (ownCalm Calm.ownSeek) h
  | zoneStatus body => exact request hp (ownCalm Calm.ownZoneStatus) h
  | holdPickup body => exact request hp (ownCalm Calm.ownHoldPickup) h
  | releasePickup body => exact request hp (ownCalm Calm.ownReleasePickup) h
  | eject body => exact request hp (ownCalm Calm.ownEject) h
  | resetDrive body => exact request hp (ownCalm Calm.ownResetDrive) h
  | discRecord body => exact request hp (ownCalm Calm.ownDiscRecord) h
  | defectList body => exact request hp (ownCalm Calm.ownDefectList) h
  | trackList body => exact request hp (ownCalm Calm.ownTrackList) h
  | forgetDisc body => exact request hp (ownCalm Calm.ownForgetDisc) h
  | unknownKindFrame kind body => exact unknownKindFrame hp (hk kind body rfl) h
  | frameDiscarded bytes => exact absurd rfl (hd bytes)
  | linkGapTimeout bytes => exact absurd rfl (hg bytes)
  | transmitFrameDone => exact transmitFrameDone hp h
  | blockPresented block => exact calmly (f := fun u => u.present block) hp h h0.present
  | frameEvent z => exact whenPowered (f := fun u => u.frameEvent z) hp h (frameEvent s z)
  | loadDone => exact completed hp h fun _ _ k _ => k.loadCompletes
  | unloadDone => exact completed hp h fun _ _ k _ => k.unloadCompletes
  | spinDone => exact completed hp h fun _ _ k _ => k.spinCompletes
  | seekDone => exact completed hp h fun _ _ k _ => k.seekCompletes
  | pauseDone => exact completed hp h fun _ _ k _ => k.pauseCompletes
  | latchOpenDone => exact completed hp h fun _ _ k _ => k.latchCompletes
  | abortDone => exact completed hp h fun _ _ k hs => k.abortCompletes hs
  | commandFailed cmd reason => exact completed hp h fun _ _ k hs => k.failed hs
  | trackLost => exact calmly hp h h0.trackingLost
  | commandTimeout => exact calmly hp h h0.timeout
  | blockTimerExpiry => exact calmly hp h h0.blockTimeout
  | graceTimerExpiry => exact calmly hp h h0.graceExpires
  | idleTimerExpiry => exact calmly hp h h0.idleExpires
  | shockRise => exact levelled hp h (calm (Calm.refl _).modSm.shockCancels)
  | shockFall => exact levelled hp h (calm (Calm.refl _).startSettle)
  | settleTimerExpiry => exact calmly hp h h0.settled
  | windowTimerExpiry => exact calmly hp h h0.windowEnds
  | magazineSwitchCloses => exact onSwitch hp h fun u => (Calm.refl u).switchCloses
  | magazineSwitchOpens => exact onSwitch hp h fun u => (Calm.refl u).switchOpens
  | debounceTimerExpiry => exact calmly hp h h0.debounced
  | slotTimerExpiry => exact calmly hp h h0.slotExpires
  | ejectButton => exact calmly hp h h0.pressButton
  | latchTimerExpiry => exact calmly hp h h0.latchExpires
  | runLineFalls => exact levelled hp h (runFalls (calm (.refl _)))
  | runLineRises => exact runLineRises hp h
  | enterParked => exact absurd rfl hent
  | wake source straps => exact wake hp h
  | softStart => exact execSoftStart h
  | powerUp pins => exact absurd rfl (hup pins)

end Settled

/-- Settles O14: by the kind of command, for all four settings at once. -/
theorem settingsChangeByTheirRequestsOnly : Obligations.SettingsChangeByTheirRequestsOnly := by
  intro c s t hp h hup hent hk hd hg
  obtain ⟨hstraps, hparams, hsel, hrot⟩ := Settled.exec hp h hup hent hk hd hg
  exact ⟨hstraps, hparams, hsel, hrot⟩

end Sys2Proof.Machine
end

section
/-! PROOF. The drive command bus (chapter 4): no command is outstanding in HELD and in FAULT, and the rotation table stays whole
(O11). -/

namespace Sys2Proof.Machine

/-- What keeps the drive command bus is a law of every step: calm changes keep it, a table that SET-ROTATION takes has sixteen
entries, and a cold start begins with no command outstanding and the default table. -/
theorem stepLaw_kept : StepLaw fun s t => s.da.kept → t.da.kept where
  trans h k x := k (h x)
  calm h := h.kept
  queue _ _ := id
  pins _ _ := id
  link _ _ _ := id
  power _ _ := id
  gains _ _ := id
  select _ _ _ := id
  rotation _ _ hl := fun ⟨hout, _, _⟩ => ⟨hout, hl, Nat.zero_lt_succ 15⟩
  configure _ _ _ _ _ _ _ := id
  restart _ := id
  cold _ _ _ := ⟨fun _ => rfl, rfl, Nat.zero_lt_succ 15⟩

/-- Settles O11: the law of the drive command bus is a law of every step. -/
theorem stepKeepsTheDriveBus : Obligations.StepKeepsTheDriveBus := fun _ _ hk h => stepLaw_kept.step h hk

end Sys2Proof.Machine
end

section
/-! PROOF. CONFIGURE of a parameter that is not per zone (chapter 11): the value clamped to its range, and what stands (O23). -/

namespace Sys2Proof.Machine

/-- From `p` to `q` only the parameter `id`, which is not per zone, has changed: its value is `w` (R180, R181). -/
def singleSet (p q : Params) (id w : Nat) : Prop :=
  singleParam q id = some w ∧ (∀ j, j ≠ id → singleParam q j = singleParam p j) ∧ q.quota = p.quota ∧ q.lowWater = p.lowWater ∧
    q.startThr = p.startThr ∧ q.restartThr = p.restartThr

/-- A value that is applied to a parameter that is not per zone changes that parameter alone (R180). -/
theorem setSingle_applied {p q : Params} {id v w : Nat} (h : setSingle p id v = .applied q w) : singleSet p q id w := by
  unfold setSingle at h
  split at h
  all_goals cases h
  all_goals
    refine ⟨rfl, fun j hj => ?_, rfl, rfl, rfl, rfl⟩
    unfold singleParam
    split <;> first | rfl | exact absurd rfl hj

/-- A parameter with a range takes the value clamped to it (R180). -/
theorem setSingle_clamped (p : Params) {id lo hi : Nat} (v : Nat) (h : singleRange id = some (lo, hi)) :
    ∃ q, setSingle p id v = .applied q (max lo (min hi v)) := by
  unfold singleRange at h
  split at h
  all_goals cases h
  all_goals simp [setSingle, clampTo]

/-- The parameters that have a range are not per zone. -/
theorem singleRange_id {id lo hi : Nat} (h : singleRange id = some (lo, hi)) : 6 ≤ id := by
  unfold singleRange at h
  split at h <;> first | omega | cases h

theorem State.applyParam_single (s : State) {id : Nat} (zone : Byte) (v : Nat) (h : 6 ≤ id) :
    s.applyParam id zone v = setSingle s.params id v := by
  unfold State.applyParam
  split <;> first | omega | rfl

/-- CONFIGURE of a parameter that is not per zone tests nothing again. -/
theorem ownConfigure_single {s : State} {id zone vh vl : Byte} {p : Params} {w : Nat} (hid : 6 ≤ id.toNat)
    (h : setSingle s.params id.toNat (nat2 vh vl) = .applied p w) :
    ownConfigure s [id, zone, vh, vl] = .accepted (s.modParams fun _ => p) ([id, zone] ++ be2 w) := by
  have ha : s.applyParam id.toNat zone (nat2 vh vl) = .applied p w := (s.applyParam_single zone _ hid).trans h
  simp [ownConfigure, bodyAt, ha, Nat.not_le.2 (Nat.lt_of_lt_of_le (by decide : 5 < 6) hid)]

/-- Settles O23: the value applied is the clamped or the mapped one, and R39 and R40 are not tested. -/
theorem configureClampsAParameter : Obligations.ConfigureClampsAParameter := by
  refine ⟨fun s id zone vh vl lo hi hs hr => ?_, fun s zone vh vl hs => ?_⟩
  · intro w
    obtain ⟨p, happly⟩ := setSingle_clamped s.params (nat2 vh vl) hr
    exact ⟨p, hs.acceptsAs (ownConfigure_single (singleRange_id hr) happly) rfl, setSingle_applied happly⟩
  · exact hs.acceptsAs (ownConfigure_single (by decide) rfl) rfl

end Sys2Proof.Machine
end

section
/-! PROOF. The hold, the completions of the drive command bus, the commands sent again and the timers of the Drive Arbiter (chapter 4):
what each makes of the drive (O35, O38, O39, O41, O44). -/

namespace Sys2Proof.Machine

/-! ## A removal that waits for a completion (R71, R160) -/

/-- With no command outstanding a removal that waited takes effect. -/
theorem State.settle_removal {s : State} (ho : s.da.out = none) (h : s.da.removalDue = true) : s.settle = { s with
    da := { s.da with state := .down, slot := .unknown, speed := .unknown, idleTimer := .stopped, removalDue := false } } := by
  simp [State.settle, State.modDa, Drive.settleRemoval, ho, h]

/-- The removal that waited changes nothing but the drive, and leaves it its claim and its parking sequence. -/
theorem State.settle_leaves (s : State) :
    s.settle.lm = s.lm ∧ s.settle.da.claim = s.da.claim ∧ s.settle.da.parkStage = s.da.parkStage := by
  unfold State.settle
  split
  · refine ⟨rfl, ?_⟩
    rw [State.modDa_da, Drive.settleRemoval]
    split <;> exact ⟨rfl, rfl⟩
  · exact ⟨rfl, rfl, rfl⟩

theorem State.liveClaim_settle (s : State) : s.settle.liveClaim = s.liveClaim := by
  obtain ⟨-, hclaim, -⟩ := s.settle_leaves
  rw [State.liveClaim, State.liveClaim, hclaim]

/-! ## Completions (R57) -/

section

variable {s : State} {o : Outstanding}

/-- LOAD DONE loads its slot. -/
theorem State.loadCompletes_load {n : Nat} (h : o.cmd = .load n) :
    s.loadCompletes o = (s.modDa fun d => { d with state := .down, slot := .slot n, speed := .known 0 }).settle := by
  simp [State.loadCompletes, h]

/-- UNLOAD DONE outside the parking sequence. -/
theorem State.unloadCompletes_settles (h : s.da.parkStage ≠ .unloading) :
    s.unloadCompletes o = (s.modDa fun d => { d with state := .down, slot := .none, speed := .known 0 }).settle := by
  obtain ⟨-, -, hpark⟩ := (s.modDa fun d => { d with state := .down, slot := .none, speed := .known 0 }).settle_leaves
  exact if_neg (hpark ▸ h)

/-- SPIN 0 DONE outside the parking sequence. -/
theorem State.spinCompletes_stop (hc : o.cmd = .spin 0) (h : s.da.parkStage ≠ .spinning) :
    s.spinCompletes o = (s.modDa fun d => { d with state := .down, speed := .known 0 }).settle := by
  obtain ⟨-, -, hpark⟩ := (s.modDa fun d => { d with state := .down, speed := .known 0 }).settle_leaves
  simp only [State.spinCompletes, hc]
  exact if_neg (hpark ▸ h)

/-- SPIN DONE at a speed other than 0. -/
theorem State.spinCompletes_turns {n : Nat} (hc : o.cmd = .spin (n + 1)) :
    s.spinCompletes o = (s.modDa fun d => { d with state := .ready, speed := .known (n + 1) }).settle := by
  simp [State.spinCompletes, hc]

/-- SEEK DONE of a claim that is no longer LIVE sends nothing. -/
theorem State.seekCompletes_idle (h : s.liveClaim = none) :
    s.seekCompletes o = (s.modDa fun d => { d with state := .ready }).settle := by
  have hl : (s.modDa fun d => { d with state := .ready }).settle.liveClaim = none := (State.liveClaim_settle _).trans h
  simp only [State.seekCompletes, hl]

/-- SEEK DONE of a LIVE claim sends READ. -/
theorem State.seekCompletes_live {c : Claim} (hm : s.da.removalDue = false) (hc : s.da.claim = some c) (hl : c.standing = .live) :
    s.seekCompletes o = (s.modDa fun d => { d with state := .ready }).sendRead c := by
  have hs : (s.modDa fun d => { d with state := .ready }).settle = s.modDa fun d => { d with state := .ready } :=
    State.settle_calm hm
  have hlive : (s.modDa fun d => { d with state := .ready }).liveClaim = some c := by simp [State.liveClaim, hc, hl]
  simp only [State.seekCompletes, hs, hlive]

/-- LATCH-OPEN DONE outside an eject sequence. -/
theorem State.latchCompletes_settles (h : s.lm.ejectStage ≠ .unlatching) :
    s.latchCompletes o = (s.modDa fun d => { d with state := .down }).settle := by
  obtain ⟨hlm, -, -⟩ := (s.modDa fun d => { d with state := .down }).settle_leaves
  exact if_neg (hlm ▸ h)

/-- A completion that is taken while the part is powered. -/
theorem State.completion_taken {n : ServoName} {f : Outstanding → State → State} {t : State} (hp : s.pc.state ≠ .parked)
    (ho : s.da.out = some o) (hh : s.da.state ≠ .held) (hf : s.da.state ≠ .fault) (hs : s.da.startDue = false) (hn : o.cmd.name = n)
    (he : f o { s with da := { s.da with out := none } } = t) :
    s.whenPowered (fun u => u.complete n f) = .next (State.finish s t) :=
  State.whenPowered_powered hp ((State.complete_taken ho hh hf hs hn).trans he)

/-- A completion that brings the drive to `st`, with `slot` loaded, at `speed`, and lets a removal take effect that waited for it. -/
theorem State.completion_settles {n : ServoName} {f : Outstanding → State → State} {st : DriveState} {slot : Loaded} {speed : Speed}
    (hp : s.pc.state ≠ .parked) (ho : s.da.out = some o) (hh : s.da.state ≠ .held) (hf : s.da.state ≠ .fault)
    (hs : s.da.startDue = false) (hn : o.cmd.name = n)
    (he : f o { s with da := { s.da with out := none } } =
      State.settle { s with da := { s.da with out := none, state := st, slot := slot, speed := speed } }) :
    (s.da.removalDue = false → s.whenPowered (fun t => t.complete n f) = .next (State.finish s
      { s with da := { s.da with out := none, state := st, slot := slot, speed := speed } })) ∧
    (s.da.removalDue = true → s.whenPowered (fun t => t.complete n f) = .next (State.finish s { s with da := { s.da with
      out := none, state := .down, slot := .unknown, speed := .unknown, idleTimer := .stopped, removalDue := false } })) := by
  exact ⟨fun h => State.completion_taken hp ho hh hf hs hn (he.trans (State.settle_calm h)),
    fun h => State.completion_taken hp ho hh hf hs hn (he.trans (State.settle_removal rfl h))⟩

end

/-- Settles O38: each DONE completion is its row of R57, and what follows it at once. -/
theorem completionsSetTheDrive : Obligations.CompletionsSetTheDrive := by
  refine ⟨fun s o hp ho hh hf hs hpark heject => ?_, fun s o hp ho hh hf hs hm => ⟨fun place c hcmd hc hl => ?_, fun hcmd he => ?_,
    fun hcmd hpark => ?_, fun hcmd hpark => ?_⟩⟩
  · have hun : s.da.parkStage ≠ .unloading := by rcases hpark with h | h <;> rw [h] <;> nofun
    have hsp : s.da.parkStage ≠ .spinning := by rcases hpark with h | h <;> rw [h] <;> nofun
    exact ⟨fun n hcmd => State.completion_settles hp ho hh hf hs (congrArg Servo.name hcmd) (State.loadCompletes_load hcmd),
      fun hcmd => State.completion_settles hp ho hh hf hs (congrArg Servo.name hcmd) (State.unloadCompletes_settles hun),
      fun hcmd => State.completion_settles hp ho hh hf hs (congrArg Servo.name hcmd) (State.spinCompletes_stop hcmd hsp),
      fun n hcmd => State.completion_settles hp ho hh hf hs (congrArg Servo.name hcmd) (State.spinCompletes_turns hcmd),
      fun place hcmd hl => State.completion_settles hp ho hh hf hs (congrArg Servo.name hcmd) (State.seekCompletes_idle hl),
      fun hcmd => State.completion_settles hp ho hh hf hs (congrArg Servo.name hcmd) rfl,
      fun hcmd => State.completion_settles hp ho hh hf hs (congrArg Servo.name hcmd) (State.latchCompletes_settles heject)⟩
  · exact State.completion_taken hp ho hh hf hs (congrArg Servo.name hcmd) (State.seekCompletes_live hm hc hl)
  · refine State.completion_taken hp ho hh hf hs (congrArg Servo.name hcmd) ?_
    simp only [State.latchCompletes]
    rw [State.settle_calm (by exact hm), if_pos (by exact he)]
    rfl
  · refine State.completion_taken hp ho hh hf hs (congrArg Servo.name hcmd) ?_
    simp only [State.unloadCompletes]
    rw [State.settle_calm (by exact hm), if_pos (by exact hpark)]
    rfl
  · refine State.completion_taken hp ho hh hf hs (congrArg Servo.name hcmd) ?_
    simp only [State.spinCompletes, hcmd]
    rw [State.settle_calm (by exact hm), if_pos (by exact hpark)]
    rfl

/-! ## Completions that are ignored, commands sent again, and timers (R58, R59, R73, R76) -/

/-- Settles O39: a completion that names no outstanding command is ignored, whatever its effect would be. -/
theorem otherCompletionsAreIgnored : Obligations.OtherCompletionsAreIgnored := by
  intro s n hp h
  have hi (f : Outstanding → State → State) : s.whenPowered (fun t => t.complete n f) = .next (State.finish s s) :=
    State.whenPowered_powered hp (State.complete_ignored h)
  refine ⟨fun r => hi _, ?_, ?_, ?_, ?_, ?_, ?_, ?_⟩ <;> (rintro rfl; exact hi _)

/-- A command that is treated as expired with its retry mark clear is aborted (R59). -/
theorem State.expired_aborts {s : State} {o : Outstanding} (hc : o.cmd ≠ .abort) (hr : o.retry = false) : s.expired o = { s with
    da := { s.da with out := some ⟨.abort, false, .running 1000000000, some o.cmd⟩, blockTimer := .stopped } } := by
  simp only [State.expired, hc, hr]
  rfl

/-- The command timer's expiry with no start values waiting for the command. -/
theorem State.timeout_expired {s : State} {o : Outstanding} (ho : s.da.out = some o) (hs : s.da.startDue = false) :
    s.timeout = s.expired o := by
  simp [State.timeout, ho, hs]

/-- A PAUSE that fails is treated as expired. -/
theorem State.failed_pause {s : State} {o : Outstanding} (r : FailReason) (hc : o.cmd = .pause) : s.failed r o = s.expired o := by
  simp [State.failed, hc]

/-- Settles O41: an expiry and a failed PAUSE abort the command, and ABORT DONE sends it again. -/
theorem expiredCommandsAreSentAgain : Obligations.ExpiredCommandsAreSentAgain := by
  intro s o hp ho hs aborted
  refine ⟨fun hc hr => ?_, fun hh hf hc hr r => ?_, fun c hh hf hc ha => ?_⟩
  · exact State.whenPowered_powered hp ((State.timeout_expired ho hs).trans (State.expired_aborts hc hr))
  · exact State.completion_taken hp ho hh hf hs (congrArg Servo.name hc)
      ((State.failed_pause r hc).trans (State.expired_aborts (by rw [hc]; nofun) hr))
  · refine State.completion_taken hp ho hh hf hs (congrArg Servo.name hc) ?_
    simp only [State.abortCompletes, ha]
    rfl

/-! ## Holds (R74, R76) -/

/-- DA drives the bus again after a hold, and an eject that waited for it begins. -/
theorem State.endHold_eq (s : State) (h : Hold) : s.endHold h = { s with
    da := { s.da with claim := none, state := .ready, slot := .unknown, speed := .unknown, hold := h, graceTimer := .stopped }
    lm := if s.lm.ejectStage = .waitingHold then { s.lm with ejectStage := .unloading } else s.lm } := by
  by_cases he : s.lm.ejectStage = .waitingHold
  · rw [if_pos he]
    exact if_pos he
  · rw [if_neg he]
    exact if_neg he

/-- HOLD-PICKUP is refused in a drive FAULT, and while a hold is queued, granted or being revoked. -/
theorem ownHoldPickup_refused {s : State}
    (h : s.da.state = .fault ∨ s.da.hold = .queued ∨ s.da.hold = .granted ∨ s.da.hold = .revoking) (body : List Byte) :
    ownHoldPickup s body = .rejected .wrongState := by
  unfold ownHoldPickup
  by_cases hf : s.da.state = .fault
  · exact if_pos hf
  · rw [if_neg hf]
    rcases h with h | h | h | h
    · exact absurd h hf
    all_goals rw [h]

/-- HOLD-PICKUP queues a hold from NONE and from LAPSED. -/
theorem ownHoldPickup_queued {s : State} (hf : s.da.state ≠ .fault) (h : s.da.hold = .none ∨ s.da.hold = .lapsed) (body : List Byte) :
    ownHoldPickup s body = .accepted (s.modDa fun d => { d with hold := .queued }) [1] := by
  unfold ownHoldPickup
  rw [if_neg hf]
  rcases h with h | h <;> rw [h]

/-- RELEASE-PICKUP ends a hold that is granted or being revoked. -/
theorem ownReleasePickup_ends {s : State} (h : s.da.hold = .granted ∨ s.da.hold = .revoking) (body : List Byte) :
    ownReleasePickup s body = .accepted (s.endHold .none) [2] := by
  unfold ownReleasePickup
  rcases h with h | h <;> rw [h]

/-! ## What an arbitration leaves of the hold (R64) -/

theorem State.hold_releasePickup (s : State) : s.releasePickup.da.hold = s.da.hold := by
  unfold State.releasePickup
  split
  · rfl
  · split <;> rfl

theorem State.hold_closeClaim (s : State) (st : Standing) : (s.closeClaim st).da.hold = s.da.hold := by
  unfold State.closeClaim
  split
  · split
    · rfl
    · rw [State.hold_releasePickup, State.da_markClaim]
  · rfl

theorem State.da_clearListed (s : State) (z : ZoneId) (a : Nat) : (s.clearListed z a).da = s.da := by
  unfold State.clearListed
  split <;> rfl

theorem State.da_markDefect (s : State) (z : ZoneId) (k : DefectKind) (a : Nat) : (s.markDefect z k a).da = s.da := by
  unfold State.markDefect
  split
  · rw [State.modSelRec_eq]
  · rfl

theorem State.hold_dropEntry (s : State) (z : ZoneId) (a : Nat) : (s.dropEntry z a).da.hold = s.da.hold := by
  have hl : ((s.clearListed z a).modList z fun l => l.filter fun e => decide (e.addr ≠ a)).da = s.da := s.da_clearListed z a
  unfold State.dropEntry
  dsimp only
  split
  · rw [State.hold_closeClaim, hl]
  · rw [hl]

theorem hold_nameEntry (z : ZoneId) (l : List Entry) (s : State) : (nameEntry z l s).1.da.hold = s.da.hold := by
  induction l generalizing s with
  | nil => rfl
  | cons e l ih =>
    unfold nameEntry
    split
    · rw [ih, State.exhaustEntry, State.da_markDefect, State.hold_dropEntry]
    · rfl

theorem hold_grantReread (l : List ZoneId) (s : State) : (grantReread l s).da.hold = s.da.hold := by
  induction l generalizing s with
  | nil => rfl
  | cons z l ih =>
    have hn := hold_nameEntry z (s.ru.lists.get z) s
    unfold grantReread
    split
    · next he =>
      rw [he] at hn
      exact hn
    · next he =>
      rw [he] at hn
      exact (ih _).trans hn

theorem State.da_ensureCtx (s : State) (z : ZoneId) : (s.ensureCtx z).da = s.da := by
  unfold State.ensureCtx
  split <;> rfl

theorem State.hold_grantBurst (s : State) (k : ClaimKind) (z : ZoneId) : (s.grantBurst k z).da.hold = s.da.hold :=
  show (s.ensureCtx z).da.hold = s.da.hold from congrArg Drive.hold (s.da_ensureCtx z)

theorem State.hold_grantRotation (s : State) : s.grantRotation.da.hold = s.da.hold := by
  unfold State.grantRotation
  dsimp only
  split
  · exact State.hold_grantBurst _ _ _
  · split <;> rfl

theorem State.hold_grantAudit (s : State) : s.grantAudit.da.hold = s.da.hold := by
  unfold State.grantAudit
  split
  · rfl
  · exact s.hold_grantRotation

/-- Orders 5 to 8 of an arbitration: a re-read, an audit, the rotation table, the idle timer (R64). -/
def State.arbitrateRest (s : State) : State :=
  let s1 := grantReread (s.loadedFirst s.rereadClaimant) s
  match s1.da.claim with
  | some _ => s1
  | none => s1.grantAudit

theorem State.hold_arbitrateRest (s : State) : s.arbitrateRest.da.hold = s.da.hold := by
  unfold State.arbitrateRest
  dsimp only
  split
  · exact hold_grantReread _ s
  · exact (State.hold_grantAudit _).trans (hold_grantReread _ s)

/-- An arbitration with no rejoin claimant, no urgent zone and an empty identification queue comes to the queued hold. -/
theorem State.arbitrate_later {s : State} (hr : s.lowerFill s.rejoinClaimant = none) (hu : s.lowerFill s.urgent = none)
    (hq : s.lm.queue = []) : s.arbitrate = if s.da.hold = .queued then s.grantHold else s.arbitrateRest := by
  unfold State.arbitrate
  rw [hr, hu, hq]
  rfl

/-- Settles O35: each request by the hold state, and the frame of an arbitration for the hold. -/
theorem holdAndReleaseByTheHoldState : Obligations.HoldAndReleaseByTheHoldState := by
  intro s hs
  refine ⟨fun h => hs.refuses (ownHoldPickup_refused (s := s.asked _) h _), fun hf h => hs.acceptsAs (ownHoldPickup_queued (s := s.asked _) hf h _) rfl,
    fun h => hs.refuses ?_, fun h => hs.acceptsAs (t := s.asked _ |>.modDa fun d => { d with hold := .none }) ?_ rfl,
    fun h => hs.acceptsAs (t := s.asked _ |>.modDa fun d => { d with hold := .none }) ?_ rfl,
    fun h => hs.acceptsAs (ownReleasePickup_ends (s := s.asked _) h _) ?_, fun hr hu hq => ?_⟩
  · simp only [ownReleasePickup, State.asked, h]
  · simp only [ownReleasePickup, State.asked, h]
  · simp only [ownReleasePickup, State.asked, h]
  · rw [State.endHold_eq]
    rfl
  · rw [State.arbitrate_later hr hu hq]
    split
    · rfl
    · exact s.hold_arbitrateRest

/-! ## The grace timer and the idle timer (R73, R76) -/

/-- Settles O44: each of the two timers acts only while it runs. -/
theorem driveTimersExpire : Obligations.DriveTimersExpire := by
  intro s hp
  refine ⟨fun hh ht => State.whenPowered_powered hp ((if_pos ⟨hh, ht⟩).trans ?_),
    fun h => State.whenPowered_powered hp (if_neg fun ⟨hh, ht⟩ => h.elim (· hh) ht),
    fun ht ho hr => State.whenPowered_powered hp (if_pos ⟨ht, ho, hr⟩),
    fun h => State.whenPowered_powered hp (if_neg fun ⟨ht, _⟩ => ht h)⟩
  rw [State.lapseHold, State.endHold_eq]
  rfl

end Sys2Proof.Machine
end

section
/-! PROOF. What the owners of a claim do when no claim is LIVE: the drive, the tag and the places of the pool stand. With it, the FAILED
completions that are no FAULT (O42). -/

namespace Sys2Proof.Machine

/-! ## Changes that leave the drive (chapter 4) -/

/-- From `s` to `t` the drive, the intake, the places of the pool, the pins, the straps, the parameters, the Shock Monitor, Power
Control and the waiting commands have not changed. -/
def Undriven (s t : State) : Prop :=
  ∃ mem zc lu ru oc dd lm cl free, t = { s with
    bs := { s.bs with mem := mem }, zc := zc, lu := lu, ru := ru, oc := oc, dd := dd, lm := lm, cl := cl, free := free }

/-- With no LIVE claim there is none to end or cancel. -/
theorem State.closeClaim_none {s : State} (h : s.liveClaim = none) (st : Standing) : s.closeClaim st = s := by
  simp [State.closeClaim, h]

theorem State.ownsClaim_none {s : State} (h : s.liveClaim = none) (z : ZoneId) : s.ownsClaim z = false := by
  simp [State.ownsClaim, h]

theorem State.claimOn_none {s : State} (h : s.liveClaim = none) (k : ClaimKind) (z : ZoneId) (a : Nat) : s.claimOn k z a = false := by
  simp [State.claimOn, h]

/-- A LIVE claim is a matter of the drive alone. -/
theorem State.liveClaim_congr {s t : State} (h : t.da = s.da) : t.liveClaim = s.liveClaim := by
  rw [State.liveClaim, State.liveClaim, h]

/-- A re-read entry that leaves while no claim is LIVE ends no claim. -/
theorem State.dropEntry_none {s : State} (h : s.liveClaim = none) (z : ZoneId) (a : Nat) :
    s.dropEntry z a = (s.clearListed z a).modList z fun l => l.filter fun e => decide (e.addr ≠ a) :=
  if_neg (ne_true_of_eq_false (State.claimOn_none (s := (s.clearListed z a).modList z _)
    ((State.liveClaim_congr (s.da_clearListed z a)).trans h) _ _ _))

namespace Undriven

variable {s t u : State} {z : ZoneId}

theorem refl (s : State) : Undriven s s := ⟨_, _, _, _, _, _, _, _, _, rfl⟩

theorem trans (h : Undriven s t) (k : Undriven t u) : Undriven s u := by
  obtain ⟨_, _, _, _, _, _, _, _, _, rfl⟩ := h
  obtain ⟨_, _, _, _, _, _, _, _, _, rfl⟩ := k
  exact ⟨_, _, _, _, _, _, _, _, _, rfl⟩

theorem da (h : Undriven s t) : t.da = s.da := by obtain ⟨_, _, _, _, _, _, _, _, _, rfl⟩ := h; rfl

theorem liveClaim (h : Undriven s t) (hl : s.liveClaim = none) : t.liveClaim = none := (State.liveClaim_congr h.da).trans hl

theorem setCtx {c : Option LinkCtx} (h : Undriven s t) : Undriven s (t.setCtx z c) := h.trans ⟨_, _, _, _, _, _, _, _, _, rfl⟩
theorem modAudit {f : Audit → Audit} (h : Undriven s t) : Undriven s (t.modAudit z f) := h.trans ⟨_, _, _, _, _, _, _, _, _, rfl⟩
theorem modList {f : List Entry → List Entry} (h : Undriven s t) : Undriven s (t.modList z f) :=
  h.trans ⟨_, _, _, _, _, _, _, _, _, rfl⟩
theorem modDd {f : Directory → Directory} (h : Undriven s t) : Undriven s (t.modDd f) := h.trans ⟨_, _, _, _, _, _, _, _, _, rfl⟩
theorem modLm {f : Loader → Loader} (h : Undriven s t) : Undriven s (t.modLm f) := h.trans ⟨_, _, _, _, _, _, _, _, _, rfl⟩
theorem notice {k : Byte} {b : List Byte} (h : Undriven s t) : Undriven s (t.notice k b) := h.trans ⟨_, _, _, _, _, _, _, _, _, rfl⟩
theorem modInfo {b : Nat} {f : BlockRec → BlockRec} (h : Undriven s t) : Undriven s (t.modBs fun st => st.modInfo b f) :=
  h.trans ⟨_, _, _, _, _, _, _, _, _, rfl⟩

theorem setSupply {v : Supply} {c : ZoneCause} (h : Undriven s t) (hv : v ≠ .ended) : Undriven s (t.setSupply z v c) := by
  obtain ⟨_, _, _, _, _, he⟩ := State.setSupply_spec (s := t) (z := z) c hv
  exact h.trans ⟨_, _, _, _, _, _, _, _, _, he⟩

theorem markDefect {k : DefectKind} {a : Nat} (h : Undriven s t) : Undriven s (t.markDefect z k a) := by
  unfold State.markDefect
  split
  · rw [State.modSelRec_eq]
    exact h.trans ⟨_, _, _, _, _, _, _, _, _, rfl⟩
  · exact h

theorem clearListed {a : Nat} (h : Undriven s t) : Undriven s (t.clearListed z a) := by
  unfold State.clearListed
  split
  · exact h.modInfo
  · exact h

theorem dropEntry {a : Nat} (h : Undriven s t) (hl : s.liveClaim = none) : Undriven s (t.dropEntry z a) := by
  rw [State.dropEntry_none (h.liveClaim hl)]
  exact h.clearListed.modList

theorem countAttempt {a : Nat} (h : Undriven s t) (hl : s.liveClaim = none) : Undriven s (t.countAttempt z a) := by
  unfold State.countAttempt
  split
  · exact h
  · dsimp only
    split
    · exact h.modInfo.modList.dropEntry hl
    · split
      · exact (h.modInfo.modList.dropEntry hl).markDefect
      · exact h.modInfo.modList

/-- An attempt that fails once its claim is gone (R83). -/
theorem attemptFailed (h : Undriven s t) (hl : s.liveClaim = none) : Undriven s (t.attemptFailed z) := by
  unfold State.attemptFailed
  rw [State.closeZoneClaim_none (State.ownsClaim_none (h.liveClaim hl) z)]
  dsimp only
  split
  · exact h
  · split
    · exact h.setCtx.setSupply nofun
    · split
      · exact h.setCtx.setSupply nofun
      · exact h.setCtx

theorem discNotFound (h : Undriven s t) : Undriven s (t.discNotFound z) := by
  unfold State.discNotFound
  split
  · exact h.setSupply nofun
  · exact h

theorem scanDone (h : Undriven s t) : Undriven s t.scanDone := by
  unfold State.scanDone
  split
  · exact h.discNotFound.discNotFound.notice
  · exact h

/-- An identification that finds no record (R142, R156). -/
theorem identOutcome {n : Nat} {o : IdentOutcome} (h : Undriven s t) : Undriven s (t.identOutcome n o none false) :=
  h.modDd.notice.modLm.scanDone

/-- The owner of a claim that has failed to start hears of it once the claim is gone (R60, R83, R112, R115, R155). -/
theorem ownerFailure {c : Claim} {empty : Bool} (h : Undriven s t) (hl : s.liveClaim = none) :
    Undriven s (t.ownerFailure c empty) := by
  unfold State.ownerFailure
  split
  · exact h.attemptFailed hl
  · exact h.attemptFailed hl
  · split
    · exact h.dropEntry hl
    · exact h.countAttempt hl
  · split
    · exact h.modAudit
    · exact h
  · dsimp only
    split
    · exact h.identOutcome
    · split
      · exact h.modLm.identOutcome
      · exact h.modLm
  · exact h

end Undriven

/-! ## Claims that fail to start (R60) -/

/-- With no command outstanding and no reading in progress, a LIVE claim other than HOLD that ends is gone at once (R70, R71). -/
theorem State.closeClaim_still {s : State} {c : Claim} {st : Standing} (hc : s.liveClaim = some c) (hk : c.kind ≠ .hold)
    (ho : s.da.out = none) (hr : s.da.state ≠ .reading) : s.closeClaim st = (s.markClaim c st).dropClaim := by
  have hclose : s.closeClaim st = (s.markClaim c st).releasePickup := by simp [State.closeClaim, hc, hk]
  rw [hclose]
  simp [State.releasePickup, s.da_markClaim c st, ho, hr]

theorem State.da_closeClaim_still {s : State} {c : Claim} {st : Standing} (hc : s.liveClaim = some c) (hk : c.kind ≠ .hold)
    (ho : s.da.out = none) (hr : s.da.state ≠ .reading) :
    (s.closeClaim st).da = { s.da with claim := none, blockTimer := .stopped } := by
  rw [State.closeClaim_still hc hk ho hr, State.dropClaim, State.modDa_da, s.da_markClaim c st]

/-- From `s` to `e` the drive has become `d`, or DOWN where a removal waits, with nothing else changed when no claim was in force; and
the places of the pool, the parameters, the straps, the pins, Power Control, the Shock Monitor and the waiting commands stand. -/
def State.leavesDrive (s e : State) (d : Drive) : Prop :=
  e.da = d.settleRemoval ∧ (s.liveClaim = none → e = { s with da := e.da }) ∧
    (∀ z, e.bs.chain.get z = s.bs.chain.get z ∧ e.bs.anchor.get z = s.bs.anchor.get z) ∧ e.params = s.params ∧
    e.straps = s.straps ∧ e.pins = s.pins ∧ e.pc = s.pc ∧ e.sm = s.sm ∧ e.pending = s.pending

/-- A claim that fails to start, with no command outstanding and no reading in progress, is gone (R60). -/
theorem State.failStart_spec {s : State} (empty : Bool) (ho : s.da.out = none) (hr : s.da.state ≠ .reading)
    (hk : ∀ c, s.da.claim = some c → c.kind ≠ .hold) :
    s.leavesDrive (s.failStart empty).settle
      { s.da with claim := none, blockTimer := if s.liveClaim = none then s.da.blockTimer else .stopped } := by
  have hsettle (t : State) (h : t.da.out = none) : t.settle = t.modDa Drive.settleRemoval := if_pos h
  cases hc : s.liveClaim with
  | none =>
    have hd : s.failStart empty = s.dropClaim := by simp [State.failStart, hc]
    rw [hd, hsettle s.dropClaim ho]
    exact ⟨by rw [if_pos rfl]; rfl, fun _ => rfl, fun _ => ⟨rfl, rfl⟩, rfl, rfl, rfl, rfl, rfl, rfl⟩
  | some c =>
    have hd : s.failStart empty = (s.closeClaim .ended).ownerFailure c empty := by simp [State.failStart, hc]
    have hda := State.da_closeClaim_still (st := .ended) hc (hk c (State.claim_of_liveClaim hc)) ho hr
    have hl : (s.closeClaim .ended).liveClaim = none := by simp [State.liveClaim, hda]
    obtain ⟨_, _, _, _, _, ha⟩ := (Aside.refl s).closeClaim (st := .ended)
    obtain ⟨mem, zc, lu, ru, oc, dd, lm, cl, free, hu⟩ :=
      (Undriven.refl (s.closeClaim .ended)).ownerFailure (c := c) (empty := empty) hl
    have hout : ((s.closeClaim .ended).ownerFailure c empty).da.out = none := by rw [hu, hda]; exact ho
    rw [hd, hsettle _ hout, hu]
    refine ⟨?_, fun h => absurd (hc.symm.trans h) nofun, ?_⟩
    · rw [if_neg nofun]
      exact congrArg Drive.settleRemoval hda
    · rw [ha]
      exact ⟨fun _ => ⟨rfl, rfl⟩, rfl, rfl, rfl, rfl, rfl, rfl⟩

/-! ## The rows of R60 that are no FAULT -/

section

variable {s : State} {o : Outstanding} {r : FailReason}

theorem State.failed_load {n : Nat} (hc : o.cmd = .load n) (hj : r ≠ .jam) : s.failed r o =
    if r = .noDisc then s.failedEmpty true
    else s.failedStart (fun d => { d with state := .down, slot := .unknown, speed := .unknown }) false := by
  cases r with
  | jam => exact absurd rfl hj
  | noDisc => simp [State.failed, hc]
  | notFound => simp [State.failed, State.failedOther, hc]
  | speed => simp [State.failed, State.failedOther, hc]

theorem State.failed_spin {n : Nat} (hc : o.cmd = .spin (n + 1)) (hj : r ≠ .jam) : s.failed r o =
    if r = .noDisc then s.failedEmpty false
    else s.failedStart (fun d => { d with state := .down, speed := .unknown }) false := by
  cases r with
  | jam => exact absurd rfl hj
  | noDisc => simp [State.failed, hc]
  | notFound => simp [State.failed, State.failedOther, hc]
  | speed => simp [State.failed, State.failedOther, hc]

theorem State.failed_place (hc : o.cmd = .read ∨ ∃ p, o.cmd = .seek p) (hj : r ≠ .jam) : s.failed r o =
    if r = .noDisc then s.failedEmpty false else s.failedStart (fun d => { d with state := .ready }) false := by
  rcases hc with hc | ⟨p, hc⟩
  all_goals
    cases r with
    | jam => exact absurd rfl hj
    | noDisc => simp [State.failed, hc]
    | notFound => simp [State.failed, State.failedOther, hc]
    | speed => simp [State.failed, State.failedOther, hc]

theorem State.failed_latch (hc : o.cmd = .latchOpen) (hj : r ≠ .jam) : s.failed r o = s.failedOther o := by
  cases r with
  | jam => exact absurd rfl hj
  | noDisc => simp [State.failed, hc]
  | notFound => simp [State.failed, hc]
  | speed => simp [State.failed, hc]

/-- A failed LATCH-OPEN leaves the drive DOWN, and ends an eject sequence that has sent it. -/
theorem State.failedOther_latch (hc : o.cmd = .latchOpen) (ho : s.da.out = none) : s.failedOther o =
    if s.lm.ejectStage = .unlatching then
      State.ejectOver { s with da := Drive.settleRemoval { s.da with state := .down } } .ejectFailed
    else { s with da := Drive.settleRemoval { s.da with state := .down } } := by
  have hs : (s.modDa fun d => { d with state := .down }).settle = { s with da := Drive.settleRemoval { s.da with state := .down } } :=
    if_pos ho
  simp only [State.failedOther, hc, hs]

/-- A FAILED completion that its claim's start fails by, with the drive left in `st`, with `slot` loaded, at `speed`. -/
theorem State.completion_failsStart {f : Drive → Drive} {empty : Bool} {st : DriveState} {slot : Loaded} {speed : Speed}
    (hp : s.pc.state ≠ .parked) (ho : s.da.out = some o) (hh : s.da.state ≠ .held) (hf : s.da.state ≠ .fault)
    (hs : s.da.startDue = false) (hk : ∀ c, s.da.claim = some c → c.kind ≠ .hold)
    (he : State.failed r o { s with da := { s.da with out := none } } =
      State.failedStart { s with da := { s.da with out := none } } f empty)
    (hd : f { s.da with out := none } = { s.da with out := none, state := st, slot := slot, speed := speed } := by rfl)
    (hr : st ≠ .reading := by nofun) :
    ∃ e, exec (.commandFailed o.cmd.name r) s = .next (State.finish s e) ∧ s.leavesDrive e { s.da with
      out := none, claim := none, state := st, slot := slot, speed := speed
      blockTimer := if s.liveClaim = none then s.da.blockTimer else .stopped } := by
  have hfail : State.failedStart { s with da := { s.da with out := none } } f empty = State.settle (State.failStart
      { s with da := { s.da with out := none, state := st, slot := slot, speed := speed } } empty) := by
    rw [← hd]
    rfl
  exact ⟨_, State.completion_taken hp ho hh hf hs rfl (he.trans hfail), State.failStart_spec empty rfl hr hk⟩

end

/-- Settles O42: each row of R60 leaves the drive its own way, and the owner of the claim that fails to start hears of it. -/
theorem failedCommandsByTheirRow : Obligations.FailedCommandsByTheirRow := by
  intro s o r hp ho hh hf hs hk hj settled ends
  refine ⟨fun ⟨n, hc⟩ => ?_, fun n hc => ?_, fun hc => ?_, fun hc he => ?_, fun hc he hfrom => ?_⟩
  · have hrow := State.failed_load (s := { s with da := { s.da with out := none } }) hc hj
    exact ⟨fun h => State.completion_failsStart hp ho hh hf hs hk (hrow.trans (if_pos h)),
      fun h => State.completion_failsStart hp ho hh hf hs hk (hrow.trans (if_neg h))⟩
  · have hrow := State.failed_spin (s := { s with da := { s.da with out := none } }) hc hj
    exact ⟨fun h => State.completion_failsStart hp ho hh hf hs hk (hrow.trans (if_pos h)),
      fun h => State.completion_failsStart hp ho hh hf hs hk (hrow.trans (if_neg h))⟩
  · have hrow := State.failed_place (s := { s with da := { s.da with out := none } }) hc hj
    exact ⟨fun h => State.completion_failsStart hp ho hh hf hs hk (hrow.trans (if_pos h)),
      fun h => State.completion_failsStart hp ho hh hf hs hk (hrow.trans (if_neg h))⟩
  · exact State.completion_taken hp ho hh hf hs (congrArg Servo.name hc)
      (((State.failed_latch hc hj).trans (State.failedOther_latch hc rfl)).trans (if_neg he))
  · refine State.completion_taken hp ho hh hf hs (congrArg Servo.name hc)
      (((State.failed_latch hc hj).trans (State.failedOther_latch hc rfl)).trans ((if_pos he).trans ?_))
    refine (if_neg (ne_true_of_eq_false hfrom)).trans ?_
    rw [← hfrom]
    rfl

end Sys2Proof.Machine
end

section
/-! PROOF. The drive FAULT (chapter 4): what each unit that hears of it leaves, and the failures and expiries that bring it (O40). -/

namespace Sys2Proof.Machine

/-- A zone that comes to a supply state which drops its context has none (R79). -/
theorem State.setSupply_drops {s : State} {z : ZoneId} {v : Supply} (c : ZoneCause) (hv : dropsCtx v = true)
    (h : (s.zone z).supply ≠ v) : ∃ p oc cl n, s.setSupply z v c = { s with
      zc := s.zc.mod z fun r => { r with supply := v, play := p }
      lu := { s.lu with ctx := s.lu.ctx.set z none }, oc := oc, cl := cl, free := n } := by
  have hput : s.putSupply z v = (s.modZone z fun r => { r with supply := v }).setCtx z none := if_pos hv
  have hset : s.setSupply z v c = (s.putSupply z v).supplyChanged z c :=
    (if_neg h).trans (if_neg fun k => by rw [k.1] at hv; cases hv)
  obtain ⟨oc, cl, n, hc⟩ := State.supplyChanged_spec (s.putSupply z v) z c
  rw [hset, hc]
  generalize (s.putSupply z v).readyPlay z = p
  rw [hput]
  exact ⟨p, oc, cl, n, by cases z <;> rfl⟩

/-- The slot at the head of the identification queue ends with outcome FAULT, if it has been granted (R163). -/
def State.slotFault (s : State) : State :=
  match s.lm.queue with
  | [] => s
  | slot :: _ => if s.lm.slotTimer = .zero then s else s.identOutcome slot .fault none false

/-- An eject sequence that uses the drive ends before the slot does. -/
theorem State.loaderFault_ejects {s : State} (h : s.lm.ejectStage = .unloading ∨ s.lm.ejectStage = .unlatching) :
    s.loaderFault = (s.ejectOver .ejectFailed).slotFault := by
  rcases h with h | h
  all_goals
    simp only [State.loaderFault, h]
    rfl

theorem State.loaderFault_other {s : State} (h : ¬ (s.lm.ejectStage = .unloading ∨ s.lm.ejectStage = .unlatching)) :
    s.loaderFault = s.slotFault := by
  unfold State.loaderFault
  split
  · next he => exact absurd (.inl he) h
  · next he => exact absurd (.inr he) h
  · rfl
  · rfl
  · rfl

/-! ## What a drive FAULT leaves, beside the drive (R61) -/

/-- From `s` to `t`, which are the same beside what the owner of a claim may change, the records, the next read addresses and the miss
counts stand, and what a drive FAULT has brought about is not undone: a zone in supply FAULT, a zone without a context, an empty
re-read list, a zone without an audit target. -/
structure Faulting (s t : State) : Prop where
  apart    : Undriven s t
  records  : t.dd.records = s.dd.records
  nextRead : ∀ z, (t.zone z).nextRead = (s.zone z).nextRead
  misses   : ∀ z, (t.lu.audit.get z).misses = (s.lu.audit.get z).misses
  fault    : ∀ z, (s.zone z).supply = .fault → (t.zone z).supply = .fault
  dropped  : ∀ z, s.ctx z = none → t.ctx z = none
  emptied  : ∀ z, s.ru.lists.get z = [] → t.ru.lists.get z = []
  audited  : ∀ z, (s.lu.audit.get z).target = none → (t.lu.audit.get z).target = none

namespace Faulting

variable {s t u : State} {z : ZoneId}

theorem refl (s : State) : Faulting s s :=
  ⟨.refl s, rfl, fun _ => rfl, fun _ => rfl, fun _ => id, fun _ => id, fun _ => id, fun _ => id⟩

theorem trans (h : Faulting s t) (k : Faulting t u) : Faulting s u where
  apart := h.apart.trans k.apart
  records := k.records.trans h.records
  nextRead z := (k.nextRead z).trans (h.nextRead z)
  misses z := (k.misses z).trans (h.misses z)
  fault z := k.fault z ∘ h.fault z
  dropped z := k.dropped z ∘ h.dropped z
  emptied z := k.emptied z ∘ h.emptied z
  audited z := k.audited z ∘ h.audited z

theorem liveClaim (h : Faulting s t) (hl : s.liveClaim = none) : t.liveClaim = none := h.apart.liveClaim hl

theorem modLm {f : Loader → Loader} (h : Faulting s t) : Faulting s (t.modLm f) := h.trans
  ⟨(Undriven.refl t).modLm, rfl, fun _ => rfl, fun _ => rfl, fun _ => id, fun _ => id, fun _ => id, fun _ => id⟩

theorem notice {k : Byte} {b : List Byte} (h : Faulting s t) : Faulting s (t.notice k b) := h.trans
  ⟨(Undriven.refl t).notice, rfl, fun _ => rfl, fun _ => rfl, fun _ => id, fun _ => id, fun _ => id, fun _ => id⟩

theorem dropIdent (h : Faulting s t) : Faulting s (t.modDd fun d => { d with ident := none }) := h.trans
  ⟨(Undriven.refl t).modDd, rfl, fun _ => rfl, fun _ => rfl, fun _ => id, fun _ => id, fun _ => id, fun _ => id⟩

theorem dropCtx (h : Faulting s t) : Faulting s (t.setCtx z none) := h.trans
  ⟨(Undriven.refl t).setCtx, rfl, fun _ => rfl, fun _ => rfl, fun _ => id, fun w hw => by
    cases z <;> cases w <;> first | rfl | exact hw, fun _ => id, fun _ => id⟩

theorem dropTarget (h : Faulting s t) : Faulting s (t.modAudit z fun u => { u with target := none }) := h.trans
  ⟨(Undriven.refl t).modAudit, rfl, fun _ => rfl, fun w => by cases z <;> cases w <;> rfl, fun _ => id, fun _ => id, fun _ => id,
    fun w hw => by cases z <;> cases w <;> first | rfl | exact hw⟩

theorem dropEntry {a : Nat} (h : Faulting s t) (hl : s.liveClaim = none) : Faulting s (t.dropEntry z a) := by
  refine h.trans ?_
  have hcl : t.clearListed z a = { t with bs := (t.clearListed z a).bs } := by
    unfold State.clearListed
    split <;> rfl
  have ha := (Undriven.refl t).dropEntry (z := z) (a := a) (h.liveClaim hl)
  rw [State.dropEntry_none (h.liveClaim hl)] at ha ⊢
  rw [hcl] at ha ⊢
  exact ⟨ha, rfl, fun _ => rfl, fun _ => rfl, fun _ => id, fun _ => id, fun w hw => by
    cases z <;> cases w <;> first | exact hw | exact congrArg (List.filter _) hw, fun _ => id⟩

/-- A change of supply state that drops the context, of a zone that is not in FAULT. -/
theorem setSupply {v : Supply} {c : ZoneCause} (h : Faulting s t) (hv : dropsCtx v = true) (hf : (t.zone z).supply ≠ .fault) :
    Faulting s (t.setSupply z v c) := by
  refine h.trans ?_
  by_cases hs : (t.zone z).supply = v
  · rw [State.setSupply, if_pos hs]
    exact refl t
  · have ha := (Undriven.refl t).setSupply (z := z) (v := v) (c := c) (by rintro rfl; cases hv)
    obtain ⟨p, oc, cl, n, he⟩ := State.setSupply_drops c hv hs
    rw [he] at ha ⊢
    exact ⟨ha, rfl, fun w => by cases z <;> cases w <;> rfl, fun _ => rfl, fun w hw => by
      cases z <;> cases w <;> first | exact hw | exact absurd hw hf, fun w hw => by
      cases z <;> cases w <;> first | rfl | exact hw, fun _ => id, fun _ => id⟩

/-- A zone hears of the drive FAULT (R42, R61). -/
theorem zoneFault (h : Faulting s t) : Faulting s (t.zoneFault z) := by
  unfold State.zoneFault
  split
  · next hs => exact h.setSupply rfl (by rcases hs with hs | hs <;> rw [hs] <;> nofun)
  · exact h

theorem emptyList (h : Faulting s t) (hl : s.liveClaim = none) : Faulting s (t.emptyList z) := by
  unfold State.emptyList
  generalize t.ru.lists.get z = l
  induction l generalizing t with
  | nil => exact h
  | cons e l ih => exact ih (h.dropEntry hl)

theorem dropLink (h : Faulting s t) : Faulting s (t.dropLink z) := h.dropCtx.dropTarget

theorem discNotFound (h : Faulting s t) : Faulting s (t.discNotFound z) := by
  unfold State.discNotFound
  split
  · next hs => exact h.setSupply rfl (by rw [hs]; nofun)
  · exact h

theorem scanDone (h : Faulting s t) : Faulting s t.scanDone := by
  unfold State.scanDone
  split
  · exact h.discNotFound.discNotFound.notice
  · exact h

/-- An identification that finds no record (R142, R156). -/
theorem identOutcome {n : Nat} {o : IdentOutcome} (h : Faulting s t) : Faulting s (t.identOutcome n o none false) :=
  h.dropIdent.notice.modLm.scanDone

theorem ejectOver {c : MagCause} (h : Faulting s t) : Faulting s (t.ejectOver c) := by
  unfold State.ejectOver State.inserted
  dsimp only
  split
  · exact h.modLm.notice.modLm.notice.modLm
  · exact h.modLm.notice

theorem slotFault (h : Faulting s t) : Faulting s t.slotFault := by
  unfold State.slotFault
  split
  · exact h
  · split
    · exact h
    · exact h.identOutcome

theorem loaderFault (h : Faulting s t) : Faulting s t.loaderFault := by
  by_cases he : t.lm.ejectStage = .unloading ∨ t.lm.ejectStage = .unlatching
  · rw [State.loaderFault_ejects he]
    exact h.ejectOver.slotFault
  · rw [State.loaderFault_other he]
    exact h.slotFault

end Faulting

/-! ## The zones, the lists and the contexts (R42, R61, R79, R102) -/

theorem State.zoneFault_other (s : State) {z w : ZoneId} (h : w ≠ z) : (s.zoneFault z).zone w = s.zone w := by
  unfold State.zoneFault
  split
  · obtain ⟨_, _, _, _, _, he⟩ := State.setSupply_spec (s := s) (z := z) (v := .fault) .driveFault nofun
    rw [he]
    exact Pair.get_mod_ne _ _ h
  · rfl

theorem State.supply_zoneFault {s : State} {z : ZoneId} (h : (s.zone z).supply = .feeding ∨ (s.zone z).supply = .rejoining) :
    ((s.zoneFault z).zone z).supply = .fault := by
  obtain ⟨_, _, _, _, _, he⟩ := State.setSupply_spec (s := s) (z := z) (v := .fault) .driveFault nofun
  rw [State.zoneFault, if_pos h, he]
  exact congrArg Zone.supply (Pair.get_mod_self _ _ _)

/-- Each zone that was FEEDING or REJOINING is in supply FAULT once both have heard. -/
theorem State.supply_zonesFault {s : State} {z : ZoneId} (h : (s.zone z).supply = .feeding ∨ (s.zone z).supply = .rejoining) :
    ((((s.zoneFault .a).zoneFault .b).zone z).supply) = .fault := by
  cases z with
  | a => exact (Faulting.refl (s.zoneFault .a)).zoneFault.fault .a (State.supply_zoneFault h)
  | b => exact State.supply_zoneFault (by rw [s.zoneFault_other (by decide : ZoneId.b ≠ .a)]; exact h)

theorem State.lm_zoneFault (s : State) (z : ZoneId) : (s.zoneFault z).lm = s.lm := by
  unfold State.zoneFault
  split
  · obtain ⟨_, _, _, _, _, he⟩ := State.setSupply_spec (s := s) (z := z) (v := .fault) .driveFault nofun
    rw [he]
  · rfl

theorem State.lm_dropLink (s : State) (z : ZoneId) : (s.dropLink z).lm = s.lm := rfl

/-- An entry that leaves while no claim is LIVE changes the block memory and the lists alone. -/
theorem State.dropEntry_frame {s : State} (hl : s.liveClaim = none) (z : ZoneId) (a : Nat) : ∃ bs, s.dropEntry z a =
    { s with bs := bs, ru := { s.ru with lists := s.ru.lists.mod z fun l => l.filter fun e => decide (e.addr ≠ a) } } := by
  rw [State.dropEntry_none hl]
  unfold State.clearListed
  split
  · exact ⟨_, rfl⟩
  · exact ⟨_, rfl⟩

/-- Once the entries `l` of zone `z` have left, those in its list are others; the link, the loader and the drive stand. -/
theorem State.dropEntries_spec {s : State} (hl : s.liveClaim = none) (z : ZoneId) (l : List Entry) :
    (∀ e ∈ (l.foldl (fun (t : State) (e : Entry) => t.dropEntry z e.addr) s).ru.lists.get z,
      e ∈ s.ru.lists.get z ∧ ∀ x ∈ l, e.addr ≠ x.addr) ∧
    (l.foldl (fun (t : State) (e : Entry) => t.dropEntry z e.addr) s).cl = s.cl ∧
    (l.foldl (fun (t : State) (e : Entry) => t.dropEntry z e.addr) s).lm = s.lm := by
  induction l generalizing s with
  | nil => exact ⟨fun e he => ⟨he, nofun⟩, rfl, rfl⟩
  | cons x l ih =>
    obtain ⟨bs, hx⟩ := State.dropEntry_frame hl z x.addr
    have hlx : (s.dropEntry z x.addr).liveClaim = none := by
      rw [hx]
      exact hl
    obtain ⟨hin, hcl, hlm⟩ := ih hlx
    refine ⟨fun e he => ?_, hcl.trans (by rw [hx]), hlm.trans (by rw [hx])⟩
    obtain ⟨hmem, hother⟩ := hin e he
    rw [hx] at hmem
    have hmem : e ∈ (s.ru.lists.get z).filter fun e => decide (e.addr ≠ x.addr) := by simpa using hmem
    obtain ⟨hs, hne⟩ := List.mem_filter.1 hmem
    exact ⟨hs, List.forall_mem_cons.2 ⟨of_decide_eq_true hne, hother⟩⟩

theorem State.emptyList_spec {s : State} (hl : s.liveClaim = none) (z : ZoneId) :
    (s.emptyList z).ru.lists.get z = [] ∧ (s.emptyList z).cl = s.cl ∧ (s.emptyList z).lm = s.lm := by
  obtain ⟨hin, hcl, hlm⟩ := State.dropEntries_spec hl z (s.ru.lists.get z)
  refine ⟨List.eq_nil_iff_forall_not_mem.2 fun e he => ?_, hcl, hlm⟩
  obtain ⟨hmem, hother⟩ := hin e he
  exact hother e hmem rfl

/-! ## The loader (R159, R163) -/

theorem State.lm_setSupply {s : State} {z : ZoneId} {v : Supply} (c : ZoneCause) (hv : v ≠ .ended) : (s.setSupply z v c).lm = s.lm := by
  obtain ⟨_, _, _, _, _, he⟩ := State.setSupply_spec (s := s) (z := z) c hv
  rw [he]

theorem State.lm_discNotFound (s : State) (z : ZoneId) : (s.discNotFound z).lm = s.lm := by
  unfold State.discNotFound
  split
  · exact State.lm_setSupply _ nofun
  · rfl

theorem State.lm_scanDone (s : State) : s.scanDone.lm = s.lm := by
  unfold State.scanDone
  split
  · exact (State.lm_discNotFound _ _).trans (State.lm_discNotFound _ _)
  · rfl

/-- The slot that ends with outcome FAULT leaves the magazine and the eject stage. -/
theorem State.lm_slotFault (s : State) : s.slotFault.lm.magazine = s.lm.magazine ∧ s.slotFault.lm.ejectStage = s.lm.ejectStage := by
  unfold State.slotFault
  split
  · exact ⟨rfl, rfl⟩
  · split
    · exact ⟨rfl, rfl⟩
    · unfold State.identOutcome
      rw [State.lm_scanDone]
      exact ⟨rfl, rfl⟩

theorem State.lm_ejectOver (s : State) (c : MagCause) :
    (s.ejectOver c).lm.magazine = .present ∧ (s.ejectOver c).lm.ejectStage = .none := by
  unfold State.ejectOver
  dsimp only
  split <;> exact ⟨rfl, rfl⟩

/-- An eject sequence that uses the drive ends with the magazine PRESENT. -/
theorem State.lm_loaderFault {s : State} (h : s.lm.ejectStage = .unloading ∨ s.lm.ejectStage = .unlatching) :
    s.loaderFault.lm.magazine = .present ∧ s.loaderFault.lm.ejectStage = .none := by
  obtain ⟨hmag, hstage⟩ := (s.ejectOver .ejectFailed).lm_slotFault
  obtain ⟨hmag', hstage'⟩ := s.lm_ejectOver .ejectFailed
  rw [State.loaderFault_ejects h]
  exact ⟨hmag.trans hmag', hstage.trans hstage'⟩

/-- With no eject sequence that uses the drive, and no slot that has been granted, the loader takes no notice. -/
theorem State.loaderFault_idle {s : State} (h : ¬ (s.lm.ejectStage = .unloading ∨ s.lm.ejectStage = .unlatching))
    (hq : s.lm.queue = [] ∨ s.lm.slotTimer = .zero) : s.loaderFault = s := by
  rw [State.loaderFault_other h, State.slotFault]
  split
  · rfl
  · next hs =>
    rcases hq with hq | hq
    · rw [hq] at hs
      cases hs
    · exact if_pos hq

/-! ## The drive enters FAULT (R61) -/

/-- DA in FAULT with the current claim gone, before the other units hear of it. -/
def Drive.faulted (d : Drive) : Drive :=
  { d with
    state := .fault, slot := .unknown, speed := .unknown, out := none, claim := none, idleTimer := .stopped,
    blockTimer := .stopped, removalDue := false, startDue := false }

/-- The state in which the other units hear of the drive FAULT. -/
def State.faultBegins (s : State) : State :=
  ((s.modDa fun d => { d with
    state := .fault, slot := .unknown, speed := .unknown, out := none, idleTimer := .stopped, blockTimer := .stopped
    removalDue := false, startDue := false }).closeClaim .cancelled).dropClaim

theorem State.da_faultBegins (s : State) : s.faultBegins.da = s.da.faulted := by
  unfold State.faultBegins
  generalize hs : (s.modDa fun d => { d with
    state := .fault, slot := .unknown, speed := .unknown, out := none, idleTimer := .stopped, blockTimer := .stopped
    removalDue := false, startDue := false }) = u
  have hu : { u.da with claim := none } = s.da.faulted := by rw [← hs]; rfl
  have ho : u.da.out = none := by rw [← hs]; rfl
  have hb : u.da.blockTimer = .stopped := by rw [← hs]; rfl
  have hr : u.da.state ≠ .reading := by rw [← hs]; nofun
  cases hc : u.liveClaim with
  | none => rw [State.closeClaim_none hc]; exact hu
  | some c =>
    by_cases hk : c.kind = .hold
    · have hd : u.closeClaim .cancelled = u := by simp [State.closeClaim, hc, hk]
      rw [hd]
      exact hu
    · rw [State.dropClaim, State.modDa_da, State.da_closeClaim_still hc hk ho hr, ← hu, ← hb]

theorem State.liveClaim_faultBegins (s : State) : s.faultBegins.liveClaim = none := by
  rw [State.liveClaim, s.da_faultBegins]
  rfl

/-- A claim that is closed leaves the loader but for the slot timer, which it may stop but not start. -/
theorem State.lm_closeClaim (s : State) (st : Standing) :
    (s.closeClaim st).lm = s.lm ∨ (s.closeClaim st).lm = s.lm.standStill := by
  have hw (t : State) (z : ZoneId) : (t.ctxWait z).lm = t.lm := by
    unfold State.ctxWait
    split <;> rfl
  have hr (t : State) : t.releasePickup.lm = t.lm := by
    unfold State.releasePickup
    split
    · rfl
    · split <;> rfl
  unfold State.closeClaim
  split
  · split
    · exact .inl rfl
    · rw [hr]
      unfold State.markClaim
      dsimp only
      split
      · exact .inr rfl
      · split
        · exact .inl (hw _ _)
        · exact .inl rfl
      · split
        · exact .inl (hw _ _)
        · exact .inl rfl
      · exact .inl rfl
  · exact .inl rfl

theorem State.lm_faultBegins (s : State) : s.faultBegins.lm.ejectStage = s.lm.ejectStage ∧
    s.faultBegins.lm.queue = s.lm.queue ∧ (s.lm.slotTimer = .zero → s.faultBegins.lm.slotTimer = .zero) := by
  have hlm : s.faultBegins.lm = s.lm ∨ s.faultBegins.lm = s.lm.standStill := State.lm_closeClaim _ _
  rcases hlm with h | h
  · rw [h]
    exact ⟨rfl, rfl, id⟩
  · rw [h, Loader.standStill]
    split
    · next ht => exact ⟨rfl, rfl, fun h0 => absurd (ht.symm.trans h0) nofun⟩
    · exact ⟨rfl, rfl, id⟩
    · exact ⟨rfl, rfl, id⟩

/-- The other units have heard of the drive FAULT, up to the contexts and audit targets. -/
def State.faultHeard (s : State) : State :=
  (((((s.zoneFault .a).zoneFault .b).emptyList .a).emptyList .b).dropLink .a).dropLink .b

section

variable {s : State} (hl : s.liveClaim = none)

include hl

theorem Faulting.zonesHeard : Faulting ((s.zoneFault .a).zoneFault .b) s.faultHeard := by
  have h0 : ((s.zoneFault .a).zoneFault .b).liveClaim = none := (Faulting.refl s).zoneFault.zoneFault.liveClaim hl
  exact (((Faulting.refl _).emptyList h0).emptyList h0).dropLink.dropLink

theorem Faulting.heard : Faulting s s.faultHeard := (Faulting.refl s).zoneFault.zoneFault.trans (Faulting.zonesHeard hl)

theorem State.supply_faultHeard {z : ZoneId} (h : (s.zone z).supply = .feeding ∨ (s.zone z).supply = .rejoining) :
    (s.faultHeard.zone z).supply = .fault :=
  (Faulting.zonesHeard hl).fault z (State.supply_zonesFault h)

theorem State.emptyLists_spec : (∀ z, ((s.emptyList .a).emptyList .b).ru.lists.get z = []) ∧
    ((s.emptyList .a).emptyList .b).cl = s.cl ∧ ((s.emptyList .a).emptyList .b).lm = s.lm := by
  have ha := (Faulting.refl s).emptyList (z := .a) hl
  have hb := (Faulting.refl (s.emptyList .a)).emptyList (z := .b) (ha.liveClaim hl)
  obtain ⟨hla, hca, hma⟩ := State.emptyList_spec hl .a
  obtain ⟨hlb, hcb, hmb⟩ := State.emptyList_spec (ha.liveClaim hl) .b
  exact ⟨forall_zones ⟨hb.emptied .a hla, hlb⟩, hcb.trans hca, hmb.trans hma⟩

theorem State.faultHeard_spec :
    (∀ z, s.faultHeard.ctx z = none ∧ s.faultHeard.ru.lists.get z = [] ∧ (s.faultHeard.lu.audit.get z).target = none) ∧
    s.faultHeard.lm = s.lm ∧
    ((∀ z, (s.zone z).supply ≠ .feeding ∧ (s.zone z).supply ≠ .rejoining) → s.faultHeard.cl = s.cl) := by
  have h0 : ((s.zoneFault .a).zoneFault .b).liveClaim = none := (Faulting.refl s).zoneFault.zoneFault.liveClaim hl
  obtain ⟨hlist, -, hlm⟩ := State.emptyLists_spec h0
  refine ⟨forall_zones ⟨⟨rfl, hlist .a, rfl⟩, ⟨rfl, hlist .b, rfl⟩⟩, ?_, fun hz => ?_⟩
  · rw [State.faultHeard, State.lm_dropLink, State.lm_dropLink, hlm, State.lm_zoneFault, State.lm_zoneFault]
  obtain ⟨-, hcl, -⟩ := State.emptyLists_spec hl
  have hstand (z : ZoneId) : s.zoneFault z = s := if_neg fun h => h.elim (hz z).1 (hz z).2
  rw [State.faultHeard, hstand .a, hstand .b]
  exact hcl

end

/-- The parking sequence ends, if there is one. -/
theorem State.parkFault_eq (s : State) : s.parkFault = { s with
    da := { s.da with parkStage := .none }
    pc := { s.pc with driveDone := s.pc.driveDone || decide (s.da.parkStage ≠ .none) } } := by
  unfold State.parkFault
  split
  · next h => rw [decide_eq_false (not_not.2 h), Bool.or_false, ← h]
  · next h => simp [h, State.modDa, State.modPc]

theorem State.enterFault_eq (s : State) (cmd : ServoName) (c : FaultCause) : s.enterFault cmd c =
    ((s.faultBegins.faultHeard.loaderFault.parkFault).modDd fun d => { d with ident := none }).faultNotice cmd c := by
  unfold State.enterFault State.faultHeard State.faultBegins
  rfl

/-- What a failure of the command with code `cmd`, for the cause with code `cause`, makes of `s` when it brings the drive FAULT (R61). -/
def State.faultedTo (s e : State) (cmd cause : Byte) : Prop :=
  e.da.state = .fault ∧ e.da.slot = .unknown ∧ e.da.speed = .unknown ∧ e.da.out = none ∧ e.da.claim = none ∧
  e.da.idleTimer = .stopped ∧ e.da.blockTimer = .stopped ∧ e.da.hold = s.da.hold ∧ e.da.parkStage = .none ∧
  (s.da.parkStage ≠ .none → e.pc.driveDone = true) ∧
  (∀ z, ((s.zone z).supply = .feeding ∨ (s.zone z).supply = .rejoining → (e.zone z).supply = .fault) ∧
    e.ctx z = none ∧ e.ru.lists.get z = [] ∧ (e.lu.audit.get z).target = none ∧
    (e.lu.audit.get z).misses = (s.lu.audit.get z).misses ∧ e.bs.chain.get z = s.bs.chain.get z ∧
    e.bs.anchor.get z = s.bs.anchor.get z ∧ (e.zone z).nextRead = (s.zone z).nextRead) ∧
  (s.lm.ejectStage = .unloading ∨ s.lm.ejectStage = .unlatching → e.lm.magazine = .present ∧ e.lm.ejectStage = .none) ∧
  e.dd.records = s.dd.records ∧ e.dd.ident = none ∧ e.bs.freeCount = s.bs.freeCount ∧ e.params = s.params ∧
  e.straps = s.straps ∧ e.pins = s.pins ∧ e.sm = s.sm ∧ e.pending = s.pending ∧
  (∃ l : Link, e.cl = l.notice ⟨0x76, [cmd, cause]⟩) ∧
  ((∀ z, (s.zone z).supply ≠ .feeding ∧ (s.zone z).supply ≠ .rejoining) → s.lm.ejectStage ≠ .unloading →
    s.lm.ejectStage ≠ .unlatching → (s.lm.queue = [] ∨ s.lm.slotTimer = .zero) → e.cl = s.cl.notice ⟨0x76, [cmd, cause]⟩)

/-- The other units have heard of the drive FAULT, and the loader after them. -/
theorem State.faultHeard_loaderFault (s : State) :
    let u := s.faultBegins.faultHeard.loaderFault
    u.da = s.da.faulted ∧
    (∀ z, ((s.zone z).supply = .feeding ∨ (s.zone z).supply = .rejoining → (u.zone z).supply = .fault) ∧
      u.ctx z = none ∧ u.ru.lists.get z = [] ∧ (u.lu.audit.get z).target = none ∧
      (u.lu.audit.get z).misses = (s.lu.audit.get z).misses ∧ u.bs.chain.get z = s.bs.chain.get z ∧
      u.bs.anchor.get z = s.bs.anchor.get z ∧ (u.zone z).nextRead = (s.zone z).nextRead) ∧
    (s.lm.ejectStage = .unloading ∨ s.lm.ejectStage = .unlatching → u.lm.magazine = .present ∧ u.lm.ejectStage = .none) ∧
    u.dd.records = s.dd.records ∧ u.bs.freeCount = s.bs.freeCount ∧ u.params = s.params ∧ u.straps = s.straps ∧ u.pins = s.pins ∧
    u.sm = s.sm ∧ u.pending = s.pending ∧
    ((∀ z, (s.zone z).supply ≠ .feeding ∧ (s.zone z).supply ≠ .rejoining) → s.lm.ejectStage ≠ .unloading →
      s.lm.ejectStage ≠ .unlatching → (s.lm.queue = [] ∨ s.lm.slotTimer = .zero) → u.cl = s.cl) := by
  intro u
  have hl := s.liveClaim_faultBegins
  have haside : Aside s s.faultBegins := show Aside s (State.dropClaim _) from (Aside.refl s).modDa.closeClaim.modDa
  have hzone (z : ZoneId) : s.faultBegins.zone z = s.zone z := congrArg (·.get z) haside.zc
  have hmiss : s.faultBegins.lu.audit = s.lu.audit := haside.audit
  have hrec : s.faultBegins.dd = s.dd := haside.dd
  have hlink : s.faultBegins.cl = s.cl := haside.cl
  obtain ⟨hstage, hqueue, htimer⟩ := s.lm_faultBegins
  obtain ⟨hcleared, hlm, hcl⟩ := State.faultHeard_spec hl
  have hloader : Faulting s.faultBegins.faultHeard u := (Faulting.refl _).loaderFault
  have hall : Faulting s.faultBegins u := (Faulting.heard hl).trans hloader
  have hpool : u.bs.chain = s.bs.chain ∧ u.bs.anchor = s.bs.anchor ∧ u.bs.freeCount = s.bs.freeCount ∧ u.params = s.params ∧
      u.straps = s.straps ∧ u.pins = s.pins ∧ u.sm = s.sm ∧ u.pending = s.pending := by
    obtain ⟨_, _, _, _, _, _, _, _, _, hu⟩ := hall.apart
    obtain ⟨_, _, _, _, _, hb⟩ := haside
    rw [hu, hb]
    exact ⟨rfl, rfl, rfl, rfl, rfl, rfl, rfl, rfl⟩
  obtain ⟨hchain, hanchor, hcount, hparams, hstraps, hpins, hsm, hpending⟩ := hpool
  refine ⟨hall.apart.da.trans s.da_faultBegins, fun z => ⟨fun h => ?_, hloader.dropped z (hcleared z).1,
    hloader.emptied z (hcleared z).2.1, hloader.audited z (hcleared z).2.2, (hall.misses z).trans (by rw [hmiss]),
    by rw [hchain], by rw [hanchor], (hall.nextRead z).trans (by rw [hzone])⟩, fun h => ?_, hall.records.trans (by rw [hrec]), hcount,
    hparams, hstraps, hpins, hsm, hpending, fun hz h1 h2 h3 => ?_⟩
  · exact hloader.fault z (State.supply_faultHeard hl (by rw [hzone]; exact h))
  · exact State.lm_loaderFault (by rw [hlm, hstage]; exact h)
  · have hidle : u = s.faultBegins.faultHeard := State.loaderFault_idle
      (by rw [hlm, hstage]; exact fun h => h.elim h1 h2) (by rw [hlm, hqueue]; exact h3.imp_right htimer)
    rw [hidle, hcl fun z => by rw [hzone]; exact hz z, hlink]

/-- The drive enters FAULT: the claim is cancelled, the other units hear of it, and the notice comes last. -/
theorem State.enterFault_spec (s : State) (cmd : ServoName) (c : FaultCause) :
    s.faultedTo (s.enterFault cmd c) (servoCode cmd) (faultCauseCode c) := by
  obtain ⟨hda, hzones, hloader, hrec, hcount, hparams, hstraps, hpins, hsm, hpending, hcl⟩ := s.faultHeard_loaderFault
  rw [State.enterFault_eq, State.parkFault_eq]
  generalize s.faultBegins.faultHeard.loaderFault = u at *
  have hf : { u.da with parkStage := .none } = { s.da.faulted with parkStage := .none } := by rw [hda]
  refine ⟨congrArg Drive.state hf, congrArg Drive.slot hf, congrArg Drive.speed hf, congrArg Drive.out hf, congrArg Drive.claim hf,
    congrArg Drive.idleTimer hf, congrArg Drive.blockTimer hf, (congrArg Drive.hold hf).trans rfl, rfl, fun h => ?_, hzones, hloader, hrec, rfl,
    hcount, hparams, hstraps, hpins, hsm, hpending, ⟨_, rfl⟩, fun hz h1 h2 h3 => ?_⟩
  · have hpark : u.da.parkStage ≠ .none := by rw [hda]; exact h
    exact Bool.or_eq_true_iff.2 (.inr (decide_eq_true hpark))
  · rw [← hcl hz h1 h2 h3]
    rfl

/-! ## What brings the drive FAULT (R59, R60) -/

section

variable {s : State} {o : Outstanding} {r : FailReason}

theorem State.failed_abort (r : FailReason) (hc : o.cmd = .abort) : s.failed r o = s.expired o := by
  simp [State.failed, hc]

theorem State.expired_abort (hc : o.cmd = .abort) : s.expired o = s.enterFault .abort .abortFailed := by
  simp [State.expired, hc]

theorem State.expired_twice (hc : o.cmd ≠ .abort) (hr : o.retry = true) : s.expired o = s.enterFault o.cmd.name .timeout := by
  simp [State.expired, hc, hr]

theorem State.failed_jam (h1 : o.cmd ≠ .pause) (h2 : o.cmd ≠ .abort) : s.failed .jam o = s.enterFault o.cmd.name .jam := by
  cases hc : o.cmd with
  | pause => exact absurd hc h1
  | abort => exact absurd hc h2
  | load n => simp [State.failed, hc]
  | unload => simp [State.failed, hc]
  | spin n => simp [State.failed, hc]
  | seek p => simp [State.failed, hc]
  | read => simp [State.failed, hc]
  | latchOpen => simp [State.failed, hc]

theorem State.failed_unload (hc : o.cmd = .unload) (hj : r ≠ .jam) : s.failed r o = s.enterFault .unload .unloadFailed := by
  cases r with
  | jam => exact absurd rfl hj
  | noDisc => simp [State.failed, hc]
  | notFound => simp [State.failed, hc]
  | speed => simp [State.failed, hc]

theorem State.failed_stop (hc : o.cmd = .spin 0) (hj : r ≠ .jam) : s.failed r o = s.enterFault .spin .spinFailed := by
  cases r with
  | jam => exact absurd rfl hj
  | noDisc => simp [State.failed, hc]
  | notFound => simp [State.failed, hc]
  | speed => simp [State.failed, hc]

end

/-- The commands whose names PAUSE, ABORT and UNLOAD are. -/
theorem Servo.name_eq_pause {c : Servo} : c.name = .pause ↔ c = .pause := by cases c <;> simp [Servo.name]

theorem Servo.name_eq_abort {c : Servo} : c.name = .abort ↔ c = .abort := by cases c <;> simp [Servo.name]

theorem Servo.name_eq_unload {c : Servo} : c.name = .unload ↔ c = .unload := by cases c <;> simp [Servo.name]

/-- Settles O40: each of the failures and expiries enters FAULT with its own command and cause, and one lemma says what that leaves. -/
theorem commandFaultsTheDrive : Obligations.CommandFaultsTheDrive := by
  intro s o hp ho hh hf hs
  have failing {n : ServoName} {r : FailReason} {cmd : ServoName} {c : FaultCause} (hn : o.cmd.name = n)
      (he : State.failed r o { s with da := { s.da with out := none } } =
        State.enterFault { s with da := { s.da with out := none } } cmd c) :
      ∃ e, exec (.commandFailed n r) s = .next (State.finish s e) ∧ s.faultedTo e (servoCode cmd) (faultCauseCode c) :=
    ⟨_, State.completion_taken hp ho hh hf hs hn he, State.enterFault_spec { s with da := { s.da with out := none } } cmd c⟩
  have expiring {cmd : ServoName} {c : FaultCause} (he : s.expired o = s.enterFault cmd c) :
      ∃ e, exec .commandTimeout s = .next (State.finish s e) ∧ s.faultedTo e (servoCode cmd) (faultCauseCode c) :=
    ⟨_, State.whenPowered_powered hp ((State.timeout_expired ho hs).trans he), s.enterFault_spec cmd c⟩
  refine ⟨fun n r hn => ⟨fun ha => ?_, fun hpa hr => ?_, fun hj hpa ha => ?_, fun hj hu => ?_, fun hj hc => ?_⟩,
    fun hc => expiring (State.expired_abort hc), fun hc hr => expiring (State.expired_twice hc hr)⟩
  · have hc : o.cmd = .abort := Servo.name_eq_abort.1 (hn.trans ha)
    exact failing hn ((State.failed_abort r hc).trans (State.expired_abort hc))
  · have hc : o.cmd = .pause := Servo.name_eq_pause.1 (hn.trans hpa)
    have htwice := State.expired_twice (s := { s with da := { s.da with out := none } }) (o := o) (by rw [hc]; nofun) hr
    rw [hc] at htwice
    exact failing hn ((State.failed_pause r hc).trans htwice)
  · subst hj hn
    exact failing rfl (State.failed_jam (hpa ∘ Servo.name_eq_pause.2) (ha ∘ Servo.name_eq_abort.2))
  · exact failing hn (State.failed_unload (Servo.name_eq_unload.1 (hn.trans hu)) hj)
  · exact failing hn (State.failed_stop hc hj)

end Sys2Proof.Machine
end

section
/-! PROOF. What every command ends with leaves alone (chapter 4): the arbitration and the preparation of a claim change no more than the
operations they are made of (O15). -/

namespace Sys2Proof.Machine

namespace Still

variable {s t : State} {z : ZoneId}

/-! ## Grants -/

theorem grant {c : Claim} (h : Still s t) : Still s (t.grant c) := h.modDa

theorem grantBurst {k : ClaimKind} (h : Still s t) : Still s (t.grantBurst k z) := h.ensureCtx.grant

theorem grantIdent {n : Nat} (h : Still s t) : Still s (t.grantIdent n) := by
  unfold State.grantIdent
  refine Still.grant (Still.modLm (h.modDd ?_))
  split
  · split <;> exact ⟨rfl, rfl⟩
  · exact ⟨rfl, rfl⟩

theorem grantTarget {k : ClaimKind} {a n : Nat} (h : Still s t) : Still s (t.grantTarget k z a n) := h.grant

theorem grantHold (h : Still s t) : Still s t.grantHold := h.grant.modDa.holdNotice

theorem grantReread {l : List ZoneId} (h : Still s t) : Still s (Machine.grantReread l t) := by
  induction l generalizing t with
  | nil => exact h
  | cons z l ih =>
    have h1 := h.nameEntry (z := z) (l := t.ru.lists.get z)
    unfold Machine.grantReread
    split
    · next he =>
      rw [he] at h1
      exact h1.grantTarget
    · next he =>
      rw [he] at h1
      exact ih h1

theorem grantRotation (h : Still s t) : Still s t.grantRotation := by
  unfold State.grantRotation
  dsimp only
  split
  · exact h.modDa.grantBurst
  · split
    · exact h.modDa.modDa
    · exact h.modDa

theorem grantAudit (h : Still s t) : Still s t.grantAudit := by
  unfold State.grantAudit
  split
  · exact h.grantTarget
  · exact h.grantRotation

theorem arbitrate (h : Still s t) : Still s t.arbitrate := by
  unfold State.arbitrate
  dsimp only
  split
  · exact h.grantBurst
  · split
    · exact h.grantBurst
    · split
      · exact h.grantIdent
      · split
        · exact h.grantHold
        · split
          · exact h.grantReread
          · exact h.grantReread.grantAudit

/-! ## Preparations, and what every command ends with -/

theorem seekPlace {c : Claim} {u : State} {p : Place} (h : Still s t) (he : t.seekPlace c = some (u, p)) : Still s u := by
  have attempts {w : ZoneId} (ha : ((t.beginAttempt w).map fun (u, a) => (u, Place.address a)) = some (u, p)) : Still s u := by
    simp only [Option.map_eq_some_iff, Prod.exists, Prod.mk.injEq] at ha
    obtain ⟨_, _, hb, rfl, _⟩ := ha
    exact h.beginAttempt hb
  unfold State.seekPlace at he
  split at he
  · exact attempts he
  · exact attempts he
  · cases he
    exact h
  · cases he
    exact h

theorem prepare {c : Claim} (h : Still s t) : Still s (t.prepare c) := by
  unfold State.prepare
  split
  · exact h.modDa.send
  · split
    · exact h.send
    · split
      · next he => exact (h.seekPlace he).modDa.send
      · exact h.noAnchor

theorem proceed {n : Nat} (h : Still s t) : Still s (State.proceed n t) := by
  induction n generalizing t with
  | zero => exact h
  | succ n ih =>
    unfold State.proceed
    split
    · exact h
    · have h2 : Still s (if (t.modDa Drive.settleRemoval).liveClaim = none then (t.modDa Drive.settleRemoval).dropClaim
          else t.modDa Drive.settleRemoval) := by
        split
        · exact h.modDa.dropClaim
        · exact h.modDa
      dsimp only
      generalize (if (t.modDa Drive.settleRemoval).liveClaim = none then (t.modDa Drive.settleRemoval).dropClaim
          else t.modDa Drive.settleRemoval) = u at h2 ⊢
      split
      · exact h2.ejectNext
      · split
        · exact h2.parkNext
        · split
          · exact h2
          · split
            · exact ih h2.prepare
            · split
              · exact h2
              · split
                · exact h2.arbitrate
                · exact ih h2.arbitrate

theorem parkBegins (h : Still s t) : Still s t.parkBegins := by
  unfold State.parkBegins
  split
  · exact h.closeClaim.modDa
  · exact h

theorem revokeTest (h : Still s t) : Still s t.revokeTest := by
  unfold State.revokeTest
  split
  · exact h.revokeHold
  · exact h

theorem pressChanged {old : State} (h : Still s t) : Still s (State.pressChanged old t z) := by
  unfold State.pressChanged
  split
  · exact h.pressTest
  · exact h

/-- What every command ends with changes no more than DA's operations do. -/
theorem finish {old : State} (h : Still s t) : Still s (State.finish old t) :=
  h.pressChanged.pressChanged.revokeTest.parkBegins.proceed

end Still

/-! ## A burst that the other zone's conditions end (R69) -/

/-- Zone `z` presses in words (R69). -/
theorem State.pressing_iff (s : State) (z : ZoneId) : s.pressing z = true ↔ s.urgent z = true ∨
    s.rejoinClaimant z = true ∧ s.fill z < s.params.lowWater.get z ∧
      ((s.zone z).play = .priming ∨ (s.zone z).play = .playing ∨ (s.zone z).play = .starved) := by
  simp only [State.pressing, Bool.or_eq_true, Bool.and_eq_true, decide_eq_true_iff]
  tauto

section

variable {old s : State} {c : Claim} {z : ZoneId}

/-- A LIVE link-up or refill that ends while it reads is gone with PAUSE sent (R57, R70). -/
theorem State.closeClaim_reading (hl : s.liveClaim = some c) (hk : c.kind = .linkUp ∨ c.kind = .refill) (hz : c.zone = some z)
    (ho : s.da.out = none) (hr : s.da.state = .reading) : s.closeClaim .ended = s.burstOver := by
  have hm : s.markClaim c .ended = { s with
      da := { s.da with claim := some { c with standing := .ended }, blockTimer := .stopped }, bi := s.bi.close .ended } := by
    rcases hk with hk | hk <;> simp [State.markClaim, hk, hz, State.modDa, State.modBi]
  have hh : c.kind ≠ .hold := by rcases hk with hk | hk <;> simp [hk]
  simp only [State.closeClaim, hl, if_neg hh, hm]
  exact State.releasePickup_reading ho hr

/-- R69 is tested against the zone that owns the claim only. -/
theorem State.pressTest_other {w : ZoneId} (hl : s.liveClaim = some c) (hz : c.zone = some z) (hw : w ≠ z) : s.pressTest w = s := by
  simp only [State.pressTest, hl]
  exact if_neg fun h => hw (Option.some.inj (h.2.1.symm.trans hz))

/-- The other zone's conditions have not changed, it does not press, or the zone stands below its floor. -/
theorem State.pressChanged_stands (hl : s.liveClaim = some c) (hz : c.zone = some z)
    (h : old.conditions z.other = s.conditions z.other ∨ s.floorReached z = false) (w : ZoneId) : State.pressChanged old s w = s := by
  unfold State.pressChanged
  split
  · next hch =>
    by_cases hw : w = z
    · subst hw
      have hf : s.floorReached w = false := h.resolve_left hch.2.2
      simp [State.pressTest, hl, hf]
    · exact State.pressTest_other hl hz hw
  · rfl

/-- The other zone has come to press, and the zone stands at its floor. -/
theorem State.pressChanged_ends (hl : s.liveClaim = some c) (hk : c.kind = .linkUp ∨ c.kind = .refill) (hz : c.zone = some z)
    (ho : s.da.out = none) (hr : s.da.state = .reading) (htl : s.tagLive = true) (hta : s.tagAppending = true)
    (hch : old.conditions z.other ≠ s.conditions z.other) (hf : s.floorReached z = true) :
    State.pressChanged old s z = s.burstOver := by
  have hp : s.pressTest z = s.closeClaim .ended := by
    simp only [State.pressTest, hl]
    exact if_pos ⟨hk, hz, hf⟩
  exact (if_pos ⟨htl, hta, hch⟩).trans (hp.trans (State.closeClaim_reading hl hk hz ho hr))

/-- R69 is tested against both zones, of which one owns the claim. -/
theorem State.pressChanged_both {t : State} (h : State.pressChanged old s z = t) (hs : State.pressChanged old s z.other = s)
    (ht : State.pressChanged old t z.other = t) : State.pressChanged old (State.pressChanged old s .a) .b = t := by
  cases z with
  | a => rw [h]; exact ht
  | b =>
    rw [show State.pressChanged old s .a = s from hs]
    exact h

end

/-! ## A removal that waits comes before the rest, or after it (R71, R160) -/

/-- A removal that waits may take effect before `f` or after it, while the drive is free, and `f` leaves the drive free. -/
def OffTheDrive (f : State → State) : Prop :=
  ∀ s : State, s.driveBusy = false →
    f (s.modDa Drive.settleRemoval) = (f s).modDa Drive.settleRemoval ∧ (f s).driveBusy = false

/-- A free drive has no command outstanding and is DOWN or READY. -/
theorem State.driveBusy_iff {s : State} : s.driveBusy = false ↔ s.da.out = none ∧ (s.da.state = .down ∨ s.da.state = .ready) := by
  simp only [State.driveBusy, Bool.or_eq_false_iff, Option.isSome_eq_false_iff, Option.isNone_iff_eq_none, Bool.and_eq_false_iff,
    decide_eq_false_iff_not, not_not]

theorem State.not_reading_of_free {s : State} (h : s.driveBusy = false) : s.da.out = none ∧ s.da.state ≠ .reading := by
  obtain ⟨ho, hs⟩ := State.driveBusy_iff.1 h
  exact ⟨ho, by rcases hs with hs | hs <;> rw [hs] <;> nofun⟩

theorem State.driveBusy_settleRemoval {s : State} (h : s.driveBusy = false) : (s.modDa Drive.settleRemoval).driveBusy = false := by
  obtain ⟨ho, hs⟩ := State.driveBusy_iff.1 h
  rw [State.driveBusy_iff, State.modDa_da, Drive.settleRemoval]
  split
  · exact ⟨ho, .inl rfl⟩
  · exact ⟨ho, hs⟩

/-- A removal that takes effect leaves the claim, the hold and the parking sequence. -/
theorem Drive.settleRemoval_fields (d : Drive) :
    d.settleRemoval.claim = d.claim ∧ d.settleRemoval.hold = d.hold ∧ d.settleRemoval.parkStage = d.parkStage := by
  unfold Drive.settleRemoval
  split <;> exact ⟨rfl, rfl, rfl⟩

theorem State.liveClaim_settleRemoval (s : State) : (s.modDa Drive.settleRemoval).liveClaim = s.liveClaim := by
  obtain ⟨hclaim, -, -⟩ := s.da.settleRemoval_fields
  rw [State.liveClaim, State.liveClaim, State.modDa_da, hclaim]

/-- Changes of DA's other fields and a removal that takes effect come in either order. -/
theorem State.modDa_settleRemoval (s : State) {f : Drive → Drive}
    (hf : ∀ d, f d.settleRemoval = (f d).settleRemoval) :
    (s.modDa Drive.settleRemoval).modDa f = (s.modDa f).modDa Drive.settleRemoval := by
  simp only [State.modDa, hf]

theorem State.markClaim_settleRemoval (s : State) (c : Claim) (st : Standing) :
    (s.modDa Drive.settleRemoval).markClaim c st = (s.markClaim c st).modDa Drive.settleRemoval := by
  have hw (t : State) (z : ZoneId) : (t.modDa Drive.settleRemoval).ctxWait z = (t.ctxWait z).modDa Drive.settleRemoval := by
    simp only [State.ctxWait, show (t.modDa Drive.settleRemoval).ctx z = t.ctx z from rfl]
    split <;> rfl
  have hm := s.modDa_settleRemoval (f := fun d => { d with claim := some { c with standing := st }, blockTimer := .stopped }) fun d => by
    unfold Drive.settleRemoval
    split <;> rfl
  unfold State.markClaim
  rw [hm]
  generalize (s.modDa fun d => { d with claim := some { c with standing := st }, blockTimer := .stopped }) = t
  dsimp only
  split
  · rfl
  · split
    · exact hw (t.modBi fun b => b.close st) _
    · rfl
  · split
    · exact hw (t.modBi fun b => b.close st) _
    · rfl
  · rfl

namespace OffTheDrive

theorem comp {f g : State → State} (hf : OffTheDrive f) (hg : OffTheDrive g) : OffTheDrive fun s => g (f s) := fun s hb => by
  obtain ⟨hc, hfree⟩ := hf s hb
  obtain ⟨hc', hfree'⟩ := hg (f s) hfree
  exact ⟨(congrArg g hc).trans hc', hfree'⟩

/-- An operation done when a condition holds that the drive has no part in. -/
theorem ite {p : State → Prop} [DecidablePred p] {f : State → State} (hf : OffTheDrive f)
    (hp : ∀ s, p (s.modDa Drive.settleRemoval) ↔ p s) : OffTheDrive fun s => if p s then f s else s := fun s hb => by
  dsimp only
  by_cases h : p s
  · rw [if_pos ((hp s).2 h), if_pos h]
    exact hf s hb
  · rw [if_neg (mt (hp s).1 h), if_neg h]
    exact ⟨rfl, hb⟩

/-- A change of fields of DA that a removal does not read or write. -/
theorem modDa {f : Drive → Drive} (hf : ∀ d, f d.settleRemoval = (f d).settleRemoval)
    (hb : ∀ d, (f d).out = d.out ∧ (f d).state = d.state) : OffTheDrive fun s => s.modDa f := fun s h => by
  obtain ⟨ho, hs⟩ := hb s.da
  exact ⟨s.modDa_settleRemoval hf, by rwa [State.driveBusy_iff, State.modDa_da, ho, hs, ← State.driveBusy_iff]⟩

theorem closeClaim (st : Standing) : OffTheDrive fun s => s.closeClaim st := fun s hb => by
  obtain ⟨ho, hr⟩ := State.not_reading_of_free hb
  have hb' := State.driveBusy_settleRemoval hb
  obtain ⟨ho', hr'⟩ := State.not_reading_of_free hb'
  have hlive := s.liveClaim_settleRemoval
  cases hc : s.liveClaim with
  | none =>
    dsimp only
    rw [State.closeClaim_none hc, State.closeClaim_none (hlive.trans hc)]
    exact ⟨rfl, hb⟩
  | some c =>
    by_cases hk : c.kind = .hold
    · have hd (t : State) (ht : t.liveClaim = some c) : t.closeClaim st = t := by simp [State.closeClaim, ht, hk]
      dsimp only
      rw [hd s hc, hd _ (hlive.trans hc)]
      exact ⟨rfl, hb⟩
    · dsimp only
      refine ⟨?_, ?_⟩
      · rw [State.closeClaim_still hc hk ho hr, State.closeClaim_still (hlive.trans hc) hk ho' hr', State.markClaim_settleRemoval]
        exact State.modDa_settleRemoval _ fun d => by
          unfold Drive.settleRemoval
          split <;> rfl
      · rw [State.driveBusy_iff, State.da_closeClaim_still hc hk ho hr]
        exact State.driveBusy_iff.1 hb

theorem pressTest (z : ZoneId) : OffTheDrive fun s => s.pressTest z := fun s hb => by
  have hlive := s.liveClaim_settleRemoval
  dsimp only
  unfold State.pressTest
  rw [hlive]
  cases hc : s.liveClaim with
  | none => exact ⟨rfl, hb⟩
  | some c =>
    exact (closeClaim .ended).ite (p := fun s => (c.kind = .linkUp ∨ c.kind = .refill) ∧ c.zone = some z ∧ s.floorReached z = true)
      (fun _ => Iff.rfl) s hb

theorem pressChanged (old : State) (z : ZoneId) : OffTheDrive fun s => State.pressChanged old s z :=
  (pressTest z).ite fun _ => Iff.rfl

theorem revokeHold : OffTheDrive State.revokeHold := fun s hb => by
  have hm := s.modDa_settleRemoval
    (f := fun d => { d with hold := .revoking, graceTimer := ms (s.params.holdGrace * 100) }) fun d => by
      unfold Drive.settleRemoval
      split <;> rfl
  exact ⟨congrArg (fun t : State => t.holdNotice 2) hm, hb⟩

theorem revokeTest : OffTheDrive State.revokeTest :=
  OffTheDrive.ite (p := fun s => s.da.hold = .granted ∧
    (s.urgent .a || s.urgent .b || s.rejoinClaimant .a || s.rejoinClaimant .b) = true) revokeHold fun s => by
      obtain ⟨-, hhold, -⟩ := s.da.settleRemoval_fields
      rw [State.modDa_da, hhold]
      exact Iff.rfl

theorem parkBegins : OffTheDrive State.parkBegins :=
  OffTheDrive.ite (p := fun s => s.da.parkStage = .waiting ∧ s.lm.ejectStage = .none)
    ((closeClaim .cancelled).comp (modDa (f := fun d => { d with parkStage := .settling, idleTimer := .stopped })
      (fun d => by unfold Drive.settleRemoval; split <;> rfl) fun _ => ⟨rfl, rfl⟩)) fun s => by
      obtain ⟨-, -, hpark⟩ := s.da.settleRemoval_fields
      rw [State.modDa_da, hpark]
      exact Iff.rfl

end OffTheDrive

/-- What every command ends with begins with the removal that waits, while the drive is free (R71, R160). -/
theorem State.finish_settleRemoval (old : State) {s : State} (hb : s.driveBusy = false) :
    State.finish old s = State.finish old (s.modDa Drive.settleRemoval) := by
  have hproceed (t : State) (ht : t.driveBusy = false) : State.proceed 8 (t.modDa Drive.settleRemoval) = State.proceed 8 t := by
    have hmm : (t.modDa Drive.settleRemoval).modDa Drive.settleRemoval = t.modDa Drive.settleRemoval := by
      have hm : t.da.settleRemoval.removalDue = false := by
        unfold Drive.settleRemoval
        split
        · rfl
        · next h => exact eq_false_of_ne_true h
      rw [State.modDa, State.modDa_da, Drive.settleRemoval_calm hm]
      rfl
    rw [State.proceed, State.proceed, State.driveBusy_settleRemoval ht, ht, hmm]
    rfl
  obtain ⟨hpre, hfree⟩ := (((OffTheDrive.pressChanged old .a).comp (.pressChanged old .b)).comp .revokeTest).comp .parkBegins s hb
  unfold State.finish
  exact ((congrArg (State.proceed 8) hpre).trans (hproceed _ hfree)).symm

/-! ## The pickup in use, revoked holds, and the service sequences (R76, R158, R166) -/

/-- With no burst to test and no granted hold, what a command ends with begins with the parking sequence, if one waits. -/
theorem State.finish_parkBegins {old s : State} (ht : s.tagLive = false ∨ s.tagAppending = false) (hh : s.da.hold ≠ .granted) :
    State.finish old s = State.proceed 8 s.parkBegins := by
  have hr : s.revokeTest = s := State.revokeTest_kept fun h => absurd h hh
  unfold State.finish
  dsimp only
  rw [State.pressChanged_joining ht, State.pressChanged_joining ht, hr]

/-- What a command ends with when the pickup is in use after the tests of R69, with no hold granted and no parking sequence waiting. -/
theorem State.finish_pressed {old s t : State} (h : State.pressChanged old (State.pressChanged old s .a) .b = t)
    (hh : t.da.hold ≠ .granted) (hp : t.da.parkStage ≠ .waiting) (hb : t.driveBusy = true) : State.finish old s = t := by
  have hr : t.revokeTest = t := State.revokeTest_kept fun h => absurd h hh
  unfold State.finish
  dsimp only
  rw [h, hr, State.parkBegins_kept (.inl hp), State.proceed_busy 8 hb]

/-- A granted hold of a drive that is HELD is revoked for a zone that is urgent or a rejoin claimant. -/
theorem State.finish_revokes {old s : State} (hh : s.da.hold = .granted) (hs : s.da.state = .held)
    (hz : ∃ z, s.urgent z = true ∨ s.rejoinClaimant z = true) (ht : s.tagLive = false ∨ s.tagAppending = false)
    (hp : s.da.parkStage ≠ .waiting) : State.finish old s = s.revokeHold := by
  have hany : (s.urgent .a || s.urgent .b || s.rejoinClaimant .a || s.rejoinClaimant .b) = true := by
    obtain ⟨z, hz⟩ := hz
    cases z <;> rcases hz with hz | hz <;> simp [hz]
  have hr : s.revokeTest = s.revokeHold := if_pos ⟨hh, hany⟩
  have hpark : s.revokeHold.parkBegins = s.revokeHold := State.parkBegins_kept (.inl hp)
  unfold State.finish
  dsimp only
  rw [State.pressChanged_joining ht, State.pressChanged_joining ht, hr, hpark]
  exact State.proceed_busy 8 (by
    have hd : s.revokeHold.da.state = .held := hs
    simp [State.driveBusy, hd])

section

variable {s : State}

/-- A free drive without a LIVE claim, and with no removal waiting, has a service sequence go on from the state without the claim. -/
theorem State.proceed_free (n : Nat) (hb : s.driveBusy = false) (hl : s.liveClaim = none) (hm : s.da.removalDue = false) :
    State.proceed (n + 1) s =
      if s.ejectRuns = true then s.dropClaim.ejectNext
      else if s.da.parkStage ≠ .none then s.dropClaim.parkNext
      else if s.pc.state ≠ .active then s.dropClaim
      else if s.unsettled = true then s.dropClaim
      else if s.dropClaim.arbitrate.da.claim = none then s.dropClaim.arbitrate
      else State.proceed n s.dropClaim.arbitrate := by
  have hs : s.modDa Drive.settleRemoval = s := by rw [State.modDa, Drive.settleRemoval_calm hm]
  have hd : s.dropClaim.liveClaim = none := rfl
  rw [State.proceed, if_neg (by rw [hb]; nofun), hs]
  dsimp only
  rw [if_pos hl]
  simp only [hd]
  rfl

theorem State.ejectNext_unload (he : s.lm.ejectStage = .unloading) (hs : s.da.slot ≠ .none) :
    s.ejectNext = s.send .unload .loading := by
  simp [State.ejectNext, he, hs]

theorem State.ejectNext_latch (he : s.lm.ejectStage = .unlatching ∨ s.lm.ejectStage = .unloading ∧ s.da.slot = .none) :
    s.ejectNext = (s.modLm fun l => { l with ejectStage := .unlatching }).send .latchOpen .loading := by
  rcases he with he | ⟨he, hs⟩
  · have hlm : s.modLm (fun l => { l with ejectStage := .unlatching }) = s := by
      rw [State.modLm, ← he]
    rw [hlm]
    simp [State.ejectNext, he]
  · simp [State.ejectNext, he, hs]

/-- A parking sequence that waited, or has begun, goes on with UNLOAD, or with SPIN 0 when no slot is loaded. -/
theorem State.proceed_parks (n : Nat) (hb : s.driveBusy = false) (hl : s.liveClaim = none) (hm : s.da.removalDue = false)
    (he : s.lm.ejectStage = .none) (hk : s.da.parkStage = .settling) :
    (s.da.slot ≠ .none → State.proceed (n + 1) s = { s with
      da := { ({ s.da with claim := none } : Drive).sending .unload 12000000000 .loading with parkStage := .unloading } }) ∧
    (s.da.slot = .none → State.proceed (n + 1) s = { s with
      da := { ({ s.da with claim := none } : Drive).sending (.spin 0) 4000000000 .spinning with parkStage := .spinning } }) := by
  have her : s.ejectRuns = false := by simp [State.ejectRuns, Loader.ejecting, he]
  have hp : State.proceed (n + 1) s = s.dropClaim.parkNext := by
    rw [State.proceed_free n hb hl hm, if_neg (by rw [her]; nofun), if_pos (by rw [hk]; nofun)]
  rw [hp]
  exact ⟨fun hs => if_neg hs, fun hs => if_pos hs⟩

theorem State.bi_markClaim (s : State) (c : Claim) (st : Standing) : (s.markClaim c st).bi = s.bi.close st := by
  have hw (t : State) (z : ZoneId) : (t.ctxWait z).bi = t.bi := by
    unfold State.ctxWait
    split <;> rfl
  unfold State.markClaim
  dsimp only
  split
  · rfl
  · split
    · exact hw _ _
    · rfl
  · split
    · exact hw _ _
    · rfl
  · rfl

/-- A tag that is given its final standing is not LIVE (R7). -/
theorem State.tagLive_closed {s t : State} {st : Standing} (hst : st ≠ .live) (hb : t.bi = s.bi.close st) : t.tagLive = false := by
  rw [State.tagLive, hb, Intake.close]
  cases htag : s.bi.tag with
  | none => simp [htag]
  | some x => by_cases hl : x.standing = .live <;> simp [htag, hl, hst]

/-- A parking sequence that waited begins while the pickup reads: the claim is cancelled with PAUSE sent (R71, R166). -/
theorem State.parkBegins_reading {c : Claim} (hp : s.da.parkStage = .waiting) (he : s.lm.ejectStage = .none)
    (hr : s.da.state = .reading) (ho : s.da.out = none) (hc : s.liveClaim = some c) (hk : c.kind ≠ .hold) :
    s.parkBegins.tagLive = false ∧
    s.parkBegins.da = { s.da.sending .pause 300000000 .stopping with claim := none, parkStage := .settling } := by
  have hda := s.da_markClaim c .cancelled
  have hclose : s.closeClaim .cancelled = (s.markClaim c .cancelled).releasePickup := by simp [State.closeClaim, hc, hk]
  have hrel := State.releasePickup_reading (s := s.markClaim c .cancelled) (by rw [hda]; exact ho) (by rw [hda]; exact hr)
  have hbegin : s.parkBegins =
      (s.closeClaim .cancelled).modDa fun d => { d with parkStage := .settling, idleTimer := .stopped } := if_pos ⟨hp, he⟩
  rw [hbegin, hclose, hrel]
  refine ⟨State.tagLive_closed (st := .cancelled) nofun (s.bi_markClaim c .cancelled), ?_⟩
  simp only [State.modDa_da, hda]
  rfl

/-- A parking sequence that waits, or has begun, with no LIVE claim and no eject sequence under way, has begun. -/
theorem State.parkBegins_free (hl : s.liveClaim = none) (he : s.lm.ejectStage = .none)
    (hp : s.da.parkStage = .waiting ∨ s.da.parkStage = .settling) :
    ∃ idle, s.parkBegins = { s with da := { s.da with parkStage := .settling, idleTimer := idle } } := by
  rcases hp with hp | hp
  · have hbegin : s.parkBegins =
        (s.closeClaim .cancelled).modDa fun d => { d with parkStage := .settling, idleTimer := .stopped } := if_pos ⟨hp, he⟩
    rw [hbegin, State.closeClaim_none hl]
    exact ⟨_, rfl⟩
  · rw [State.parkBegins_kept (.inl (by rw [hp]; nofun)), ← hp]
    exact ⟨s.da.idleTimer, rfl⟩

end

/-! ## The end of a burst (R69) -/

section

variable {old s : State} {c : Claim} {z : ZoneId}

/-- A burst in its APPENDING phase goes on while the other zone's conditions have not changed, or it does not press, or this zone
stands below its floor. -/
theorem State.finish_burstStands (hh : s.da.hold ≠ .granted) (hp : s.da.parkStage = .none) (hr : s.da.state = .reading)
    (hl : s.liveClaim = some c) (hz : c.zone = some z)
    (h : old.conditions z.other = s.conditions z.other ∨ s.floorReached z = false) : State.finish old s = s := by
  have hpress := State.pressChanged_stands (old := old) hl hz h
  exact State.finish_pressed (by rw [hpress, hpress]) hh (by rw [hp]; nofun) (by simp [State.driveBusy, hr])

/-- A burst in its APPENDING phase ends when the other zone has come to press and this one stands at its floor. -/
theorem State.finish_burstEnds (htl : s.tagLive = true) (hta : s.tagAppending = true) (hh : s.da.hold ≠ .granted)
    (hp : s.da.parkStage = .none) (hr : s.da.state = .reading) (ho : s.da.out = none) (hl : s.liveClaim = some c)
    (hk : c.kind = .linkUp ∨ c.kind = .refill) (hz : c.zone = some z) (hch : old.conditions z.other ≠ s.conditions z.other)
    (hf : s.floorReached z = true) : State.finish old s = s.burstOver := by
  have hends := State.pressChanged_ends hl hk hz ho hr htl hta hch hf
  have hother : State.pressChanged old s z.other = s := by
    unfold State.pressChanged
    rw [State.pressTest_other hl hz (ZoneId.other_ne z), ite_self]
  exact State.finish_pressed (State.pressChanged_both hends hother (State.pressChanged_joining (.inl s.tagLive_burstOver))) hh
    (show s.da.parkStage ≠ .waiting by rw [hp]; nofun) rfl

/-- The tag of a burst that has ended is ENDED. -/
theorem Intake.close_live {b : Intake} (h : ∃ x, b.tag = some x ∧ x.standing = .live) (st : Standing) :
    b.close st = { b with tag := b.tag.map fun x => { x with standing := st } } := by
  obtain ⟨x, hx, hl⟩ := h
  simp [Intake.close, hx, hl]

theorem State.tagLive_iff {s : State} : s.tagLive = true ↔ ∃ x, s.bi.tag = some x ∧ x.standing = .live := by
  unfold State.tagLive
  cases s.bi.tag <;> simp

theorem State.floorReached_iff (s : State) (z : ZoneId) :
    s.floorReached z = true ↔ s.pressing z.other = true ∧ s.params.lowWater.get z + 200 ≤ s.fill z := by
  simp only [State.floorReached, Bool.and_eq_true, decide_eq_true_iff]

end

/-- Settles O15: the frame of `finish`, the pickup in use, and what else a command ends with, case by case. -/
theorem finishLeavesTheRestAlone : Obligations.FinishLeavesTheRestAlone := by
  refine ⟨fun old s => ?_, fun old s hb hp hh ht => ?_, fun old s => ⟨fun hh hs hz ht hp => ?_, fun c z htl hta hh hp hr ho hc hl hk hz =>
    ⟨fun hstands => ?_, fun hch hpress hfloor => ?_⟩, fun hm hb => ?_, fun ⟨hb, hl, hm⟩ ht hh => ⟨fun he hs => ?_, fun he => ?_,
    fun he => ?_, fun he hp => ?_⟩, fun hp he ht hh hr ho c hc hk => ?_⟩⟩
  · have h := (Still.refl s).finish (old := old)
    have hcalm := (Calm.refl s).finish (old := old)
    refine ⟨h.whole, h.pool, fun hw b => ?_, h.zone, h.oc, h.lm, h.dd,
      ⟨(congrArg Intake.nonGood h.bi :), (congrArg Intake.lastGood h.bi :)⟩, (congrArg LinkUp.audit h.lu :), hcalm.rotation, h.cl,
      hcalm.asked⟩
    obtain ⟨-, hblock⟩ := h.block hw
    exact ⟨(congrArg Bucket.samples (hblock b) :), (congrArg Bucket.flags (hblock b) :), (congrArg Bucket.info (hblock b) :)⟩
  · rw [State.finish_proceed ht hh hp]
    exact State.proceed_busy 8 hb
  · exact State.finish_revokes hh hs hz ht hp
  · have hlive : s.liveClaim = some c := by simp [State.liveClaim, hc, hl]
    refine State.finish_burstStands hh hp hr hlive hz (hstands.imp_right fun h => eq_false_of_ne_true fun hf => ?_)
    obtain ⟨hpress, hfloor⟩ := (s.floorReached_iff z).1 hf
    exact h.elim (· ((s.pressing_iff _).1 hpress)) (Nat.not_lt.2 hfloor)
  · have hlive : s.liveClaim = some c := by simp [State.liveClaim, hc, hl]
    have hreach := (s.floorReached_iff z).2 ⟨(s.pressing_iff _).2 hpress, hfloor⟩
    rw [← Intake.close_live (State.tagLive_iff.1 htl)]
    exact State.finish_burstEnds htl hta hh hp hr ho hlive hk hz hch hreach
  · refine (State.finish_settleRemoval old hb).trans (congrArg (State.finish old) ?_)
    rw [State.modDa, Drive.settleRemoval, if_pos hm]
  · have her : s.ejectRuns = true := by simp [State.ejectRuns, Loader.ejecting, he]
    rw [State.finish_proceed ht (fun h => absurd h hh) (.inr (by rw [he]; nofun)), State.proceed_free 7 hb hl hm, if_pos her]
    exact State.ejectNext_unload (s := s.dropClaim) he hs
  · have hstage : s.lm.ejectStage ≠ .none ∧ s.lm.ejectStage ≠ .waitingHold := by
      rcases he with he | ⟨he, -⟩ <;> rw [he] <;> exact ⟨nofun, nofun⟩
    have her : s.ejectRuns = true := by simp [State.ejectRuns, Loader.ejecting, hstage]
    rw [State.finish_proceed ht (fun h => absurd h hh) (.inr hstage.1), State.proceed_free 7 hb hl hm, if_pos her]
    exact State.ejectNext_latch (s := s.dropClaim) he
  · have her : s.ejectRuns = true := by simp [State.ejectRuns, Loader.ejecting, he]
    rw [State.finish_proceed ht (fun h => absurd h hh) (.inr (by rw [he]; nofun)), State.proceed_free 7 hb hl hm, if_pos her]
    simp only [State.ejectNext, State.dropClaim, State.modDa_lm, he]
    rfl
  · obtain ⟨idle, hsettling⟩ := State.parkBegins_free hl he hp
    rw [State.finish_parkBegins ht hh, hsettling]
    exact State.proceed_parks (s := { s with da := { s.da with parkStage := .settling, idleTimer := idle } }) 7 hb hl hm he rfl
  · obtain ⟨htag, hda⟩ := State.parkBegins_reading hp he hr ho hc hk
    have hbusy : State.proceed 8 s.parkBegins = s.parkBegins := State.proceed_busy 8 (by rw [State.driveBusy, hda]; rfl)
    rw [State.finish_parkBegins ht hh, hbusy]
    exact ⟨htag, hda⟩

end Sys2Proof.Machine
end

section
/-! PROOF. The order of an arbitration, and the preparation of the claim it grants (chapter 4): O16. -/

namespace Sys2Proof.Machine

/-! ## Of two zones, the one that comes first (R64) -/

theorem State.lowerFill_none {s : State} {p : ZoneId → Bool} : s.lowerFill p = none ↔ ∀ z, p z = false := by
  rw [State.lowerFill]
  cases ha : p .a <;> cases hb : p .b
  · exact ⟨fun _ => forall_zones ⟨ha, hb⟩, fun _ => rfl⟩
  · exact ⟨nofun, fun h => absurd (hb.symm.trans (h .b)) nofun⟩
  · exact ⟨nofun, fun h => absurd (ha.symm.trans (h .a)) nofun⟩
  · refine ⟨fun h => ?_, fun h => absurd (ha.symm.trans (h .a)) nofun⟩
    dsimp only at h
    split at h <;> cases h

/-- The zone with the lower fill, or A when the fills are equal. -/
theorem State.lowerFill_some {s : State} {p : ZoneId → Bool} {z : ZoneId} : s.lowerFill p = some z ↔
    p z = true ∧ (p z.other = true → s.fill z < s.fill z.other ∨ z = .a ∧ s.fill z ≤ s.fill z.other) := by
  rw [State.lowerFill]
  by_cases hf : s.fill .b < s.fill .a
  · have hf' : ¬ s.fill .a ≤ s.fill .b := Nat.not_le.2 hf
    cases z <;> cases ha : p .a <;> cases hb : p .b <;> simp [ZoneId.other, ha, hb, hf, hf']
    omega
  · have hf' : s.fill .a ≤ s.fill .b := Nat.not_lt.1 hf
    cases z <;> cases ha : p .a <;> cases hb : p .b <;> simp [ZoneId.other, ha, hb, hf, hf']

theorem State.loadedFirst_nil {s : State} {p : ZoneId → Bool} (h : ∀ z, p z = false) : s.loadedFirst p = [] :=
  List.filter_eq_nil_iff.2 fun z _ => ne_true_of_eq_false (h z)

/-- Zone `z` comes first when the other zone is none that `p` admits, or `z` alone is loaded, or `z` is A and B alone is not. -/
theorem State.loadedFirst_head {s : State} {p : ZoneId → Bool} {z : ZoneId} (hz : p z = true)
    (h : p z.other = true →
      (s.selSlot z).map Loaded.slot = some s.da.slot ∧ ¬ (s.selSlot z.other).map Loaded.slot = some s.da.slot ∨
      z = .a ∧ ((s.selSlot z).map Loaded.slot = some s.da.slot ∨ ¬ (s.selSlot z.other).map Loaded.slot = some s.da.slot)) :
    ∃ l, s.loadedFirst p = z :: l := by
  have hon : s.loadedFirst p =
      (if (s.selSlot .b).map Loaded.slot = some s.da.slot ∧ ¬ (s.selSlot .a).map Loaded.slot = some s.da.slot then [ZoneId.b, .a]
        else [.a, .b]).filter p := by simp only [State.loadedFirst, decide_eq_true_iff, decide_eq_false_iff_not]
  rw [hon]
  cases z with
  | a =>
    cases hb : p .b with
    | false => exact ⟨[], by split <;> simp [hz, hb]⟩
    | true =>
      refine ⟨[.b], ?_⟩
      rw [if_neg]
      · simp [hz, hb]
      · rintro ⟨honb, hona⟩
        rcases h hb with ⟨-, hnb⟩ | ⟨-, ha | hnb⟩
        · exact hnb honb
        · exact hona ha
        · exact hnb honb
  | b =>
    cases ha : p .a with
    | false => exact ⟨[], by split <;> simp [hz, ha]⟩
    | true =>
      refine ⟨[.a], (congrArg (List.filter p) (if_pos ((h ha).resolve_right nofun))).trans ?_⟩
      simp [hz, ha]

/-! ## The entry RU names (R108) -/

theorem nameEntry_below {s : State} {z : ZoneId} {e : Entry} (l : List Entry) (h : e.reads < s.cap z e.addr) :
    nameEntry z (e :: l) s = (s, some e) := if_neg (Nat.not_le.2 h)

theorem nameEntry_exhausted {s : State} {z : ZoneId} {e : Entry} (l : List Entry) (h : s.cap z e.addr ≤ e.reads) :
    nameEntry z (e :: l) s = nameEntry z l (s.exhaustEntry z e.addr) := if_pos h

/-- Every address may be read at least twice (R109). -/
theorem State.two_le_cap (s : State) (z : ZoneId) (a : Nat) : 2 ≤ s.cap z a := by
  unfold State.cap capIn
  split <;> omega

/-- An exhausted entry leaves its list, and with no LIVE claim nothing else changes but the records and the blocks' marks. -/
theorem State.exhaustEntry_frame {s : State} (hl : s.liveClaim = none) (z : ZoneId) (a : Nat) : ∃ bs dd, s.exhaustEntry z a =
    { s with bs := bs, dd := dd, ru := { s.ru with lists := s.ru.lists.mod z fun l => l.filter fun e => decide (e.addr ≠ a) } } := by
  obtain ⟨bs, hd⟩ := State.dropEntry_frame hl z a
  rw [State.exhaustEntry, hd, State.markDefect]
  split
  · rw [State.modSelRec_eq]
    exact ⟨_, _, rfl⟩
  · exact ⟨_, _, rfl⟩

/-- What naming an entry changes while no claim is LIVE. -/
theorem nameEntry_frame {s : State} (hl : s.liveClaim = none) (z : ZoneId) (l : List Entry) :
    ∃ bs dd ru, (nameEntry z l s).1 = { s with bs := bs, dd := dd, ru := ru } := by
  induction l generalizing s with
  | nil => exact ⟨_, _, _, rfl⟩
  | cons e l ih =>
    by_cases h : s.cap z e.addr ≤ e.reads
    · obtain ⟨bs, dd, he⟩ := State.exhaustEntry_frame hl z e.addr
      obtain ⟨bs', dd', ru', hn⟩ := ih (s := s.exhaustEntry z e.addr) (by rw [he]; exact hl)
      rw [nameEntry_exhausted l h, hn, he]
      exact ⟨_, _, _, rfl⟩
    · rw [nameEntry_below l (Nat.not_le.1 h)]
      exact ⟨_, _, _, rfl⟩

/-- The zone that comes first has its entry named. -/
theorem State.arbitrateRest_reread {s t : State} {z : ZoneId} {l : List ZoneId} {e : Entry}
    (hl : s.loadedFirst s.rereadClaimant = z :: l) (hn : nameEntry z (s.ru.lists.get z) s = (t, some e)) :
    s.arbitrateRest = t.grantTarget .reread z e.addr e.reads := by
  unfold State.arbitrateRest
  rw [hl, grantReread, hn]
  rfl

theorem State.arbitrateRest_audit {s : State} (hl : s.loadedFirst s.rereadClaimant = []) (hc : s.da.claim = none) :
    s.arbitrateRest = s.grantAudit := by
  unfold State.arbitrateRest
  rw [hl, grantReread]
  simp only [hc]

/-! ## The rotation table (R65) -/

/-- The zone an entry names. -/
theorem State.rotNames_some {s : State} {r : RotEntry} {z : ZoneId} : s.rotNames r = some z ↔ s.refillClaimant z = true ∧
    match r with
    | .a => z = .a
    | .b => z = .b
    | .any => s.refillClaimant z.other = true → s.fill z < s.fill z.other ∨ z = .a ∧ s.fill z ≤ s.fill z.other := by
  have honly (w : ZoneId) : (if s.refillClaimant w then some w else none) = some z ↔ s.refillClaimant z = true ∧ z = w := by
    rw [Option.ite_none_right_eq_some, Option.some_inj]
    constructor <;> (rintro ⟨h, rfl⟩; exact ⟨h, rfl⟩)
  cases r with
  | a => exact honly .a
  | b => exact honly .b
  | any => exact State.lowerFill_some

/-- The first entry from the pointer on that names a zone is taken, and the pointer moves past it. -/
theorem State.rotate_finds {s : State} {z : ZoneId} {k : Nat} : ∀ {n ptr : Nat}, k < n → ptr < 16 →
    s.rotNames (s.da.rotation.getD ((ptr + k) % 16) .any) = some z →
    (∀ j, j < k → s.rotNames (s.da.rotation.getD ((ptr + j) % 16) .any) = none) →
    s.rotate n ptr = (some z, (ptr + k + 1) % 16) := by
  induction k with
  | zero =>
    intro n ptr hk hp hz _
    obtain ⟨n, rfl⟩ := Nat.exists_eq_succ_of_ne_zero (Nat.ne_of_gt hk)
    rw [Nat.add_zero, Nat.mod_eq_of_lt hp] at hz
    simp only [State.rotate, hz, Nat.add_zero]
  | succ k ih =>
    intro n ptr hk hp hz hnone
    obtain ⟨n, rfl⟩ := Nat.exists_eq_succ_of_ne_zero (Nat.ne_of_gt (Nat.zero_lt_of_lt hk))
    have hmod (j : Nat) : ((ptr + 1) % 16 + j) % 16 = (ptr + (j + 1)) % 16 := by omega
    have h0 := hnone 0 (Nat.zero_lt_succ k)
    rw [Nat.add_zero, Nat.mod_eq_of_lt hp] at h0
    have hrec := ih (n := n) (ptr := (ptr + 1) % 16) (Nat.lt_of_succ_lt_succ hk) (Nat.mod_lt _ (by decide)) (by rw [hmod]; exact hz)
      fun j hj => by rw [hmod]; exact hnone (j + 1) (Nat.succ_lt_succ hj)
    simp only [State.rotate, h0, hrec]
    rw [Prod.mk.injEq]
    exact ⟨rfl, by omega⟩

/-- With no entry that names a zone the pointer comes round by the entries visited. -/
theorem State.rotate_none {s : State} (h : ∀ r, s.rotNames r = none) (n : Nat) {ptr : Nat} (hp : ptr < 16) :
    s.rotate n ptr = (none, (ptr + n) % 16) := by
  induction n generalizing ptr with
  | zero => rw [State.rotate, Nat.add_zero, Nat.mod_eq_of_lt hp]
  | succ n ih =>
    simp only [State.rotate, h, ih (Nat.mod_lt (ptr + 1) (by decide : 16 > 0)), Prod.mk.injEq, true_and]
    omega

/-- The rotation table grants a refill to the zone it names. -/
theorem State.grantRotation_finds {s : State} {z : ZoneId} {n : Nat} (h : s.rotate 16 s.da.rotPtr = (some z, n)) :
    s.grantRotation = (s.modDa fun d => { d with rotPtr := n }).grantBurst .refill z := by
  simp only [State.grantRotation, h]

theorem State.grantRotation_none {s : State} (h : s.rotate 16 s.da.rotPtr = (none, s.da.rotPtr)) : s.grantRotation =
    if s.da.state = .ready ∧ s.da.idleTimer = .stopped then
      { s with da := { s.da with idleTimer := .running (s.params.idleSpinDown * 1000 * 1000000) } }
    else s := by
  simp only [State.grantRotation, h]
  rfl

/-! ## What an arbitration changes (R64) -/

/-- Zone `z` is fed from its program, or is being linked up again. -/
def State.linked (s : State) (z : ZoneId) : Prop := (s.zone z).supply = .feeding ∨ (s.zone z).supply = .rejoining

/-- From `s`, with no claim, to `t` a claim that is no hold has been granted, or none, with what its choice changes: the bursts are of
zones that are linked, and the other zones keep their contexts. -/
structure Choosing (s t : State) : Prop where
  frame   : ∃ bs ctx ru dd timer claim rotPtr idle, t = { s with
    bs := bs, lu := { s.lu with ctx := ctx }, ru := ru, dd := dd, lm := { s.lm with slotTimer := timer }
    da := { s.da with claim := claim, rotPtr := rotPtr, idleTimer := idle } }
  granted : ∀ c, t.da.claim = some c → c.standing = .live ∧ c.kind ≠ .hold ∧
    (c.kind = .linkUp ∨ c.kind = .refill → ∃ z, c.zone = some z ∧ s.linked z)
  kept    : ∀ z, ¬ s.linked z → t.ctx z = s.ctx z

theorem State.linked_of_rejoinClaimant {s : State} {z : ZoneId} (h : s.rejoinClaimant z = true) : s.linked z := by
  simp only [State.rejoinClaimant, Bool.and_eq_true, decide_eq_true_iff] at h
  exact .inr h.2

theorem State.linked_of_refillClaimant {s : State} {z : ZoneId} (h : s.refillClaimant z = true) : s.linked z := by
  simp only [State.refillClaimant, Bool.and_eq_true, decide_eq_true_iff] at h
  exact .inl h.1.2

theorem State.linked_of_urgent {s : State} {z : ZoneId} (h : s.urgent z = true) : s.linked z := by
  simp only [State.urgent, Bool.and_eq_true] at h
  exact State.linked_of_refillClaimant h.1.1

/-- The rotation table names refill claimants only. -/
theorem State.rotate_claims {s : State} {n p : Nat} {z : ZoneId} (h : (s.rotate n p).1 = some z) : s.refillClaimant z = true := by
  induction n generalizing p with
  | zero => cases h
  | succ n ih =>
    unfold State.rotate at h
    split at h
    · next hr => exact (State.rotNames_some.1 (hr.trans h)).1
    · exact ih h

theorem State.ensureCtx_frame (s : State) (z : ZoneId) :
    ∃ ctx, s.ensureCtx z = { s with lu := { s.lu with ctx := ctx } } ∧ ∀ w, w ≠ z → ctx.get w = s.ctx w := by
  unfold State.ensureCtx
  split
  · exact ⟨_, rfl, fun _ _ => rfl⟩
  · exact ⟨_, rfl, fun _ hw => Pair.get_set_ne _ _ hw⟩

/-- A burst is granted, with a context for its zone. -/
theorem State.grantBurst_frame (s : State) (k : ClaimKind) (z : ZoneId) : ∃ ctx c, s.grantBurst k z =
    { s with lu := { s.lu with ctx := ctx }, da := { s.da with claim := some c, idleTimer := .stopped } } ∧
    c.kind = k ∧ c.zone = some z ∧ c.standing = .live ∧ ∀ w, w ≠ z → ctx.get w = s.ctx w := by
  obtain ⟨ctx, hctx, hother⟩ := s.ensureCtx_frame z
  rw [State.grantBurst, hctx]
  exact ⟨_, _, rfl, rfl, rfl, rfl, hother⟩

namespace Choosing

variable {s t : State} {z : ZoneId} {k : ClaimKind}

theorem refl (hc : s.da.claim = none) : Choosing s s :=
  ⟨⟨_, _, _, _, _, _, _, _, rfl⟩, fun _ h => absurd (hc.symm.trans h) nofun, fun _ _ => rfl⟩

theorem grantBurst (h : Choosing s t) (hz : s.linked z) (hk : k ≠ .hold) : Choosing s (t.grantBurst k z) := by
  obtain ⟨⟨bs, ctx, ru, dd, timer, claim, rotPtr, idle, rfl⟩, -, hkept⟩ := h
  obtain ⟨ctx', c', he, hk', hz', hl', hother⟩ := State.grantBurst_frame _ k z
  rw [he]
  refine ⟨⟨bs, ctx', ru, dd, timer, _, rotPtr, .stopped, rfl⟩, fun c hc => ?_, fun w hw => ?_⟩
  · obtain rfl := Option.some.inj hc
    exact ⟨hl', hk' ▸ hk, fun _ => ⟨z, hz', hz⟩⟩
  · have hwz : w ≠ z := by
      rintro rfl
      exact hw hz
    exact (hother w hwz).trans (hkept w hw)

theorem grantTarget {a n : Nat} (h : Choosing s t) (hk : k = .reread ∨ k = .audit) : Choosing s (t.grantTarget k z a n) := by
  obtain ⟨⟨bs, ctx, ru, dd, timer, claim, rotPtr, idle, rfl⟩, -, hkept⟩ := h
  refine ⟨⟨bs, ctx, ru, dd, timer, _, rotPtr, .stopped, rfl⟩, fun c hc => ?_, hkept⟩
  obtain rfl := Option.some.inj hc
  rcases hk with rfl | rfl
  · exact ⟨rfl, nofun, nofun⟩
  · exact ⟨rfl, nofun, nofun⟩

theorem grantIdent {n : Nat} (h : Choosing s t) : Choosing s (t.grantIdent n) := by
  obtain ⟨⟨bs, ctx, ru, dd, timer, claim, rotPtr, idle, rfl⟩, -, hkept⟩ := h
  refine ⟨⟨bs, ctx, ru, _, .running, _, rotPtr, .stopped, rfl⟩, fun c hc => ?_, hkept⟩
  obtain rfl := Option.some.inj hc
  exact ⟨rfl, nofun, nofun⟩

theorem nameEntry (h : Choosing s t) (hc : t.da.claim = none) (l : List Entry) :
    Choosing s (Machine.nameEntry z l t).1 ∧ (Machine.nameEntry z l t).1.da.claim = none := by
  obtain ⟨bs', dd', ru', hn⟩ := nameEntry_frame (s := t) (by rw [State.liveClaim, hc]) z l
  rw [hn]
  obtain ⟨⟨bs, ctx, ru, dd, timer, claim, rotPtr, idle, rfl⟩, hgranted, hkept⟩ := h
  exact ⟨⟨⟨bs', ctx, ru', dd', timer, claim, rotPtr, idle, rfl⟩, hgranted, hkept⟩, hc⟩

theorem grantReread (h : Choosing s t) (hc : t.da.claim = none) (l : List ZoneId) : Choosing s (Machine.grantReread l t) := by
  induction l generalizing t with
  | nil => exact h
  | cons z l ih =>
    obtain ⟨hn, hc'⟩ := h.nameEntry (z := z) hc (t.ru.lists.get z)
    unfold Machine.grantReread
    split
    · next he =>
      rw [he] at hn
      exact hn.grantTarget (.inl rfl)
    · next he =>
      rw [he] at hn hc'
      exact ih hn hc'

theorem zone (h : Choosing s t) (w : ZoneId) : t.zone w = s.zone w := by
  obtain ⟨⟨_, _, _, _, _, _, _, _, rfl⟩, -, -⟩ := h
  rfl

/-- The pickup stays free, and the service sequences and Power Control stand. -/
theorem stands (h : Choosing s t) : t.driveBusy = s.driveBusy ∧ t.da.removalDue = s.da.removalDue ∧ t.ejectRuns = s.ejectRuns ∧
    t.da.parkStage = s.da.parkStage ∧ t.pc = s.pc := by
  obtain ⟨⟨_, _, _, _, _, _, _, _, rfl⟩, -, -⟩ := h
  exact ⟨rfl, rfl, rfl, rfl, rfl⟩

theorem pointer {n : Nat} {idle : Timer} (h : Choosing s t) :
    Choosing s { t with da := { t.da with rotPtr := n, idleTimer := idle } } := by
  obtain ⟨⟨bs, ctx, ru, dd, timer, claim, _, _, rfl⟩, hgranted, hkept⟩ := h
  exact ⟨⟨bs, ctx, ru, dd, timer, claim, n, idle, rfl⟩, hgranted, hkept⟩

theorem grantRotation (h : Choosing s t) : Choosing s t.grantRotation := by
  unfold State.grantRotation
  dsimp only
  split
  · next z hz =>
    have hl : s.linked z := by
      rw [State.linked, ← h.zone z]
      exact State.linked_of_refillClaimant (State.rotate_claims hz)
    exact h.pointer.grantBurst hl nofun
  · split
    · exact h.pointer
    · exact h.pointer

theorem grantAudit (h : Choosing s t) : Choosing s t.grantAudit := by
  unfold State.grantAudit
  split
  · exact h.grantTarget (.inr rfl)
  · exact h.grantRotation

end Choosing

/-- An arbitration with no claim in force grants the hold, or another claim or none. -/
theorem State.arbitrate_spec {s : State} (hc : s.da.claim = none) : s.arbitrate = s.grantHold ∨ Choosing s s.arbitrate := by
  have h : Choosing s s := .refl hc
  unfold State.arbitrate
  split
  · next hz => exact .inr (h.grantBurst (State.linked_of_rejoinClaimant (State.lowerFill_some.1 hz).1) nofun)
  · split
    · next hz => exact .inr (h.grantBurst (State.linked_of_urgent (State.lowerFill_some.1 hz).1) nofun)
    · split
      · exact .inr h.grantIdent
      · split
        · exact .inl rfl
        · dsimp only
          split
          · exact .inr (h.grantReread hc _)
          · exact .inr (h.grantReread hc _).grantAudit

theorem State.driveBusy_grantHold (s : State) : s.grantHold.driveBusy = true := by
  have hs : s.grantHold.da.state = .held := rfl
  simp [State.driveBusy, hs]

end Sys2Proof.Machine
end

section
/-! PROOF. The anchor an attempt begins with, a zone that loses its start, and the order of an arbitration (chapter 4, R64, R66, R81): O16. -/

namespace Sys2Proof.Machine

/-! ## The anchor of an attempt (R81) -/

theorem qualifies_iff {r : BlockRec} :
    qualifies r = true ↔ r.stampStatus = .good ∨ r.featureless = false ∧ r.erasures ≤ 720 := by
  simp [qualifies]

theorem Store.length_walk (st : Store) (n b : Nat) : (st.walk n b).length = n := by
  induction n generalizing b with
  | zero => rfl
  | succ n ih => rw [Store.walk, List.length_cons, ih]

theorem Store.length_chainOf (st : Store) (z : ZoneId) : (st.chainOf z).length = (st.chain.get z).length := st.length_walk _ _

/-- The chain blocks an attempt looks at, the newest first, each with the number of chain blocks after it. -/
def State.newest (s : State) (z : ZoneId) : List (Nat × Nat) := ((s.bs.chainOf z).reverse.take 16).zipIdx

theorem State.length_newest (s : State) (z : ZoneId) : (s.newest z).length = min 16 (s.fill z) := by
  rw [State.newest, List.length_zipIdx, List.length_take, List.length_reverse, Store.length_chainOf]
  rfl

theorem State.getElem_newest (s : State) (z : ZoneId) {d : Nat} (h : d < (s.newest z).length) :
    (s.newest z)[d] = (s.bucketAt z (s.fill z - 1 - d), d) := by
  have hf : (s.bs.chainOf z).length = s.fill z := s.bs.length_chainOf z
  have hd : d < s.fill z := Nat.lt_of_lt_of_le (s.length_newest z ▸ h) (Nat.min_le_right _ _)
  simp only [State.newest, List.getElem_zipIdx, List.getElem_take, List.getElem_reverse, Nat.zero_add, State.bucketAt, hf]
  rw [List.getD_eq_getElem _ _ (by omega)]

/-- The chain block with `d` blocks after it may be the anchor: the newest, or one of the newest 16 that is not the head. -/
def State.tested (s : State) (z : ZoneId) (d : Nat) : Prop := d < 16 ∧ d < s.fill z ∧ (d = 0 ∨ d + 1 ≠ s.fill z)

/-- The chain block with `d` blocks after it qualifies as an anchor. -/
def State.fits (s : State) (z : ZoneId) (d : Nat) : Prop :=
  (s.info (s.bucketAt z (s.fill z - 1 - d))).stampStatus = .good ∨
    (s.info (s.bucketAt z (s.fill z - 1 - d))).featureless = false ∧ (s.info (s.bucketAt z (s.fill z - 1 - d))).erasures ≤ 720

/-- An attempt's test of a chain block. -/
def State.anchors (s : State) (z : ZoneId) (x : Nat × Nat) : Bool :=
  decide (x.2 = 0 ∨ x.2 + 1 ≠ s.fill z) && qualifies (s.info x.1)

theorem State.anchors_newest {s : State} {z : ZoneId} {d : Nat} (h : d < (s.newest z).length) :
    s.anchors z (s.newest z)[d] = true ↔ s.tested z d ∧ s.fits z d := by
  have hd := s.length_newest z ▸ h
  rw [s.getElem_newest z h, State.anchors, Bool.and_eq_true, decide_eq_true_iff, qualifies_iff, State.tested, State.fits]
  exact and_congr_left fun _ => ⟨fun k => ⟨by omega, by omega, k⟩, fun k => k.2.2⟩

theorem State.chooseAnchor_chain {s : State} {z : ZoneId} (h : s.fill z ≠ 0) : s.chooseAnchor z =
    ((s.newest z).find? (s.anchors z)).map fun x => (.chain ((s.info x.1).expected.getD 0), x.2) := if_neg h

/-- The first chain block that qualifies is the anchor. -/
theorem State.chooseAnchor_block {s : State} {z : ZoneId} {d : Nat} (ht : s.tested z d) (hf : s.fits z d)
    (hfirst : ∀ j, j < d → ¬ (s.tested z j ∧ s.fits z j)) :
    s.chooseAnchor z = some (.chain ((s.info (s.bucketAt z (s.fill z - 1 - d))).expected.getD 0), d) := by
  have hpos : s.fill z ≠ 0 := Nat.ne_of_gt (Nat.zero_lt_of_lt ht.2.1)
  have hd : d < (s.newest z).length := s.length_newest z ▸ Nat.lt_min.2 ⟨ht.1, ht.2.1⟩
  have hfind : (s.newest z).find? (s.anchors z) = some (s.newest z)[d] :=
    List.find?_eq_some_iff_getElem.2 ⟨(State.anchors_newest hd).2 ⟨ht, hf⟩, d, hd, rfl, fun j hj =>
      by rw [eq_false_of_ne_true (mt (State.anchors_newest _).1 (hfirst j hj)), Bool.not_false]⟩
  rw [State.chooseAnchor_chain hpos, hfind, s.getElem_newest z hd]
  rfl

/-- The anchor bucket of an empty chain is the anchor, if it qualifies. -/
theorem State.chooseAnchor_bucket {s : State} {z : ZoneId} (h : s.fill z = 0) (hb : s.bs.anchor.get z ≠ 0)
    (hf : qualifies (s.info (s.bs.anchor.get z)) = true) : s.chooseAnchor z = some (.bucket, 0) :=
  (if_pos h).trans (if_pos ⟨hb, hf⟩)

theorem State.chooseAnchor_none {s : State} {z : ZoneId}
    (hk : ¬ (s.fill z = 0 ∧ s.bs.anchor.get z ≠ 0 ∧ qualifies (s.info (s.bs.anchor.get z)) = true))
    (hn : ∀ d, ¬ (s.tested z d ∧ s.fits z d)) : s.chooseAnchor z = none := by
  by_cases h : s.fill z = 0
  · exact (if_pos h).trans (if_neg fun k => hk ⟨h, k⟩)
  · have hfind : (s.newest z).find? (s.anchors z) = none := List.find?_eq_none.2 fun x hx hax => by
      obtain ⟨d, hd, rfl⟩ := List.getElem_of_mem hx
      exact hn d ((State.anchors_newest hd).1 hax)
    rw [State.chooseAnchor_chain h, hfind]
    rfl

/-! ## The start of an attempt (R66, R81) -/

/-- The state in which an attempt of zone `z` with anchor `a` has begun from the context `y`. -/
def State.begun (s : State) (z : ZoneId) (y : LinkCtx) (a : AnchorRef) (d : Nat) : State :=
  s.setCtx z (some { y with stage := .searching, anchor := a, d := d, verify := none, windowLeft := y.window })

section

variable {s : State} {c : Claim} {z : ZoneId}

/-- The place of a burst is that of its zone's attempt. -/
theorem State.seekPlace_burst (hk : c.kind = .linkUp ∨ c.kind = .refill) (hz : c.zone = some z) :
    s.seekPlace c = (s.attemptStart z ((s.ctx z).getD (s.freshCtx z))).map fun x =>
      (s.begun z ((s.ctx z).getD (s.freshCtx z)) x.1 x.2.1, .address (s.nextAddr z - x.2.2)) := by
  have hb : s.seekPlace c = (s.beginAttempt z).map fun x => (x.1, .address x.2) := by
    rcases hk with hk | hk <;> simp [State.seekPlace, hk, hz]
  rw [hb, State.beginAttempt]
  dsimp only
  rw [Option.map_map]
  rfl

theorem State.attemptStart_locate {y : LinkCtx} (h : y.mode = .locate) : s.attemptStart z y = some (.none, 0, y.backoff) := by
  simp [State.attemptStart, h]

theorem State.attemptStart_anchor {y : LinkCtx} (h : y.mode = .anchor) :
    s.attemptStart z y = (s.chooseAnchor z).map fun x => (x.1, x.2, y.backoff + (x.2 + 1)) := by
  simp [State.attemptStart, h]

/-- In mode LOCATE an attempt begins without an anchor. -/
theorem State.seekPlace_locate (hk : c.kind = .linkUp ∨ c.kind = .refill) (hz : c.zone = some z)
    (hm : ((s.ctx z).getD (s.freshCtx z)).mode = .locate) : s.seekPlace c =
      some (s.begun z ((s.ctx z).getD (s.freshCtx z)) .none 0, .address (s.nextAddr z - ((s.ctx z).getD (s.freshCtx z)).backoff)) := by
  rw [State.seekPlace_burst hk hz, State.attemptStart_locate hm, Option.map_some]

/-- In mode ANCHOR an attempt begins from the anchor chosen. -/
theorem State.seekPlace_anchor {a : AnchorRef} {d : Nat} (hk : c.kind = .linkUp ∨ c.kind = .refill) (hz : c.zone = some z)
    (hm : ((s.ctx z).getD (s.freshCtx z)).mode = .anchor) (ha : s.chooseAnchor z = some (a, d)) : s.seekPlace c =
      some (s.begun z ((s.ctx z).getD (s.freshCtx z)) a d,
        .address (s.nextAddr z - (((s.ctx z).getD (s.freshCtx z)).backoff + (d + 1)))) := by
  rw [State.seekPlace_burst hk hz, State.attemptStart_anchor hm, ha, Option.map_some, Option.map_some]

/-- In mode ANCHOR an attempt without an anchor does not begin. -/
theorem State.seekPlace_noAnchor (hk : c.kind = .linkUp ∨ c.kind = .refill) (hz : c.zone = some z)
    (hm : ((s.ctx z).getD (s.freshCtx z)).mode = .anchor) (ha : s.chooseAnchor z = none) : s.seekPlace c = none := by
  rw [State.seekPlace_burst hk hz, State.attemptStart_anchor hm, ha, Option.map_none, Option.map_none]

/-- An identification seeks the directory. -/
theorem State.seekPlace_ident (h : c.kind = .ident) : s.seekPlace c = some (s, .directory) := by
  simp [State.seekPlace, h]

/-- A re-read and an audit seek 4 blocks before the target. -/
theorem State.seekPlace_target (h : c.kind = .reread ∨ c.kind = .audit) :
    s.seekPlace c = some (s, .address (c.target.getD 0 - 4)) := by
  rcases h with h | h <;> simp [State.seekPlace, h]

/-- Only a burst without an anchor has no place to seek. -/
theorem State.burst_of_seekPlace_none (h : s.seekPlace c = none) :
    (c.kind = .linkUp ∨ c.kind = .refill) ∧ ∃ z, c.zone = some z := by
  unfold State.seekPlace at h
  split at h
  · next hk hz => exact ⟨.inl hk, _, hz⟩
  · next hk hz => exact ⟨.inr hk, _, hz⟩
  · cases h
  · cases h

/-- The place of a claim is named with no change, or with a new context of the burst's zone. -/
theorem State.seekPlace_frame {x : State × Place} (h : s.seekPlace c = some x) :
    x.1 = s ∨ (c.kind = .linkUp ∨ c.kind = .refill) ∧ ∃ z, c.zone = some z ∧ ∃ v, x.1 = s.setCtx z v := by
  have hburst {z : ZoneId} (hk : c.kind = .linkUp ∨ c.kind = .refill) (hz : c.zone = some z) :
      (c.kind = .linkUp ∨ c.kind = .refill) ∧ ∃ z, c.zone = some z ∧ ∃ v, x.1 = s.setCtx z v := by
    rw [State.seekPlace_burst hk hz] at h
    obtain ⟨a, -, rfl⟩ := Option.map_eq_some_iff.1 h
    exact ⟨hk, z, hz, _, rfl⟩
  unfold State.seekPlace at h
  split at h
  · next hk hz => exact .inr (hburst (.inl hk) hz)
  · next hk hz => exact .inr (hburst (.inr hk) hz)
  · exact .inl (congrArg Prod.fst (Option.some.inj h).symm)
  · exact .inl (congrArg Prod.fst (Option.some.inj h).symm)

/-! ## The preparation of a claim (R66) -/

theorem State.prepare_load (h : s.da.slot ≠ .slot (c.slot.getD 0)) : s.prepare c = { s with
    da := { s.da.sending (.load (c.slot.getD 0)) 12000000000 .loading with claim := some { c with swap := true } } } :=
  (if_pos h).trans rfl

theorem State.prepare_spin (hs : s.da.slot = .slot (c.slot.getD 0)) (h : s.da.speed ≠ .known c.speed) :
    s.prepare c = { s with da := s.da.sending (.spin c.speed) 4000000000 .spinning } :=
  (if_neg (not_not.2 hs)).trans ((if_pos h).trans rfl)

theorem State.prepare_seek {y : State} {p : Place} (hs : s.da.slot = .slot (c.slot.getD 0)) (h : s.da.speed = .known c.speed)
    (he : s.seekPlace c = some (y, p)) : s.prepare c = { y with
      da := { y.da.sending (.seek p) 1500000000 .seeking with claim := some { c with seek := some p } } } := by
  rw [State.prepare, if_neg (not_not.2 hs), if_neg (not_not.2 h), he]
  rfl

theorem State.prepare_noAnchor (hs : s.da.slot = .slot (c.slot.getD 0)) (h : s.da.speed = .known c.speed)
    (he : s.seekPlace c = none) : s.prepare c = s.noAnchor c := by
  rw [State.prepare, if_neg (not_not.2 hs), if_neg (not_not.2 h), he]

end

/-! ## A zone that loses its start (R81) -/

/-- Zone `z` is RESYNC without a context, and no LIVE burst is its own. -/
structure Lost (z : ZoneId) (s : State) : Prop where
  supply : (s.zone z).supply = .resync
  ctx    : s.ctx z = none
  claim  : ∀ c, s.liveClaim = some c → c.zone = some z → c.kind ≠ .linkUp ∧ c.kind ≠ .refill

theorem State.setSupply_resync_other (s : State) {z w : ZoneId} (c : ZoneCause) (h : z ≠ w) :
    ((s.setSupply w .resync c).zone z) = s.zone z ∧ (s.setSupply w .resync c).ctx z = s.ctx z := by
  by_cases hs : (s.zone w).supply = .resync
  · rw [State.setSupply, if_pos hs]
    exact ⟨rfl, rfl⟩
  · obtain ⟨p, oc, cl, n, he⟩ := State.setSupply_drops c rfl hs
    rw [he]
    exact ⟨Pair.get_mod_ne _ _ h, Pair.get_set_ne _ _ h⟩

/-- A claim that ends leaves the zones and their contexts, and no LIVE claim but a hold. -/
theorem State.closeClaim_ended (s : State) : (s.closeClaim .ended).zc = s.zc ∧ (s.closeClaim .ended).lu = s.lu ∧
    ∀ c, (s.closeClaim .ended).liveClaim = some c → c.kind = .hold := by
  refine ⟨((Aside.refl s).closeClaim).zc, ?_, fun c hc => ?_⟩
  · have hm (c : Claim) : (s.markClaim c .ended).lu = s.lu := by
      unfold State.markClaim
      dsimp only
      split <;> rfl
    have hr (t : State) : t.releasePickup.lu = t.lu := by
      unfold State.releasePickup
      split
      · rfl
      · split <;> rfl
    unfold State.closeClaim
    split
    · split
      · rfl
      · exact (hr _).trans (hm _)
    · rfl
  · unfold State.closeClaim at hc
    split at hc
    · next c0 hc0 =>
      split at hc
      · next hk => exact Option.some.inj (hc0.symm.trans hc) ▸ hk
      · exact absurd ((State.liveClaim_marked s c0 (by nofun)).symm.trans hc) nofun
    · next hn => exact absurd (hn.symm.trans hc) nofun

/-- The state DA acts from: a removal that waited has taken effect, and a claim that is not LIVE is gone. -/
def State.cleared (s : State) : State :=
  if (s.modDa Drive.settleRemoval).liveClaim = none then (s.modDa Drive.settleRemoval).dropClaim else s.modDa Drive.settleRemoval

theorem State.proceed_succ (n : Nat) (s : State) : State.proceed (n + 1) s =
    if s.driveBusy then s
    else if s.cleared.ejectRuns then s.cleared.ejectNext
    else if s.cleared.da.parkStage ≠ .none then s.cleared.parkNext
    else if s.cleared.pc.state ≠ .active then s.cleared
    else match s.cleared.liveClaim with
      | some c => State.proceed n (s.cleared.prepare c)
      | none =>
        if s.cleared.unsettled then s.cleared
        else if s.cleared.arbitrate.da.claim = none then s.cleared.arbitrate
        else State.proceed n s.cleared.arbitrate := rfl

theorem State.claim_cleared {s : State} (h : s.cleared.liveClaim = none) : s.cleared.da.claim = none := by
  unfold State.cleared at h ⊢
  split
  · rfl
  · next hl =>
    rw [if_neg hl] at h
    exact absurd h hl

namespace Lost

variable {s t : State} {z : ZoneId}

/-- What `Lost` speaks of: the zone, its context, and whose the LIVE claim is. -/
theorem of_eq (h : Lost z s) (hz : t.zone z = s.zone z) (hx : t.ctx z = s.ctx z)
    (hc : ∀ c, t.liveClaim = some c → ∃ c0, s.liveClaim = some c0 ∧ c.zone = c0.zone ∧ c.kind = c0.kind) : Lost z t :=
  ⟨(congrArg Zone.supply hz).trans h.supply, hx.trans h.ctx, fun c hl hcz => by
    obtain ⟨c0, hl0, hz0, hk0⟩ := hc c hl
    rw [hk0]
    exact h.claim c0 hl0 (hz0 ▸ hcz)⟩

theorem of_claim (h : Lost z s) (hz : t.zone z = s.zone z) (hx : t.ctx z = s.ctx z) (hc : t.da.claim = s.da.claim) : Lost z t :=
  h.of_eq hz hx fun c hl => ⟨c, by rwa [State.liveClaim, ← hc], rfl, rfl⟩

/-- The zone whose attempt finds no anchor (R81). -/
theorem noAnchor {c : Claim} (hz : c.zone = some z) (hs : s.linked z) : Lost z (s.noAnchor c) := by
  obtain ⟨hzc, hlu, hclaim⟩ := (s.setSupply z .resync .noAnchor).closeClaim_ended
  obtain ⟨p, oc, cl, n, he⟩ := State.setSupply_drops (s := s) (z := z) (v := .resync) .noAnchor rfl
    (by rcases hs with hs | hs <;> rw [hs] <;> nofun)
  have hn : s.noAnchor c = (s.setSupply z .resync .noAnchor).closeClaim .ended := by simp only [State.noAnchor, hz]
  rw [hn]
  refine ⟨?_, ?_, fun c hc _ => ?_⟩
  · rw [State.zone, hzc, he]
    exact congrArg Zone.supply (Pair.get_mod_self _ _ _)
  · rw [State.ctx, hlu, he]
    exact Pair.get_set_self _ _ _
  · rw [hclaim c hc]
    exact ⟨nofun, nofun⟩

theorem noAnchor_other {c : Claim} {w : ZoneId} (h : Lost z s) (hc : c.zone = some w) (hw : z ≠ w) : Lost z (s.noAnchor c) := by
  obtain ⟨hzc, hlu, hclaim⟩ := (s.setSupply w .resync .noAnchor).closeClaim_ended
  obtain ⟨hz, hx⟩ := s.setSupply_resync_other .noAnchor hw
  have hn : s.noAnchor c = (s.setSupply w .resync .noAnchor).closeClaim .ended := by simp only [State.noAnchor, hc]
  rw [hn]
  refine ⟨?_, ?_, fun c hc _ => ?_⟩
  · rw [State.zone, hzc]
    exact (congrArg Zone.supply hz).trans h.supply
  · rw [State.ctx, hlu]
    exact hx.trans h.ctx
  · rw [hclaim c hc]
    exact ⟨nofun, nofun⟩

theorem arbitrate (h : Lost z s) (hc : s.da.claim = none) : Lost z s.arbitrate := by
  have hl : ¬ s.linked z := by
    rw [State.linked, h.supply]
    nofun
  rcases State.arbitrate_spec hc with hhold | hch
  · rw [hhold]
    exact ⟨h.supply, h.ctx, fun c hc => by
      obtain rfl := Option.some.inj hc
      nofun⟩
  · refine ⟨(congrArg Zone.supply (hch.zone z)).trans h.supply, (hch.kept z hl).trans h.ctx, fun c hc hcz => ?_⟩
    obtain ⟨-, -, hburst⟩ := hch.granted c (State.claim_of_liveClaim hc)
    rw [← not_or]
    intro hk
    obtain ⟨w, hw, hlw⟩ := hburst hk
    obtain rfl := Option.some.inj (hw.symm.trans hcz)
    exact hl hlw

theorem not_burst {c : Claim} {w : ZoneId} (h : Lost z s) (hl : s.liveClaim = some c) (hk : c.kind = .linkUp ∨ c.kind = .refill)
    (hw : c.zone = some w) : z ≠ w := by
  rintro rfl
  obtain ⟨hn, hn'⟩ := h.claim c hl hw
  exact hk.elim hn hn'

/-- The claim that is prepared is another zone's, or no burst. -/
theorem prepare {c : Claim} (h : Lost z s) (hl : s.liveClaim = some c) : Lost z (s.prepare c) := by
  by_cases hs : s.da.slot = .slot (c.slot.getD 0)
  · by_cases hv : s.da.speed = .known c.speed
    · cases he : s.seekPlace c with
      | none =>
        obtain ⟨hk, w, hw⟩ := State.burst_of_seekPlace_none he
        rw [State.prepare_noAnchor hs hv he]
        exact h.noAnchor_other hw (h.not_burst hl hk hw)
      | some x =>
        rw [State.prepare_seek hs hv he]
        have hy : x.1.zone z = s.zone z ∧ x.1.ctx z = s.ctx z := by
          rcases State.seekPlace_frame he with hx | ⟨hk, w, hw, v, hx⟩
          · rw [hx]
            exact ⟨rfl, rfl⟩
          · rw [hx]
            exact ⟨rfl, Pair.get_set_ne _ _ (h.not_burst hl hk hw)⟩
        refine h.of_eq hy.1 hy.2 fun x hx => ?_
        obtain rfl := Option.some.inj (State.claim_of_liveClaim hx)
        exact ⟨c, hl, rfl, rfl⟩
    · rw [State.prepare_spin hs hv]
      exact h.of_claim rfl rfl rfl
  · rw [State.prepare_load hs]
    refine h.of_eq rfl rfl fun x hx => ?_
    obtain rfl := Option.some.inj (State.claim_of_liveClaim hx)
    exact ⟨c, hl, rfl, rfl⟩

theorem ejectNext (h : Lost z s) : Lost z s.ejectNext := by
  unfold State.ejectNext
  split
  · split
    · exact h.of_claim rfl rfl rfl
    · exact h.of_claim rfl rfl rfl
  · exact h.of_claim rfl rfl rfl
  · exact h
  · exact h
  · exact h

theorem parkNext (h : Lost z s) : Lost z s.parkNext := by
  unfold State.parkNext
  dsimp only
  split
  · exact h.of_claim rfl rfl rfl
  · exact h.of_claim rfl rfl rfl

theorem cleared (h : Lost z s) : Lost z s.cleared := by
  have h1 : Lost z (s.modDa Drive.settleRemoval) := by
    obtain ⟨hclaim, -, -⟩ := s.da.settleRemoval_fields
    exact h.of_claim rfl rfl hclaim
  unfold State.cleared
  split
  · exact h1.of_eq rfl rfl nofun
  · exact h1

/-- The zone stays RESYNC without a context until the drive is in use again. -/
theorem proceed (h : Lost z s) (n : Nat) : Lost z (State.proceed n s) := by
  induction n generalizing s with
  | zero => exact h
  | succ n ih =>
    rw [State.proceed_succ]
    split
    · exact h
    · split
      · exact h.cleared.ejectNext
      · split
        · exact h.cleared.parkNext
        · split
          · exact h.cleared
          · split
            · next hl => exact ih (h.cleared.prepare hl)
            · next hl =>
              split
              · exact h.cleared
              · split
                · exact h.cleared.arbitrate (State.claim_cleared hl)
                · exact ih (h.cleared.arbitrate (State.claim_cleared hl))

end Lost

end Sys2Proof.Machine
end

section
/-! PROOF. The order of an arbitration and the preparation of the claim it grants, put together (chapter 4, R64, R66, R81): O16. -/

namespace Sys2Proof.Machine

/-! ## The orders of an arbitration (R64) -/

section

variable {s : State} {z : ZoneId}

theorem State.arbitrate_rejoin (h : s.lowerFill s.rejoinClaimant = some z) : s.arbitrate = s.grantBurst .linkUp z := by
  unfold State.arbitrate
  rw [h]

theorem State.arbitrate_urgent (hr : s.lowerFill s.rejoinClaimant = none) (h : s.lowerFill s.urgent = some z) :
    s.arbitrate = s.grantBurst .refill z := by
  unfold State.arbitrate
  rw [hr, h]

theorem State.arbitrate_ident {slot : Nat} {rest : List Nat} (hr : s.lowerFill s.rejoinClaimant = none)
    (hu : s.lowerFill s.urgent = none) (h : s.lm.queue = slot :: rest) : s.arbitrate = s.grantIdent slot := by
  unfold State.arbitrate
  rw [hr, hu, h]

/-- A burst is LIVE, of its zone. -/
theorem State.grantBurst_claim (s : State) (k : ClaimKind) (z : ZoneId) : ∃ c, (s.grantBurst k z).da.claim = some c ∧
    c.kind = k ∧ c.zone = some z ∧ c.target = none ∧ c.standing = .live := ⟨_, rfl, rfl, rfl, rfl, rfl⟩

theorem State.grantBurst_rotPtr (s : State) (k : ClaimKind) (z : ZoneId) : (s.grantBurst k z).da.rotPtr = s.da.rotPtr :=
  show (s.ensureCtx z).da.rotPtr = s.da.rotPtr from congrArg Drive.rotPtr (s.da_ensureCtx z)

/-- A re-read or an audit is LIVE, of its zone, for its target. -/
theorem State.grantTarget_claim (s : State) (k : ClaimKind) (z : ZoneId) (a n : Nat) : ∃ c, (s.grantTarget k z a n).da.claim = some c ∧
    c.kind = k ∧ c.zone = some z ∧ c.target = some a ∧ c.standing = .live := ⟨_, rfl, rfl, rfl, rfl, rfl⟩

theorem State.rereadClaimant_iff : s.rereadClaimant z = true ↔ s.offered z = true ∧ s.ru.lists.get z ≠ [] := by
  simp [State.rereadClaimant]

/-- Zone `z` has a pending audit that DA may grant (R98). -/
def State.auditDue (s : State) (z : ZoneId) : Bool := s.offered z && (s.lu.audit.get z).target.isSome

theorem State.auditDue_iff : s.auditDue z = true ↔ s.offered z = true ∧ (s.lu.audit.get z).target ≠ none := by
  simp [State.auditDue, Option.isSome_iff_ne_none]

theorem State.grantAudit_target {l : List ZoneId} {a : Nat} (hl : s.loadedFirst s.auditDue = z :: l)
    (ht : (s.lu.audit.get z).target = some a) : s.grantAudit = s.grantTarget .audit z a 0 := by
  have hg : s.grantAudit = match s.loadedFirst s.auditDue with
      | w :: _ => s.grantTarget .audit w ((s.lu.audit.get w).target.getD 0) 0
      | [] => s.grantRotation := rfl
  rw [hg, hl, show (s.grantTarget .audit z a 0) = s.grantTarget .audit z ((s.lu.audit.get z).target.getD 0) 0 by rw [ht]; rfl]

theorem State.grantAudit_rotation (hl : s.loadedFirst s.auditDue = []) : s.grantAudit = s.grantRotation := by
  have hg : s.grantAudit = match s.loadedFirst s.auditDue with
      | w :: _ => s.grantTarget .audit w ((s.lu.audit.get w).target.getD 0) 0
      | [] => s.grantRotation := rfl
  rw [hg, hl]

/-- The head of the list of the zone that comes first is exhausted: it leaves the list, and the next entry is named. -/
theorem State.arbitrateRest_exhausted {l : List ZoneId} {d e : Entry} {r : List Entry} (hl : s.loadedFirst s.rereadClaimant = z :: l)
    (hn : s.liveClaim = none) (hr : s.ru.lists.get z = d :: e :: r) (hd : s.cap z d.addr ≤ d.reads) (he : e.reads < 2) :
    s.arbitrateRest = (s.exhaustEntry z d.addr).grantTarget .reread z e.addr e.reads ∧
      ∀ x ∈ (s.exhaustEntry z d.addr).ru.lists.get z, x.addr ≠ d.addr := by
  have hname : nameEntry z (s.ru.lists.get z) s = (s.exhaustEntry z d.addr, some e) := by
    rw [hr, nameEntry_exhausted _ hd]
    exact nameEntry_below r (Nat.lt_of_lt_of_le he (State.two_le_cap _ z e.addr))
  refine ⟨State.arbitrateRest_reread hl hname, fun x hx => ?_⟩
  obtain ⟨bs, dd, hex⟩ := State.exhaustEntry_frame hn z d.addr
  rw [hex, Pair.get_mod_self] at hx
  exact of_decide_eq_true (List.mem_filter.1 hx).2

end

/-- Settles O16: the claimants in the order of R64, and each claim prepared by its next command. -/
theorem arbitrationTakesTheFirstClaimant : Obligations.ArbitrationTakesTheFirstClaimant := by
  refine ⟨fun s => ⟨fun z h => ?_, fun hr z h => ?_, fun hr hu slot rest h => ?_, fun hr hu hq h => ?_, fun p => ⟨State.lowerFill_none,
    fun z h => ?_, fun ha hb hf => ?_⟩, fun hr hu hq hh hc => ?_⟩, ?_⟩
  · rw [State.arbitrate_rejoin h]
    obtain ⟨c, hc, hk, hz, -, hl⟩ := s.grantBurst_claim .linkUp z
    exact ⟨c, hc, hk, hz, hl⟩
  · rw [State.arbitrate_urgent hr h]
    obtain ⟨c, hc, hk, hz, -, hl⟩ := s.grantBurst_claim .refill z
    exact ⟨c, hc, hk, hz, hl⟩
  · rw [State.arbitrate_ident hr hu h]
    exact ⟨_, rfl, rfl, rfl, rfl⟩
  · rw [State.arbitrate_later hr hu hq, if_pos h]
    exact ⟨rfl, rfl, rfl, rfl⟩
  · obtain ⟨hz, ho⟩ := State.lowerFill_some.1 h
    exact ⟨hz, fun k => (ho k).elim Nat.le_of_lt And.right⟩
  · exact State.lowerFill_some.2 ⟨ha, fun _ => .inr ⟨rfl, Nat.le_of_eq hf⟩⟩
  · have hrest : s.arbitrate = s.arbitrateRest := (State.arbitrate_later hr hu hq).trans (if_neg hh)
    have hlive : s.liveClaim = none := by rw [State.liveClaim, hc]
    intro onLoaded first rereads audits names entry grants
    have hfirst (z : ZoneId) (h : first rereads z) : ∃ l, s.loadedFirst s.rereadClaimant = z :: l :=
      State.loadedFirst_head (State.rereadClaimant_iff.2 h.1) fun ho => h.2 (State.rereadClaimant_iff.1 ho)
    have hfirstAudit (z : ZoneId) (h : first audits z) : ∃ l, s.loadedFirst s.auditDue = z :: l :=
      State.loadedFirst_head (State.auditDue_iff.2 h.1) fun ho => h.2 (State.auditDue_iff.1 ho)
    have hnames (r : RotEntry) (z : ZoneId) : names r z ↔ s.rotNames r = some z := State.rotNames_some.symm
    have hgrants {t : State} {k : ClaimKind} {z : ZoneId} {a : Option Nat} (h : s.arbitrate = t)
        (ht : ∃ c, t.da.claim = some c ∧ c.kind = k ∧ c.zone = some z ∧ c.target = a ∧ c.standing = .live) : grants k z a := by
      rw [← h] at ht
      exact ht
    refine ⟨fun z e l hf hlist hcap => ?_, fun z d e l hf hlist hcap hreads => ?_, fun hno => ?_⟩
    · obtain ⟨r, hl⟩ := hfirst z hf
      have hgrant : s.arbitrate = s.grantTarget .reread z e.addr e.reads :=
        hrest.trans (State.arbitrateRest_reread hl (by rw [hlist, nameEntry_below l hcap]))
      exact hgrants hgrant (s.grantTarget_claim .reread z e.addr e.reads)
    · obtain ⟨r, hl⟩ := hfirst z hf
      obtain ⟨hgrant, hleft⟩ := State.arbitrateRest_exhausted hl hlive hlist hcap hreads
      rw [← hrest] at hgrant
      exact ⟨hgrants hgrant (State.grantTarget_claim _ .reread z e.addr e.reads), hgrant ▸ hleft⟩
    · have hnone : s.loadedFirst s.rereadClaimant = [] :=
        State.loadedFirst_nil fun z => eq_false_of_ne_true (mt State.rereadClaimant_iff.1 (hno z))
      have haudit : s.arbitrate = s.grantAudit := hrest.trans (State.arbitrateRest_audit hnone hc)
      refine ⟨fun z a hf ht => ?_, fun hna hptr => ?_⟩
      · obtain ⟨r, hl⟩ := hfirstAudit z hf
        exact hgrants (haudit.trans (State.grantAudit_target hl ht)) (s.grantTarget_claim .audit z a 0)
      · have hrot : s.arbitrate = s.grantRotation := haudit.trans
          (State.grantAudit_rotation (State.loadedFirst_nil fun z => eq_false_of_ne_true (mt State.auditDue_iff.1 (hna z))))
        refine ⟨fun k z hk hz hbefore => ?_, fun hnr => ?_⟩
        · have hfind := State.rotate_finds hk hptr ((hnames _ z).1 hz) fun j hj =>
            Option.eq_none_iff_forall_ne_some.2 fun w hw => hbefore j hj w ((hnames _ w).2 hw)
          have hgrant := hrot.trans (State.grantRotation_finds hfind)
          refine ⟨hgrants hgrant (State.grantBurst_claim _ .refill z), ?_⟩
          rw [hgrant]
          exact State.grantBurst_rotPtr _ .refill z
        · have hnone : ∀ r, s.rotNames r = none := fun r => Option.eq_none_iff_forall_ne_some.2 fun w hw =>
            absurd ((hnr w).symm.trans (State.rotNames_some.1 hw).1) nofun
          have hround := State.rotate_none hnone 16 hptr
          rw [Nat.add_mod_right, Nat.mod_eq_of_lt hptr] at hround
          exact hrot.trans (State.grantRotation_none hround)
  · intro old s hb hm he hp hr ht t free prepares
    have hproceed : t = State.proceed 8 s := State.finish_proceed ht hr (.inl (by rw [hp]; nofun))
    have hfree : s.liveClaim = none → t = if s.pc.state ≠ .active then free
        else if s.unsettled = true then free
        else if free.arbitrate.da.claim = none then free.arbitrate
        else State.proceed 7 free.arbitrate := fun hl => by
      rw [hproceed, State.proceed_free 7 hb hl hm, if_neg (by rw [he]; nofun), if_neg (not_not.2 hp)]
      rfl
    have hprepares {n : Nat} {x : State} {c : Claim} (hx : t = State.proceed n (x.prepare c)) (hlx : x.liveClaim = some c)
        (hzx : ∀ z, x.zone z = s.zone z) : prepares x c := by
      have hsent {y : State} (h : x.prepare c = y) (hy : y.driveBusy = true) : t = y := by
        rw [hx, h, State.proceed_busy n hy]
      have hseek {y : State} {p : Place} (hs : x.da.slot = .slot (c.slot.getD 0)) (hv : x.da.speed = .known c.speed)
          (h : x.seekPlace c = some (y, p)) : t = { y with
            da := { y.da.sending (.seek p) 1500000000 .seeking with claim := some { c with seek := some p } } } :=
        hsent (State.prepare_seek hs hv h) rfl
      refine ⟨fun hs => hsent (State.prepare_load hs) rfl, fun hs hv => hsent (State.prepare_spin hs hv) rfl, fun hs hv =>
        ⟨fun hk => hseek hs hv (State.seekPlace_ident hk), fun hk => hseek hs hv (State.seekPlace_target hk), fun z hk hz =>
          ⟨fun hmode => hseek hs hv (State.seekPlace_locate hk hz hmode), fun hmode => ⟨fun ⟨hfill, hb, hfit⟩ => ?_,
            fun d htest hfit hfirst => ?_, fun hkept hno hlinked => ?_⟩⟩⟩⟩
      · exact hseek hs hv (State.seekPlace_anchor hk hz hmode (State.chooseAnchor_bucket hfill hb (qualifies_iff.2 hfit)))
      · exact hseek hs hv (State.seekPlace_anchor hk hz hmode (State.chooseAnchor_block htest hfit hfirst))
      · have hnone : x.chooseAnchor z = none :=
          State.chooseAnchor_none (fun ⟨hfill, hb, hfit⟩ => hkept ⟨hfill, hb, qualifies_iff.1 hfit⟩) hno
        have hlost : Lost z (State.proceed n (x.noAnchor c)) :=
          Lost.proceed (.noAnchor hz (by rw [State.linked, hzx]; exact hlinked)) n
        rw [hx, State.prepare_noAnchor hs hv (State.seekPlace_noAnchor hk hz hmode hnone)]
        exact ⟨hlost.supply, hlost.ctx⟩
    refine ⟨fun h hl => ?_, fun ha c hc hk => ?_, fun ha hu hl => ⟨fun hn => ?_, fun c hc => ?_⟩⟩
    · rw [hfree hl]
      rcases h with h | h
      · rw [if_pos h]
      · rw [if_pos h, ite_self]
    · exact hprepares (hproceed.trans (State.proceed_claim 7 hb hm he hp ha hc)) hc fun _ => rfl
    · rw [hfree hl, if_neg (not_not.2 ha), if_neg (by rw [hu]; nofun), if_pos hn]
    · have harb : t = State.proceed 7 free.arbitrate := by
        rw [hfree hl, if_neg (not_not.2 ha), if_neg (by rw [hu]; nofun), if_neg (by rw [hc]; nofun)]
      rcases State.arbitrate_spec (s := free) rfl with hhold | hch
      · have hkind : c.kind = .hold := by
          rw [hhold] at hc
          exact congrArg Claim.kind (Option.some.inj hc).symm
        refine ⟨fun _ => ?_, fun hk => absurd hkind hk⟩
        rw [harb, hhold, State.proceed_busy 7 free.driveBusy_grantHold]
      · obtain ⟨hlive, hk, -⟩ := hch.granted c hc
        refine ⟨fun h => absurd h hk, fun _ => ?_⟩
        have hlc : free.arbitrate.liveClaim = some c := by simp [State.liveClaim, hc, hlive]
        refine hprepares (n := 6) (harb.trans ?_) hlc hch.zone
        obtain ⟨hbusy, hdue, hruns, hstage, hpc⟩ := hch.stands
        exact State.proceed_claim 6 (hbusy.trans hb) (hdue.trans hm) (hruns.trans he) (hstage.trans hp)
          ((congrArg Power.state hpc).trans ha) hlc

end Sys2Proof.Machine
end

section
/-! PROOF. A claim that reads, ended or cancelled (chapters 4 and 5): what its end leaves, a change of supply state in one form, the
loss of tracking (O43), the shock line and the settle timer (O45), and the window timer (O46). -/

namespace Sys2Proof.Machine

/-! ## The window timer, and the speeds of ROUGH-ROAD (R67, R95) -/

/-- Under ROUGH-ROAD the limits of R67 leave a speed of 2 at most. -/
theorem limitSpeed_rough (refill : Nat) (defects : List Region) (lo hi : Nat) : limitSpeed refill true defects lo hi ≤ 2 := by
  have hrough : min refill 2 ≤ 2 := Nat.min_le_right refill 2
  unfold limitSpeed
  simp only [if_true]
  split <;> split <;> omega

/-- Stepping a speed of 2 or less down leaves it at 2 or less. -/
theorem stepDown_le_two {v : Nat} (n : Nat) (h : v ≤ 2) : stepDown n v ≤ 2 := by
  induction n generalizing v with
  | zero => exact h
  | succ n ih => exact ih (by split <;> omega)

/-- A window that ends with ROUGH-ROAD judged as `road`. -/
theorem exec_windowTimerExpiry {s : State} {road : Bool} (hp : s.pc.state ≠ .parked) (hw : s.sm.windowTimer ≠ .stopped)
    (hr : (if 6 ≤ s.sm.count then true else if s.sm.count ≤ 1 then false else s.sm.roughRoad) = road) :
    exec .windowTimerExpiry s = .next (State.finish s
      { s with sm := { s.sm with roughRoad := road, count := 0, windowTimer := .running 10000000000 } }) := by
  subst hr
  exact State.whenPowered_powered hp (if_neg hw)

/-- Settles O46: the window's count decides ROUGH-ROAD, and ROUGH-ROAD bounds every speed of R67. -/
theorem windowExpiryJudgesTheRoad : Obligations.WindowExpiryJudgesTheRoad := by
  intro s hp
  refine ⟨fun h => State.whenPowered_powered hp (if_pos h), fun hw => ⟨fun h => ?_, fun h2 h5 => ?_, fun h => ?_⟩,
    fun hr => ?_⟩
  · exact exec_windowTimerExpiry hp hw (if_pos h)
  · exact exec_windowTimerExpiry hp hw (by rw [if_neg (by omega), if_neg (by omega)])
  · exact exec_windowTimerExpiry hp hw (by rw [if_neg (by omega), if_pos h])
  · rw [State.identSpeed, hr]
    refine ⟨limitSpeed_rough .., fun z slot target reads => ?_⟩
    rw [State.targetSpeed, State.burstSpeed, hr]
    exact ⟨limitSpeed_rough .., stepDown_le_two reads (limitSpeed_rough ..)⟩

/-! ## A claim that reads is over (R57, R70, R71) -/

/-- The context of a zone, if it has one, returns to WAITING. -/
theorem State.ctxWait_eq (s : State) (z : ZoneId) : s.ctxWait z = s.setCtx z ((s.ctx z).map LinkCtx.wait) := by
  unfold State.ctxWait
  cases hc : s.ctx z with
  | some c => rfl
  | none =>
    have hs : s.lu.ctx.set z none = s.lu.ctx := by rw [← hc, State.ctx, Pair.set_get]
    simp only [State.setCtx, State.modLu, Option.map_none, hs]

/-- Standing still, the slot timer alone may change. -/
theorem Loader.standStill_slotTimer (l : Loader) : ∃ x, l.standStill = { l with slotTimer := x } := by
  unfold Loader.standStill
  split
  · exact ⟨_, rfl⟩
  · exact ⟨l.slotTimer, rfl⟩
  · exact ⟨l.slotTimer, rfl⟩

/-- The drive is READING under the LIVE claim `c`, which is no hold, and no command is outstanding. -/
structure ReadingUnder (s : State) (c : Claim) : Prop where
  out     : s.da.out = none
  reading : s.da.state = .reading
  claim   : s.da.claim = some c
  live    : c.standing = .live
  notHold : c.kind ≠ .hold

/-- The state when a claim that was reading is over: it is gone with PAUSE sent, and the tag has its final standing. -/
def State.readingOver (s : State) (st : Standing) : State :=
  { s with da := { s.da.sending .pause 300000000 .stopping with claim := none }, bi := s.bi.close st }

/-- The state with claim `c` current in the standing `st`; the tag follows, and the block timer stops (R7, R57). -/
def State.claimMarked (s : State) (c : Claim) (st : Standing) : State :=
  (s.modDa fun d => { d with claim := some { c with standing := st }, blockTimer := .stopped }).modBi fun b => b.close st

/-- A tag with a final standing is not LIVE. -/
theorem State.tagLive_readingOver (s : State) {st : Standing} (hst : st ≠ .live) : (s.readingOver st).tagLive = false := by
  unfold State.tagLive State.readingOver Intake.close
  cases h : s.bi.tag with
  | none => simp [h]
  | some t => by_cases hl : t.standing = .live <;> simp [h, hl, hst]

namespace ReadingUnder

variable {s t u : State} {c : Claim} {st : Standing}

theorem congr (h : ReadingUnder s c) (hd : t.da = s.da) : ReadingUnder t c :=
  ⟨by rw [hd, h.out], by rw [hd, h.reading], by rw [hd, h.claim], h.live, h.notHold⟩

theorem liveClaim (h : ReadingUnder s c) : s.liveClaim = some c := by simp [State.liveClaim, h.claim, h.live]

/-- The claim is a link-up or refill, or it is one of the others. -/
theorem kinds (h : ReadingUnder s c) :
    (c.kind = .linkUp ∨ c.kind = .refill) ∨ c.kind = .ident ∨ c.kind = .reread ∨ c.kind = .audit := by
  have hh := h.notHold
  revert hh
  cases c.kind <;> simp

/-- Closed, the claim takes its standing, and then the pickup is released. -/
theorem closeClaim_marked (h : ReadingUnder s c) (hm : s.markClaim c st = u) : s.closeClaim st = u.releasePickup := by
  simp only [State.closeClaim, h.liveClaim, if_neg h.notHold, hm]

/-- The pickup of a claim that was reading is released with PAUSE. -/
theorem releasePickup (h : ReadingUnder s c) (c' : Claim) : (s.claimMarked c' st).releasePickup = s.readingOver st :=
  State.releasePickup_reading h.out h.reading

/-- The claim of an identification is over, and the slot timer stands still (R155). -/
theorem closeClaim_ident (h : ReadingUnder s c) (hk : c.kind = .ident) :
    s.closeClaim st = (s.readingOver st).modLm Loader.standStill := by
  have hm : s.markClaim c st = (s.claimMarked c st).modLm Loader.standStill := by
    simp only [State.markClaim, hk, State.claimMarked]
  rw [h.closeClaim_marked hm]
  exact State.releasePickup_reading h.out h.reading

/-- The claim of a re-read or an audit is over. -/
theorem closeClaim_target (h : ReadingUnder s c) (hk : c.kind = .reread ∨ c.kind = .audit) :
    s.closeClaim st = s.readingOver st := by
  have hm : s.markClaim c st = s.claimMarked c st := by
    rcases hk with hk | hk <;> simp only [State.markClaim, hk, State.claimMarked]
  rw [h.closeClaim_marked hm, h.releasePickup]

/-- A link-up or refill has ended. -/
theorem closeClaim_linkUp (h : ReadingUnder s c) (hk : c.kind = .linkUp ∨ c.kind = .refill) :
    s.closeClaim .ended = s.readingOver .ended := by
  have hm : s.markClaim c .ended = s.claimMarked c .ended := by
    rcases hk with hk | hk <;> cases hz : c.zone <;> simp [State.markClaim, hk, hz, State.claimMarked]
  rw [h.closeClaim_marked hm, h.releasePickup]

/-- A link-up or refill is cancelled: its context returns to WAITING (R71). -/
theorem closeClaim_cancelled {z : ZoneId} (h : ReadingUnder s c) (hk : c.kind = .linkUp ∨ c.kind = .refill)
    (hz : c.zone = some z) : s.closeClaim .cancelled = (s.readingOver .cancelled).ctxWait z := by
  have hm : s.markClaim c .cancelled = (s.claimMarked c .cancelled).ctxWait z := by
    rcases hk with hk | hk <;> simp [State.markClaim, hk, hz, State.claimMarked]
  rw [h.closeClaim_marked hm, State.ctxWait_eq, State.ctxWait_eq]
  exact State.releasePickup_reading h.out h.reading

/-- A claim of another kind than link-up and refill is over: the slot timer, and nothing else of the loader, may have changed. -/
theorem closeClaim_other (h : ReadingUnder s c) (hk : c.kind = .ident ∨ c.kind = .reread ∨ c.kind = .audit) :
    ∃ x, s.closeClaim st = { s.readingOver st with lm := { s.lm with slotTimer := x } } := by
  rcases hk with hk | hk
  · obtain ⟨x, hx⟩ := s.lm.standStill_slotTimer
    exact ⟨x, by rw [h.closeClaim_ident hk, ← hx]; rfl⟩
  · exact ⟨s.lm.slotTimer, h.closeClaim_target hk⟩

end ReadingUnder

/-! ## Changes of supply state that keep the context (R42, R79, R80) -/

/-- The state with zone `z` in supply state `v` and play state `p`, concealers `oc`, link `cl` and `n` free values used. -/
def State.supplyTo (s : State) (z : ZoneId) (v : Supply) (p : Play) (oc : Pair Concealer) (cl : Link) (n : Nat) : State :=
  { s with zc := s.zc.mod z fun r => { r with supply := v, play := p }, oc := oc, cl := cl, free := n }

section

variable {s : State} {z : ZoneId}

@[simp] theorem State.zone_supplyTo (v : Supply) (p : Play) (oc : Pair Concealer) (cl : Link) (n : Nat) :
    (s.supplyTo z v p oc cl n).zone z = { s.zone z with supply := v, play := p } := s.zc.get_mod_self z _

@[simp] theorem State.zone_supplyTo_other (v : Supply) (p : Play) (oc : Pair Concealer) (cl : Link) (n : Nat) :
    (s.supplyTo z v p oc cl n).zone z.other = s.zone z.other := s.zc.get_mod_other z _

/-- A zone that comes to another supply state, one which keeps its context, and has not ended with an empty chain. -/
theorem State.setSupply_keeps {v : Supply} (c : ZoneCause) (hd : dropsCtx v = false) (hv : v ≠ .ended ∨ s.fill z ≠ 0)
    (h : (s.zone z).supply ≠ v) : ∃ p oc cl n, s.setSupply z v c = s.supplyTo z v p oc cl n := by
  have hput : s.putSupply z v = s.modZone z fun r => { r with supply := v } := if_neg (by simp [hd])
  have hset : s.setSupply z v c = (s.putSupply z v).supplyChanged z c :=
    (if_neg h).trans (if_neg fun ⟨he, hf⟩ => hv.elim (· he) (· (by rw [hput] at hf; exact hf)))
  obtain ⟨oc, cl, n, hc⟩ := State.supplyChanged_spec (s.putSupply z v) z c
  rw [hset, hc]
  generalize (s.putSupply z v).readyPlay z = p
  rw [hput]
  exact ⟨p, oc, cl, n, by cases z <;> rfl⟩

/-- The link-up context `x` is a fresh one (R80). -/
def State.freshly (s : State) (x : LinkCtx) : Prop :=
  x.stage = .waiting ∧ x.failed = 0 ∧ x.backoff = s.params.luBackoff ∧ x.windowLeft = s.params.luWindow

/-- A zone that comes to REJOINING with a fresh context. -/
theorem State.rejoin_spec (c : ZoneCause) (h : (s.zone z).supply ≠ .rejoining) :
    ∃ x p oc cl n, s.rejoin z c = (s.supplyTo z .rejoining p oc cl n).setCtx z (some x) ∧ s.freshly x := by
  obtain ⟨p, oc, cl, n, hs⟩ := s.setSupply_keeps c rfl (.inl (by decide)) h
  exact ⟨_, p, oc, cl, n, by rw [State.rejoin, hs]; rfl, rfl, rfl, rfl, rfl⟩

end

/-! ## Tracking loss (R57, R72, R90, R91, R92) -/

/-- What the owner of a link-up or refill of zone `z` in phase `ph` makes of a loss of tracking. -/
structure TrackLoss (z : ZoneId) (ph : Phase) (s t : State) : Prop where
  apart     : ∃ zc lu oc dd cl n, t = { s with zc := zc, lu := lu, oc := oc, dd := dd, cl := cl, free := n }
  stays     : (s.zone z).supply ≠ .feeding → t.zc = s.zc
  rejoins   : (s.zone z).supply = .feeding → ∃ p, t.zc = s.zc.mod z fun r => { r with supply := .rejoining, play := p }
  fresh     : (s.zone z).supply = .feeding → ph = .appending → ∃ x, t.ctx z = some x ∧ s.freshly x
  marked    : ph = .joining ∨ (s.zone z).supply = .feeding → s.marksSkip t z (s.nextAddr z)
  unmarked  : ph = .appending → (s.zone z).supply ≠ .feeding → t.dd = s.dd

theorem State.linkTrackLost_spec (s : State) (z : ZoneId) (ph : Phase) : TrackLoss z ph s (s.linkTrackLost z ph) := by
  cases ph with
  | joining =>
    obtain ⟨dd, hd, hm⟩ := (s.ctxWait z).markDefect_spec z (s.nextAddr z)
    rw [State.ctxWait_eq] at hd hm
    generalize hu : ({ s.setCtx z ((s.ctx z).map LinkCtx.wait) with dd := dd } : State) = u at hd hm
    have hl : s.linkTrackLost z .joining =
        if (u.zone z).supply = .feeding then u.setSupply z .rejoining .trackLost else u := by
      simp only [State.linkTrackLost, State.ctxWait_eq, hd]
    subst hu
    by_cases hf : (s.zone z).supply = .feeding
    · have hne : (s.zone z).supply ≠ .rejoining := by rw [hf]; decide
      obtain ⟨p, oc, cl, n, hs⟩ := State.setSupply_keeps
        (s := { s.setCtx z ((s.ctx z).map LinkCtx.wait) with dd := dd }) .trackLost rfl (.inl (by decide)) hne
      rw [hl.trans ((if_pos hf).trans hs)]
      exact ⟨⟨_, _, _, _, _, _, rfl⟩, fun h => absurd hf h, fun _ => ⟨p, rfl⟩, fun _ => nofun, fun _ => hm, nofun⟩
    · rw [hl.trans (if_neg hf)]
      exact ⟨⟨_, _, _, _, _, _, rfl⟩, fun _ => rfl, fun h => absurd h hf, fun h => absurd h hf, fun _ => hm, nofun⟩
  | appending =>
    by_cases hf : (s.zone z).supply = .feeding
    · obtain ⟨dd, hd, hm⟩ := s.markDefect_spec z (s.nextAddr z)
      obtain ⟨x, p, oc, cl, n, hr, hx⟩ := State.rejoin_spec (s := { s with dd := dd }) (z := z) .trackLost
        (by show (s.zone z).supply ≠ _; rw [hf]; decide)
      have hl : s.linkTrackLost z .appending = (State.supplyTo { s with dd := dd } z .rejoining p oc cl n).setCtx z (some x) := by
        simp only [State.linkTrackLost, if_pos hf, hd, hr]
      rw [hl]
      exact ⟨⟨_, _, _, _, _, _, rfl⟩, fun h => absurd hf h, fun _ => ⟨p, rfl⟩,
        fun _ _ => ⟨x, State.ctx_setCtx _ z _, hx⟩, fun _ => hm, fun _ h => absurd hf h⟩
    · have hl : s.linkTrackLost z .appending = s := if_neg hf
      rw [hl]
      exact ⟨⟨_, _, _, _, _, _, rfl⟩, fun _ => rfl, fun h => absurd h hf, fun h => absurd h hf,
        fun h => h.elim nofun fun h => absurd h hf, fun _ _ => rfl⟩

theorem State.tagPhase_appending {s : State} (h : s.tagAppending = true) : s.tagPhase = .appending := if_pos h

theorem State.tagPhase_joining {s : State} (h : s.tagAppending = false) : s.tagPhase = .joining := if_neg (by rw [h]; nofun)

/-- A loss of tracking is reported by TRACK-LOST, and by the expiry of a running block timer in its place. -/
theorem exec_trackingLost {s e : State} (hp : s.pc.state ≠ .parked) (h : s.trackingLost = e) :
    exec .trackLost s = .next (State.finish s e) ∧
    (s.da.blockTimer ≠ .stopped → exec .blockTimerExpiry s = .next (State.finish s e)) :=
  ⟨State.whenPowered_powered hp h, fun hb => State.whenPowered_powered hp ((if_neg hb).trans h)⟩

/-- A report that finds the drive not READING, or no LIVE claim, changes nothing. -/
theorem State.trackingLost_idle {s : State} (h : s.da.state ≠ .reading ∨ s.liveClaim = none) : s.trackingLost = s := by
  unfold State.trackingLost
  split
  · next c hc => exact if_neg fun hr => h.elim (· hr) fun hn => by rw [hn] at hc; cases hc
  · rfl

/-- A report taken ends the claim, and its owner takes the loss. -/
theorem ReadingUnder.trackingLost {s : State} {c : Claim} (h : ReadingUnder s c) :
    s.trackingLost = (s.closeClaim .ended).lossToOwner c s.tagPhase := by
  simp only [State.trackingLost, h.liveClaim, if_pos h.reading]

theorem State.lossToOwner_linkUp {s : State} {c : Claim} {z : ZoneId} (ph : Phase) (hk : c.kind = .linkUp ∨ c.kind = .refill)
    (hz : c.zone = some z) : s.lossToOwner c ph = s.linkTrackLost z ph := by
  rcases hk with hk | hk <;> simp only [State.lossToOwner, hk, hz]

theorem State.lossToOwner_other {s : State} {c : Claim} (ph : Phase)
    (h : c.zone = none ∨ c.kind ≠ .linkUp ∧ c.kind ≠ .refill) : s.lossToOwner c ph = s := by
  unfold State.lossToOwner
  split
  · next z hk hz => exact absurd hk (h.elim (fun hn => by rw [hn] at hz; cases hz) (·.1))
  · next z hk hz => exact absurd hk (h.elim (fun hn => by rw [hn] at hz; cases hz) (·.2))
  · rfl

/-- The end of the statement on a loss of tracking, for a claim whose owner is no zone's link-up or refill. -/
theorem ReadingUnder.trackingLost_other {s : State} {c : Claim} (h : ReadingUnder s c)
    (hk : c.kind = .ident ∨ c.kind = .reread ∨ c.kind = .audit) :
    ∃ x, s.trackingLost = { s.readingOver .ended with lm := { s.lm with slotTimer := x } } := by
  obtain ⟨x, hx⟩ := h.closeClaim_other (st := .ended) hk
  refine ⟨x, ?_⟩
  rw [h.trackingLost, State.lossToOwner_other _ (.inr (by rcases hk with hk | hk | hk <;> simp [hk])), hx]

theorem ReadingUnder.trackingLost_linkUp {s : State} {c : Claim} {z : ZoneId} (h : ReadingUnder s c)
    (hk : c.kind = .linkUp ∨ c.kind = .refill) (hz : c.zone = some z) :
    s.trackingLost = (s.readingOver .ended).linkTrackLost z s.tagPhase := by
  rw [h.trackingLost, h.closeClaim_linkUp hk, State.lossToOwner_linkUp _ hk hz]

theorem ReadingUnder.trackingLost_nowhere {s : State} {c : Claim} (h : ReadingUnder s c)
    (hk : c.kind = .linkUp ∨ c.kind = .refill) (hz : c.zone = none) : s.trackingLost = s.readingOver .ended := by
  rw [h.trackingLost, h.closeClaim_linkUp hk, State.lossToOwner_other _ (.inl hz)]

/-- Settles O43: the claim is over, and the owner's part is `TrackLoss` for a zone's link-up or refill, and nothing for the rest. -/
theorem trackingLossEndsTheClaim : Obligations.TrackingLossEndsTheClaim := by
  intro s hp
  refine ⟨fun hb => State.whenPowered_powered hp (if_pos hb), fun hi => ?_, fun c hrd hout hcl hlive hhold => ?_⟩
  · have hl := State.trackingLost_idle hi
    exact ⟨State.whenPowered_powered hp hl, State.whenPowered_powered hp (by rw [State.blockTimeout, hl, ite_self])⟩
  · have h : ReadingUnder s c := ⟨hout, hrd, hcl, hlive, hhold⟩
    have hdead := s.tagLive_readingOver (st := .ended) (by decide)
    rcases h.kinds with hk | hk
    · have hother : ¬ (c.kind = .ident ∨ c.kind = .reread ∨ c.kind = .audit) := by rcases hk with hk | hk <;> simp [hk]
      cases hz : c.zone with
      | none =>
        obtain ⟨ht, hb⟩ := exec_trackingLost hp (h.trackingLost_nowhere hk hz)
        exact ⟨_, ht, hb, rfl, rfl, rfl, rfl, hdead, fun _ _ => rfl, nofun, nofun, fun _ _ => ⟨rfl, rfl, rfl⟩, fun _ => rfl,
          rfl, rfl, rfl, rfl, rfl, rfl, rfl⟩
      | some z =>
        have hl := h.trackingLost_linkUp hk hz
        have hloss := (s.readingOver .ended).linkTrackLost_spec z s.tagPhase
        obtain ⟨zc, lu, oc, dd, cl, n, he⟩ := hloss.apart
        rw [he] at hl hloss
        obtain ⟨ht, hb⟩ := exec_trackingLost hp hl
        refine ⟨_, ht, hb, rfl, rfl, rfl, rfl, hdead, fun w hw => ?_, fun w hw _ hf => ?_,
          fun w a hw _ ha => ⟨fun hm => ?_, fun hap hf => ?_⟩, fun hk => absurd hk hother,
          fun hk => absurd hk hother, rfl, rfl, rfl, rfl, rfl, rfl, rfl⟩
        · by_cases hf : (s.zone z).supply = .feeding
          · obtain ⟨p, hzc⟩ := hloss.rejoins hf
            exact (congrArg (·.get w) hzc).trans (Pair.get_mod_ne _ _ fun hwz => hw (by rw [hwz]; exact hf))
          · exact congrArg (·.get w) (hloss.stays hf)
        · obtain rfl : z = w := Option.some.inj hw
          obtain ⟨p, hzc⟩ := hloss.rejoins hf
          have hself := (congrArg (·.get z) hzc).trans (Pair.get_mod_self _ z _)
          exact ⟨congrArg Zone.supply hself, (congrArg Zone.nextRead hself :),
            (congrArg (·.get z.other) hzc).trans (Pair.get_mod_other _ z _),
            fun ha => hloss.fresh hf (State.tagPhase_appending ha)⟩
        · obtain rfl : z = w := Option.some.inj hw
          have haddr : (s.readingOver .ended).nextAddr z = a := by
            show ((s.zone z).nextRead).getD 0 = a
            rw [ha]
            rfl
          exact haddr ▸ hloss.marked (hm.imp_left State.tagPhase_joining)
        · obtain rfl : z = w := Option.some.inj hw
          exact hloss.unmarked (State.tagPhase_appending hap) hf
    · obtain ⟨x, hx⟩ := h.trackingLost_other hk
      obtain ⟨ht, hb⟩ := exec_trackingLost hp hx
      have hburst : ¬ (c.kind = .linkUp ∨ c.kind = .refill) := by rcases hk with hk | hk | hk <;> simp [hk]
      exact ⟨_, ht, hb, rfl, rfl, rfl, rfl, hdead, fun _ _ => rfl, fun _ _ hk => absurd hk hburst,
        fun _ _ _ hk => absurd hk hburst, fun _ _ => ⟨rfl, rfl, rfl⟩, fun _ => rfl, rfl, rfl, rfl, rfl, rfl, rfl, rfl⟩

/-! ## Shocks (R94) -/

/-- A rise that finds no claim READING cancels none. -/
theorem State.shockCancels_idle {s : State} (h : s.da.state ≠ .reading ∨ s.liveClaim = none) : s.shockCancels = s := by
  unfold State.shockCancels
  split
  · next c hc => exact if_neg fun hr => h.elim (· hr) fun hn => by rw [hn] at hc; cases hc
  · rfl

/-- The zone of a link-up or refill that a rise cancels is the shocked zone. -/
theorem ReadingUnder.shockCancels_linkUp {s : State} {c : Claim} {z : ZoneId} (h : ReadingUnder s c)
    (hk : c.kind = .linkUp ∨ c.kind = .refill) (hz : c.zone = some z) : s.shockCancels =
    ((s.readingOver .cancelled).setCtx z ((s.ctx z).map LinkCtx.wait)).modSm fun m =>
      { m with shocked := some ⟨z, s.tagPhase⟩ } := by
  have hc := h.closeClaim_cancelled hk hz
  rw [State.ctxWait_eq] at hc
  rcases hk with hk | hk <;> simp only [State.shockCancels, h.liveClaim, if_pos h.reading, hk, hz, hc] <;> rfl

/-- A re-read, an audit and an identification that a rise cancels leave no shocked zone. -/
theorem ReadingUnder.shockCancels_other {s : State} {c : Claim} (h : ReadingUnder s c)
    (hk : c.kind = .ident ∨ c.kind = .reread ∨ c.kind = .audit) :
    ∃ x, s.shockCancels = { s.readingOver .cancelled with lm := { s.lm with slotTimer := x } } := by
  obtain ⟨x, hx⟩ := h.closeClaim_other (st := .cancelled) hk
  refine ⟨x, ?_⟩
  rw [← hx]
  rcases hk with hk | hk | hk <;> simp only [State.shockCancels, h.liveClaim, if_pos h.reading, hk]

theorem exec_shockRise {s e : State} (hp : s.pc.state ≠ .parked) (h : ((s.setShock true).modSm Shock.rise).shockCancels = e) :
    exec .shockRise s = .next (State.finish s e) := by
  rw [← h]
  exact if_neg hp

/-- The shocked zone is handed over: one that is not FEEDING stands. -/
theorem State.rejoinShocked_stands {s : State} {x : Shocked} (h : (s.zone x.zone).supply ≠ .feeding) : s.rejoinShocked x = s :=
  if_neg h

/-- A FEEDING zone that is handed over is REJOINING, with a fresh context when its claim was appending. -/
theorem State.rejoinShocked_feeding {s : State} {x : Shocked} (h : (s.zone x.zone).supply = .feeding) :
    ∃ p oc cl n c, s.rejoinShocked x = (s.supplyTo x.zone .rejoining p oc cl n).setCtx x.zone c ∧
      (x.phase = .joining → c = s.ctx x.zone) ∧ (x.phase = .appending → ∃ y, c = some y ∧ s.freshly y) := by
  have hne : (s.zone x.zone).supply ≠ .rejoining := by rw [h]; decide
  rw [State.rejoinShocked, if_pos h]
  cases hph : x.phase with
  | joining =>
    obtain ⟨p, oc, cl, n, hs⟩ := State.setSupply_keeps .shock rfl (.inl (by decide)) hne
    refine ⟨p, oc, cl, n, _, hs.trans ?_, fun _ => rfl, nofun⟩
    simp only [State.setCtx, State.modLu, State.supplyTo, State.ctx, Pair.set_get]
  | appending =>
    obtain ⟨y, p, oc, cl, n, hr, hy⟩ := State.rejoin_spec .shock hne
    exact ⟨p, oc, cl, n, some y, hr, nofun, fun _ => ⟨y, rfl, hy⟩⟩

/-- The settle timer's expiry hands the shocked zone over and clears it. -/
theorem State.settled_shocked {s : State} {x : Shocked} (h : s.sm.settleTimer ≠ .stopped) (hx : s.sm.shocked = some x) :
    s.settled = State.rejoinShocked { s with sm := { s.sm with settleTimer := .stopped, shocked := none } } x := by
  simp only [State.settled, if_neg h, hx]
  rfl

/-- With no shocked zone the settle timer's expiry stops the timer alone. -/
theorem State.settled_calm {s : State} (h : s.sm.settleTimer ≠ .stopped) (hx : s.sm.shocked = none) :
    s.settled = { s with sm := { s.sm with settleTimer := .stopped, shocked := none } } := by
  simp only [State.settled, if_neg h, hx]
  rfl

/-- Settles O45: rises by the claim that reads, falls, and expiries by the shocked zone. -/
theorem shocksAreCountedAndSettled : Obligations.ShocksAreCountedAndSettled := by
  intro s up
  refine ⟨fun hp => ⟨if_pos hp, if_pos hp⟩, fun hp => ⟨fun hi => ?_, fun c z hrd hout hcl hlive hk hz => ?_,
    fun c hrd hout hcl hlive hk => ?_, if_neg hp, fun h => State.whenPowered_powered hp (if_pos h), fun h hx => ?_,
    fun x h hx hf => ?_⟩⟩
  · exact exec_shockRise hp (State.shockCancels_idle (s := up) hi)
  · have h : ReadingUnder up c := ⟨hout, hrd, hcl, hlive, by rcases hk with hk | hk <;> simp [hk]⟩
    exact ⟨_, exec_shockRise hp (h.shockCancels_linkUp hk hz), rfl, rfl, rfl, rfl, rfl, up.tagLive_readingOver (by decide),
      rfl, rfl, rfl, rfl, rfl, rfl, rfl, rfl⟩
  · have h : ReadingUnder up c := ⟨hout, hrd, hcl, hlive, by rcases hk with hk | hk | hk <;> simp [hk]⟩
    obtain ⟨x, hx⟩ := h.shockCancels_other (by rcases hk with hk | hk | hk <;> simp [hk])
    exact ⟨_, exec_shockRise hp hx, rfl, rfl, rfl, rfl, rfl, up.tagLive_readingOver (by decide), rfl, rfl, rfl, rfl,
      rfl, rfl, rfl, rfl, rfl, rfl⟩
  · refine State.whenPowered_powered hp ?_
    rcases hx with hx | ⟨x, hx, hf⟩
    · exact State.settled_calm h hx
    · exact (State.settled_shocked h hx).trans (State.rejoinShocked_stands hf)
  · obtain ⟨p, oc, cl, n, c, hr, hj, ha⟩ := State.rejoinShocked_feeding
      (s := { s with sm := { s.sm with settleTimer := .stopped, shocked := none } }) (x := x) hf
    have hz := State.zone_supplyTo (s := s) (z := x.zone) .rejoining p oc cl n
    refine ⟨_, State.whenPowered_powered hp ((State.settled_shocked h hx).trans hr), rfl, congrArg Zone.supply hz,
      (congrArg Zone.nextRead hz :), State.zone_supplyTo_other (s := s) .rejoining p oc cl n, fun hph => ?_, fun hph => ?_,
      rfl, rfl, rfl, rfl, rfl, rfl, rfl, rfl, rfl⟩
    · exact (State.ctx_setCtx _ _ _).trans (hj hph)
    · obtain ⟨y, hy, hst, hfa, hb, -⟩ := ha hph
      exact ⟨y, (State.ctx_setCtx _ _ _).trans hy, hst, hfa, hb⟩

end Sys2Proof.Machine
end

section
/-! PROOF. The intake after a block (chapters 1 and 2): whatever a block is made of, the intake bucket is empty when its command
ends. With it, the block taken from a sound pool, and what stands of the chains and of the block memory meanwhile. -/

namespace Sys2Proof.Machine

/-! ## The intake bucket is empty again (R14, R17, R26, R28) -/

/-- The intake holds no bucket. -/
def Stowed (t : State) : Prop := t.bs.intake = 0

namespace Stowed

variable {s t : State} {z : ZoneId}

theorem of_still (h : Stowed s) (k : Still s t) : Stowed t := by
  obtain ⟨-, -, -, -, -, hi⟩ := k.pool
  exact hi.trans h

theorem of_aside (h : Stowed s) (k : Aside s t) : Stowed t := (congrArg Store.intake k.bs).trans h

theorem modAudit {f : Audit → Audit} (h : Stowed t) : Stowed (t.modAudit z f) := h
theorem setCtx {c : Option LinkCtx} (h : Stowed t) : Stowed (t.setCtx z c) := h
theorem modDd {f : Directory → Directory} (h : Stowed t) : Stowed (t.modDd f) := h
theorem modLm {f : Loader → Loader} (h : Stowed t) : Stowed (t.modLm f) := h
theorem notice {k : Byte} {b : List Byte} (h : Stowed t) : Stowed (t.notice k b) := h
theorem modInfo {b : Nat} {f : BlockRec → BlockRec} (h : Stowed t) : Stowed (t.modBs fun st => st.modInfo b f) := h

/-! ### What takes the bucket from the intake -/

theorem discard (t : State) : Stowed t.discard := by
  show t.bs.discard.intake = 0
  unfold Store.discard
  split
  · assumption
  · rfl

theorem mergeInto (t : State) (b : Nat) : Stowed (t.mergeInto b) := discard _

theorem append (t : State) (z : ZoneId) (e : Nat) : Stowed (t.modBs fun st => st.append z e) := by
  show (t.bs.append z e).intake = 0
  unfold Store.append
  split
  · assumption
  · rw [(Store.releaseAnchor_fields _ z).2.1, (Store.link_tail _ z).2.2.1]

/-! ### What leaves the intake alone -/

theorem closeClaim {st : Standing} (h : Stowed t) : Stowed (t.closeClaim st) := h.of_aside (Aside.refl t).closeClaim

theorem closeZoneClaim {st : Standing} (h : Stowed t) : Stowed (t.closeZoneClaim z st) := h.of_aside (Aside.refl t).closeZoneClaim

theorem dropEntriesFrom {a : Nat} (h : Stowed t) : Stowed (t.dropEntriesFrom z a) := h.of_aside (Aside.refl t).dropEntriesFrom

theorem markDefect {k : DefectKind} {a : Nat} (h : Stowed t) : Stowed (t.markDefect z k a) := h.of_still (Still.refl t).markDefect

theorem dropEntry {a : Nat} (h : Stowed t) : Stowed (t.dropEntry z a) := h.of_still (Still.refl t).dropEntry

theorem exhaustEntry {a : Nat} (h : Stowed t) : Stowed (t.exhaustEntry z a) := h.of_still (Still.refl t).exhaustEntry

theorem pressTest (h : Stowed t) : Stowed (t.pressTest z) := h.of_still (Still.refl t).pressTest

theorem flushZone (h : Stowed t) : Stowed (t.flushZone z) := by
  have hf : Stowed (t.modBs fun st => st.flush z) := by
    show (({ t.bs.releaseAll (t.bs.chainOf z) with chain := _ } : Store).releaseAnchor z).intake = 0
    rw [(Store.releaseAnchor_fields _ z).2.1]
    exact (Store.releaseAll_fields t.bs _).2.2.1.trans h
  exact hf.dropEntriesFrom (z := z) (a := 0)

theorem endOfProgram (h : Stowed t) : Stowed (t.endOfProgram z) := by
  have hr : Stowed (((t.modZone z fun r => { r with
      play := .stopped, supply := .idle, nextRead := none, track := 0, pausePending := false, resume := none }).setCtx z
      none).modSelRec z fun r => { r with resume := none }) := by
    unfold State.modSelRec
    split
    · exact h
    · exact h
  exact hr

theorem setSupply {v : Supply} {c : ZoneCause} (h : Stowed t) : Stowed (t.setSupply z v c) := by
  by_cases hv : v = .ended
  · have hp : Stowed (t.putSupply z v) := by
      unfold State.putSupply
      dsimp only
      split
      · exact h
      · exact h
    simp only [State.setSupply]
    split
    · exact h
    · split
      · exact (flushZone (t := (t.putSupply z v).zoneNotice z c) hp).endOfProgram
      · exact hp.of_still (Still.refl _).supplyChanged
  · exact h.of_still ((Still.refl t).setSupply hv)

theorem rejoin {c : ZoneCause} (h : Stowed t) : Stowed (t.rejoin z c) := h.setSupply (z := z) (v := .rejoining) (c := c)

theorem cutZone {e : Nat} {own : Bool} (h : Stowed t) : Stowed (t.cutZone z e own) := by
  have hcut (p : Nat) : (t.bs.cut z p).intake = 0 := by
    unfold Store.cut
    dsimp only
    split
    · exact h
    · exact (Store.releaseAll_fields t.bs _).2.2.1.trans h
  have hdrop (p a : Nat) : Stowed (((t.modBs fun st => st.cut z p).modZone z fun r =>
      { r with nextRead := some a }).dropEntriesFrom z a) := dropEntriesFrom (hcut p)
  unfold State.cutZone
  split
  · exact h
  · next p hp =>
    cases own
    · by_cases h1 : p = 1
      · simp only [if_pos h1]
        exact hdrop _ _
      · simp only [if_neg h1]
        exact hdrop _ _
    · by_cases h1 : p = 1
      · simp only [if_pos h1]
        exact hdrop _ _
      · simp only [if_neg h1]
        exact hdrop _ _

/-! ### Appends and joins -/

theorem newHead (h : Stowed t) : Stowed (t.newHead z) := by
  have hr (e : Nat) (r : BlockRec) : Stowed (t.rereadAtHead z e r) := by
    obtain ⟨m, hm⟩ := (Behind.refl t).rereadAtHead (z := z) (e := e) (r := r) |>.bs
    exact (congrArg Store.intake hm).trans h
  have ha {u : State} (e : Nat) (hu : Stowed u) : Stowed (u.auditAtHead z e) :=
    (Reported.auditAtHead (Reported.refl u) (e := e)).intake.trans hu
  have ht {u : State} (e n : Nat) (hu : Stowed u) : Stowed (u.trackAtHead z e n) :=
    (Reported.trackAtHead (Reported.refl u) (e := e) (n := n)).intake.trans hu
  simp only [State.newHead]
  split
  · exact h
  · exact ht _ _ (ha _ (hr _ _))

theorem listBlock {p : Nat} (h : Stowed t) : Stowed (t.listBlock z p) := (Reported.refl t).listBlock.intake.trans h

theorem reclass {p : Nat} (h : Stowed t) : Stowed (t.reclass z p) := by
  simp only [State.reclass]
  split
  · split
    · exact h
    · exact h.dropEntry
  · exact h.listBlock

theorem countCommit (h : Stowed t) : Stowed (t.countCommit z) := by
  unfold State.countCommit
  split
  · split
    · exact h
    · exact h
  · exact h

theorem burstTest (h : Stowed t) : Stowed (t.burstTest z) := by
  unfold State.burstTest
  split
  · split
    · exact h.closeZoneClaim
    · exact h
  · exact h

theorem testReady (h : Stowed t) : Stowed (t.testReady z) := by
  obtain ⟨oc, cl, ht⟩ := t.testReady_spec z
  rw [ht]
  exact h

theorem commit (t : State) (z : ZoneId) (e : Nat) : Stowed (t.commit z e) := by
  have hr {u : State} (hu : Stowed u) (p : Nat) :
      Stowed (((((u.listBlock z p).countAppend z e).countCommit z).burstTest z).testReady z) := by
    have hc : Stowed ((u.listBlock z p).countAppend z e) := (Reported.refl _).countAppend.intake.trans hu.listBlock
    exact hc.countCommit.burstTest.testReady
  have ha : Stowed (t.appended z e) := append t z e
  unfold State.commit
  split
  · exact (discard t).closeZoneClaim
  · by_cases h0 : decide (t.fill z = 0) = true
    · simp only [if_pos h0]
      exact hr ha.newHead _
    · simp only [if_neg h0]
      exact hr ha _

theorem completeJoin (h : Stowed t) : Stowed (t.completeJoin z) := by
  simp only [State.completeJoin]
  split
  · exact setSupply h
  · exact h

theorem beyondEnd (h : Stowed t) : Stowed (t.beyondEnd z) := by
  simp only [State.beyondEnd]
  split
  · exact h.closeZoneClaim.setSupply
  · exact h.closeZoneClaim

theorem attemptFailed (h : Stowed t) : Stowed (t.attemptFailed z) := by
  have hc : Stowed (t.closeZoneClaim z .ended) := h.closeZoneClaim
  unfold State.attemptFailed
  dsimp only
  split
  · exact hc
  · split
    · exact setSupply hc
    · split
      · exact setSupply hc
      · exact hc

theorem appendBlock (t : State) (z : ZoneId) : Stowed (t.appendBlock z) := by
  have hs (e : Nat) : Stowed (t.skip z e) := by
    simp only [State.skip]
    split
    · exact (discard t).closeZoneClaim.markDefect.rejoin
    · exact (discard t).closeZoneClaim
  simp only [State.appendBlock]
  split
  · exact (discard t).beyondEnd
  · split
    · exact hs _
    · exact (commit t z _).pressTest

theorem completeBlock (t : State) (z : ZoneId) : Stowed (t.completeBlock z) := by
  simp only [State.completeBlock]
  split
  · exact (discard t).completeJoin.beyondEnd
  · split
    · exact (discard t).markDefect.attemptFailed
    · exact (commit t z _).completeJoin

theorem verifyMergeAt (t : State) (z : ZoneId) (e : Nat) : Stowed (t.verifyMergeAt z e) := by
  unfold State.verifyMergeAt
  split
  · simp only [State.verifyMerge]
    split
    · exact reclass (mergeInto t _)
    · exact (mergeInto t _).reclass
  · exact discard t
  · exact discard t

theorem searchBlock (t : State) (z : ZoneId) (c : LinkCtx) (prev : Option Nat) : Stowed (t.searchBlock z c prev) := by
  unfold State.searchBlock
  dsimp only
  split
  · split
    · exact (commit _ z _).completeJoin
    · unfold State.anchorMatched
      dsimp only
      split
      · exact verifyMergeAt _ z _
      · exact discard _
      · exact discard _
  · exact (discard _).attemptFailed
  · split
    · exact (discard _).attemptFailed
    · exact discard _

theorem verifyBlock (t : State) (z : ZoneId) (c : LinkCtx) : Stowed (t.verifyBlock z c) := by
  simp only [State.verifyBlock]
  split
  · exact completeBlock t z
  · split
    · exact discard t
    · split
      · exact verifyMergeAt t z _
      · split
        · exact (discard t).markDefect.attemptFailed
        · split
          · exact verifyMergeAt t z _
          · split
            · exact completeBlock _ z
            · exact discard _

theorem joinBlock (t : State) (z : ZoneId) (prev : Option Nat) : Stowed (t.joinBlock z prev) := by
  unfold State.joinBlock
  split
  · exact discard t
  · split
    · exact searchBlock t z _ prev
    · exact verifyBlock t z _
    · exact discard t

/-! ### Targets and identifications -/

theorem countAttempt {a : Nat} (h : Stowed t) : Stowed (t.countAttempt z a) := by
  unfold State.countAttempt
  split
  · exact h
  · dsimp only
    split
    · exact dropEntry h
    · split
      · exact exhaustEntry h
      · exact h

theorem rereadBlock (t : State) (z : ZoneId) (a : Nat) (prev : Option Nat) : Stowed (t.rereadBlock z a prev) := by
  have hm (u : State) : Stowed (u.mergeCopy z a) := by
    unfold State.mergeCopy
    split
    · exact (discard u).dropEntry
    · obtain ⟨m, hb⟩ := (Behind.refl u.discard).rereadAtHead (z := z) (e := a) (r := u.info (u.bucketAt z 0)) |>.bs
      exact (congrArg Store.intake hb).trans (discard u)
    · dsimp only
      split
      · exact (discard u).countAttempt
      · exact (mergeInto u _).countAttempt
  simp only [State.rereadBlock]
  split
  · exact (hm _).closeClaim
  · exact (discard _).countAttempt.closeClaim
  · split
    · exact (discard _).countAttempt.closeClaim
    · exact discard _

theorem auditBlock (t : State) (z : ZoneId) (a : Nat) (prev : Option Nat) : Stowed (t.auditBlock z a prev) := by
  have hs {u : State} (h : Stowed u) (b : Bool) : Stowed (u.auditFailedSupply z b) := by
    unfold State.auditFailedSupply
    split
    · split
      · exact h.setSupply
      · exact h.rejoin
    · exact h
  have hf {u : State} (h : Stowed u) : Stowed (u.auditFails z a) := by
    simp only [State.auditFails]
    split
    · exact hs h.cutZone.modAudit.notice _
    · exact hs h.cutZone.modAudit _
  have hc (u : State) (b : Nat) : Stowed (u.auditCompare z a b) := by
    simp only [State.auditCompare]
    split
    · exact (discard u).closeClaim
    · split
      · exact (discard u).closeClaim.modInfo.modAudit
      · exact hf (discard u).closeClaim
  simp only [State.auditBlock]
  split
  · exact (discard t).closeClaim.modAudit
  · split
    · exact hc _ _
    · exact (discard _).closeClaim
    · split
      · exact (discard _).closeClaim
      · exact discard _

theorem identOutcome {n : Nat} {o : IdentOutcome} {r : Option Nat} {b : Bool} (h : Stowed t) :
    Stowed (t.identOutcome n o r b) := by
  have hfound {u : State} (h : Stowed u) (w : ZoneId) (i : Nat) : Stowed (u.discFound w i) := by
    unfold State.discFound
    split
    · split
      · exact h.setSupply
      · exact h.rejoin
    · exact h
  have hlost {u : State} (h : Stowed u) (w : ZoneId) : Stowed (u.discNotFound w) := by
    unfold State.discNotFound
    split
    · exact h.setSupply
    · exact h
  have hscan {u : State} (h : Stowed u) : Stowed u.scanDone := by
    unfold State.scanDone
    split
    · exact hlost (hlost h .a) .b
    · exact h
  have h1 : Stowed (((t.modDd fun d => { d with ident := none }).identNotice n o r).modLm Loader.nextSlot) := h.modDd.notice.modLm
  unfold State.identOutcome
  dsimp only
  split
  · split
    · exact hscan (hfound (hfound h1 .a _) .b _)
    · exact hscan h1
  · exact hscan h1

theorem judge (t : State) : Stowed t.judge := by
  have hd : Stowed t.discard := discard t
  have hread {u : State} (h : Stowed u) (n : Nat) (i : DiscInfo) : Stowed (u.readableDisc n i) := by
    unfold State.readableDisc
    split
    · split
      · split
        · exact h.modDd.identOutcome
        · exact h.identOutcome
      · exact h
    · split
      · exact h.modDd.identOutcome
      · exact h.identOutcome
  simp only [State.judge, State.verdict]
  split
  · exact hd
  · split
    · exact hread hd.modDd.closeClaim _ _
    · split
      · exact hd.modDd.closeClaim.identOutcome
      · exact hd.modDd

/-- However a block is routed, it has left the intake (R14). -/
theorem route (t : State) (tag : Tag) : Stowed (t.route tag) := by
  unfold State.route
  split
  · split
    · exact appendBlock t _
    · exact joinBlock t _ _
  · split
    · exact appendBlock t _
    · exact joinBlock t _ _
  · exact rereadBlock t _ _ _
  · exact auditBlock t _ _ _
  · exact judge t
  · exact discard t

end Stowed

end Sys2Proof.Machine
end

section
/-! PROOF. A block taken from a sound pool (chapters 1 and 2): the chains and the blocks in them stand while it is in the intake
bucket and when it is discarded; its stamp; and what its command leaves when reading goes on and when the claim is over. -/

namespace Sys2Proof.Machine

/-! ## The chains stand (R22, R24) -/

theorem Store.ne_zero_of_lists {st : Store} {h b : Nat} {l : List Nat} (hl : st.lists h l) (hb : b ∈ l) : b ≠ 0 := by
  induction l generalizing h with
  | nil => cases hb
  | cons c l ih =>
    obtain ⟨-, hc, hl⟩ := hl
    rcases List.mem_cons.1 hb with rfl | hb
    · exact hc
    · exact ih hl hb

section

variable {st : Store} {z : ZoneId} {k : Nat}

/-- A bucket of a chain is none of the free list, of the intake, and of no number 0. -/
theorem Store.mem_chainOf (h : st.sound) (hk : k ∈ st.chainOf z) : k ≠ 0 ∧ k ≠ st.freeHead ∧ k ≠ st.intake := by
  obtain ⟨-, ⟨fl, ch, hp⟩, -⟩ := h
  rw [Store.chainOf_eq (PoolLaw.chain hp z)] at hk
  have h0 : k ≠ 0 := Store.ne_zero_of_lists (PoolLaw.chain hp z).1 hk
  refine ⟨h0, fun hf => ?_, fun hi => ?_⟩
  · cases fl with
    | nil => exact h0 (hf.trans (PoolLaw.head hp))
    | cons b fl =>
      obtain ⟨hb, -, -⟩ := PoolLaw.head hp
      have hq : ({ st with freeHead := st.nextOf b, freeCount := st.freeCount - 1 } : Store).pooledAs fl ch [b] :=
        PoolLaw.take hp rfl rfl rfl rfl rfl rfl
      obtain ⟨-, -, -, hch, -⟩ := PoolLaw.loose hq List.mem_cons_self
      exact hch z (by rw [← hb, ← hf]; exact hk)
  · have hq : ({ st with intake := 0 } : Store).pooledAs fl ch [st.intake] :=
      PoolLaw.unintake hp (hi ▸ h0) ⟨rfl, rfl, rfl⟩ rfl rfl rfl
    obtain ⟨-, -, -, hch, -⟩ := PoolLaw.loose hq List.mem_cons_self
    exact hch z (hi ▸ hk)

/-- A chain that does not hold the bucket whose entry alone was written stands. -/
theorem Store.chainOf_apart {st' : Store} {b v : Nat} (h : st.sound) (hb : b ∉ st.chainOf z)
    (hn : st'.next = (st.setNext b v).next) (hc : st'.chain = st.chain) : st'.chainOf z = st.chainOf z := by
  obtain ⟨-, ⟨fl, ch, hp⟩, -⟩ := h
  have hch := PoolLaw.chain hp z
  have hl := Store.chainOf_eq hch
  rw [hl] at hb ⊢
  exact Store.chainOf_of_setNext hn (by rw [hc]; exact hch.1) hb (by rw [hc]; exact hch.2.1)

/-- Writing a bucket leaves the chains. -/
theorem Store.chainOf_setBucket (st : Store) (b : Nat) (v : Bucket) (z : ZoneId) : (st.setBucket b v).chainOf z = st.chainOf z := by
  have hw (n h : Nat) : (st.setBucket b v).walk n h = st.walk n h := by
    induction n generalizing h with
    | zero => rfl
    | succ n ih => exact congrArg (h :: ·) (ih _)
  exact hw _ _

/-- Discarding the intake bucket leaves the chains. -/
theorem Store.chainOf_discard (h : st.sound) (z : ZoneId) : st.discard.chainOf z = st.chainOf z := by
  unfold Store.discard
  split
  · rfl
  · exact Store.chainOf_apart h (fun hk => (Store.mem_chainOf h hk).2.2 rfl) rfl rfl

/-- A discard writes no bucket, chain or anchor. -/
theorem Store.discard_fields (st : Store) :
    st.discard.chain = st.chain ∧ st.discard.anchor = st.anchor ∧ st.discard.mem = st.mem := by
  unfold Store.discard
  split <;> exact ⟨rfl, rfl, rfl⟩

theorem Store.bucket_discard (st : Store) (b : Nat) : st.discard.bucket b = st.bucket b :=
  congrArg (tableGet bucketDefault · b) st.discard_fields.2.2

end

/-- The position of an address in a chain is a matter of the chain and of its blocks' expected addresses. -/
theorem State.posOf_congr {s t : State} {z : ZoneId} (hl : t.bs.chainOf z = s.bs.chainOf z)
    (he : ∀ k ∈ s.bs.chainOf z, (t.info k).expected = (s.info k).expected) (a : Nat) : t.posOf z a = s.posOf z a := by
  unfold State.posOf
  rw [hl]
  generalize s.bs.chainOf z = l at he
  induction l with
  | nil => rfl
  | cons k l ih =>
    rw [List.findIdx?_cons, List.findIdx?_cons, he k List.mem_cons_self, ih fun j hj => he j (List.mem_cons_of_mem k hj)]

theorem State.bucketAt_congr {s t : State} {z : ZoneId} (hl : t.bs.chainOf z = s.bs.chainOf z) (p : Nat) :
    t.bucketAt z p = s.bucketAt z p := by rw [State.bucketAt, hl, State.bucketAt]

/-- The block at the position of an address stands in the chain, and has that address. -/
theorem State.posOf_spec {s : State} {z : ZoneId} {a q : Nat} (h : s.posOf z a = some q) :
    s.bucketAt z q ∈ s.bs.chainOf z ∧ (s.info (s.bucketAt z q)).expected = some a := by
  obtain ⟨hq, ha, -⟩ := List.findIdx?_eq_some_iff_getElem.1 h
  have hk : s.bucketAt z q = (s.bs.chainOf z)[q] := by rw [State.bucketAt, List.getD_eq_getElem?_getD, List.getElem?_eq_getElem hq]; rfl
  rw [hk]
  exact ⟨List.getElem_mem hq, of_decide_eq_true ha⟩

/-! ## A block taken into the intake bucket -/

/-- A bucket is free for the intake of a sound pool, and the intake holds none. -/
structure Store.Ready (st : Store) : Prop where
  sound : st.sound
  empty : st.intake = 0
  head  : st.freeHead ≠ 0
  count : st.freeCount ≠ 0

/-- From `s` to `t` the pool's chains and anchors stand, and so do the blocks in the chains. -/
structure ChainsStand (s t : State) : Prop where
  chain  : t.bs.chain = s.bs.chain
  anchor : t.bs.anchor = s.bs.anchor
  list   : ∀ z, t.bs.chainOf z = s.bs.chainOf z
  block  : ∀ z, ∀ k ∈ s.bs.chainOf z, t.bs.bucket k = s.bs.bucket k

namespace ChainsStand

variable {s t : State} {z : ZoneId}

theorem fill (h : ChainsStand s t) (z : ZoneId) : t.fill z = s.fill z := congrArg (fun p => (Pair.get p z).length) h.chain

theorem posOf (h : ChainsStand s t) (z : ZoneId) (a : Nat) : t.posOf z a = s.posOf z a :=
  State.posOf_congr (h.list z) (fun k hk => congrArg (·.info.expected) (h.block z k hk)) a

theorem bucketAt (h : ChainsStand s t) (z : ZoneId) (p : Nat) : t.bucketAt z p = s.bucketAt z p := State.bucketAt_congr (h.list z) p

/-- The block at the position of an address stands. -/
theorem bucket {a q : Nat} (h : ChainsStand s t) (hq : s.posOf z a = some q) :
    t.bs.bucket (s.bucketAt z q) = s.bs.bucket (s.bucketAt z q) := h.block z _ (State.posOf_spec hq).1

theorem headAddr (h : ChainsStand s t) (z : ZoneId) : t.headAddr z = s.headAddr z := by
  unfold State.headAddr
  rw [h.fill z, h.chain]
  by_cases h0 : s.fill z = 0
  · rw [if_pos h0, if_pos h0]
  · rw [if_neg h0, if_neg h0]
    have hmem : (s.bs.chain.get z).head ∈ s.bs.chainOf z := by
      obtain ⟨n, hn⟩ := Nat.exists_eq_succ_of_ne_zero h0
      have hl : (s.bs.chain.get z).length = n + 1 := hn
      rw [Store.chainOf, hl]
      exact List.mem_cons_self
    exact congrArg (·.info.expected) (h.block z _ hmem)

end ChainsStand

section

variable {s : State} (h : s.bs.Ready) (tag : Tag) (b : PortBlock)

include h

/-- With a block taken into the intake bucket the pool is sound. -/
theorem State.sound_taking : (s.taking tag b).bs.sound :=
  Store.sound_setBucket _ _ (Store.sound_allocate h.sound (Store.allocate_free h.empty h.head h.count))

/-- Taking a block leaves the chains. -/
theorem State.chains_taking : ChainsStand s (s.taking tag b) where
  chain := rfl
  anchor := rfl
  list := fun _ => Store.chainOf_apart h.sound (fun hk => (Store.mem_chainOf h.sound hk).2.1 rfl) rfl rfl
  block := fun _ _ hk => Store.bucket_setBucket_ne _ _ (Store.mem_chainOf h.sound hk).2.1

/-- Taking a block and discarding it leaves the chains. -/
theorem State.chains_discard_taking : ChainsStand s (s.taking tag b).discard where
  chain := (Store.discard_fields _).1
  anchor := (Store.discard_fields _).2.1
  list := fun z => (Store.chainOf_discard (State.sound_taking h tag b) z).trans ((State.chains_taking h tag b).list z)
  block := fun z k hk => (Store.bucket_discard _ k).trans ((State.chains_taking h tag b).block z k hk)

end

/-! ## The stamp and the copy that a block brings (R2, R3, R13, R77) -/

/-- The block has the GOOD stamp `a`, an address of a disc (R1, R2). -/
def goodAt (b : PortBlock) (a : Nat) : Prop := b.stamp = some a ∧ b.stampStatus = .good ∧ a ≤ 479999

/-- The samples and flags of a block, as a copy that is merged or compared. -/
def copyOf (b : PortBlock) : Bucket := ⟨Bucket.blank.info, portSamples b, portFlags b⟩

section

variable {s : State} {tag : Tag} {b : PortBlock} {a : Nat}

theorem State.stamp_taking (h : goodAt b a) : ((s.taking tag b).info (s.taking tag b).bs.intake).stampStatus = .good ∧
    ((s.taking tag b).info (s.taking tag b).bs.intake).stamp = some a := by
  obtain ⟨hs, hg, ha⟩ := h
  rw [State.info_taking]
  simp [measured, hs, hg, correctStamp_good ha]

theorem State.stamp_taking_none (h : ∀ a, ¬ goodAt b a) :
    ((s.taking tag b).info (s.taking tag b).bs.intake).stampStatus ≠ .good ∧
    ((s.taking tag b).info (s.taking tag b).bs.intake).stamp = none := by
  have hc : (correctStamp b.stamp b.stampStatus).1 = none ∧ (correctStamp b.stamp b.stampStatus).2 ≠ .good := by
    refine correctStamp_unstamped ?_
    by_cases hg : b.stampStatus = .good
    · cases hs : b.stamp with
      | none => exact .inr (.inl rfl)
      | some a => exact .inr (.inr ⟨a, rfl, Nat.lt_of_not_le fun ha => h a ⟨hs, hg, ha⟩⟩)
    · exact .inl hg
  rw [State.info_taking]
  exact ⟨hc.2, hc.1⟩

theorem not_goodAt (h : b.stampStatus ≠ .good) (a : Nat) : ¬ goodAt b a := fun ⟨_, hg, _⟩ => h hg

end

theorem Intake.preceding_eq_some {i : Intake} {n : Nat} : i.preceding = some n ↔ i.nonGood = 0 ∧ i.lastGood = some n := by
  unfold Intake.preceding
  split <;> simp_all

section

variable {x v : Nat} {status : StampStatus} {stamp prev : Option Nat}

/-- A GOOD stamp that is the target is taken. -/
theorem stampLocate_target : stampLocate x .good (some x) prev = .taken := if_pos ⟨rfl, rfl⟩

/-- A block behind the GOOD stamp before the target is taken. -/
theorem stampLocate_led (hx : x ≠ 0) (hp : prev = some (x - 1)) : stampLocate x status stamp prev = .taken := by
  unfold stampLocate
  split
  · rfl
  · exact if_pos ⟨Nat.pos_of_ne_zero hx, hp⟩

/-- Another GOOD stamp is past the target or before it. -/
theorem stampLocate_stamped (hv : v ≠ x) (hp : ¬ (x ≠ 0 ∧ prev = some (x - 1))) :
    stampLocate x .good (some v) prev = if x < v then .overshoot else .notTaken := by
  have h1 : ¬ (StampStatus.good = .good ∧ some v = some x) := fun ⟨_, h⟩ => hv (Option.some.inj h)
  have h2 : ¬ (0 < x ∧ prev = some (x - 1)) := fun ⟨h0, h⟩ => hp ⟨Nat.pos_iff_ne_zero.1 h0, h⟩
  exact (if_neg h1).trans (if_neg h2)

end

/-! ## What the command leaves (R7, R13, R57) -/

/-- The drive reads under the LIVE claim `c` with the LIVE tag `tag`. -/
structure ReadsFor (s : State) (tag : Tag) (c : Claim) : Prop extends ReadingUnder s c where
  tagged  : s.bi.tag = some tag
  tagLive : tag.standing = .live

namespace ReadsFor

variable {s r : State} {tag : Tag} {c : Claim} {b : PortBlock}

/-- A block presented is taken into the intake bucket and routed; then its stamp is counted and the block timer seen to. -/
theorem present_eq (h : ReadsFor s tag c) (hp : s.bs.Ready) (hr : (s.taking tag b).route tag = r) : ∃ status stamp,
    s.present b = (r.modBi fun i => i.count status stamp).runBlockTimer := by
  have hread : s.readComplete = s := State.readComplete_other fun o ho => by simp [h.out] at ho
  have hacc : s.acceptTag = some tag := by simp [State.acceptTag, h.tagged, h.reading, h.tagLive]
  refine ⟨(correctStamp b.stamp b.stampStatus).2, (correctStamp b.stamp b.stampStatus).1, ?_⟩
  simp only [State.present, hread, hacc, State.acceptBlock, Store.allocate_free hp.empty hp.head hp.count, ← hr]
  rfl

/-- What the routing of a block has left is what its command leaves, but for the drive and the intake. -/
theorem present_frame (h : ReadsFor s tag c) (hp : s.bs.Ready) (hr : (s.taking tag b).route tag = r) :
    ∃ da bi, s.present b = { r with da := da, bi := bi } ∧ bi.tag = r.bi.tag := by
  obtain ⟨status, stamp, he⟩ := h.present_eq hp hr
  rw [he]
  unfold State.runBlockTimer
  split
  · exact ⟨_, _, rfl, Intake.count_tag _ _ _⟩
  · exact ⟨_, _, rfl, Intake.count_tag _ _ _⟩

/-- Reading goes on: the block timer runs for 1 s from the block. -/
theorem present_goesOn (h : ReadsFor s tag c) (hp : s.bs.Ready) (hr : (s.taking tag b).route tag = r) (hd : r.da = s.da)
    (hb : r.bi = s.bi) : ∃ bi, s.present b = { r with da := { s.da with blockTimer := .running 1000000000 }, bi := bi } ∧
      bi.tag = s.bi.tag := by
  obtain ⟨status, stamp, he⟩ := h.present_eq hp hr
  have hl : (r.modBi fun i => i.count status stamp).tagLive = true := by
    rw [State.tagLive_count, State.tagLive, hb, h.tagged]
    exact decide_eq_true h.tagLive
  have hread : (r.modBi fun i => i.count status stamp).da.state = .reading := by rw [State.modBi_da, hd, h.reading]
  have hout : (r.modBi fun i => i.count status stamp).da.out = none := by rw [State.modBi_da, hd, h.out]
  rw [he, State.runBlockTimer_running hread hout hl]
  refine ⟨r.bi.count status stamp, ?_, (Intake.count_tag _ _ _).trans (congrArg Intake.tag hb)⟩
  rw [← hd]
  rfl

/-- The claim is over: PAUSE is sent, and the tag is not LIVE. -/
theorem present_over (h : ReadsFor s tag c) (hp : s.bs.Ready) (hr : (s.taking tag b).route tag = r)
    (hd : r.da = (s.readingOver .ended).da) (hl : r.tagLive = false) :
    ∃ bi, s.present b = { r with da := (s.readingOver .ended).da, bi := bi } ∧ (s.present b).tagLive = false := by
  obtain ⟨status, stamp, he⟩ := h.present_eq hp hr
  have hstop : (r.modBi fun i => i.count status stamp).da.state = .stopping := by rw [State.modBi_da, hd]; rfl
  rw [he, State.runBlockTimer_stopping hstop]
  refine ⟨r.bi.count status stamp, ?_, (State.tagLive_count _ _ _).trans hl⟩
  rw [← hd]
  rfl

/-- However the block is routed, it has left the intake (R14). -/
theorem stowed_present (h : ReadsFor s tag c) (hp : s.bs.Ready) : (s.present b).bs.intake = 0 := by
  obtain ⟨da, bi, he, -⟩ := h.present_frame hp (b := b) rfl
  rw [he]
  exact Stowed.route _ tag

end ReadsFor

end Sys2Proof.Machine
end

section
/-! PROOF. What a link-up makes of a block (chapters 1 and 5): an attempt that fails, a join that completes, a commit, a copy that is
merged, and a search that finds or misses its start. -/

namespace Sys2Proof.Machine

/-- The drive reads under the LIVE link-up or refill `c` of zone `z`. -/
structure LinkReading (s : State) (z : ZoneId) (c : Claim) : Prop extends ReadingUnder s c where
  kind : c.kind = .linkUp ∨ c.kind = .refill
  zone : c.zone = some z

namespace LinkReading

variable {s t : State} {z : ZoneId} {c : Claim}

theorem congr (h : LinkReading s z c) (hd : t.da = s.da) : LinkReading t z c := ⟨h.toReadingUnder.congr hd, h.kind, h.zone⟩

theorem closeZoneClaim (h : LinkReading s z c) : s.closeZoneClaim z .ended = s.readingOver .ended := by
  have ho : s.ownsClaim z = true := by simp [State.ownsClaim, h.liveClaim, h.zone]
  rw [State.closeZoneClaim, if_pos ho, h.closeClaim_linkUp h.kind]

theorem claimOn_reread (h : LinkReading s z c) (w : ZoneId) (a : Nat) : s.claimOn .reread w a = false := by
  rcases h.kind with hk | hk <;> simp [State.claimOn, h.liveClaim, hk]

theorem notRereading (h : LinkReading s z c) (w : ZoneId) : s.notRereading w := fun x hx ⟨hk, _⟩ => by
  obtain rfl : c = x := Option.some.inj (h.liveClaim.symm.trans hx)
  rcases h.kind with h | h <;> rw [h] at hk <;> cases hk

end LinkReading

/-! ## An attempt that fails (R83) -/

/-- The context of an attempt that has failed once more (R83). -/
def LinkCtx.failedOnce (x : LinkCtx) : LinkCtx :=
  { x.wait with failed := min 7 (x.failed + 1), backoff := min 64 (2 * x.backoff) }

/-- A failed attempt of zone `z` with context `x` has left the zones `zc` and the contexts `ctx`. -/
structure FailedTo (s : State) (z : ZoneId) (x : LinkCtx) (zc : Pair Zone) (ctx : Pair (Option LinkCtx)) : Prop where
  nextRead : (zc.get z).nextRead = (s.zone z).nextRead
  again    : x.failedOnce.failed < s.params.luAttempts → (zc.get z).supply = .rejoining ∧ ctx.get z = some x.failedOnce
  limit    : s.params.luAttempts ≤ x.failedOnce.failed → (zc.get z).supply = .resync ∧ ctx.get z = none

theorem LinkReading.attemptFailed_spec {s : State} {z : ZoneId} {c : Claim} {x : LinkCtx} (h : LinkReading s z c)
    (hx : s.ctx z = some x) (hs : (s.zone z).supply = .feeding ∨ (s.zone z).supply = .rejoining) :
    ∃ zc ctx oc cl n, s.attemptFailed z =
      { s.readingOver .ended with zc := zc, lu := { s.lu with ctx := ctx }, oc := oc, cl := cl, free := n } ∧
      FailedTo s z x zc ctx := by
  have hcase : s.attemptFailed z =
      let u := (s.readingOver .ended).setCtx z (some x.failedOnce)
      if s.params.luAttempts ≤ x.failedOnce.failed then u.setSupply z .resync .attemptsExhausted
      else if (s.zone z).supply = .feeding then u.setSupply z .rejoining .entryFailed else u := by
    have hctx : (s.readingOver .ended).ctx z = some x := hx
    simp only [State.attemptFailed, h.closeZoneClaim, hctx]
    rfl
  dsimp only at hcase
  by_cases hl : s.params.luAttempts ≤ x.failedOnce.failed
  · have hne : (s.zone z).supply ≠ .resync := by rcases hs with hs | hs <;> rw [hs] <;> decide
    obtain ⟨p, oc, cl, n, he⟩ := State.setSupply_drops (s := (s.readingOver .ended).setCtx z (some x.failedOnce))
      (v := .resync) .attemptsExhausted rfl hne
    rw [hcase, if_pos hl, he]
    have hz := Pair.get_mod_self s.zc z fun r => { r with supply := .resync, play := p }
    exact ⟨_, _, oc, cl, n, rfl, (congrArg Zone.nextRead hz :), fun hlt => absurd hl (Nat.not_le.2 hlt),
      fun _ => ⟨congrArg Zone.supply hz, Pair.get_set_self _ z _⟩⟩
  · rw [if_neg hl] at hcase
    by_cases hf : (s.zone z).supply = .feeding
    · have hne : (s.zone z).supply ≠ .rejoining := by rw [hf]; decide
      obtain ⟨p, oc, cl, n, he⟩ := State.setSupply_keeps (s := (s.readingOver .ended).setCtx z (some x.failedOnce))
        .entryFailed rfl (.inl (by decide)) hne
      rw [hcase, if_pos hf, he]
      have hz := Pair.get_mod_self s.zc z fun r => { r with supply := .rejoining, play := p }
      exact ⟨_, _, oc, cl, n, rfl, (congrArg Zone.nextRead hz :),
        fun _ => ⟨congrArg Zone.supply hz, Pair.get_set_self _ z _⟩, fun hle => absurd hle hl⟩
    · rw [hcase, if_neg hf]
      exact ⟨_, _, s.oc, s.cl, s.free, rfl, rfl, fun _ => ⟨hs.resolve_left hf, Pair.get_set_self _ z _⟩, fun hle => absurd hle hl⟩

/-! ## A join that completes, and a commit (R17, R27, R88, R89) -/

/-- The phase of the tag is APPENDING, and zone `z` has no context (R88). -/
def State.joined (s : State) (z : ZoneId) : State :=
  (s.modBi fun b => { b with tag := b.tag.map fun t => { t with phase := some .appending } }).setCtx z none

theorem State.supplyTo_self {s : State} {z : ZoneId} {v : Supply} (h : (s.zone z).supply = v) :
    s.supplyTo z v (s.zone z).play s.oc s.cl s.free = s := by
  subst h
  cases z <;> rfl

/-- A zone that is FEEDING or REJOINING is FEEDING when its join is complete. -/
theorem State.completeJoin_spec {s : State} {z : ZoneId} (h : (s.zone z).supply = .feeding ∨ (s.zone z).supply = .rejoining) :
    ∃ p oc cl n, s.completeJoin z = (s.joined z).supplyTo z .feeding p oc cl n := by
  rcases h with h | h
  · have hj : s.completeJoin z = s.joined z := if_neg (by show ¬ (s.zone z).supply = _; rw [h]; decide)
    exact ⟨_, _, _, _, hj.trans (State.supplyTo_self (s := s.joined z) h).symm⟩
  · have hj : s.completeJoin z = (s.joined z).setSupply z .feeding .linked := if_pos h
    obtain ⟨p, oc, cl, n, he⟩ := State.setSupply_keeps (s := s.joined z) (v := .feeding) .linked rfl (.inl (by decide))
      (by show ¬ (s.zone z).supply = _; rw [h]; decide)
    exact ⟨p, oc, cl, n, hj.trans he⟩

/-- A commit appends the block, makes its reports, counts for the claim and tests the zone's readiness. -/
theorem State.commit_reported {s : State} {z : ZoneId} (e : Nat) (hc : ∀ a, s.claimOn .reread z a = false)
    (hf : s.fill z < s.quota z) :
    ∃ r, Reported (s.appended z e) r ∧ s.commit z e = ((r.countCommit z).burstTest z).testReady z := by
  let s2 := if decide (s.fill z = 0) = true then (s.appended z e).newHead z else s.appended z e
  have h2 : Reported (s.appended z e) s2 := by
    unfold s2
    split
    · exact (Reported.refl _).newHead hc
    · exact Reported.refl _
  exact ⟨(s2.listBlock z (s2.fill z - 1)).countAppend z e, h2.listBlock.countAppend, if_neg (Nat.not_le.2 hf)⟩

/-- Counting a commit and testing the burst's ends change the drive and the intake only, and the tag's standing at most. -/
theorem LinkReading.burstTest_spec {s : State} {z : ZoneId} {c : Claim} (h : LinkReading s z c) :
    ∃ da bi, (s.countCommit z).burstTest z = { s with da := da, bi := bi } ∧ (bi = s.bi ∨ bi = s.bi.close .ended) := by
  have hcount : s.countCommit z = s.modDa fun d => { d with claim := some c.counted } := by
    simp only [State.countCommit, h.liveClaim]
    exact if_pos ⟨h.zone, h.kind⟩
  have hr : LinkReading (s.countCommit z) z c.counted := by
    rw [hcount]
    exact { h with claim := rfl }
  have htest : (s.countCommit z).burstTest z = if c.counted.swap = false ∧ s.params.burstLimit ≤ c.counted.commits ∨
      (s.countCommit z).room z = 0 then (s.countCommit z).readingOver .ended else s.countCommit z := by
    rw [State.burstTest, hr.liveClaim, hr.closeZoneClaim, hcount]
    rfl
  rw [htest, hcount]
  split
  · exact ⟨_, _, rfl, .inr rfl⟩
  · exact ⟨_, _, rfl, .inl rfl⟩

/-- What a commit of the intake bucket `i` at address `e` leaves of zone `z` (R17, R27, R35). -/
structure Committed (s : State) (z : ZoneId) (e : Nat) (t : State) : Prop where
  length : (t.bs.chain.get z).length = s.fill z + 1
  tail   : (t.bs.chain.get z).tail = s.bs.intake
  anchor : t.bs.anchor.get z = 0
  block  : ∃ l, t.bs.bucket s.bs.intake = { (s.bs.bucket s.bs.intake).committed e with
    info := { ((s.bs.bucket s.bs.intake).committed e).info with listed := l } }
  zone   : ∃ n p, t.zone z = { s.zone z with nextRead := some (e + 1), resume := none, track := n, play := p }
  intake : t.bi = s.bi ∨ t.bi = s.bi.close .ended

theorem LinkReading.commit_spec {s : State} {z : ZoneId} {c : Claim} (e : Nat) (h : LinkReading s z c) (hs : s.bs.sound)
    (hi : s.bs.intake ≠ 0) (hf : s.fill z < s.quota z) :
    Committed s z e (s.commit z e) := by
  obtain ⟨r, hr, hcommit⟩ := State.commit_reported e (fun a => h.claimOn_reread z a) hf
  have hlr : LinkReading r z c := h.congr hr.da
  obtain ⟨da, bi, hb, hbi⟩ := hlr.burstTest_spec
  obtain ⟨p, oc, cl, ht⟩ : ∃ p oc cl, State.testReady { r with da := da, bi := bi } z =
      State.playTo { r with da := da, bi := bi } z p oc cl r.free := ⟨_, State.testReady_spec _ z⟩
  obtain ⟨hlen, htail, -, hanchor, -, hblock⟩ := Store.append_spec z e hs.1 hi
  obtain ⟨l, hl⟩ := (hr.block (Store.sound_append z e hs).1).2 s.bs.intake
  obtain ⟨n, hn⟩ := hr.zone z
  rw [hb, ht] at hcommit
  rw [hcommit]
  have hrb : r.bi = s.bi := hr.bi
  refine ⟨?_, ?_, ?_, ⟨l, hl.trans ?_⟩, ⟨n, p, (State.zone_playTo _ z p oc cl _).trans ?_⟩, hrb ▸ hbi⟩
  · exact (congrArg (fun p => (Pair.get p z).length) hr.chain).trans hlen
  · exact (congrArg (fun p => (Pair.get p z).tail) hr.chain).trans htail
  · exact (congrArg (Pair.get · z) hr.anchor).trans hanchor
  · have hb : (s.appended z e).bs.bucket s.bs.intake = (s.bs.bucket s.bs.intake).committed e := hblock
    rw [hb]
  · have hz : (s.appended z e).zone z = { s.zone z with nextRead := some (e + 1), resume := none } :=
      State.zone_modZone _ z _
    have hrz : State.zone { r with da := da, bi := bi } z = r.zone z := rfl
    rw [hrz, hn, hz]

/-! ## A copy merged into a chain block (R28, R84, R86, R107) -/

/-- The samples and flags of a merge are a matter of the two blocks' samples and flags. -/
theorem mergeBlock_congr {x y w : Bucket} (hs : y.samples = w.samples) (hf : y.flags = w.flags) : mergeBlock x y = mergeBlock x w := by
  simp only [mergeBlock, hs, hf]

/-- A merge leaves what is no measure of the samples. -/
theorem mergeBlock_info (x y : Bucket) : ∃ n f d, (mergeBlock x y).info =
    { x.info with erasures := n, featureless := f, decoder := d } := by
  unfold mergeBlock
  split
  · exact ⟨_, _, _, rfl⟩
  · exact ⟨_, _, _, rfl⟩

theorem dataCompare_congr {x y w : Bucket} (hs : y.samples = w.samples) (hf : y.flags = w.flags) :
    dataCompare x y = dataCompare x w := by
  simp only [dataCompare, hs, hf]

theorem Store.bucket_modInfo {st : Store} (hw : st.wf = true) (b : Nat) (f : BlockRec → BlockRec) :
    (st.modInfo b f).bucket b = { st.bucket b with info := f (st.bucket b).info } := by
  rw [Store.modInfo, Store.bucket_setBucket hw, if_pos rfl]

/-- A block merged and its copy discarded: the chains stand, and the block is the merged one. -/
theorem State.mergeInto_spec {s : State} (h : s.bs.sound) (k : Nat) : (s.mergeInto k).bs.sound ∧
    (∀ z, (s.mergeInto k).bs.chainOf z = s.bs.chainOf z) ∧ (s.mergeInto k).bs.chain = s.bs.chain ∧
    (s.mergeInto k).bs.anchor = s.bs.anchor ∧
    (s.mergeInto k).bs.bucket k = mergeBlock (s.bs.bucket k) (s.bs.bucket s.bs.intake) ∧
    ∀ j, j ≠ k → (s.mergeInto k).bs.bucket j = s.bs.bucket j := by
  let m := s.bs.setBucket k (mergeBlock (s.bs.bucket k) (s.bs.bucket s.bs.intake))
  have hm : m.sound := Store.sound_setBucket _ _ h
  have he : (s.mergeInto k).bs = m.discard := rfl
  obtain ⟨hch, han, -⟩ := m.discard_fields
  rw [he]
  refine ⟨Store.sound_discard hm, fun z => (Store.chainOf_discard hm z).trans (s.bs.chainOf_setBucket k _ z), hch, han, ?_, fun j hj => ?_⟩
  · rw [Store.bucket_discard, Store.bucket_setBucket h.1, if_pos rfl]
  · rw [Store.bucket_discard, Store.bucket_setBucket_ne _ _ hj]

/-- RU classes a block again while no RE-READ claim is current. -/
theorem Reported.reclass {s t : State} {z : ZoneId} {p : Nat} (h : Reported s t) (hc : ∀ a, s.claimOn .reread z a = false) :
    Reported s (t.reclass z p) := by
  simp only [State.reclass]
  split
  · split
    · exact h
    · exact h.dropEntry (hc _)
  · exact h.listBlock

theorem State.zc_reclass (s : State) (z : ZoneId) (p : Nat) : (s.reclass z p).zc = s.zc := by
  simp only [State.reclass]
  split
  · split
    · rfl
    · exact (Behind.refl s).dropEntry.zc
  · simp only [State.listBlock]
    split <;> rfl

/-- A copy merged into the block of zone `z` in bucket `k`, which was at address `e`, has left the state `t` (R28, R86, R107). -/
structure CopyMerged (s : State) (k e : Nat) (t : State) : Prop where
  da     : t.da = s.da
  bi     : t.bi = s.bi
  zc     : t.zc = s.zc
  params : t.params = s.params
  chain  : t.bs.chain = s.bs.chain
  anchor : t.bs.anchor = s.bs.anchor
  block  : ∃ l, t.bs.bucket k = { mergeBlock (s.bs.bucket k) (s.bs.bucket s.bs.intake) with
    info := { (mergeBlock (s.bs.bucket k) (s.bs.bucket s.bs.intake)).info with
      listed := l
      confirmed := decide ((s.info s.bs.intake).stampStatus = .good ∧ (s.info s.bs.intake).stamp = some e) ||
        (s.info k).confirmed } }

/-- A verify-merge of the block at position 1 or more. -/
theorem LinkReading.verifyMergeAt_spec {s : State} {z : ZoneId} {c : Claim} {e p : Nat} (h : LinkReading s z c) (hs : s.bs.sound)
    (hp : s.posOf z e = some (p + 1)) : CopyMerged s (s.bucketAt z (p + 1)) e (s.verifyMergeAt z e) := by
  let k := s.bucketAt z (p + 1)
  let m := mergeBlock (s.bs.bucket k) (s.bs.bucket s.bs.intake)
  obtain ⟨hsound, -, hch, han, hblock, -⟩ := State.mergeInto_spec hs k
  let f : BlockRec → BlockRec := fun x => { x with
    confirmed := decide ((s.info s.bs.intake).stampStatus = .good ∧ (s.info s.bs.intake).stamp = some e) || x.confirmed }
  have hsame (w : BlockRec) (hw : ¬ ((s.info s.bs.intake).stampStatus = .good ∧ (s.info s.bs.intake).stamp = some e)) : f w = w := by
    simp [f, hw]
  let u := if (s.info s.bs.intake).stampStatus = .good ∧ (s.info s.bs.intake).stamp = some e then
    (s.mergeInto k).modBs fun st => st.modInfo k fun x => { x with confirmed := true } else s.mergeInto k
  have he : s.verifyMergeAt z e = u.reclass z (p + 1) := by simp only [State.verifyMergeAt, hp, State.verifyMerge, u, k]
  obtain ⟨hda, hbi, hzc, hpar, huch, huan, hwf, hub⟩ : u.da = s.da ∧ u.bi = s.bi ∧ u.zc = s.zc ∧ u.params = s.params ∧
      u.bs.chain = s.bs.chain ∧ u.bs.anchor = s.bs.anchor ∧ u.bs.wf = true ∧ u.bs.bucket k = { m with info := f m.info } := by
    unfold u
    split
    · next hg =>
      refine ⟨rfl, rfl, rfl, rfl, hch, han, (Store.sound_modInfo k _ hsound).1, ?_⟩
      refine (Store.bucket_modInfo hsound.1 k _).trans ?_
      rw [hblock]
      simp [f, hg, m]
    · next hg => exact ⟨rfl, rfl, rfl, rfl, hch, han, hsound.1, by rw [hblock, hsame _ hg]⟩
  have hr : Reported u (u.reclass z (p + 1)) := (Reported.refl u).reclass fun a => (h.congr hda).claimOn_reread z a
  obtain ⟨l, hl⟩ := (hr.block hwf).2 k
  obtain ⟨n, g, d, hi⟩ := mergeBlock_info (s.bs.bucket k) (s.bs.bucket s.bs.intake)
  have hconf : m.info.confirmed = (s.info k).confirmed := (congrArg BlockRec.confirmed hi :)
  rw [he]
  refine ⟨hr.da.trans hda, hr.bi.trans hbi, (State.zc_reclass u z _).trans hzc, hr.params.trans hpar, hr.chain.trans huch,
    hr.anchor.trans huan, l, ?_⟩
  rw [hl, hub, ← hconf]

end Sys2Proof.Machine
end

section
/-! PROOF. A block in JOINING, branch by branch (chapter 5): the search for a start or an anchor, the verification, the cut that a block
which does not agree brings, and the block that completes the link-up. -/

namespace Sys2Proof.Machine

/-! ## Cuts (R30) -/

section

variable {s : State} {z : ZoneId}

theorem State.cutPos_behind {e h : Nat} (hh : s.headAddr z = some h) (he : h < e) (hf : e - h < s.fill z) :
    s.cutPos z e = some (e - h) := by
  simp only [State.cutPos, hh, if_neg (Nat.not_le.2 he)]
  exact if_neg (by omega)

theorem State.cutPos_head {e : Nat} (hh : s.headAddr z = some e) (hf : 2 ≤ s.fill z) : s.cutPos z e = some 1 := by
  simp only [State.cutPos, hh, if_pos (Nat.le_refl e)]
  exact if_neg (by omega)

/-- A cut leaves the blocks before its position, and the intake bucket and the block memory as they were. -/
theorem Store.cut_fields {st : Store} {p : Nat} (h0 : p ≠ 0) (hp : p < (st.chain.get z).length) :
    ((st.cut z p).chain.get z).length = p ∧ (st.cut z p).intake = st.intake ∧ (st.cut z p).mem = st.mem := by
  obtain ⟨-, -, hi, hm⟩ := st.releaseAll_fields ((st.chainOf z).drop p)
  have hc : st.cut z p = { ((st.releaseAll ((st.chainOf z).drop p)).setNext ((st.chainOf z).getD (p - 1) 0) 0) with
      chain := (st.releaseAll ((st.chainOf z).drop p)).chain.set z ⟨(st.chain.get z).head, (st.chainOf z).getD (p - 1) 0, p⟩ } :=
    if_neg (by omega)
  rw [hc]
  exact ⟨congrArg Chain.length (Pair.get_set_self _ z _), hi, hm⟩

/-- An audit target at or above the first address that a cut releases is dropped (R102). -/
def Audit.cutFrom (first : Nat) (u : Audit) : Audit :=
  match u.target with
  | some t => if first ≤ t then { u with target := none } else u
  | none => u

/-- A cut of zone `z` from position `p`, whose block is at address `first`, while no re-read of the zone is under way. -/
theorem State.cutZone_spec {e p first : Nat} (own : Bool) (hp : s.cutPos z e = some p) (hf : (s.headAddr z).getD 0 + p = first)
    (hn : s.notRereading z) : ∃ ru aud oc, s.cutZone z e own = { s with
      bs := s.bs.cut z p, zc := s.zc.mod z fun r => { r with nextRead := some first }, ru := ru
      lu := { s.lu with audit := aud, ctx := if own = true then s.lu.ctx else s.lu.ctx.set z none }, oc := oc } ∧
      ∃ t, aud.get z = { s.lu.audit.get z with target := t } := by
  have hd : State.dropEntriesFrom ((s.modBs fun st => st.cut z p).modZone z fun r => { r with nextRead := some first }) z first =
      State.modList ((s.modBs fun st => st.cut z p).modZone z fun r => { r with nextRead := some first }) z fun l =>
        l.filter fun x => decide (x.addr < first) := State.dropEntriesFrom_quiet first hn
  have hf1 (u : Audit) : ∃ t, u.cutFrom first = { u with target := t } := by
    unfold Audit.cutFrom
    split
    · split
      · exact ⟨none, rfl⟩
      · exact ⟨u.target, rfl⟩
    · exact ⟨u.target, rfl⟩
  obtain ⟨t, ht⟩ := hf1 (s.lu.audit.get z)
  obtain ⟨ru, oc, hc⟩ : ∃ ru oc, s.cutZone z e own = { s with
      bs := s.bs.cut z p, zc := s.zc.mod z fun r => { r with nextRead := some first }, ru := ru
      lu := { s.lu with
        audit := s.lu.audit.mod z (Audit.cutFrom first), ctx := if own = true then s.lu.ctx else s.lu.ctx.set z none }
      oc := oc } := by
    simp only [State.cutZone, hp, hf, hd]
    cases own
    · by_cases h1 : p = 1
      · exact ⟨_, _, if_pos h1⟩
      · exact ⟨_, _, if_neg h1⟩
    · by_cases h1 : p = 1
      · exact ⟨_, _, if_pos h1⟩
      · exact ⟨_, _, if_neg h1⟩
  exact ⟨ru, _, oc, hc, t, (Pair.get_mod_self _ z _).trans ht⟩

end

/-! ## The search (R77, R78, R82, R84) -/

/-- The search of zone `z` with context `c` makes `f` of the block in the intake bucket. -/
def State.finds (s : State) (z : ZoneId) (c : LinkCtx) (prev : Option Nat) (f : Found) : Prop :=
  (c.mode = .locate ∧ stampLocate (s.resumeAddr z) (s.info s.bs.intake).stampStatus (s.info s.bs.intake).stamp
    (startPreceding (s.resumeAddr z) (s.info s.bs.intake).stampStatus (s.info s.bs.intake).stamp prev) = f) ∨
  (c.mode = .anchor ∧ s.anchorBucket z c.anchor ≠ 0 ∧
    anchorMatch (s.bs.bucket (s.anchorBucket z c.anchor)) (s.bs.bucket s.bs.intake) = f)

/-- The context of an attempt that has searched one block more (R82). -/
def LinkCtx.searched (c : LinkCtx) : LinkCtx := { c with windowLeft := c.windowLeft - 1 }

section

variable {s : State} {z : ZoneId} {c : LinkCtx} {prev : Option Nat}

theorem State.searchBlock_overshoot (h : s.finds z c prev .overshoot) :
    s.searchBlock z c prev = (s.setCtx z (some c.searched)).discard.attemptFailed z := by
  rcases h with ⟨hm, hf⟩ | ⟨hm, ha, hf⟩
  · simp only [State.searchBlock, LinkCtx.searched, hm, hf]
  · simp only [State.searchBlock, LinkCtx.searched, hm, if_neg ha, hf]

theorem State.searchBlock_notTaken (h : s.finds z c prev .notTaken) : s.searchBlock z c prev =
    if c.searched.windowLeft = 0 then (s.setCtx z (some c.searched)).discard.attemptFailed z
    else (s.setCtx z (some c.searched)).discard := by
  rcases h with ⟨hm, hf⟩ | ⟨hm, ha, hf⟩
  · simp only [State.searchBlock, LinkCtx.searched, hm, hf]
  · simp only [State.searchBlock, LinkCtx.searched, hm, if_neg ha, hf]

theorem State.searchBlock_start (hm : c.mode = .locate) (h : s.finds z c prev .taken) :
    s.searchBlock z c prev = ((s.setCtx z (some c.searched)).commit z (s.nextAddr z)).completeJoin z := by
  rcases h with ⟨-, hf⟩ | ⟨ha, -⟩
  · simp only [State.searchBlock, LinkCtx.searched, hm, hf]
  · rw [hm] at ha
    cases ha

theorem State.searchBlock_anchor (hm : c.mode = .anchor) (h : s.finds z c prev .taken) :
    s.searchBlock z c prev = (s.setCtx z (some c.searched)).anchorMatched z c.searched := by
  rcases h with ⟨hl, -⟩ | ⟨-, ha, hf⟩
  · rw [hm] at hl
    cases hl
  · simp only [State.searchBlock, LinkCtx.searched, hm, if_neg ha, hf]

end

/-! ## The verification (R85, R86, R87) -/

section

variable {s : State} {z : ZoneId} {c : LinkCtx} {v : Nat}

/-- The context of an attempt that goes on behind the verify address `v` (R85). -/
def LinkCtx.verified (c : LinkCtx) (v : Nat) : LinkCtx := { c with verify := some (v + 1) }

theorem State.verifyBlock_complete (hv : c.verify = some v) (he : s.nextAddr z ≤ v) : s.verifyBlock z c = s.completeBlock z := by
  simp only [State.verifyBlock, hv]
  exact if_pos he

variable (hv : c.verify = some v) (he : v < s.nextAddr z)

include hv he

theorem State.verifyBlock_heard (hh : s.heardUpTo z v = true) :
    s.verifyBlock z c = s.discard.setCtx z (some (c.verified v)) := by
  simp only [State.verifyBlock, hv]
  exact (if_neg (Nat.not_le.2 he)).trans (if_pos hh)

variable (hh : s.heardUpTo z v = false)

include hh

theorem State.verifyBlock_stamped (hg : (s.info s.bs.intake).stampStatus = .good) (hs : (s.info s.bs.intake).stamp = some v) :
    s.verifyBlock z c = (s.verifyMergeAt z v).setCtx z (some (c.verified v)) := by
  simp only [State.verifyBlock, hv]
  exact (if_neg (Nat.not_le.2 he)).trans ((if_neg (by simp [hh])).trans (if_pos ⟨hg, hs⟩))

theorem State.verifyBlock_slips (hg : (s.info s.bs.intake).stampStatus = .good) (hs : (s.info s.bs.intake).stamp ≠ some v) :
    s.verifyBlock z c = (s.discard.markDefect z .skipProne v).attemptFailed z := by
  simp only [State.verifyBlock, hv]
  exact (if_neg (Nat.not_le.2 he)).trans ((if_neg (by simp [hh])).trans ((if_neg (hs ·.2)).trans (if_pos hg)))

variable (hg : (s.info s.bs.intake).stampStatus ≠ .good)

include hg

theorem State.verifyBlock_agrees
    (ha : agrees (dataCompare (s.bs.bucket (s.anchorBucket z (.chain v))) (s.bs.bucket s.bs.intake)) = true) :
    s.verifyBlock z c = (s.verifyMergeAt z v).setCtx z (some (c.verified v)) := by
  simp only [State.verifyBlock, hv]
  exact (if_neg (Nat.not_le.2 he)).trans ((if_neg (by simp [hh])).trans ((if_neg (hg ·.1)).trans ((if_neg hg).trans (if_pos ha))))

theorem State.verifyBlock_cuts
    (ha : agrees (dataCompare (s.bs.bucket (s.anchorBucket z (.chain v))) (s.bs.bucket s.bs.intake)) = false)
    (hn : (s.cutZone z v true).nextAddr z = v) : s.verifyBlock z c = (s.cutZone z v true).completeBlock z := by
  simp only [State.verifyBlock, hv]
  exact (if_neg (Nat.not_le.2 he)).trans ((if_neg (by simp [hh])).trans ((if_neg (hg ·.1)).trans ((if_neg hg).trans
    ((if_neg (by simp [ha])).trans (if_pos hn)))))

end

/-! ## The block that completes a link-up (R15, R88) -/

section

variable {s : State} {z : ZoneId} {e : Nat}

theorem State.completeBlock_beyond (hn : s.nextAddr z = e) (hp : s.programEnd z < e) :
    s.completeBlock z = (s.discard.completeJoin z).beyondEnd z := by
  simp only [State.completeBlock, hn]
  exact if_pos hp

theorem State.completeBlock_slips (hn : s.nextAddr z = e) (hp : e ≤ s.programEnd z)
    (hg : (s.info s.bs.intake).stampStatus = .good) (hs : (s.info s.bs.intake).stamp ≠ some e) :
    s.completeBlock z = (s.discard.markDefect z .skipProne e).attemptFailed z := by
  simp only [State.completeBlock, hn]
  exact (if_neg (Nat.not_lt.2 hp)).trans (if_pos ⟨hg, hs⟩)

theorem State.completeBlock_commits (hn : s.nextAddr z = e) (hp : e ≤ s.programEnd z)
    (hs : (s.info s.bs.intake).stampStatus = .good → (s.info s.bs.intake).stamp = some e) :
    s.completeBlock z = (s.commit z e).completeJoin z := by
  simp only [State.completeBlock, hn]
  exact (if_neg (Nat.not_lt.2 hp)).trans (if_neg fun ⟨hg, hne⟩ => hne (hs hg))

end

end Sys2Proof.Machine
end

section
/-! PROOF. A block presented to a link-up that is joining (chapters 1 and 5): what each of its outcomes leaves, and the statement on
blocks in JOINING (O54). -/

namespace Sys2Proof.Machine

/-! ## What the outcomes leave -/

/-- The chains and the anchors stand. -/
def poolStands (s t : State) : Prop := ∀ w, t.bs.chain.get w = s.bs.chain.get w ∧ t.bs.anchor.get w = s.bs.anchor.get w

/-- The claim is gone with PAUSE sent, and the tag is not LIVE. -/
def claimOver (t : State) : Prop := t.da.claim = none ∧ t.da.out = some ⟨.pause, false, .running 300000000, none⟩ ∧
  t.da.state = .stopping ∧ t.tagLive = false

/-- Reading goes on with no zone changed, and the block timer runs from this block. -/
def readingGoesOn (s t : State) : Prop := poolStands s t ∧ t.zc = s.zc ∧ t.bi.tag = s.bi.tag ∧
  t.da = { s.da with blockTimer := .running 1000000000 }

/-- The attempt of zone `z`, whose next read address is `e` and whose context is `x`, has failed, with a SKIP-PRONE region at `slip` if
that is an address (R83, R92). -/
def attemptFails (s t : State) (z : ZoneId) (e : Nat) (x : LinkCtx) (slip : Option Nat) : Prop :=
  (slip = none → t.dd = s.dd) ∧ (∀ a, slip = some a → s.marksSkip t z a) ∧ claimOver t ∧ poolStands s t ∧
  (t.zone z).nextRead = some e ∧
  (min 7 (x.failed + 1) < s.params.luAttempts → (t.zone z).supply = .rejoining ∧ ∃ y, t.ctx z = some y ∧
    y.stage = .waiting ∧ y.mode = x.mode ∧ y.failed = min 7 (x.failed + 1) ∧ y.backoff = min 64 (2 * x.backoff)) ∧
  (s.params.luAttempts ≤ min 7 (x.failed + 1) → (t.zone z).supply = .resync ∧ t.ctx z = none)

/-- Block `b` has joined the chain of zone `z` behind `n` others, at address `a` (R88, R89). -/
def joinsAt (s t : State) (z : ZoneId) (b : PortBlock) (n a : Nat) : Prop :=
  (t.bs.chain.get z).length = n + 1 ∧ (t.bs.chain.get z).tail = s.bs.freeHead ∧
  (t.info s.bs.freeHead).expected = some a ∧ (t.bs.bucket s.bs.freeHead).samples = portSamples b ∧
  t.bs.anchor.get z = 0 ∧ (t.zone z).nextRead = some (a + 1) ∧ (t.zone z).resume = none ∧ t.ctx z = none ∧
  (t.zone z).supply = .feeding ∧ t.tagAppending = true

/-- The copy `b` has been merged into the block in bucket `k`. -/
def mergedInto (s t : State) (b : PortBlock) (k : Nat) : Prop :=
  (t.bs.bucket k).samples = (mergeBlock (s.bs.bucket k) (copyOf b)).samples ∧
  (t.bs.bucket k).flags = (mergeBlock (s.bs.bucket k) (copyOf b)).flags

/-- From `s` to `u` nothing that the outcome of an attempt speaks of has changed, but for contexts and defect lists. -/
structure Unmoved (s u : State) : Prop where
  da     : u.da = s.da
  bi     : u.bi = s.bi
  zc     : u.zc = s.zc
  params : u.params = s.params
  chain  : u.bs.chain = s.bs.chain
  anchor : u.bs.anchor = s.bs.anchor

namespace Unmoved

variable {s u : State} {z : ZoneId}

theorem stands (h : Unmoved s u) : poolStands s u := fun w => ⟨congrArg (Pair.get · w) h.chain, congrArg (Pair.get · w) h.anchor⟩

theorem setCtx {c : Option LinkCtx} (h : Unmoved s u) : Unmoved s (u.setCtx z c) :=
  ⟨h.da, h.bi, h.zc, h.params, h.chain, h.anchor⟩

theorem markSkip {a : Nat} (h : Unmoved s u) : Unmoved s (u.markDefect z .skipProne a) := by
  obtain ⟨dd, hd, -⟩ := u.markDefect_spec z a
  rw [hd]
  exact ⟨h.da, h.bi, h.zc, h.params, h.chain, h.anchor⟩

theorem of_merged {k e : Nat} {v : State} (h : Unmoved s u) (hm : CopyMerged u k e v) : Unmoved s v :=
  ⟨hm.da.trans h.da, hm.bi.trans h.bi, hm.zc.trans h.zc, hm.params.trans h.params, hm.chain.trans h.chain, hm.anchor.trans h.anchor⟩

end Unmoved

/-! ## Finding a start (R77, R89) -/

section

variable {s : State} {tag : Tag} {z : ZoneId} {x : LinkCtx} {b : PortBlock} {p : ResumePt}

/-- The GOOD stamp before the start leads to it (R77). -/
def ledTo (s : State) (a : Nat) : Prop := a ≠ 0 ∧ s.bi.nonGood = 0 ∧ s.bi.lastGood = some (a - 1)

theorem ledTo_iff {s : State} {a : Nat} : ledTo s a ↔ a ≠ 0 ∧ s.bi.preceding = some (a - 1) := by
  rw [ledTo, Intake.preceding_eq_some]

/-- A GOOD stamp that is not the start, and is not taken in spite of itself, is past it or before it. -/
theorem finds_other {a : Nat} (hm : x.mode = .locate) (hp : (s.zone z).resume = some p) (hg : goodAt b a) (ha : a ≠ p.addr)
    (hd : ¬ (ledTo s p.addr ∧ Config.startDespiteStamp p.addr a = true)) :
    (s.taking tag b).finds z x s.bi.preceding (if p.addr < a then .overshoot else .notTaken) := by
  have hx : (s.taking tag b).resumeAddr z = p.addr := by
    have hr : ((s.taking tag b).zone z).resume = some p := hp
    simp only [State.resumeAddr, hr]
  obtain ⟨hst, hs⟩ := State.stamp_taking (s := s) (tag := tag) hg
  refine .inl ⟨hm, ?_⟩
  rw [hx, hst, hs]
  refine stampLocate_stamped ha fun ⟨h0, hprev⟩ => hd ?_
  by_cases hc : Config.startDespiteStamp p.addr a = true
  · exact ⟨ledTo_iff.2 ⟨h0, (if_pos hc).symm.trans hprev⟩, hc⟩
  · have hnone : startPreceding p.addr .good (some a) s.bi.preceding = none := if_neg hc
    rw [hnone] at hprev
    cases hprev

/-- The start is found by its GOOD stamp, in spite of another GOOD stamp, or by the GOOD stamp before it. -/
theorem finds_start (hm : x.mode = .locate) (hp : (s.zone z).resume = some p)
    (h : goodAt b p.addr ∨ (∃ a, goodAt b a ∧ ledTo s p.addr ∧ Config.startDespiteStamp p.addr a = true) ∨
      ledTo s p.addr ∧ ∀ a, ¬ goodAt b a) :
    (s.taking tag b).finds z x s.bi.preceding .taken := by
  have hx : (s.taking tag b).resumeAddr z = p.addr := by
    have hr : ((s.taking tag b).zone z).resume = some p := hp
    simp only [State.resumeAddr, hr]
  refine .inl ⟨hm, ?_⟩
  rw [hx]
  rcases h with hg | ⟨a, hg, hled, hd⟩ | ⟨hled, hno⟩
  · obtain ⟨hst, hs⟩ := State.stamp_taking (s := s) (tag := tag) hg
    rw [hst, hs, stampLocate_target]
  · obtain ⟨hst, hs⟩ := State.stamp_taking (s := s) (tag := tag) hg
    obtain ⟨h0, hprev⟩ := ledTo_iff.1 hled
    rw [hst, hs, startPreceding_taken]
    exact .inr ⟨⟨Nat.pos_of_ne_zero h0, hprev⟩, hd⟩
  · obtain ⟨hst, -⟩ := State.stamp_taking_none (s := s) (tag := tag) hno
    obtain ⟨h0, hprev⟩ := ledTo_iff.1 hled
    rw [startPreceding_open (.inl hst)]
    exact stampLocate_led h0 hprev

end

/-! ## An attempt under way -/

/-- A link-up or refill `c` of zone `z`, with next read address `e`, reads, and a bucket is free for the next block. -/
structure Linking (s : State) (tag : Tag) (c : Claim) (z : ZoneId) (e : Nat) : Prop where
  reads    : ReadsFor s tag c
  link     : LinkReading s z c
  ready    : s.bs.Ready
  kind     : tag.kind = .linkUp ∨ tag.kind = .refill
  zone     : tag.zone = some z
  nextRead : (s.zone z).nextRead = some e
  supply   : (s.zone z).supply = .feeding ∨ (s.zone z).supply = .rejoining

namespace Linking

variable {s : State} {tag : Tag} {c : Claim} {z : ZoneId} {e : Nat}

theorem nextAddr (h : Linking s tag c z e) (b : PortBlock) : (s.taking tag b).nextAddr z = e := by
  show ((s.zone z).nextRead).getD 0 = e
  rw [h.nextRead]
  rfl

theorem taking (h : Linking s tag c z e) (b : PortBlock) : LinkReading (s.taking tag b) z c := h.link.congr rfl

/-- A block discarded leaves the pool's places. -/
theorem discarded (h : Linking s tag c z e) (b : PortBlock) : Unmoved s (s.taking tag b).discard :=
  ⟨rfl, rfl, rfl, rfl, (State.chains_discard_taking h.ready tag b).chain, (State.chains_discard_taking h.ready tag b).anchor⟩

end Linking

/-- The link-up or refill is in JOINING with context `x`. -/
structure Joining (s : State) (tag : Tag) (c : Claim) (z : ZoneId) (e : Nat) (x : LinkCtx) : Prop
    extends Linking s tag c z e where
  phase : tag.phase = some .joining
  ctx   : s.ctx z = some x

namespace Joining

variable {s r u : State} {tag : Tag} {c : Claim} {z : ZoneId} {e : Nat} {x y : LinkCtx} {b : PortBlock}

/-- In JOINING the block is searched or verified, by the context's stage. -/
theorem route_eq (j : Joining s tag c z e x) : (s.taking tag b).route tag = (s.taking tag b).joinBlock z s.bi.preceding := by
  rcases j.kind with hk | hk <;> simp [State.route, hk, j.zone, j.phase] <;> rfl

theorem route_searches (j : Joining s tag c z e x) (hx : x.stage = .searching) :
    (s.taking tag b).route tag = (s.taking tag b).searchBlock z x s.bi.preceding := by
  have hctx : (s.taking tag b).ctx z = some x := j.ctx
  rw [j.route_eq]
  simp only [State.joinBlock, hctx, hx]

theorem route_verifies (j : Joining s tag c z e x) (hx : x.stage = .verifying) :
    (s.taking tag b).route tag = (s.taking tag b).verifyBlock z x := by
  have hctx : (s.taking tag b).ctx z = some x := j.ctx
  rw [j.route_eq]
  simp only [State.joinBlock, hctx, hx]

/-- The attempt goes on with context `y`. -/
theorem goesOn (j : Joining s tag c z e x) (hr : (s.taking tag b).route tag = u.setCtx z (some y)) (hu : Unmoved s u) :
    ((s.present b).ctx z = some y ∧ readingGoesOn s (s.present b)) ∧ (s.present b).bs = u.bs := by
  obtain ⟨bi, he, hbi⟩ := j.reads.present_goesOn j.ready hr hu.da hu.bi
  rw [he]
  exact ⟨⟨State.ctx_setCtx u z _, hu.stands, hu.zc, hbi, rfl⟩, rfl⟩

/-- The attempt fails. -/
theorem fails {slip : Option Nat} (j : Joining s tag c z e x) (hr : (s.taking tag b).route tag = u.attemptFailed z)
    (hu : Unmoved s u) (hy : u.ctx z = some y) (hm : y.mode = x.mode ∧ y.failed = x.failed ∧ y.backoff = x.backoff)
    (hn : slip = none → u.dd = s.dd) (hs : ∀ a, slip = some a → s.marksSkip u z a) :
    attemptFails s (s.present b) z e x slip := by
  have hzone : u.zone z = s.zone z := congrArg (Pair.get · z) hu.zc
  have hover : u.readingOver .ended = { u with da := (s.readingOver .ended).da, bi := (s.readingOver .ended).bi } := by
    simp only [State.readingOver, hu.da, hu.bi]
  obtain ⟨zc, ctx, oc, cl, n, hf, hz⟩ := (j.link.congr hu.da).attemptFailed_spec hy (by rw [hzone]; exact j.supply)
  obtain ⟨hmode, hfailed, hback⟩ := hm
  rw [hf, hover] at hr
  obtain ⟨bi, he, hl⟩ := j.reads.present_over j.ready hr rfl (s.tagLive_readingOver (by decide))
  have hfail : y.failedOnce.failed = min 7 (x.failed + 1) := by rw [← hfailed]; rfl
  rw [he] at hl ⊢
  refine ⟨hn, hs, ⟨rfl, rfl, rfl, hl⟩, hu.stands, ?_, fun ha => ?_, fun ha => ?_⟩
  · rw [← j.nextRead, ← hzone]
    exact hz.nextRead
  · obtain ⟨hsup, hctx⟩ := hz.again (by rw [hfail, hu.params]; exact ha)
    exact ⟨hsup, y.failedOnce, hctx, rfl, hmode, hfail, by rw [← hback]; rfl⟩
  · exact hz.limit (by rw [hfail, hu.params]; exact ha)

/-- The block is committed at address `a` and completes the join. -/
theorem joins {a : Nat} (j : Joining s tag c z e x) (hr : (s.taking tag b).route tag = (u.commit z a).completeJoin z)
    (hu : LinkReading u z c) (hs : u.bs.sound) (hbi : u.bi = s.bi) (hi : u.bs.intake = s.bs.freeHead)
    (hb : (u.bs.bucket s.bs.freeHead).samples = portSamples b) (hz : (u.zone z).supply = (s.zone z).supply)
    (hf : u.fill z < u.quota z) : joinsAt s (s.present b) z b (u.fill z) a := by
  have hcom := hu.commit_spec a hs (by rw [hi]; exact j.ready.head) hf
  obtain ⟨n, p, hzone⟩ := hcom.zone
  obtain ⟨l, hblock⟩ := hcom.block
  have hsup : ((u.commit z a).zone z).supply = (s.zone z).supply := by rw [hzone]; exact hz
  obtain ⟨q, oc, cl, m, hj⟩ := State.completeJoin_spec (s := u.commit z a) (z := z) (by rw [hsup]; exact j.supply)
  rw [hj] at hr
  obtain ⟨da, bi, he, htag⟩ := j.reads.present_frame j.ready hr
  rw [hi] at hblock
  have hz' : ((u.commit z a).joined z).zone z = _ := hzone
  have hzt := (State.zone_supplyTo (s := (u.commit z a).joined z) (z := z) .feeding q oc cl m).trans (by rw [hz'])
  rw [he]
  refine ⟨hcom.length, hcom.tail.trans hi, ?_, ?_, hcom.anchor, (congrArg Zone.nextRead hzt :), (congrArg Zone.resume hzt :),
    State.ctx_setCtx _ z none, (congrArg Zone.supply hzt :), ?_⟩
  · exact congrArg (·.info.expected) hblock
  · exact (congrArg Bucket.samples hblock).trans hb
  · have hsome : ∃ g, (u.commit z a).bi.tag = some g := by
      rcases hcom.intake with h | h
      · exact ⟨tag, by rw [h, hbi, j.reads.tagged]⟩
      · exact ⟨_, by rw [h, hbi, Intake.close, j.reads.tagged]; exact congrArg Intake.tag (if_pos j.reads.tagLive)⟩
    obtain ⟨g, hg⟩ := hsome
    have ht : bi.tag = some { g with phase := some .appending } := htag.trans (congrArg (Option.map _) hg)
    simp only [State.tagAppending, ht, decide_true]

/-! ## The search for a start -/

/-- The clause on a search for the start, by what the search makes of the block. -/
theorem search_missed (j : Joining s tag c z e x) (hx : x.stage = .searching)
    (hf : (s.taking tag b).finds z x s.bi.preceding .notTaken) :
    (2 ≤ x.windowLeft → (s.present b).ctx z = some x.searched ∧ readingGoesOn s (s.present b)) ∧
    (x.windowLeft ≤ 1 → attemptFails s (s.present b) z e x none) := by
  have hr := (j.route_searches (b := b) hx).trans (State.searchBlock_notTaken hf)
  refine ⟨fun hw => ?_, fun hw => ?_⟩
  · rw [if_neg (by show ¬ x.windowLeft - 1 = 0; omega)] at hr
    exact (j.goesOn hr (j.discarded b)).1
  · rw [if_pos (by show x.windowLeft - 1 = 0; omega)] at hr
    exact j.fails hr (j.discarded b).setCtx (State.ctx_setCtx _ z _) ⟨rfl, rfl, rfl⟩ (fun _ => rfl) nofun

theorem search_passed (j : Joining s tag c z e x) (hx : x.stage = .searching)
    (hf : (s.taking tag b).finds z x s.bi.preceding .overshoot) : attemptFails s (s.present b) z e x none :=
  j.fails ((j.route_searches hx).trans (State.searchBlock_overshoot hf)) (j.discarded b).setCtx (State.ctx_setCtx _ z _)
    ⟨rfl, rfl, rfl⟩ (fun _ => rfl) nofun

theorem search_started (j : Joining s tag c z e x) (hx : x.stage = .searching) (hm : x.mode = .locate)
    (hf : (s.taking tag b).finds z x s.bi.preceding .taken) (hq : s.fill z < s.quota z) :
    joinsAt s (s.present b) z b (s.fill z) e := by
  have hr := (j.route_searches (b := b) hx).trans (State.searchBlock_start hm hf)
  rw [j.nextAddr b] at hr
  exact j.joins (u := (s.taking tag b).setCtx z (some x.searched)) hr ((j.taking b).congr rfl) (State.sound_taking j.ready tag b) rfl rfl
    (congrArg Bucket.samples (s.bucket_taking tag b)) rfl hq

/-! ## The search for an anchor -/

/-- The bucket of an anchor in the chain is that of its block. -/
theorem anchorBucket_taking {n q : Nat} (j : Joining s tag c z e x) (b : PortBlock) (hq : s.posOf z n = some q) :
    (s.taking tag b).anchorBucket z (.chain n) = s.bucketAt z q := by
  have hch := State.chains_taking j.ready tag b
  have hp : (s.taking tag b).posOf z n = some q := (hch.posOf z n).trans hq
  simp only [State.anchorBucket, hp]
  exact hch.bucketAt z q

theorem finds_anchor {n q a : Nat} (j : Joining s tag c z e x) (hm : x.mode = .anchor) (ha : x.anchor = .chain n)
    (hq : s.posOf z n = some q) (hk : (s.info (s.bucketAt z q)).stampStatus = .good) (hg : goodAt b a) :
    (s.taking tag b).finds z x s.bi.preceding (if a = n then .taken else if n < a then .overshoot else .notTaken) := by
  obtain ⟨hmem, hexp⟩ := State.posOf_spec hq
  obtain ⟨h0, -, -⟩ := Store.mem_chainOf j.ready.sound hmem
  have hbucket := (State.chains_taking j.ready tag b).bucket hq
  obtain ⟨hst, hs⟩ := State.stamp_taking (s := s) (tag := tag) hg
  have hanchor := j.anchorBucket_taking b hq
  refine .inr ⟨hm, ?_, ?_⟩
  · rw [ha, hanchor]
    exact h0
  · rw [ha, hanchor, hbucket]
    have hcond : (s.bs.bucket (s.bucketAt z q)).info.stampStatus = .good ∧
        ((s.taking tag b).bs.bucket (s.taking tag b).bs.intake).info.stampStatus = .good := ⟨hk, hst⟩
    have hcand : ((s.taking tag b).bs.bucket (s.taking tag b).bs.intake).info.stamp = some a := hs
    have hexp' : (s.bs.bucket (s.bucketAt z q)).info.expected = some n := hexp
    simp only [anchorMatch, if_pos hcond, hcand, hexp', Option.some.injEq, Option.getD_some]

/-- The anchor in the chain has matched: its copy goes to its block, and verification begins behind it (R84). -/
theorem anchorMatched_chain {n : Nat} (ha : y.anchor = .chain n) (he : (u.info (u.anchorBucket z (.chain n))).expected = some n) :
    u.anchorMatched z y = (u.verifyMergeAt z n).setCtx z (some { y with stage := .verifying, verify := some (n + 1) }) := by
  simp only [State.anchorMatched, ha, he, Option.getD_some]

/-- The copy taken goes to the block at address `n`, behind the head; `u` is the part with the block in its intake. -/
theorem copyMerged {n q : Nat} (j : Joining s tag c z e x) (hq : s.posOf z n = some (q + 1)) (hu : LinkReading u z c)
    (hbs : u.bs = (s.taking tag b).bs) : CopyMerged u (s.bucketAt z (q + 1)) n (u.verifyMergeAt z n) ∧
    mergeBlock (u.bs.bucket (s.bucketAt z (q + 1))) (u.bs.bucket u.bs.intake) =
      mergeBlock (s.bs.bucket (s.bucketAt z (q + 1))) (copyOf b) := by
  have hch := State.chains_taking j.ready tag b
  have hp : u.posOf z n = some (q + 1) := by
    rw [← hq, ← hch.posOf z n]
    exact State.posOf_congr (congrArg (Store.chainOf · z) hbs) (fun k _ => congrArg (fun bs => (Store.bucket bs k).info.expected) hbs) n
  have hk : u.bucketAt z (q + 1) = s.bucketAt z (q + 1) := by
    rw [← hch.bucketAt z, State.bucketAt, hbs, State.bucketAt]
  have hs : u.bs.sound := by
    rw [hbs]
    exact State.sound_taking j.ready tag b
  have hm := hu.verifyMergeAt_spec hs hp
  rw [hk] at hm
  refine ⟨hm, ?_⟩
  have hi : (s.taking tag b).bs.bucket (s.taking tag b).bs.intake = measured b (s.recordedTrack tag b.track) :=
    s.bucket_taking tag b
  rw [hbs, hch.bucket hq, hi]
  exact mergeBlock_congr rfl rfl

/-- The block that a copy was merged into, as the statement speaks of it. -/
theorem merged_of {k n : Nat} {v w : State} (hm : CopyMerged u k n v)
    (hb : mergeBlock (u.bs.bucket k) (u.bs.bucket u.bs.intake) = mergeBlock (s.bs.bucket k) (copyOf b)) (hw : w.bs = v.bs) :
    mergedInto s w b k ∧ (w.info k).confirmed =
      (decide ((u.info u.bs.intake).stampStatus = .good ∧ (u.info u.bs.intake).stamp = some n) || (u.info k).confirmed) := by
  obtain ⟨l, hl⟩ := hm.block
  rw [hb] at hl
  have hwk : w.bs.bucket k = _ := (congrArg (Store.bucket · k) hw).trans hl
  exact ⟨⟨(congrArg Bucket.samples hwk :), (congrArg Bucket.flags hwk :)⟩, (congrArg (·.info.confirmed) hwk :)⟩

/-- The anchor is found: its copy is merged, unless it is the head, and verification begins behind it (R84). -/
theorem anchor_found {n q : Nat} (j : Joining s tag c z e x) (hx : x.stage = .searching) (hm : x.mode = .anchor)
    (ha : x.anchor = .chain n) (hq : s.posOf z n = some q) (hf : (s.taking tag b).finds z x s.bi.preceding .taken) :
    ((s.present b).ctx z = some { x.searched with stage := .verifying, verify := some (n + 1) } ∧
      readingGoesOn s (s.present b)) ∧
    (q ≠ 0 → mergedInto s (s.present b) b (s.bucketAt z q)) ∧
    (q = 0 → (s.present b).bs.bucket (s.bucketAt z q) = s.bs.bucket (s.bucketAt z q)) := by
  have hch := State.chains_taking j.ready tag b
  have hexp : (((s.taking tag b).setCtx z (some x.searched)).info
      (((s.taking tag b).setCtx z (some x.searched)).anchorBucket z (.chain n))).expected = some n := by
    show ((s.taking tag b).bs.bucket ((s.taking tag b).anchorBucket z (.chain n))).info.expected = some n
    rw [j.anchorBucket_taking b hq, hch.bucket hq]
    exact (State.posOf_spec hq).2
  have hr := (j.route_searches (b := b) hx).trans ((State.searchBlock_anchor hm hf).trans (anchorMatched_chain ha hexp))
  cases q with
  | zero =>
    have hp : ((s.taking tag b).setCtx z (some x.searched)).posOf z n = some 0 := (hch.posOf z n).trans hq
    have hd : ((s.taking tag b).setCtx z (some x.searched)).verifyMergeAt z n =
        ((s.taking tag b).setCtx z (some x.searched)).discard := by simp only [State.verifyMergeAt, hp]
    rw [hd] at hr
    obtain ⟨hgo, hbs⟩ := j.goesOn hr (j.discarded b).setCtx
    refine ⟨hgo, fun h => absurd rfl h, fun _ => ?_⟩
    rw [hbs]
    exact (State.chains_discard_taking j.ready tag b).bucket hq
  | succ q =>
    obtain ⟨hcm, hmb⟩ := j.copyMerged (u := (s.taking tag b).setCtx z (some x.searched)) hq ((j.taking b).congr rfl) rfl
    have hu : Unmoved s ((s.taking tag b).setCtx z (some x.searched)) := ⟨rfl, rfl, rfl, rfl, rfl, rfl⟩
    obtain ⟨hgo, hbs⟩ := j.goesOn hr (hu.of_merged hcm)
    exact ⟨hgo, fun _ => (merged_of hcm hmb hbs).1, nofun⟩

end Joining

end Sys2Proof.Machine
end

section
/-! PROOF. The verification of an anchor, the block behind it, a block beyond the program end, and the statement on blocks in JOINING
(chapter 5; O54). -/

namespace Sys2Proof.Machine

/-- A zone's program end is a matter of the records and of which one it has selected (R15). -/
theorem State.programEnd_congr {s t : State} {z : ZoneId} (hz : (t.zone z).selected = (s.zone z).selected) (hd : t.dd = s.dd) :
    t.programEnd z = s.programEnd z := by
  have hr : t.selRec z = s.selRec z := by
    have hrec : t.record = s.record := congrArg (fun d : Directory => fun i => d.records[i]?) hd
    rw [State.selRec, hz, hrec, State.selRec]
  rw [State.programEnd, hr, State.programEnd]

namespace Joining

variable {s : State} {tag : Tag} {c : Claim} {z : ZoneId} {e : Nat} {x : LinkCtx} {b : PortBlock}

/-! ## The verification (R85, R86, R87) -/

section

variable {v hd q : Nat} (j : Joining s tag c z e x)

include j

theorem not_heard (hh : s.headAddr z = some hd) (hlt : hd < v) : (s.taking tag b).heardUpTo z v = false := by
  simp only [State.heardUpTo, (State.chains_taking j.ready tag b).headAddr z, hh, decide_eq_false (Nat.not_le.2 hlt)]

/-- The data comparison of a block that the verification takes. -/
theorem compared (hq : s.posOf z v = some (q + 1)) : dataCompare ((s.taking tag b).bs.bucket ((s.taking tag b).anchorBucket z (.chain v)))
    ((s.taking tag b).bs.bucket (s.taking tag b).bs.intake) = dataCompare (s.bs.bucket (s.bucketAt z (q + 1))) (copyOf b) := by
  have hi : (s.taking tag b).bs.bucket (s.taking tag b).bs.intake = measured b (s.recordedTrack tag b.track) :=
    s.bucket_taking tag b
  rw [j.anchorBucket_taking b hq, (State.chains_taking j.ready tag b).bucket hq, hi]
  exact dataCompare_congr rfl rfl

variable (hx : x.stage = .verifying)

include hx

/-- A slip in the verification, or at the block behind it, records a region and fails the attempt. -/
theorem slipped {w : Nat}
    (hr : (s.taking tag b).verifyBlock z x = ((s.taking tag b).discard.markDefect z .skipProne w).attemptFailed z) :
    attemptFails s (s.present b) z e x (some w) := by
  obtain ⟨dd, hm, hmark⟩ := (s.taking tag b).discard.markDefect_spec z w
  have hu : Unmoved s ((s.taking tag b).discard.markDefect z .skipProne w) := (j.discarded b).markSkip
  rw [hm] at hr hu
  exact j.fails ((j.route_verifies hx).trans hr) hu j.ctx ⟨rfl, rfl, rfl⟩ nofun fun a ha => Option.some.inj ha ▸ hmark

/-- A block whose copy is merged: verification goes on behind it. -/
theorem verify_merges (hq : s.posOf z v = some (q + 1))
    (hr : (s.taking tag b).verifyBlock z x = ((s.taking tag b).verifyMergeAt z v).setCtx z (some (x.verified v))) :
    ((s.present b).ctx z = some (x.verified v) ∧ readingGoesOn s (s.present b)) ∧
    mergedInto s (s.present b) b (s.bucketAt z (q + 1)) ∧
    ((s.present b).info (s.bucketAt z (q + 1))).confirmed =
      (decide (((s.taking tag b).info (s.taking tag b).bs.intake).stampStatus = .good ∧
        ((s.taking tag b).info (s.taking tag b).bs.intake).stamp = some v) || (s.info (s.bucketAt z (q + 1))).confirmed) := by
  obtain ⟨hcm, hmb⟩ := j.copyMerged hq (j.taking b) rfl
  have hu : Unmoved s (s.taking tag b) := ⟨rfl, rfl, rfl, rfl, rfl, rfl⟩
  obtain ⟨hgo, hbs⟩ := j.goesOn ((j.route_verifies hx).trans hr) (hu.of_merged hcm)
  obtain ⟨hm, hc⟩ := merged_of hcm hmb hbs
  have hk : (s.taking tag b).info (s.bucketAt z (q + 1)) = s.info (s.bucketAt z (q + 1)) :=
    congrArg Bucket.info ((State.chains_taking j.ready tag b).bucket hq)
  rw [hk] at hc
  exact ⟨hgo, hm, hc⟩

variable (hv : x.verify = some v) (he : v < e)

include hv he

theorem verify_heard (hh : s.headAddr z = some hd) (hle : v ≤ hd) :
    (s.present b).ctx z = some (x.verified v) ∧ readingGoesOn s (s.present b) := by
  have hheard : (s.taking tag b).heardUpTo z v = true := by
    simp only [State.heardUpTo, (State.chains_taking j.ready tag b).headAddr z, hh, hle, decide_true]
  exact (j.goesOn ((j.route_verifies hx).trans
    (State.verifyBlock_heard hv ((j.nextAddr b).symm ▸ he) hheard)) (j.discarded b)).1

variable (hh : s.headAddr z = some hd) (hlt : hd < v)

include hh hlt

theorem verify_slips {a : Nat} (hg : goodAt b a) (ha : a ≠ v) : attemptFails s (s.present b) z e x (some v) := by
  obtain ⟨hst, hs⟩ := State.stamp_taking (s := s) (tag := tag) hg
  exact j.slipped hx (State.verifyBlock_slips hv ((j.nextAddr b).symm ▸ he) (j.not_heard hh hlt) hst
    (by rw [hs]; exact fun h => ha (Option.some.inj h)))

variable (hq : s.posOf z v = some (q + 1))

include hq

theorem verify_stamped (hg : goodAt b v) : ((s.present b).ctx z = some (x.verified v) ∧ readingGoesOn s (s.present b)) ∧
    mergedInto s (s.present b) b (s.bucketAt z (q + 1)) ∧ ((s.present b).info (s.bucketAt z (q + 1))).confirmed = true := by
  obtain ⟨hst, hs⟩ := State.stamp_taking (s := s) (tag := tag) hg
  obtain ⟨hgo, hm, hc⟩ := j.verify_merges hx hq
    (State.verifyBlock_stamped hv ((j.nextAddr b).symm ▸ he) (j.not_heard hh hlt) hst hs)
  exact ⟨hgo, hm, by rw [hc, decide_eq_true ⟨hst, hs⟩, Bool.true_or]⟩

variable (hg : b.stampStatus ≠ .good)

include hg

theorem verify_agrees (ha : agrees (dataCompare (s.bs.bucket (s.bucketAt z (q + 1))) (copyOf b)) = true) :
    ((s.present b).ctx z = some (x.verified v) ∧ readingGoesOn s (s.present b)) ∧
    mergedInto s (s.present b) b (s.bucketAt z (q + 1)) ∧
    ((s.present b).info (s.bucketAt z (q + 1))).confirmed = (s.info (s.bucketAt z (q + 1))).confirmed := by
  obtain ⟨hst, -⟩ := State.stamp_taking_none (s := s) (tag := tag) (not_goodAt hg)
  obtain ⟨hgo, hm, hc⟩ := j.verify_merges hx hq (State.verifyBlock_agrees hv ((j.nextAddr b).symm ▸ he)
    (j.not_heard hh hlt) hst (by rw [j.compared hq]; exact ha))
  exact ⟨hgo, hm, by rw [hc, decide_eq_false fun h => hst h.1, Bool.false_or]⟩

/-- A block that does not agree cuts the chain from its address, and joins it there (R87). -/
theorem verify_cuts (ha : agrees (dataCompare (s.bs.bucket (s.bucketAt z (q + 1))) (copyOf b)) = false)
    (hf : v - hd < s.fill z) (hquota : v - hd < s.quota z) (hend : v ≤ s.programEnd z) :
    joinsAt s (s.present b) z b (v - hd) v := by
  obtain ⟨hst, -⟩ := State.stamp_taking_none (s := s) (tag := tag) (not_goodAt hg)
  have hhead : (s.taking tag b).headAddr z = some hd := ((State.chains_taking j.ready tag b).headAddr z).trans hh
  obtain ⟨ru, aud, oc, hcut, -⟩ := State.cutZone_spec (e := v) (first := v) true (State.cutPos_behind hhead hlt hf)
    (by rw [hhead]; show hd + (v - hd) = v; omega) ((j.taking b).notRereading z)
  obtain ⟨hlen, hintake, hmem⟩ := Store.cut_fields (st := (s.taking tag b).bs) (z := z) (p := v - hd) (by omega) hf
  have hsound := Calm.sound (Calm.cutZone (z := z) (e := v) (own := true) (Calm.refl (s.taking tag b)))
    (State.sound_taking j.ready tag b)
  generalize hu : (s.taking tag b).cutZone z v true = u at hcut hsound
  have hzone : u.zone z = { s.zone z with nextRead := some v } := by rw [hcut]; exact State.zone_modZone (s.taking tag b) z _
  have hi : u.bs.intake = s.bs.freeHead := by rw [hcut]; exact hintake
  have hbucket (k : Nat) : u.bs.bucket k = (s.taking tag b).bs.bucket k := by
    rw [hcut]; exact congrArg (tableGet bucketDefault · k) hmem
  have hnext : u.nextAddr z = v := by rw [State.nextAddr, hzone]; rfl
  have hends : u.programEnd z = s.programEnd z := State.programEnd_congr (by rw [hzone]) (by rw [hcut]; rfl)
  have hstatus : (u.info u.bs.intake).stampStatus ≠ .good := by
    rw [hi, State.info, hbucket]; exact hst
  have hr := (j.route_verifies (b := b) hx).trans (State.verifyBlock_cuts hv ((j.nextAddr b).symm ▸ he)
    (j.not_heard hh hlt) hst (by rw [j.compared hq]; exact ha) (by rw [hu]; exact hnext))
  rw [hu, State.completeBlock_commits hnext (by rw [hends]; exact hend) fun h => absurd h hstatus] at hr
  have hfill : u.fill z = v - hd := by rw [hcut]; exact hlen
  have hj := j.joins hr ((j.taking b).congr (by rw [hcut])) hsound (by rw [hcut]; rfl) hi
    (by rw [hbucket]; exact congrArg Bucket.samples (s.bucket_taking tag b)) (by rw [hzone])
    (by rw [hfill]; rw [hcut]; exact hquota)
  rw [hfill] at hj
  exact hj

end

/-! ## The block behind the verification (R88) -/

section

variable {v : Nat} (j : Joining s tag c z e x) (hx : x.stage = .verifying) (hv : x.verify = some v) (he : e ≤ v)

include j hx hv he

/-- With no verification left the block completes the link-up, or does not. -/
theorem route_completes : (s.taking tag b).route tag = (s.taking tag b).completeBlock z :=
  (j.route_verifies hx).trans (State.verifyBlock_complete hv ((j.nextAddr b).symm ▸ he))

variable (hend : e ≤ s.programEnd z)

include hend

theorem complete_slips {a : Nat} (hg : goodAt b a) (ha : a ≠ e) : attemptFails s (s.present b) z e x (some e) := by
  obtain ⟨hst, hs⟩ := State.stamp_taking (s := s) (tag := tag) hg
  exact j.slipped hx ((State.verifyBlock_complete hv ((j.nextAddr b).symm ▸ he)).trans
    (State.completeBlock_slips (j.nextAddr b) hend hst (by rw [hs]; exact fun h => ha (Option.some.inj h))))

theorem complete_joins (hg : goodAt b e ∨ b.stampStatus ≠ .good) (hquota : s.fill z < s.quota z) :
    joinsAt s (s.present b) z b (s.fill z) e := by
  have hstamp : ((s.taking tag b).info (s.taking tag b).bs.intake).stampStatus = .good →
      ((s.taking tag b).info (s.taking tag b).bs.intake).stamp = some e := by
    rcases hg with hg | hg
    · exact fun _ => (State.stamp_taking hg).2
    · exact fun h => absurd h (State.stamp_taking_none (not_goodAt hg)).1
  have hr := (j.route_completes (b := b) hx hv he).trans (State.completeBlock_commits (j.nextAddr b) hend hstamp)
  exact j.joins (u := s.taking tag b) hr (j.taking b) (State.sound_taking j.ready tag b) rfl rfl
    (congrArg Bucket.samples (s.bucket_taking tag b)) rfl hquota

end

end Joining

/-! ## A block beyond the program end (R15) -/

/-- The claim of a FEEDING zone ends, and its supply. -/
theorem LinkReading.beyondEnd_spec {s : State} {z : ZoneId} {c : Claim} (h : LinkReading s z c) (hs : (s.zone z).supply = .feeding)
    (hf : s.fill z ≠ 0) : ∃ p oc cl n, s.beyondEnd z = (s.readingOver .ended).supplyTo z .ended p oc cl n ∧
      ((s.zone z).play = .playing → cl = s.cl.notice ⟨0x70, [zoneCode z, 2, 7, 17]⟩) := by
  have hb : s.beyondEnd z = (s.readingOver .ended).setSupply z .ended .programEnd := by
    rw [State.beyondEnd, h.closeZoneClaim]
    exact if_pos hs
  have hne : ((s.readingOver .ended).zone z).supply ≠ .ended := by
    show (s.zone z).supply ≠ _
    rw [hs]
    decide
  obtain ⟨p, oc, cl, n, he⟩ := State.setSupply_keeps (s := s.readingOver .ended) (v := .ended) .programEnd rfl (.inr hf) hne
  refine ⟨p, oc, cl, n, hb.trans he, fun hp => ?_⟩
  have hzone := (s.readingOver .ended).zone_modZone z fun r => { r with supply := .ended }
  generalize hu : ((s.readingOver .ended).modZone z fun r => { r with supply := .ended }) = u at hzone
  have hplay : (u.zone z).play = .playing := by rw [hzone]; exact hp
  have hsup : (u.zone z).supply = .ended := by rw [hzone]
  have hset : (s.readingOver .ended).setSupply z .ended .programEnd = u.zoneNotice z .programEnd := by
    have h1 : (s.readingOver .ended).setSupply z .ended .programEnd = u.supplyChanged z .programEnd := by
      rw [← hu]
      exact (if_neg hne).trans (if_neg fun h => hf h.2)
    rw [h1]
    exact (if_neg (by simp [hplay])).trans (if_neg (by simp [hplay]))
  have hcl : u.cl = s.cl := by rw [← hu]; rfl
  have hnotice : (u.zoneNotice z .programEnd).cl = s.cl.notice ⟨0x70, [zoneCode z, 2, 7, 17]⟩ := by
    rw [← hcl, State.zoneNotice, hplay, hsup]
    rfl
  rw [← hnotice, ← hset, he]
  rfl

/-- What a block beyond the program end leaves: `u` is the part with the block discarded, and the join completed if it was not. -/
theorem Linking.programEnded {s u : State} {tag : Tag} {c : Claim} {z : ZoneId} {e : Nat} {b : PortBlock} (h : Linking s tag c z e)
    (hr : (s.taking tag b).route tag = u.beyondEnd z) (hda : u.da = s.da) (hch : u.bs = (s.taking tag b).discard.bs)
    (hn : (u.zone z).nextRead = some e) (hs : (u.zone z).supply = .feeding) (hf : s.fill z ≠ 0) :
    claimOver (s.present b) ∧ poolStands s (s.present b) ∧ ((s.present b).zone z).nextRead = some e ∧
    ((s.present b).zone z).supply = .ended ∧
    ((u.zone z).play = .playing → (s.present b).cl = u.cl.notice ⟨0x70, [zoneCode z, 2, 7, 17]⟩) := by
  have hfill : u.fill z = s.fill z := by
    rw [State.fill, hch]
    exact (State.chains_discard_taking h.ready tag b).fill z
  obtain ⟨p, oc, cl, n, he, hcl⟩ := (h.link.congr hda).beyondEnd_spec hs (by rw [hfill]; exact hf)
  rw [he] at hr
  have hdead : ((u.readingOver .ended).supplyTo z .ended p oc cl n).tagLive = false := u.tagLive_readingOver (by decide)
  have hover : (u.readingOver .ended).da = (s.readingOver .ended).da := by simp only [State.readingOver, hda]
  obtain ⟨bi, ht, hl⟩ := h.reads.present_over h.ready hr hover hdead
  have hz := State.zone_supplyTo (s := u.readingOver .ended) (z := z) .ended p oc cl n
  rw [ht] at hl ⊢
  refine ⟨⟨rfl, rfl, rfl, hl⟩, fun w => ?_, (congrArg Zone.nextRead hz :).trans hn, (congrArg Zone.supply hz :), hcl⟩
  have hbs : (((u.readingOver .ended).supplyTo z .ended p oc cl n).bs) = (s.taking tag b).discard.bs := hch
  obtain ⟨hc, ha⟩ := (h.discarded b).stands w
  exact ⟨(congrArg (fun bs : Store => bs.chain.get w) hbs).trans hc, (congrArg (fun bs : Store => bs.anchor.get w) hbs).trans ha⟩

/-- A block beyond the program end while the zone appends. -/
theorem Linking.ends_appending {s : State} {tag : Tag} {c : Claim} {z : ZoneId} {e : Nat} {b : PortBlock} (h : Linking s tag c z e)
    (hend : s.programEnd z < e) (hf : s.fill z ≠ 0) (hp : tag.phase = some .appending) (hs : (s.zone z).supply = .feeding) :
    claimOver (s.present b) ∧ poolStands s (s.present b) ∧ ((s.present b).zone z).nextRead = some e ∧
    ((s.present b).zone z).supply = .ended ∧
    ((s.zone z).play = .playing → (s.present b).cl = s.cl.notice ⟨0x70, [zoneCode z, 2, 7, 17]⟩) := by
  have hroute : (s.taking tag b).route tag = (s.taking tag b).appendBlock z := by
    rcases h.kind with hk | hk <;> simp [State.route, hk, h.zone, hp]
  have happ : (s.taking tag b).appendBlock z = (s.taking tag b).discard.beyondEnd z := by
    simp only [State.appendBlock, h.nextAddr b]
    exact if_pos hend
  exact h.programEnded (u := (s.taking tag b).discard) (hroute.trans happ) rfl rfl h.nextRead hs hf

/-- A block beyond the program end when no verification remains. -/
theorem Joining.ends_joining {s : State} {tag : Tag} {c : Claim} {z : ZoneId} {e v : Nat} {x : LinkCtx} {b : PortBlock}
    (j : Joining s tag c z e x) (hx : x.stage = .verifying) (hv : x.verify = some v) (he : e ≤ v)
    (hend : s.programEnd z < e) (hf : s.fill z ≠ 0) :
    claimOver (s.present b) ∧ poolStands s (s.present b) ∧ ((s.present b).zone z).nextRead = some e ∧
    ((s.present b).zone z).supply = .ended := by
  obtain ⟨p, oc, cl, n, hj⟩ := State.completeJoin_spec (s := (s.taking tag b).discard) (z := z) j.supply
  have hr := (j.route_completes (b := b) hx hv he).trans (State.completeBlock_beyond (j.nextAddr b) hend)
  have hz := State.zone_supplyTo (s := (s.taking tag b).discard.joined z) (z := z) .feeding p oc cl n
  rw [← hj] at hz
  obtain ⟨ho, hst, hn, hs, -⟩ := j.programEnded hr (by rw [hj]; rfl) (by rw [hj]; rfl) ((congrArg Zone.nextRead hz :).trans j.nextRead)
    (congrArg Zone.supply hz) hf
  exact ⟨ho, hst, hn, hs⟩

/-! ## The statement -/

/-- Settles O54, by the phase, the context's stage and the block's stamp. -/
theorem joiningBlocksLinkUpOrFail : Obligations.JoiningBlocksLinkUpOrFail := by
  intro s b z tag c e hp hout hread htag hlive hkind hzone hclaim hclive hck hcz hsound hintake hhead hcount hnext hsup
  have hkind' : c.kind = .linkUp ∨ c.kind = .refill := hck ▸ hkind
  have hunder : ReadingUnder s c := ⟨hout, hread, hclaim, hclive, by rcases hkind' with hk | hk <;> simp [hk]⟩
  have h : Linking s tag c z e :=
    ⟨⟨hunder, htag, hlive⟩, ⟨hunder, hkind', hcz⟩, ⟨hsound, hintake, hhead, hcount⟩, hkind, hzone, hnext, hsup⟩
  refine ⟨s.present b, exec_blockPresented hp rfl, h.reads.stowed_present h.ready, fun hend hf hcase => ?_,
    fun hph x hctx hx hm p hres => ?_, fun hph x hctx hx hm n q ha hq hgood => ?_, fun hph x v hd hctx hx hv he hh => ?_,
    fun hph x v hctx hx hv he hend => ?_⟩
  · rcases hcase with ⟨hph, hs⟩ | ⟨x, v, hph, hctx, hx, hv, he⟩
    · obtain ⟨ho, hst, hn, hs, hcl⟩ := h.ends_appending (b := b) hend hf hph hs
      exact ⟨ho, hst, hn, hs, fun _ => hcl⟩
    · obtain ⟨ho, hst, hn, hs⟩ := (⟨h, hph, hctx⟩ : Joining s tag c z e x).ends_joining (b := b) hx hv he hend hf
      exact ⟨ho, hst, hn, hs, fun hap => by rw [hph] at hap; cases hap⟩
  · have j : Joining s tag c z e x := ⟨h, hph, hctx⟩
    have hother {a : Nat} (hg : goodAt b a) (ha : a ≠ p.addr) (hd : ¬ (ledTo s p.addr ∧ Config.startDespiteStamp p.addr a = true)) :=
      finds_other (tag := tag) hm hres hg ha hd
    have hbefore {a : Nat} (hg : goodAt b a) (ha : a < p.addr)
        (hd : ¬ (ledTo s p.addr ∧ Config.startDespiteStamp p.addr a = true)) :=
      j.search_missed hx (b := b) (by
        have hf := hother hg ha.ne hd
        rwa [if_neg (Nat.not_lt.2 ha.le)] at hf)
    refine ⟨fun a hg ha hd hw => (hbefore hg ha hd).1 hw, fun a hg ha hd hw => (hbefore hg ha hd).2 hw,
      fun a hg ha hd => ?_, fun hfound hq => ?_⟩
    · have hf := hother hg ha.ne' hd
      rw [if_pos ha] at hf
      exact j.search_passed hx hf
    · exact j.search_started hx hm (finds_start hm hres hfound) hq
  · have j : Joining s tag c z e x := ⟨h, hph, hctx⟩
    have hfind {a : Nat} (hg : goodAt b a) := j.finds_anchor hm ha hq hgood hg
    have hbefore {a : Nat} (hg : goodAt b a) (hlt : a < n) := j.search_missed hx (b := b) (by
      have hf := hfind hg
      rwa [if_neg hlt.ne, if_neg (Nat.not_lt.2 hlt.le)] at hf)
    refine ⟨fun a hg hlt hw => (hbefore hg hlt).1 hw, fun a hg hlt hw => (hbefore hg hlt).2 hw, fun a hg hlt => ?_, fun hg => ?_⟩
    · have hf := hfind hg
      rw [if_neg hlt.ne', if_pos hlt] at hf
      exact j.search_passed hx hf
    · have hf := hfind hg
      rw [if_pos rfl] at hf
      exact j.anchor_found hx hm ha hq hf
  · have j : Joining s tag c z e x := ⟨h, hph, hctx⟩
    exact ⟨fun hle => j.verify_heard hx hv he hh hle, fun hlt q hq =>
      ⟨fun hg => j.verify_stamped hx hv he hh hlt hq hg, fun a hg ha => j.verify_slips hx hv he hh hlt hg ha,
        fun hg ha => j.verify_agrees hx hv he hh hlt hq hg ha,
        fun hg ha hf hquota hend => j.verify_cuts hx hv he hh hlt hq hg ha hf hquota hend⟩⟩
  · have j : Joining s tag c z e x := ⟨h, hph, hctx⟩
    exact ⟨fun a hg ha => j.complete_slips hx hv he hend hg ha, fun hg hq => j.complete_joins hx hv he hend hg hq⟩

end Sys2Proof.Machine
end

section
/-! PROOF. A block under a RE-READ claim (chapter 6): its target, the attempt that is counted, and what the entry becomes (R109, R112,
R113). -/

namespace Sys2Proof.Machine

/-! ## The target of a claim (R77, R98, R109) -/

/-- What a claim with target `a` makes of a block by its stamp. -/
def State.located (s : State) (tag : Tag) (b : PortBlock) (a : Nat) : Found :=
  stampLocate a ((s.taking tag b).info (s.taking tag b).bs.intake).stampStatus
    ((s.taking tag b).info (s.taking tag b).bs.intake).stamp s.bi.preceding

section

variable {s : State} {tag : Tag} {b : PortBlock} {a n : Nat}

theorem State.located_taken (h : goodAt b a ∨ ledTo s a) : s.located tag b a = .taken := by
  rw [State.located]
  rcases h with hg | hl
  · obtain ⟨hst, hs⟩ := State.stamp_taking (s := s) (tag := tag) hg
    rw [hst, hs, stampLocate_target]
  · obtain ⟨h0, hprev⟩ := ledTo_iff.1 hl
    exact stampLocate_led h0 hprev

theorem State.located_other (hg : goodAt b n) (hn : n ≠ a) (hl : ¬ ledTo s a) :
    s.located tag b a = if a < n then .overshoot else .notTaken := by
  obtain ⟨hst, hs⟩ := State.stamp_taking (s := s) (tag := tag) hg
  rw [State.located, hst, hs]
  exact stampLocate_stamped hn fun h => hl (ledTo_iff.2 h)

theorem State.located_before (hg : goodAt b n) (hn : n < a) (hl : ¬ ledTo s a) : s.located tag b a = .notTaken :=
  (State.located_other hg hn.ne hl).trans (if_neg (Nat.not_lt.2 hn.le))

/-- A block past the target misses it, and so does one before it when `left` blocks, this one with them, may still be tested. -/
theorem State.located_missed {left : Nat} (hg : goodAt b n) (hn : a < n ∨ n < a ∧ left ≤ 1) (hl : ¬ ledTo s a) :
    s.located tag b a = .overshoot ∨ s.located tag b a = .notTaken ∧ left ≤ 1 := by
  rcases hn with hn | ⟨hn, hleft⟩
  · exact .inl ((State.located_other hg hn.ne' hl).trans (if_pos hn))
  · exact .inr ⟨State.located_before hg hn hl, hleft⟩

end

/-- A RE-READ or AUDIT claim of zone `z` with target `a` reads, and a bucket is free for the next block. -/
structure Targeting (s : State) (tag : Tag) (c : Claim) (z : ZoneId) (a : Nat) : Prop where
  reads     : ReadsFor s tag c
  ready     : s.bs.Ready
  kind      : c.kind = .reread ∨ c.kind = .audit
  same      : c.kind = tag.kind
  zone      : tag.zone = some z
  target    : tag.target = some a
  ownZone   : c.zone = some z
  ownTarget : c.target = some a

namespace Targeting

variable {s u r : State} {tag : Tag} {c : Claim} {z : ZoneId} {a : Nat} {b : PortBlock}

theorem closes (h : Targeting s tag c z a) (hd : u.da = s.da) : u.closeClaim .ended = u.readingOver .ended :=
  (h.reads.toReadingUnder.congr hd).closeClaim_target h.kind

/-- Reading goes on: nothing but the block timer and the intake's memory of stamps is not as the routing left it. -/
theorem goesOn (h : Targeting s tag c z a) (hr : (s.taking tag b).route tag = u) (hu : Unmoved s u) :
    readingGoesOn s (s.present b) ∧ ∃ da bi, s.present b = { u with da := da, bi := bi } := by
  obtain ⟨bi, he, hbi⟩ := h.reads.present_goesOn h.ready hr hu.da hu.bi
  rw [he]
  exact ⟨⟨hu.stands, hu.zc, hbi, rfl⟩, _, _, rfl⟩

/-- The claim is over. -/
theorem isOver (h : Targeting s tag c z a) (hr : (s.taking tag b).route tag = r) (hda : r.da = (s.readingOver .ended).da)
    (hbi : r.bi = s.bi.close .ended) : claimOver (s.present b) ∧ ∃ da bi, s.present b = { r with da := da, bi := bi } := by
  have hdead : r.tagLive = false := by
    rw [State.tagLive, hbi]
    exact s.tagLive_readingOver (by decide)
  obtain ⟨bi, he, hl⟩ := h.reads.present_over h.ready hr hda hdead
  rw [he] at hl ⊢
  exact ⟨⟨rfl, rfl, rfl, hl⟩, _, _, rfl⟩

/-- A block discarded leaves the pool's places. -/
theorem discarded (h : Targeting s tag c z a) (b : PortBlock) : Unmoved s (s.taking tag b).discard :=
  ⟨rfl, rfl, rfl, rfl, (State.chains_discard_taking h.ready tag b).chain, (State.chains_discard_taking h.ready tag b).anchor⟩

end Targeting

/-! ## An attempt counted (R112, R113) -/

/-- The block in bucket `k`, at address `a` of zone `z`, has been read once more, and so has its entry (R112). -/
def State.attempted (s : State) (z : ZoneId) (a k : Nat) : State :=
  (s.modBs fun st => st.modInfo k fun r => { r with readCount := r.readCount + 1 }).modList z fun l =>
    l.map fun e => if e.addr = a then { e with reads := e.reads + 1 } else e

/-- Writing what is no expected address of the chain's blocks leaves the positions. -/
theorem State.posOf_modInfo {s : State} {f : BlockRec → BlockRec} (hw : s.bs.wf = true) (hf : ∀ r, (f r).expected = r.expected)
    (k : Nat) (z : ZoneId) (a : Nat) : (s.modBs fun st => st.modInfo k f).posOf z a = s.posOf z a := by
  refine State.posOf_congr (s.bs.chainOf_setBucket _ _ _) (fun j _ => ?_) a
  by_cases hj : j = k
  · subst hj
    exact (congrArg (·.info.expected) (Store.bucket_modInfo hw j f)).trans (hf _)
  · exact congrArg (·.info.expected) (Store.bucket_setBucket_ne s.bs _ hj)

theorem State.bucketAt_modInfo (s : State) (k : Nat) (f : BlockRec → BlockRec) (z : ZoneId) (p : Nat) :
    (s.modBs fun st => st.modInfo k f).bucketAt z p = s.bucketAt z p := State.bucketAt_congr (s.bs.chainOf_setBucket _ _ _) p

section

variable {s : State} {z : ZoneId} {a p : Nat} (hw : s.bs.wf = true) (hp : s.posOf z a = some p)

include hw hp

/-- The counted block's record decides what becomes of the entry. -/
theorem State.countAttempt_eq : s.countAttempt z a =
    if isBad s.params.patchLimit (s.info (s.bucketAt z p)) = false then (s.attempted z a (s.bucketAt z p)).dropEntry z a
    else if s.cap z a ≤ (s.info (s.bucketAt z p)).readCount + 1 then (s.attempted z a (s.bucketAt z p)).exhaustEntry z a
    else s.attempted z a (s.bucketAt z p) := by
  have hi : (s.attempted z a (s.bucketAt z p)).info (s.bucketAt z p) =
      { s.info (s.bucketAt z p) with readCount := (s.info (s.bucketAt z p)).readCount + 1 } :=
    congrArg Bucket.info (Store.bucket_modInfo hw _ _)
  have hbad : isBad s.params.patchLimit ((s.attempted z a (s.bucketAt z p)).info (s.bucketAt z p)) =
      isBad s.params.patchLimit (s.info (s.bucketAt z p)) := by rw [hi]; rfl
  have he : s.countAttempt z a =
      if (!isBad s.params.patchLimit ((s.attempted z a (s.bucketAt z p)).info (s.bucketAt z p))) = true then
        (s.attempted z a (s.bucketAt z p)).dropEntry z a
      else if s.cap z a ≤ ((s.attempted z a (s.bucketAt z p)).info (s.bucketAt z p)).readCount then
        (s.attempted z a (s.bucketAt z p)).exhaustEntry z a
      else s.attempted z a (s.bucketAt z p) := by
    simp only [State.countAttempt, hp]
    rfl
  rw [he, hbad, hi]
  simp only [Bool.not_eq_true']

end

/-- An entry on which a RE-READ claim reads leaves the list, and the claim is over. -/
theorem ReadingUnder.dropEntry {s : State} {z : ZoneId} {a p : Nat} {c : Claim} (h : ReadingUnder s c) (hk : c.kind = .reread)
    (hz : c.zone = some z) (ha : c.target = some a) (hp : s.posOf z a = some p) : s.dropEntry z a = { s.readingOver .ended with
      bs := s.bs.modInfo (s.bucketAt z p) fun r => { r with listed := false }
      ru := { s.ru with lists := s.ru.lists.mod z fun l => l.filter fun e => decide (e.addr ≠ a) } } := by
  let u := (s.modBs fun st => st.modInfo (s.bucketAt z p) fun r => { r with listed := false }).modList z fun l =>
    l.filter fun e => decide (e.addr ≠ a)
  have hu : ReadingUnder u c := h.congr rfl
  have hc : s.dropEntry z a = if u.claimOn .reread z a = true then u.closeClaim .ended else u := by
    simp only [State.dropEntry, State.clearListed, hp]
    rfl
  have hon : u.claimOn .reread z a = true := by simp [State.claimOn, hu.liveClaim, hk, hz, ha]
  rw [hc, if_pos hon, hu.closeClaim_target (.inl hk)]
  rfl

/-- The entry that leaves is the one that was counted. -/
theorem filter_map_reads (l : List Entry) (a : Nat) :
    ((l.map fun e => if e.addr = a then { e with reads := e.reads + 1 } else e).filter fun e => decide (e.addr ≠ a)) =
      l.filter fun e => decide (e.addr ≠ a) := by
  induction l with
  | nil => rfl
  | cons e l ih =>
    by_cases he : e.addr = a
    · simp [he] at ih ⊢
      exact ih
    · simp [he] at ih ⊢
      exact ih

/-- A region of one block is recorded in the zone's selected record, and nothing else changes. -/
theorem State.markDefect_records (s : State) (z : ZoneId) (k : DefectKind) (a : Nat) : ∃ dd, s.markDefect z k a = { s with dd := dd } ∧
    ∀ i d, (s.zone z).selected = some i → s.record i = some d →
      dd.records[i]? = some (if a ≤ 479999 then { d with defects := insertRegion d.defects ⟨a, a, k, 1⟩ } else d) := by
  unfold State.markDefect State.modSelRec State.record
  by_cases ha : a ≤ 479999
  · cases hz : (s.zone z).selected with
    | none => exact ⟨s.dd, by simp [ha], nofun⟩
    | some j =>
      refine ⟨_, by rw [if_pos ha]; rfl, fun i d hi hd => ?_⟩
      obtain rfl : j = i := Option.some.inj hi
      simp [Directory.modRecord, hd, ha]
  · exact ⟨s.dd, by simp [ha], fun i d _ hd => by simp [ha, hd]⟩

/-- A counted attempt of the block in bucket `k`, at address `a` of zone `z`, has left the state `t`, and its claim is over. -/
structure AttemptOver (s : State) (z : ZoneId) (a k : Nat) (t : State) : Prop where
  part    : ∃ mem ru dd, t = { s.readingOver .ended with bs := { s.bs with mem := mem }, ru := ru, dd := dd }
  block   : ∃ l, t.bs.bucket k =
    { s.bs.bucket k with info := { s.info k with readCount := (s.info k).readCount + 1, listed := l } } ∧
    (isBad s.params.patchLimit (s.info k) = false ∨ s.cap z a ≤ (s.info k).readCount + 1 → l = false)
  dropped : isBad s.params.patchLimit (s.info k) = false ∨ s.cap z a ≤ (s.info k).readCount + 1 →
    t.ru.lists.get z = (s.ru.lists.get z).filter fun e => decide (e.addr ≠ a)
  kept    : isBad s.params.patchLimit (s.info k) = true → (s.info k).readCount + 1 < s.cap z a →
    t.ru.lists.get z = (s.ru.lists.get z).map fun e => if e.addr = a then { e with reads := e.reads + 1 } else e
  record  : ∀ i d, (s.zone z).selected = some i → s.record i = some d → t.record i = some
    (if isBad s.params.patchLimit (s.info k) = true ∧ s.cap z a ≤ (s.info k).readCount + 1 ∧ a ≤ 479999 then
      { d with defects := insertRegion d.defects ⟨a, a, .unreadable, 1⟩ } else d)

/-- The attempt of a RE-READ claim is counted, and its claim is over. -/
theorem ReadingUnder.countAttempt {s : State} {c : Claim} {z : ZoneId} {a p : Nat} (h : ReadingUnder s c) (hk : c.kind = .reread)
    (hz : c.zone = some z) (ha : c.target = some a) (hw : s.bs.wf = true) (hp : s.posOf z a = some p) :
    AttemptOver s z a (s.bucketAt z p) ((s.countAttempt z a).closeClaim .ended) := by
  rw [State.countAttempt_eq hw hp]
  generalize hkb : s.bucketAt z p = k
  let f : BlockRec → BlockRec := fun r => { r with readCount := r.readCount + 1 }
  have hu : ReadingUnder (s.attempted z a k) c := h.congr rfl
  have huw : (s.attempted z a k).bs.wf = true := Store.wf_setBucket _ _ hw
  have hup : (s.attempted z a k).posOf z a = some p := (State.posOf_modInfo (f := f) hw (fun _ => rfl) k z a).trans hp
  have huk : (s.attempted z a k).bucketAt z p = k := (s.bucketAt_modInfo k f z p).trans hkb
  have hub : (s.attempted z a k).bs.bucket k = { s.bs.bucket k with info := f (s.info k) } := Store.bucket_modInfo hw k f
  have hdrop := hu.dropEntry hk hz ha hup
  rw [huk] at hdrop
  have hblock : ((s.attempted z a k).dropEntry z a).bs.bucket k =
      { s.bs.bucket k with info := { s.info k with readCount := (s.info k).readCount + 1, listed := false } } := by
    rw [hdrop]
    refine (Store.bucket_modInfo huw k _).trans ?_
    rw [hub]
  have hlist : ((s.attempted z a k).dropEntry z a).ru.lists.get z = (s.ru.lists.get z).filter fun e => decide (e.addr ≠ a) := by
    rw [hdrop]
    have hmap : (s.attempted z a k).ru.lists.get z = _ := Pair.get_mod_self s.ru.lists z _
    exact (Pair.get_mod_self _ z _).trans ((congrArg (List.filter _) hmap).trans (filter_map_reads _ a))
  have hgone : ((s.attempted z a k).dropEntry z a).liveClaim = none := by rw [hdrop]; rfl
  by_cases hgood : isBad s.params.patchLimit (s.info k) = false
  · rw [if_pos hgood, State.closeClaim_none hgone]
    refine ⟨⟨_, _, s.dd, hdrop⟩, ⟨false, hblock, fun _ => rfl⟩, fun _ => hlist, fun hb => absurd hgood (by rw [hb]; decide), fun i d _ hd => ?_⟩
    rw [if_neg fun hb => absurd hgood (by rw [hb.1]; decide), ← hd, hdrop]
    rfl
  · have hbad : isBad s.params.patchLimit (s.info k) = true := by simpa using hgood
    rw [if_neg hgood]
    by_cases hcap : s.cap z a ≤ (s.info k).readCount + 1
    · obtain ⟨dd, hdd, hrec⟩ := ((s.attempted z a k).dropEntry z a).markDefect_records z .unreadable a
      have hex : (s.attempted z a k).exhaustEntry z a = { (s.attempted z a k).dropEntry z a with dd := dd } := hdd
      rw [if_pos hcap, hex, State.closeClaim_none (s := { (s.attempted z a k).dropEntry z a with dd := dd }) hgone]
      refine ⟨⟨_, _, dd, by rw [hdrop]; rfl⟩, ⟨false, hblock, fun _ => rfl⟩, fun _ => hlist, fun _ hlt => absurd hcap (Nat.not_le.2 hlt),
        fun i d hi hd => ?_⟩
      have hr := hrec i d (by rw [hdrop]; exact hi) (by rw [hdrop]; exact hd)
      simp only [hbad, hcap, true_and]
      exact hr
    · have hcl : (s.attempted z a k).closeClaim .ended = (s.attempted z a k).readingOver .ended := hu.closeClaim_target (.inl hk)
      rw [if_neg hcap, hcl]
      refine ⟨⟨_, _, s.dd, rfl⟩, ⟨(s.info k).listed, hub, fun hl => hl.elim (absurd · hgood) (absurd · hcap)⟩,
        fun hl => hl.elim (absurd · hgood) (absurd · hcap), fun _ _ => Pair.get_mod_self s.ru.lists z _, fun i d _ hd => ?_⟩
      rw [if_neg fun hb => hcap hb.2.1]
      exact hd

/-! ## A block under a RE-READ claim (R109) -/

theorem State.cap_congr {s t : State} (hz : t.zc = s.zc) (hd : t.dd = s.dd) (z : ZoneId) (a : Nat) : t.cap z a = s.cap z a := by
  have hrec : t.record = s.record := congrArg (fun d : Directory => fun i => d.records[i]?) hd
  have hr : t.selRec z = s.selRec z := by rw [State.selRec, State.selRec, State.zone, State.zone, hz, hrec]
  rw [State.cap, State.cap, State.defects, State.defects, hr]

/-- The block in bucket `k`, at address `a` of zone `z`, which an attempt has made `m`, is counted, and the claim is over: the entry
is recovered, exhausted or kept (R112, R113). -/
def recounted (s t : State) (z : ZoneId) (a k : Nat) (m : Bucket) : Prop :=
  claimOver t ∧ poolStands s t ∧ t.zc = s.zc ∧ (t.bs.bucket k).samples = m.samples ∧ (t.bs.bucket k).flags = m.flags ∧
  (t.info k).readCount = m.info.readCount + 1 ∧
  ((isBad s.params.patchLimit m.info = false ∨ s.cap z a ≤ m.info.readCount + 1) → (t.info k).listed = false ∧
    t.ru.lists.get z = (s.ru.lists.get z).filter fun y => decide (y.addr ≠ a)) ∧
  (isBad s.params.patchLimit m.info = true → m.info.readCount + 1 < s.cap z a →
    t.ru.lists.get z = (s.ru.lists.get z).map fun y => if y.addr = a then { y with reads := y.reads + 1 } else y) ∧
  ∀ i d, (s.zone z).selected = some i → s.record i = some d → t.record i = some
    (if isBad s.params.patchLimit m.info = true ∧ s.cap z a ≤ m.info.readCount + 1 ∧ a ≤ 479999 then
      { d with defects := insertRegion d.defects ⟨a, a, .unreadable, 1⟩ } else d)

namespace Targeting

variable {s v : State} {tag : Tag} {c : Claim} {z : ZoneId} {a p k n : Nat} {b : PortBlock} {m : Bucket}

theorem recounts (h : Targeting s tag c z a) (hk : c.kind = .reread)
    (hr : (s.taking tag b).route tag = (v.countAttempt z a).closeClaim .ended) (hu : Unmoved s v) (hd : v.dd = s.dd)
    (hl : v.ru.lists = s.ru.lists) (hw : v.bs.wf = true) (hp : v.posOf z a = some p) (hb : v.bucketAt z p = k)
    (hm : v.bs.bucket k = m) : recounted s (s.present b) z a k m := by
  have hover := (h.reads.toReadingUnder.congr hu.da).countAttempt hk h.ownZone h.ownTarget hw hp
  have hi : v.info k = m.info := congrArg Bucket.info hm
  rw [hb] at hover
  obtain ⟨⟨mem, ru, dd, hpart⟩, ⟨l, hblock, hlisted⟩, hdropped, hkept, hrecord⟩ := hover
  rw [hi, hu.params, State.cap_congr hu.zc hd] at hlisted hdropped hkept hrecord
  rw [hm, hi] at hblock
  have hda : ((v.countAttempt z a).closeClaim .ended).da = (s.readingOver .ended).da := by
    rw [hpart]
    simp only [State.readingOver, hu.da]
  have hbi : ((v.countAttempt z a).closeClaim .ended).bi = s.bi.close .ended := by
    rw [hpart, ← hu.bi]
    rfl
  obtain ⟨ho, da, bi, he⟩ := h.isOver hr hda hbi
  have hzone : v.zone z = s.zone z := congrArg (Pair.get · z) hu.zc
  have hrec : v.record = s.record := congrArg (fun d : Directory => fun i => d.records[i]?) hd
  rw [hl] at hdropped hkept
  rw [hzone, hrec] at hrecord
  have hbs : ((v.countAttempt z a).closeClaim .ended).bs = { v.bs with mem := mem } := by rw [hpart]
  have hzc : ((v.countAttempt z a).closeClaim .ended).zc = s.zc := by
    rw [hpart]
    exact hu.zc
  rw [he] at ho ⊢
  refine ⟨ho, fun w => ?_, hzc, (congrArg Bucket.samples hblock :), (congrArg Bucket.flags hblock :),
    (congrArg (·.info.readCount) hblock :), fun hout => ⟨?_, hdropped hout⟩, hkept, hrecord⟩
  · obtain ⟨hc, ha⟩ := hu.stands w
    exact ⟨(congrArg (fun bs : Store => bs.chain.get w) hbs).trans hc, (congrArg (fun bs : Store => bs.anchor.get w) hbs).trans ha⟩
  · exact ((congrArg (·.info.listed) hblock :)).trans (hlisted hout)

/-- The block is routed to the claim's target. -/
theorem route_reread (h : Targeting s tag c z a) (hk : c.kind = .reread) :
    (s.taking tag b).route tag = (s.taking tag b).rereadBlock z a s.bi.preceding := by
  have ht : tag.kind = .reread := h.same ▸ hk
  simp only [State.route, ht, h.zone, h.target, Option.getD_some]
  rfl

variable (h : Targeting s tag c z a) (hk : c.kind = .reread)

include h hk

theorem reread_kept (hf : s.located tag b a = .notTaken) (hl : 2 ≤ s.ru.left) :
    readingGoesOn s (s.present b) ∧ (s.present b).ru = { s.ru with left := s.ru.left - 1 } := by
  have hr : (s.taking tag b).route tag = ((s.taking tag b).modRu fun u => { u with left := u.left - 1 }).discard := by
    have hl' : ¬ ((s.taking tag b).modRu fun u => { u with left := u.left - 1 }).ru.left = 0 := by
      show ¬ s.ru.left - 1 = 0
      omega
    rw [h.route_reread hk]
    unfold State.located at hf
    simp only [State.rereadBlock, hf]
    exact if_neg hl'
  obtain ⟨hgo, da, bi, he⟩ := h.goesOn hr ⟨rfl, rfl, rfl, rfl, (h.discarded b).chain, (h.discarded b).anchor⟩
  exact ⟨hgo, by rw [he]; rfl⟩

variable (hp : s.posOf z a = some p)

include hp

/-- An attempt that has found no copy is counted. -/
theorem reread_missed (hf : s.located tag b a = .overshoot ∨ s.located tag b a = .notTaken ∧ s.ru.left ≤ 1) :
    recounted s (s.present b) z a (s.bucketAt z p) (s.bs.bucket (s.bucketAt z p)) := by
  have hr : (s.taking tag b).route tag =
      ((((s.taking tag b).modRu fun u => { u with left := u.left - 1 }).discard).countAttempt z a).closeClaim .ended := by
    rw [h.route_reread hk]
    unfold State.located at hf
    rcases hf with hf | ⟨hf, hl⟩
    · simp only [State.rereadBlock, hf]
    · have hl' : ((s.taking tag b).modRu fun u => { u with left := u.left - 1 }).ru.left = 0 := by
        show s.ru.left - 1 = 0
        omega
      simp only [State.rereadBlock, hf]
      exact if_pos hl'
  have hch := State.chains_discard_taking h.ready tag b
  exact h.recounts hk hr ⟨rfl, rfl, rfl, rfl, (h.discarded b).chain, (h.discarded b).anchor⟩ rfl rfl
    (Store.sound_discard (State.sound_taking h.ready tag b)).1 ((hch.posOf z a).trans hp) (hch.bucketAt z p) (hch.bucket hp)

/-- The copy of a target behind the head is merged, unless too much of it disagrees, and the attempt is counted. -/
theorem reread_taken (h0 : p ≠ 0) (hf : s.located tag b a = .taken) : recounted s (s.present b) z a (s.bucketAt z p)
    (if 8 < disagreements (s.bs.bucket (s.bucketAt z p)).samples (s.bs.bucket (s.bucketAt z p)).flags (copyOf b).samples (copyOf b).flags
      then s.bs.bucket (s.bucketAt z p) else mergeBlock (s.bs.bucket (s.bucketAt z p)) (copyOf b)) := by
  obtain ⟨q, rfl⟩ := Nat.exists_eq_succ_of_ne_zero h0
  let u := (s.taking tag b).modRu fun u => { u with left := u.left - 1 }
  have hch : ChainsStand s (s.taking tag b) := State.chains_taking h.ready tag b
  have hup : u.posOf z a = some (q + 1) := (hch.posOf z a).trans hp
  have hub : u.bucketAt z (q + 1) = s.bucketAt z (q + 1) := hch.bucketAt z (q + 1)
  have huk : u.bs.bucket (s.bucketAt z (q + 1)) = s.bs.bucket (s.bucketAt z (q + 1)) := hch.bucket hp
  have hui : u.bs.bucket u.bs.intake = measured b (s.recordedTrack tag b.track) := s.bucket_taking tag b
  have hr : (s.taking tag b).route tag = (u.mergeCopy z a).closeClaim .ended := by
    rw [h.route_reread hk]
    unfold State.located at hf
    simp only [State.rereadBlock, hf]
    rfl
  have hmc : u.mergeCopy z a = if 8 < disagreements (s.bs.bucket (s.bucketAt z (q + 1))).samples
      (s.bs.bucket (s.bucketAt z (q + 1))).flags (copyOf b).samples (copyOf b).flags then u.discard.countAttempt z a
      else (u.mergeInto (s.bucketAt z (q + 1))).countAttempt z a := by
    simp only [State.mergeCopy, hup, hub, huk, hui]
    rfl
  rw [hmc] at hr
  split at hr
  · next hdis =>
    rw [if_pos hdis]
    have hd := State.chains_discard_taking h.ready tag b
    exact h.recounts hk hr ⟨rfl, rfl, rfl, rfl, (h.discarded b).chain, (h.discarded b).anchor⟩ rfl rfl
      (Store.sound_discard (State.sound_taking h.ready tag b)).1 ((hd.posOf z a).trans hp) (hd.bucketAt z _) (hd.bucket hp)
  · next hdis =>
    rw [if_neg hdis]
    obtain ⟨hsound, hlist, hchain, hanchor, hblock, hrest⟩ :=
      State.mergeInto_spec (s := u) (State.sound_taking h.ready tag b) (s.bucketAt z (q + 1))
    obtain ⟨x, y, d, hinfo⟩ := mergeBlock_info (u.bs.bucket (s.bucketAt z (q + 1))) (u.bs.bucket u.bs.intake)
    have hpos : (u.mergeInto (s.bucketAt z (q + 1))).posOf z a = u.posOf z a := by
      refine State.posOf_congr (hlist z) (fun j _ => ?_) a
      by_cases hj : j = s.bucketAt z (q + 1)
      · rw [hj, State.info, hblock, hinfo]
        rfl
      · exact congrArg (·.info.expected) (hrest j hj)
    refine h.recounts hk hr ⟨rfl, rfl, rfl, rfl, hchain, hanchor⟩ rfl rfl hsound.1 (hpos.trans hup)
      ((State.bucketAt_congr (hlist z) _).trans hub) ?_
    rw [hblock, huk, hui]
    exact mergeBlock_congr rfl rfl

end Targeting

end Sys2Proof.Machine
end

section
/-! PROOF. A block under an AUDIT claim (chapter 5): an audit that its target has left, one that goes on, one that has missed its
target, and one whose copy is compared (R98 to R101). -/

namespace Sys2Proof.Machine

/-- The rows of the agreement of a comparison (R101). -/
theorem agrees_iff {ce : Nat × Nat} (h : 240 ≤ ce.1) : agrees ce = true ↔ 15 * ce.1 ≤ 16 * ce.2 := by simp [agrees, h]

/-- The claim is over, and the chains and the zones stand. -/
def auditEnds (s t : State) : Prop := claimOver t ∧ poolStands s t ∧ t.zc = s.zc

namespace Targeting

variable {s u : State} {tag : Tag} {c : Claim} {z : ZoneId} {a : Nat} {b : PortBlock}

/-- The block is routed to the claim's target. -/
theorem route_audit (h : Targeting s tag c z a) (hk : c.kind = .audit) :
    (s.taking tag b).route tag = (s.taking tag b).auditBlock z a s.bi.preceding := by
  have ht : tag.kind = .audit := h.same ▸ hk
  simp only [State.route, ht, h.zone, h.target, Option.getD_some]
  rfl

/-- The claim is over, and what `u` has of the zones and of the pool's places is not changed. -/
theorem ends (h : Targeting s tag c z a) {r : State} (hr : (s.taking tag b).route tag = r) (hu : Unmoved s u)
    (hpart : ∃ mem lu, r = { u.readingOver .ended with bs := { u.bs with mem := mem }, lu := lu }) :
    auditEnds s (s.present b) ∧ ∃ da bi, s.present b = { r with da := da, bi := bi } := by
  obtain ⟨mem, lu, hp⟩ := hpart
  obtain ⟨ho, da, bi, he⟩ := h.isOver hr (by rw [hp]; simp only [State.readingOver, hu.da])
    (by rw [hp]; simp only [State.readingOver, hu.bi])
  refine ⟨⟨ho, fun w => ?_, ?_⟩, da, bi, he⟩
  · rw [he, hp]
    exact hu.stands w
  · rw [he, hp]
    exact hu.zc

variable (h : Targeting s tag c z a) (hk : c.kind = .audit)

include h hk

/-- The target has left the chain. -/
theorem audit_left (hq : s.posOf z a = none) : auditEnds s (s.present b) ∧
    (s.present b).lu.audit.get z =
      if (s.lu.audit.get z).target = some a then { s.lu.audit.get z with target := none } else s.lu.audit.get z := by
  have hp : (s.taking tag b).posOf z a = none := ((State.chains_taking h.ready tag b).posOf z a).trans hq
  have hcl : (s.taking tag b).discard.closeClaim .ended = (s.taking tag b).discard.readingOver .ended := h.closes rfl
  have hr : (s.taking tag b).route tag = ((s.taking tag b).discard.readingOver .ended).modAudit z fun u =>
      if u.target = some a then { u with target := none } else u := by
    rw [h.route_audit hk]
    simp only [State.auditBlock, hp, hcl]
  obtain ⟨hends, da, bi, he⟩ := h.ends hr (h.discarded b) ⟨_, _, rfl⟩
  refine ⟨hends, ?_⟩
  rw [he]
  exact Pair.get_mod_self _ z _

variable {q : Nat} (hq : s.posOf z a = some q)

include hq

theorem audit_kept (hf : s.located tag b a = .notTaken) (hl : 2 ≤ s.lu.auditLeft) :
    readingGoesOn s (s.present b) ∧ (s.present b).lu = { s.lu with auditLeft := s.lu.auditLeft - 1 } := by
  have hp : (s.taking tag b).posOf z a = some q := ((State.chains_taking h.ready tag b).posOf z a).trans hq
  have hr : (s.taking tag b).route tag = ((s.taking tag b).modLu fun u => { u with auditLeft := u.auditLeft - 1 }).discard := by
    have hl' : ¬ ((s.taking tag b).modLu fun u => { u with auditLeft := u.auditLeft - 1 }).lu.auditLeft = 0 := by
      show ¬ s.lu.auditLeft - 1 = 0
      omega
    rw [h.route_audit hk]
    unfold State.located at hf
    simp only [State.auditBlock, hp, hf]
    exact if_neg hl'
  obtain ⟨hgo, da, bi, he⟩ := h.goesOn hr ⟨rfl, rfl, rfl, rfl, (h.discarded b).chain, (h.discarded b).anchor⟩
  exact ⟨hgo, by rw [he]; rfl⟩

/-- An audit that has missed its target stays pending. -/
theorem audit_missed (hf : s.located tag b a = .overshoot ∨ s.located tag b a = .notTaken ∧ s.lu.auditLeft ≤ 1) :
    auditEnds s (s.present b) ∧ (s.present b).lu.audit = s.lu.audit := by
  let u := ((s.taking tag b).modLu fun u => { u with auditLeft := u.auditLeft - 1 }).discard
  have hp : (s.taking tag b).posOf z a = some q := ((State.chains_taking h.ready tag b).posOf z a).trans hq
  have hcl : u.closeClaim .ended = u.readingOver .ended := h.closes rfl
  have hr : (s.taking tag b).route tag = u.readingOver .ended := by
    rw [h.route_audit hk, ← hcl]
    unfold State.located at hf
    rcases hf with hf | ⟨hf, hl⟩
    · simp only [State.auditBlock, hp, hf]
      rfl
    · have hl' : ((s.taking tag b).modLu fun u => { u with auditLeft := u.auditLeft - 1 }).lu.auditLeft = 0 := by
        show s.lu.auditLeft - 1 = 0
        omega
      simp only [State.auditBlock, hp, hf]
      exact if_pos hl'
  have hu : Unmoved s u := ⟨rfl, rfl, rfl, rfl, (h.discarded b).chain, (h.discarded b).anchor⟩
  obtain ⟨hends, da, bi, he⟩ := h.ends hr hu ⟨_, _, rfl⟩
  exact ⟨hends, by rw [he]; rfl⟩

end Targeting

/-! ## The comparison (R100, R101) -/

/-- The part when the copy of an audit's target has been compared: the block is discarded, and the claim is over. -/
def State.audited (s : State) (tag : Tag) (b : PortBlock) : State :=
  ((s.taking tag b).modLu fun u => { u with auditLeft := u.auditLeft - 1 }).discard.readingOver .ended

namespace Targeting

variable {s : State} {tag : Tag} {c : Claim} {z : ZoneId} {a q : Nat} {b : PortBlock} (h : Targeting s tag c z a)

include h

/-- With the claim over, the chains are as they were. -/
theorem audited_stands : ChainsStand s (s.audited tag b) :=
  let hd := State.chains_discard_taking h.ready tag b
  ⟨hd.chain, hd.anchor, hd.list, hd.block⟩

variable (hk : c.kind = .audit) (hq : s.posOf z a = some q) (hf : s.located tag b a = .taken)

include hk hq hf

theorem route_compares {ce : Nat × Nat} (hce : dataCompare (s.bs.bucket (s.bucketAt z q)) (copyOf b) = ce) :
    (s.taking tag b).route tag = if ce.1 < 240 then s.audited tag b
      else if agrees ce = true then (s.audited tag b).auditPasses z (s.bucketAt z q) else (s.audited tag b).auditFails z a := by
  have hch := State.chains_taking h.ready tag b
  let u := (s.taking tag b).modLu fun u => { u with auditLeft := u.auditLeft - 1 }
  have hp : (s.taking tag b).posOf z a = some q := (hch.posOf z a).trans hq
  have hb : (s.taking tag b).bucketAt z q = s.bucketAt z q := hch.bucketAt z q
  have hcl : u.discard.closeClaim .ended = s.audited tag b := h.closes rfl
  have hui : u.bs.bucket u.bs.intake = measured b (s.recordedTrack tag b.track) := s.bucket_taking tag b
  have hcmp : dataCompare (u.bs.bucket (s.bucketAt z q)) (u.bs.bucket u.bs.intake) = ce := by
    have huk : u.bs.bucket (s.bucketAt z q) = s.bs.bucket (s.bucketAt z q) := hch.bucket hq
    rw [← hce, huk, hui]
    exact dataCompare_congr rfl rfl
  have hr : (s.taking tag b).auditBlock z a s.bi.preceding = u.auditCompare z a (s.bucketAt z q) := by
    unfold State.located at hf
    simp only [State.auditBlock, hp, hf, hb]
    rfl
  rw [h.route_audit hk, hr]
  simp only [State.auditCompare, hcmp, hcl]

theorem audit_few (hce : (dataCompare (s.bs.bucket (s.bucketAt z q)) (copyOf b)).1 < 240) :
    auditEnds s (s.present b) ∧ (s.present b).lu.audit = s.lu.audit := by
  have hr := h.route_compares hk hq hf rfl
  rw [if_pos hce] at hr
  have hu := h.discarded b
  obtain ⟨hends, da, bi, he⟩ := h.ends hr hu ⟨_, _, rfl⟩
  exact ⟨hends, by rw [he]; rfl⟩

theorem audit_passes (hce : 240 ≤ (dataCompare (s.bs.bucket (s.bucketAt z q)) (copyOf b)).1)
    (ha : 15 * (dataCompare (s.bs.bucket (s.bucketAt z q)) (copyOf b)).1 ≤
      16 * (dataCompare (s.bs.bucket (s.bucketAt z q)) (copyOf b)).2) :
    auditEnds s (s.present b) ∧ ((s.present b).info (s.bucketAt z q)).confirmed = true ∧
    (s.present b).lu.audit.get z = { s.lu.audit.get z with target := none, misses := 0, unverified := false } := by
  have hr := h.route_compares hk hq hf rfl
  rw [if_neg (Nat.not_lt.2 hce), if_pos ((agrees_iff hce).2 ha)] at hr
  have hu := h.discarded b
  obtain ⟨hends, da, bi, he⟩ := h.ends hr hu ⟨_, _, rfl⟩
  have hw : (s.audited tag b).bs.wf = true := (Store.sound_discard (State.sound_taking h.ready tag b)).1
  refine ⟨hends, ?_, ?_⟩
  · rw [he]
    exact congrArg (·.info.confirmed) (Store.bucket_modInfo hw (s.bucketAt z q) fun r => { r with confirmed := true })
  · rw [he]
    exact Pair.get_mod_self _ z _

end Targeting

/-! ## A copy that does not agree (R101) -/

section

variable {s w : State} {z : ZoneId} {a : Nat}

/-- A cut that finds no re-read under way leaves the drive and the intake. -/
theorem State.cutZone_quiet {e : Nat} {own : Bool} (hn : s.notRereading z) :
    (s.cutZone z e own).da = s.da ∧ (s.cutZone z e own).bi = s.bi := by
  cases hp : s.cutPos z e with
  | none =>
    have hc : s.cutZone z e own = s := by simp only [State.cutZone, hp]
    rw [hc]
    exact ⟨rfl, rfl⟩
  | some p =>
    obtain ⟨ru, aud, oc, hc, -⟩ := State.cutZone_spec own hp rfl hn
    rw [hc]
    exact ⟨rfl, rfl⟩

/-- The supply that a failed audit leaves is a matter of the zones, not of the drive. -/
theorem State.auditFailedSupply_quiet (v : Bool) :
    (s.auditFailedSupply z v).da = s.da ∧ (s.auditFailedSupply z v).bi = s.bi := by
  unfold State.auditFailedSupply
  split
  · split
    · obtain ⟨_, _, _, _, _, he⟩ := State.setSupply_spec (s := s) (z := z) (v := .resync) .noAnchor nofun
      rw [he]
      exact ⟨rfl, rfl⟩
    · obtain ⟨_, _, _, _, _, he⟩ := State.setSupply_spec (s := s) (z := z) (v := .rejoining) .auditFailed nofun
      rw [State.rejoin, he]
      exact ⟨rfl, rfl⟩
  · exact ⟨rfl, rfl⟩

theorem State.auditFails_quiet (hn : s.notRereading z) : (s.auditFails z a).da = s.da ∧ (s.auditFails z a).bi = s.bi := by
  obtain ⟨hd, hb⟩ := State.cutZone_quiet (e := a) (own := false) hn
  unfold State.auditFails
  dsimp only
  split
  · exact (State.auditFailedSupply_quiet _).imp (·.trans hd) (·.trans hb)
  · exact (State.auditFailedSupply_quiet _).imp (·.trans hd) (·.trans hb)

/-- The zone when the chain has been cut from position `p` and its audit has failed, before its supply is seen to. -/
structure AuditCut (s : State) (z : ZoneId) (p first : Nat) (w : State) : Prop where
  length : (w.bs.chain.get z).length = p
  zone   : w.zone z = { s.zone z with nextRead := some first }
  audit  : w.lu.audit.get z = { s.lu.audit.get z with target := none, commits := 0 }
  cl     : w.cl = s.cl
  params : w.params = s.params

/-- The cut of a failed audit. -/
theorem State.auditCut_spec {e p first : Nat} (hp : s.cutPos z e = some p) (h0 : p ≠ 0) (hl : p < s.fill z)
    (hf : (s.headAddr z).getD 0 + p = first) (hn : s.notRereading z) :
    AuditCut s z p first ((s.cutZone z e false).modAudit z fun u => { u with target := none, commits := 0 }) := by
  obtain ⟨ru, aud, oc, hc, t, ht⟩ := State.cutZone_spec false hp hf hn
  obtain ⟨hlen, -, -⟩ := Store.cut_fields (st := s.bs) h0 hl
  rw [hc]
  refine ⟨hlen, State.zone_modZone s z _, (Pair.get_mod_self _ z _).trans ?_, rfl, rfl⟩
  rw [ht]

/-- The supply of a zone whose audit has failed behind the head. -/
theorem AuditCut.rejoins {p first : Nat} (h : AuditCut s z p first w) :
    ((w.auditFailedSupply z false).bs.chain.get z).length = p ∧ ((w.auditFailedSupply z false).zone z).nextRead = some first ∧
    (w.auditFailedSupply z false).lu.audit.get z = { s.lu.audit.get z with target := none, commits := 0 } ∧
    ((s.zone z).supply = .feeding ∨ (s.zone z).supply = .ended →
      ((w.auditFailedSupply z false).zone z).supply = .rejoining ∧
      ∃ y, (w.auditFailedSupply z false).ctx z = some y ∧ y.stage = .waiting ∧ y.failed = 0 ∧ y.backoff = s.params.luBackoff) := by
  have hsup : (w.zone z).supply = (s.zone z).supply := by rw [h.zone]
  by_cases hs : (s.zone z).supply = .feeding ∨ (s.zone z).supply = .ended
  · have hne : (w.zone z).supply ≠ .rejoining := by rw [hsup]; rcases hs with hs | hs <;> rw [hs] <;> decide
    obtain ⟨x, p', oc, cl, n, hr, hst, hfail, hback, -⟩ := State.rejoin_spec .auditFailed hne
    have he : w.auditFailedSupply z false = (w.supplyTo z .rejoining p' oc cl n).setCtx z (some x) :=
      (if_pos (by rw [hsup]; exact hs)).trans ((if_neg Bool.false_ne_true).trans hr)
    have hz := State.zone_supplyTo (s := w) (z := z) .rejoining p' oc cl n
    have hn : (w.zone z).nextRead = some first := by rw [h.zone]
    rw [he]
    exact ⟨h.length, (congrArg Zone.nextRead hz :).trans hn, h.audit, fun _ => ⟨(congrArg Zone.supply hz :), x,
      State.ctx_setCtx _ z _, hst, hfail, hback.trans (congrArg Params.luBackoff h.params)⟩⟩
  · have he : w.auditFailedSupply z false = w := if_neg (by rw [hsup]; exact hs)
    rw [he]
    exact ⟨h.length, by rw [h.zone], h.audit, fun hs' => absurd hs' hs⟩

/-- The supply of a zone whose audit has failed at the head, with the notice of it. -/
theorem AuditCut.resyncs {p first : Nat} (h : AuditCut s z p first w) {t : State}
    (ht : t = (w.misstitchNotice z a).auditFailedSupply z true) :
    (t.bs.chain.get z).length = p ∧ (t.zone z).nextRead = some first ∧
    ((s.zone z).supply = .feeding ∨ (s.zone z).supply = .ended → (t.zone z).supply = .resync) ∧
    ((s.zone z).supply = .resync → t.cl = s.cl.notice ⟨0x77, zoneCode z :: be3 a⟩) := by
  have hsup : ((w.misstitchNotice z a).zone z).supply = (s.zone z).supply :=
    (congrArg Zone.supply h.zone :)
  by_cases hs : (s.zone z).supply = .feeding ∨ (s.zone z).supply = .ended
  · have hne : ((w.misstitchNotice z a).zone z).supply ≠ .resync := by
      rw [hsup]
      rcases hs with hs | hs <;> rw [hs] <;> decide
    obtain ⟨p', oc, cl, n, hr⟩ := State.setSupply_drops (v := .resync) .noAnchor rfl hne
    have he : t = _ := ht.trans ((if_pos (by rw [hsup]; exact hs)).trans ((if_pos rfl).trans hr))
    have hz := Pair.get_mod_self w.zc z fun r => { r with supply := .resync, play := p' }
    have hn : (w.zone z).nextRead = some first := by rw [h.zone]
    rw [he]
    exact ⟨h.length, (congrArg Zone.nextRead hz :).trans hn, fun _ => (congrArg Zone.supply hz :),
      fun hr => by rw [hr] at hs; rcases hs with hs | hs <;> cases hs⟩
  · have he : t = w.misstitchNotice z a := ht.trans (if_neg (by rw [hsup]; exact hs))
    have hn : ((w.misstitchNotice z a).zone z).nextRead = some first :=
      (congrArg Zone.nextRead h.zone :)
    rw [he]
    refine ⟨h.length, hn, fun hs' => absurd hs' hs, fun _ => ?_⟩
    rw [← h.cl]
    rfl

end

namespace Targeting

variable {s : State} {tag : Tag} {c : Claim} {z : ZoneId} {a q : Nat} {b : PortBlock} (h : Targeting s tag c z a)
  (hk : c.kind = .audit) (hq : s.posOf z a = some q) (hf : s.located tag b a = .taken)

theorem audited_notRereading (s : State) (tag : Tag) (b : PortBlock) (z : ZoneId) : (s.audited tag b).notRereading z :=
  fun x hx => nomatch (show none = some x from hx)

include h hk hq hf

/-- Whatever the comparison shows, the claim is over. -/
theorem audit_over : claimOver (s.present b) := by
  obtain ⟨hd, hb⟩ := State.auditFails_quiet (a := a) (audited_notRereading s tag b z)
  have hr := h.route_compares hk hq hf rfl
  split at hr
  · exact (h.isOver hr rfl rfl).1
  · split at hr
    · exact (h.isOver hr rfl rfl).1
    · exact (h.isOver hr hd hb).1

variable (hce : 240 ≤ (dataCompare (s.bs.bucket (s.bucketAt z q)) (copyOf b)).1)
  (ha : 16 * (dataCompare (s.bs.bucket (s.bucketAt z q)) (copyOf b)).2 <
    15 * (dataCompare (s.bs.bucket (s.bucketAt z q)) (copyOf b)).1)

include hce ha

theorem audit_fails : ∃ da bi, s.present b = { (s.audited tag b).auditFails z a with da := da, bi := bi } := by
  obtain ⟨hd, hb⟩ := State.auditFails_quiet (a := a) (audited_notRereading s tag b z)
  have hr := h.route_compares hk hq hf rfl
  rw [if_neg (Nat.not_lt.2 hce), if_neg fun hag => absurd ((agrees_iff hce).1 hag) (Nat.not_le.2 ha)] at hr
  exact (h.isOver hr hd hb).2

/-- A target behind the head: the chain is cut from it, and the zone joins it again. -/
theorem audit_rejoins {hd : Nat} (hh : s.headAddr z = some hd) (hlt : hd < a) (hfill : a - hd < s.fill z) :
    ((s.present b).bs.chain.get z).length = a - hd ∧ ((s.present b).zone z).nextRead = some a ∧
    (s.present b).lu.audit.get z = { s.lu.audit.get z with target := none, commits := 0 } ∧
    ((s.zone z).supply = .feeding ∨ (s.zone z).supply = .ended → ((s.present b).zone z).supply = .rejoining ∧
      ∃ y, (s.present b).ctx z = some y ∧ y.stage = .waiting ∧ y.failed = 0 ∧ y.backoff = s.params.luBackoff) := by
  have hst := h.audited_stands (b := b)
  have hhead : (s.audited tag b).headAddr z = some hd := (hst.headAddr z).trans hh
  have hfa : a - hd < (s.audited tag b).fill z := by rw [hst.fill]; exact hfill
  obtain ⟨da, bi, he⟩ := h.audit_fails hk hq hf hce ha
  have hcut := (State.auditCut_spec (first := a) (State.cutPos_behind hhead hlt hfa) (by omega) hfa
    (by rw [hhead]; show hd + (a - hd) = a; omega) (audited_notRereading s tag b z)).rejoins
  have hfails : (s.audited tag b).auditFails z a = (((s.audited tag b).cutZone z a false).modAudit z
      fun u => { u with target := none, commits := 0 }).auditFailedSupply z false := by
    have hno : decide ((s.audited tag b).headAddr z = some a) = false := by
      rw [hhead]
      exact decide_eq_false fun h => absurd (Option.some.inj h) hlt.ne
    simp only [State.auditFails, hno]
    rfl
  rw [← hfails] at hcut
  rw [he]
  exact hcut

/-- A target at the head: the chain is cut behind it, and the zone is out of step. -/
theorem audit_resyncs (hh : s.headAddr z = some a) (hfill : 2 ≤ s.fill z) :
    ((s.present b).bs.chain.get z).length = 1 ∧ ((s.present b).zone z).nextRead = some (a + 1) ∧
    ((s.zone z).supply = .feeding ∨ (s.zone z).supply = .ended → ((s.present b).zone z).supply = .resync) ∧
    ((s.zone z).supply = .resync → (s.present b).cl = s.cl.notice ⟨0x77, zoneCode z :: be3 a⟩) := by
  have hst := h.audited_stands (b := b)
  have hhead : (s.audited tag b).headAddr z = some a := (hst.headAddr z).trans hh
  have hfa : 2 ≤ (s.audited tag b).fill z := by rw [hst.fill]; exact hfill
  obtain ⟨da, bi, he⟩ := h.audit_fails hk hq hf hce ha
  have hfails : (s.audited tag b).auditFails z a = ((((s.audited tag b).cutZone z a false).modAudit z
      fun u => { u with target := none, commits := 0 }).misstitchNotice z a).auditFailedSupply z true := by
    simp only [State.auditFails, hhead, decide_true, if_true]
  have hcut := (State.auditCut_spec (State.cutPos_head hhead hfa) Nat.one_ne_zero hfa
    (by rw [hhead, Option.getD_some]) (audited_notRereading s tag b z)).resyncs hfails
  rw [he]
  exact hcut

end Targeting

end Sys2Proof.Machine
end

section
/-! PROOF. A merge, sample by sample (chapter 1); a block under an IDENTIFICATION claim (chapter 8); and the statement on merges and on
RE-READ, AUDIT and IDENTIFICATION claims (O55). -/

namespace Sys2Proof.Machine

/-! ## Merges (R86, R110, R111) -/

/-- Nothing is filled where no erased sample has a copy. -/
theorem fillCount_eq_zero {fs gs : List Bool} (h : ∀ n, n < fs.length → ¬ (fs.getD n true = true ∧ gs.getD n true = false)) :
    fillCount fs gs = 0 := by
  induction fs generalizing gs with
  | nil => cases gs <;> rfl
  | cons f fs ih =>
    cases gs with
    | nil => rfl
    | cons g gs =>
      have h0 : ¬ (f = true ∧ g = false) := h 0 (Nat.succ_pos _)
      have ht := ih (gs := gs) fun n hn => h (n + 1) (Nat.succ_lt_succ hn)
      simp only [fillCount, ht]
      rw [if_neg (by simpa using h0)]

/-- Something is filled where an erased sample has a copy. -/
theorem fillCount_ne_zero {fs gs : List Bool} {n : Nat} (hn : n < fs.length) (hf : fs.getD n true = true)
    (hg : gs.getD n true = false) : fillCount fs gs ≠ 0 := by
  induction fs generalizing gs n with
  | nil => cases hn
  | cons f fs ih =>
    cases gs with
    | nil => cases hg
    | cons g gs =>
      cases n with
      | zero =>
        have h1 : f = true := hf
        have h2 : g = false := hg
        simp [fillCount, h1, h2]
      | succ n =>
        have ht : fillCount fs gs ≠ 0 := ih (Nat.lt_of_succ_lt_succ hn) hf hg
        simp only [fillCount]
        omega

/-- What a fill leaves of the sample and flag at place `n`. -/
def filledAt (vs : List Sample) (fs : List Bool) (ws : List Sample) (gs : List Bool) (n : Nat) (r : List Sample × List Bool) : Prop :=
  (fs.getD n true = true ∧ gs.getD n true = false → r.1.getD n 0 = ws.getD n 0 ∧ r.2.getD n true = false) ∧
  (¬ (fs.getD n true = true ∧ gs.getD n true = false) → r.1.getD n 0 = vs.getD n 0 ∧ r.2.getD n true = fs.getD n true)

/-- A fill keeps the length, and fills the erased samples that the copy has. -/
theorem fillSamples_spec {vs ws : List Sample} {fs gs : List Bool} (hf : fs.length = vs.length) (hw : ws.length = vs.length)
    (hg : gs.length = vs.length) : (fillSamples vs fs ws gs).1.length = vs.length ∧ (fillSamples vs fs ws gs).2.length = vs.length ∧
      ∀ n, n < vs.length → filledAt vs fs ws gs n (fillSamples vs fs ws gs) := by
  induction vs generalizing fs ws gs with
  | nil => exact ⟨rfl, hf, fun n hn => nomatch hn⟩
  | cons v vs ih =>
    obtain ⟨f, fs, rfl⟩ := List.exists_cons_of_length_eq_add_one hf
    obtain ⟨w, ws, rfl⟩ := List.exists_cons_of_length_eq_add_one hw
    obtain ⟨g, gs, rfl⟩ := List.exists_cons_of_length_eq_add_one hg
    obtain ⟨h1, h2, hat⟩ := ih (Nat.succ.inj hf) (Nat.succ.inj hw) (Nat.succ.inj hg)
    have hcons : fillSamples (v :: vs) (f :: fs) (w :: ws) (g :: gs) = ((if f && !g then w else v) :: (fillSamples vs fs ws gs).1,
        (if f && !g then false else f) :: (fillSamples vs fs ws gs).2) := by
      simp only [fillSamples]
      by_cases hfill : (f && !g) = true
      · simp only [if_pos hfill]
      · simp only [if_neg hfill]
    rw [hcons]
    refine ⟨congrArg (· + 1) h1, congrArg (· + 1) h2, fun n hn => ?_⟩
    cases n with
    | zero => cases f <;> cases g <;> simp [filledAt]
    | succ n => exact hat n (Nat.lt_of_succ_lt_succ hn)

theorem mergedStatus_eq (d : DecoderStatus) (n : Nat) : mergedStatus d n =
    if d = .clean ∨ d = .corrected then d else if n = 0 then .corrected else .flagged := by
  cases d <;> simp [mergedStatus]

/-- A merge that has something to fill. -/
theorem mergeBlock_fills {x y : Bucket} (h : fillCount x.flags y.flags ≠ 0) : mergeBlock x y =
    ⟨{ x.info with
        erasures := (fillSamples x.samples x.flags y.samples y.flags).2.count true
        featureless := isFeatureless (fillSamples x.samples x.flags y.samples y.flags).1
          (fillSamples x.samples x.flags y.samples y.flags).2
        decoder := mergedStatus x.info.decoder ((fillSamples x.samples x.flags y.samples y.flags).2.count true) },
      (fillSamples x.samples x.flags y.samples y.flags).1, (fillSamples x.samples x.flags y.samples y.flags).2⟩ := if_neg h

/-- The clause of the statement on merges, for blocks of any length. -/
theorem mergeBlock_spec {x y : Bucket} (hxf : x.flags.length = x.samples.length) (hys : y.samples.length = x.samples.length)
    (hyf : y.flags.length = x.samples.length) :
    (∀ n, n < x.samples.length → filledAt x.samples x.flags y.samples y.flags n ((mergeBlock x y).samples, (mergeBlock x y).flags)) ∧
    (mergeBlock x y).samples.length = x.samples.length ∧ (mergeBlock x y).flags.length = x.samples.length ∧
    ((∀ n, n < x.samples.length → ¬ (x.flags.getD n true = true ∧ y.flags.getD n true = false)) → mergeBlock x y = x) ∧
    ∀ n, n < x.samples.length → x.flags.getD n true = true ∧ y.flags.getD n true = false → (mergeBlock x y).info = { x.info with
      erasures := (mergeBlock x y).flags.count true
      featureless := isFeatureless (mergeBlock x y).samples (mergeBlock x y).flags
      decoder := if x.info.decoder = .clean ∨ x.info.decoder = .corrected then x.info.decoder
        else if (mergeBlock x y).flags.count true = 0 then .corrected else .flagged } := by
  by_cases h : fillCount x.flags y.flags = 0
  · have hm : mergeBlock x y = x := if_pos h
    have hno (n : Nat) (hn : n < x.samples.length) : ¬ (x.flags.getD n true = true ∧ y.flags.getD n true = false) :=
      fun ⟨hf, hg⟩ => fillCount_ne_zero (hxf ▸ hn) hf hg h
    rw [hm]
    exact ⟨fun n hn => ⟨fun hfill => absurd hfill (hno n hn), fun _ => ⟨rfl, rfl⟩⟩, rfl, hxf, fun _ => rfl,
      fun n hn hfill => absurd hfill (hno n hn)⟩
  · obtain ⟨h1, h2, hat⟩ := fillSamples_spec hxf hys hyf
    rw [mergeBlock_fills h]
    exact ⟨hat, h1, h2, fun hno => absurd (fillCount_eq_zero (hxf ▸ hno)) h, fun _ _ _ => by rw [mergedStatus_eq]⟩

/-! ## The outcome of an identification (R138 to R142, R156) -/

/-- Standing still, the loader keeps its queue. -/
theorem Loader.queue_standStill (l : Loader) : l.standStill.queue = l.queue := by
  obtain ⟨x, hx⟩ := l.standStill_slotTimer
  rw [hx]

/-- From `s` to `t` no more has changed than a change of supply state changes. -/
def Resupplied (s t : State) : Prop :=
  ∃ zc lu oc cl n, t = { s with zc := zc, lu := lu, oc := oc, cl := cl, free := n }

namespace Resupplied

variable {s t u : State} {z : ZoneId}

theorem refl (s : State) : Resupplied s s := ⟨_, _, _, _, _, rfl⟩

theorem trans (h : Resupplied s t) (k : Resupplied t u) : Resupplied s u := by
  obtain ⟨_, _, _, _, _, rfl⟩ := h
  obtain ⟨_, _, _, _, _, rfl⟩ := k
  exact ⟨_, _, _, _, _, rfl⟩

theorem notice {k : Byte} {b : List Byte} (h : Resupplied s t) : Resupplied s (t.notice k b) := h.trans ⟨_, _, _, _, _, rfl⟩

theorem setSupply {v : Supply} {c : ZoneCause} (h : Resupplied s t) (hv : v ≠ .ended) : Resupplied s (t.setSupply z v c) := by
  obtain ⟨_, _, _, _, _, he⟩ := State.setSupply_spec (s := t) (z := z) c hv
  exact h.trans ⟨_, _, _, _, _, he⟩

theorem discFound {i : Nat} (h : Resupplied s t) : Resupplied s (t.discFound z i) := by
  unfold State.discFound
  split
  · split
    · exact h.setSupply nofun
    · exact (h.setSupply (z := z) (v := .rejoining) (c := .discFound) nofun).trans ⟨_, _, _, _, _, rfl⟩
  · exact h

theorem discNotFound (h : Resupplied s t) : Resupplied s (t.discNotFound z) := by
  unfold State.discNotFound
  split
  · exact h.setSupply nofun
  · exact h

theorem scanDone (h : Resupplied s t) : Resupplied s t.scanDone := by
  unfold State.scanDone
  split
  · exact h.discNotFound.discNotFound.notice
  · exact h

end Resupplied

/-- A slot's identification has ended: its context is gone, and the queue has lost its head. -/
theorem State.identOutcome_spec (s : State) (slot : Nat) (o : IdentOutcome) (rec : Option Nat) (found : Bool) :
    Resupplied { s with dd := { s.dd with ident := none }, lm := s.lm.nextSlot } (s.identOutcome slot o rec found) := by
  have h1 : Resupplied { s with dd := { s.dd with ident := none }, lm := s.lm.nextSlot }
      (((s.modDd fun d => { d with ident := none }).identNotice slot o rec).modLm Loader.nextSlot) := ⟨_, _, _, _, _, rfl⟩
  unfold State.identOutcome
  refine Resupplied.scanDone ?_
  split
  · split
    · exact h1.discFound.discFound
    · exact h1
  · exact h1

/-- While the queue holds another slot, an outcome without a record places its notice alone. -/
theorem State.identOutcome_queued {s : State} (slot : Nat) (o : IdentOutcome) (h : 1 < s.lm.queue.length) :
    (s.identOutcome slot o none false).cl = s.cl.notice ⟨0x73, [byte slot, identCode o, 0xFF]⟩ := by
  have hq : (((s.modDd fun d => { d with ident := none }).identNotice slot o none).modLm Loader.nextSlot).lm.queue ≠ [] := by
    show s.lm.queue.tail ≠ []
    intro hnil
    have := congrArg List.length hnil
    rw [List.length_tail, List.length_nil] at this
    omega
  have he : s.identOutcome slot o none false =
      ((s.modDd fun d => { d with ident := none }).identNotice slot o none).modLm Loader.nextSlot := if_neg hq
  rw [he]
  rfl

/-- Record `i` is written, and is the last seen (R136, R140, R141). -/
def Directory.renew (i : Nat) (g : DiscRecord → DiscRecord) (d : Directory) : Directory := (d.modRecord i g).refresh i

theorem Directory.refresh_ident (d : Directory) (i : Nat) (x : Option IdentCtx) :
    ({ d with ident := x } : Directory).refresh i = { d.refresh i with ident := x } := by
  unfold Directory.refresh
  dsimp only
  split <;> rfl

theorem Directory.renew_ident (i : Nat) (g : DiscRecord → DiscRecord) (d : Directory) (x : Option IdentCtx) :
    Directory.renew i g { d with ident := x } = { Directory.renew i g d with ident := x } := (d.modRecord i g).refresh_ident i x

/-- A fingerprint is found in a record. -/
theorem Directory.record_of_find {d : Directory} {p : Fingerprint} {i : Nat} (h : d.find p = some i) : ∃ r, d.records[i]? = some r := by
  obtain ⟨hi, -, -⟩ := List.findIdx?_eq_some_iff_getElem.1 h
  exact ⟨_, List.getElem?_eq_getElem hi⟩

/-- A readable disc changes the directory by `f`, which the identification context is no part of, and then its slot has an outcome:
which, is a matter of the records and of those that the zones have selected. -/
theorem State.readableDisc_outcome (s : State) (slot : Nat) (info : DiscInfo) : ∃ (f : Directory → Directory) (o : IdentOutcome)
    (rec : Option Nat) (found : Bool), (∀ d x, f { d with ident := x } = { f d with ident := x }) ∧
    ∀ (t : State) (x : Option IdentCtx), t.zc = s.zc → t.dd = { s.dd with ident := x } →
      t.readableDisc slot info = (t.modDd f).identOutcome slot o rec found := by
  cases hfind : s.dd.find info.print with
  | some i =>
    obtain ⟨r, hr⟩ := Directory.record_of_find hfind
    by_cases hd : r.state = .departed
    · refine ⟨Directory.renew i fun r => { r with state := .present, slot := some slot, lastSlot := some slot }, .matched, some i, true,
        Directory.renew_ident i _, fun t x _ ht => ?_⟩
      have hf : t.dd.find info.print = some i := by rw [ht]; exact hfind
      have hrec : t.record i = some r := by rw [State.record, ht]; exact hr
      simp only [State.readableDisc, hf, hrec, if_pos hd]
      rfl
    · refine ⟨id, .matched, some i, false, fun _ _ => rfl, fun t x _ ht => ?_⟩
      have hf : t.dd.find info.print = some i := by rw [ht]; exact hfind
      have hrec : t.record i = some r := by rw [State.record, ht]; exact hr
      simp only [State.readableDisc, hf, hrec, if_neg hd]
      rfl
  | none =>
    have hnew (t : State) (x : Option IdentCtx) (hz : t.zc = s.zc) (ht : t.dd = { s.dd with ident := x }) :
        t.recordForNew = s.recordForNew := by
      have hrecs : t.dd.records = s.dd.records := by rw [ht]
      have hrefs : t.references = s.references := by
        funext w i
        rw [State.references, State.zone, hz]
        rfl
      rw [State.recordForNew, hrecs, hrefs]
      rfl
    cases hn : s.recordForNew with
    | some i =>
      refine ⟨Directory.renew i fun _ => newRecord slot info, .new, some i, false, Directory.renew_ident i _, fun t x hz ht => ?_⟩
      have hf : t.dd.find info.print = none := by rw [ht]; exact hfind
      simp only [State.readableDisc, hf, (hnew t x hz ht).trans hn]
      rfl
    | none =>
      refine ⟨id, .unreadable, none, false, fun _ _ => rfl, fun t x hz ht => ?_⟩
      have hf : t.dd.find info.print = none := by rw [ht]; exact hfind
      simp only [State.readableDisc, hf, (hnew t x hz ht).trans hn]
      rfl

/-- The directory after a readable disc is not a matter of the identification context. -/
theorem State.readableDisc_spec {s t : State} {x : Option IdentCtx} (slot : Nat) (info : DiscInfo) (hz : t.zc = s.zc)
    (hd : t.dd = { s.dd with ident := x }) :
    Resupplied { t with dd := (s.readableDisc slot info).dd, lm := t.lm.nextSlot } (t.readableDisc slot info) ∧
    (s.readableDisc slot info).dd.ident = none := by
  obtain ⟨f, o, rec, found, hf, hout⟩ := s.readableDisc_outcome slot info
  have hs : (s.readableDisc slot info).dd = { f s.dd with ident := none } := by
    obtain ⟨_, _, _, _, _, he⟩ := (s.modDd f).identOutcome_spec slot o rec found
    rw [hout s s.dd.ident rfl rfl, he]
    rfl
  have ht := (t.modDd f).identOutcome_spec slot o rec found
  have hft : ({ f t.dd with ident := none } : Directory) = { f s.dd with ident := none } := by rw [hd, hf]
  have hmod : (t.modDd f).dd = f t.dd := rfl
  rw [hmod, hft, ← hs] at ht
  rw [hout t x hz hd]
  exact ⟨ht, by rw [hs]⟩

/-! ## A block under an IDENTIFICATION claim (R6, R139) -/

/-- An identification reads, and a bucket is free for the next block. -/
structure Identifying (s : State) (tag : Tag) (c : Claim) : Prop where
  reads : ReadsFor s tag c
  ready : s.bs.Ready
  kind  : c.kind = .ident
  same  : c.kind = tag.kind
  zone  : tag.zone = none

namespace Identifying

variable {s : State} {tag : Tag} {c : Claim} {b : PortBlock} {slot n : Nat} {d : Option DiscInfo} (h : Identifying s tag c)

include h

/-- The block's verdict is that of its directory. -/
theorem route_eq (hd : readDirectory b.track b.decoder (portSamples b) (portFlags b) = d) :
    (s.taking tag b).route tag = (s.taking tag b).discard.verdict d := by
  have hk : tag.kind = .ident := h.same ▸ h.kind
  have hb : (s.taking tag b).bs.bucket (s.taking tag b).bs.intake = measured b b.track := by
    have ht : s.recordedTrack tag b.track = b.track := by simp only [State.recordedTrack, h.zone]
    have hm := s.bucket_taking tag b
    rw [ht] at hm
    exact hm
  have hr : (s.taking tag b).route tag = (s.taking tag b).judge := by simp only [State.route, hk]
  rw [hr, ← hd, State.judge, hb]
  rfl

theorem chains_stand (b : PortBlock) : ChainsStand s (s.taking tag b).discard := State.chains_discard_taking h.ready tag b

/-- The claim is over, and the identification with it. -/
theorem over_of_resupplied {r u : State} (hr : (s.taking tag b).route tag = r) (hres : Resupplied u r)
    (hda : u.da = (s.readingOver .ended).da) (hbi : u.bi = s.bi.close .ended) (hbs : u.bs = (s.taking tag b).discard.bs) :
    claimOver (s.present b) ∧ poolStands s (s.present b) ∧ (s.present b).dd = u.dd ∧ (s.present b).lm = u.lm ∧
    (s.present b).cl = r.cl := by
  obtain ⟨zc, lu, oc, cl, m, he⟩ := hres
  have hdead : r.tagLive = false := by
    have hb : r.bi = s.bi.close .ended := by rw [he]; exact hbi
    rw [State.tagLive, hb]
    exact s.tagLive_readingOver (by decide)
  obtain ⟨bi, ht, hl⟩ := h.reads.present_over h.ready hr (by rw [he]; exact hda) hdead
  rw [ht] at hl ⊢
  refine ⟨⟨rfl, rfl, rfl, hl⟩, fun w => ?_, by rw [he], by rw [he], rfl⟩
  have hst := h.chains_stand b
  have hrb : r.bs = (s.taking tag b).discard.bs := by rw [he]; exact hbs
  exact ⟨congrArg (Pair.get · w) ((congrArg Store.chain hrb).trans hst.chain),
    congrArg (Pair.get · w) ((congrArg Store.anchor hrb).trans hst.anchor)⟩

/-- The identification is over, and the slot timer stands still. -/
theorem closes {u : State} (hu : u.da = s.da) : u.closeClaim .ended = (u.readingOver .ended).modLm Loader.standStill :=
  (h.reads.toReadingUnder.congr hu).closeClaim_ident h.kind

variable (hi : s.dd.ident = some ⟨slot, n⟩)

include hi

theorem unread_goesOn (hd : readDirectory b.track b.decoder (portSamples b) (portFlags b) = none) (hn : n + 1 < 32) :
    readingGoesOn s (s.present b) ∧ (s.present b).dd = { s.dd with ident := some ⟨slot, n + 1⟩ } ∧
    (s.present b).lm = s.lm ∧ (s.present b).cl = s.cl := by
  have hident : (s.taking tag b).discard.dd.ident = some ⟨slot, n⟩ := hi
  have hr : (s.taking tag b).route tag = (s.taking tag b).discard.modDd fun d => { d with ident := some ⟨slot, n + 1⟩ } := by
    rw [h.route_eq hd]
    simp only [State.verdict, hident]
    exact if_neg (Nat.not_le.2 hn)
  obtain ⟨bi, he, hbi⟩ := h.reads.present_goesOn h.ready hr rfl rfl
  have hst := h.chains_stand b
  rw [he]
  exact ⟨⟨fun w => ⟨congrArg (Pair.get · w) hst.chain, congrArg (Pair.get · w) hst.anchor⟩, rfl, hbi, rfl⟩, rfl, rfl, rfl⟩

theorem unread_ends (hd : readDirectory b.track b.decoder (portSamples b) (portFlags b) = none) (hn : 32 ≤ n + 1) :
    claimOver (s.present b) ∧ poolStands s (s.present b) ∧ (s.present b).dd = { s.dd with ident := none } ∧
    (s.present b).lm.queue = s.lm.queue.tail ∧
    (1 < s.lm.queue.length → (s.present b).cl = s.cl.notice ⟨0x73, [byte slot, 3, 0xFF]⟩) := by
  have hident : (s.taking tag b).discard.dd.ident = some ⟨slot, n⟩ := hi
  let u := (((s.taking tag b).discard.modDd fun d => { d with ident := some ⟨slot, n + 1⟩ }).readingOver .ended).modLm Loader.standStill
  have hr : (s.taking tag b).route tag = u.identOutcome slot .unreadable none false := by
    have hcl : ((s.taking tag b).discard.modDd fun d => { d with ident := some ⟨slot, n + 1⟩ }).closeClaim .ended = u :=
      h.closes rfl
    rw [h.route_eq hd, ← hcl]
    simp only [State.verdict, hident]
    exact if_pos hn
  have hqueue : u.lm.queue = s.lm.queue := s.lm.queue_standStill
  obtain ⟨ho, hst, hdd, hlm, hcl⟩ := h.over_of_resupplied hr (u.identOutcome_spec slot .unreadable none false) rfl rfl rfl
  refine ⟨ho, hst, hdd, ?_, fun hq => ?_⟩
  · rw [hlm]
    exact congrArg List.tail hqueue
  · rw [hcl]
    exact State.identOutcome_queued slot .unreadable (by rw [hqueue]; exact hq)

theorem read_ends {info : DiscInfo} (hd : readDirectory b.track b.decoder (portSamples b) (portFlags b) = some info) :
    claimOver (s.present b) ∧ poolStands s (s.present b) ∧ (s.present b).dd = (s.readableDisc slot info).dd ∧
    (s.present b).dd.ident = none ∧ (s.present b).lm.queue = s.lm.queue.tail := by
  have hident : (s.taking tag b).discard.dd.ident = some ⟨slot, n⟩ := hi
  let u := (((s.taking tag b).discard.modDd fun d => { d with ident := some ⟨slot, n + 1⟩ }).readingOver .ended).modLm Loader.standStill
  have hr : (s.taking tag b).route tag = u.readableDisc slot info := by
    have hcl : ((s.taking tag b).discard.modDd fun d => { d with ident := some ⟨slot, n + 1⟩ }).closeClaim .ended = u :=
      h.closes rfl
    rw [h.route_eq hd, ← hcl]
    simp only [State.verdict, hident]
  have hqueue : u.lm.queue = s.lm.queue := s.lm.queue_standStill
  obtain ⟨hres, hnone⟩ := State.readableDisc_spec (s := s) (t := u) (x := some ⟨slot, n + 1⟩) slot info rfl rfl
  obtain ⟨ho, hst, hdd, hlm, -⟩ := h.over_of_resupplied hr hres rfl rfl rfl
  refine ⟨ho, hst, hdd, hdd ▸ hnone, ?_⟩
  rw [hlm]
  exact congrArg List.tail hqueue

end Identifying

/-! ## The statement -/

/-- Settles O55: a merge place by place, then the claim's kind, and under each kind what the block is by its stamp or its directory. -/
theorem mergesAndTargetClaims : Obligations.MergesAndTargetClaims := by
  refine ⟨fun x y hxs hxf hys hyf => ?_, ?_⟩
  · have hm := mergeBlock_spec (hxf.trans hxs.symm) (hys.trans hxs.symm) (hyf.trans hxs.symm)
    rw [hxs] at hm
    exact hm
  intro s b tag c hp hout hread htag hlive hclaim hclive hck hcz hsound hintake hhead hcount hkind
  have hhold : c.kind ≠ .hold := by
    rw [hck]
    rcases hkind with hk | ⟨hk | hk, -⟩ <;> rw [hk] <;> decide
  have hreads : ReadsFor s tag c := ⟨⟨hout, hread, hclaim, hclive, hhold⟩, htag, hlive⟩
  have hready : s.bs.Ready := ⟨hsound, hintake, hhead, hcount⟩
  have htarget {z : ZoneId} {a : Nat} (hk : tag.kind = .reread ∨ tag.kind = .audit) (hz : tag.zone = some z)
      (ha : tag.target = some a) : Targeting s tag c z a := by
    have hown : c.target = some a := by
      rcases hkind with hi | ⟨-, z', a', -, ha', hc⟩
      · rw [hi] at hk
        rcases hk with hk | hk <;> cases hk
      · rw [hc, ← ha', ha]
    exact ⟨hreads, hready, hck ▸ hk, hck, hz, ha, hcz.trans hz, hown⟩
  refine ⟨s.present b, exec_blockPresented hp rfl, hreads.stowed_present hready, fun z a q hk hz ha hq => ?_,
    fun z a hk hz ha => ?_, fun slot n hk hz hi => ?_⟩
  · have h := htarget (.inl hk) hz ha
    have hkc : c.kind = .reread := hck.trans hk
    exact ⟨fun hg => h.reread_taken hkc hq (Nat.succ_ne_zero q) (State.located_taken hg),
      fun m hg hlt hl hleft => h.reread_kept hkc (State.located_before hg hlt hl) hleft,
      fun m hg hm hl => h.reread_missed hkc hq (State.located_missed hg hm hl)⟩
  · have h := htarget (.inr hk) hz ha
    have hkc : c.kind = .audit := hck.trans hk
    refine ⟨fun hq => ?_, fun q hq => ⟨fun m hg hlt hl hleft => ?_, fun m hg hm hl => ?_, fun hg => ?_⟩⟩
    · obtain ⟨⟨ho, hst, hzc⟩, hau⟩ := h.audit_left hkc hq (b := b)
      exact ⟨ho, hst, hzc, hau⟩
    · exact h.audit_kept hkc hq (State.located_before hg hlt hl) hleft
    · obtain ⟨⟨ho, hst, hzc⟩, hau⟩ := h.audit_missed hkc hq (State.located_missed hg hm hl)
      exact ⟨ho, hst, hzc, hau⟩
    · have hf : s.located tag b a = .taken := State.located_taken hg
      refine ⟨h.audit_over hkc hq hf, fun hce => ?_, fun hce hag => ?_,
        fun hce hag hd hh hlt hfill => h.audit_rejoins hkc hq hf hce hag hh hlt hfill,
        fun hce hag hh hfill => h.audit_resyncs hkc hq hf hce hag hh hfill⟩
      · obtain ⟨⟨-, hst, hzc⟩, hau⟩ := h.audit_few hkc hq hf hce
        exact ⟨hst, hzc, hau⟩
      · obtain ⟨⟨-, hst, hzc⟩, hconf, hau⟩ := h.audit_passes hkc hq hf hce hag
        exact ⟨hst, hzc, hconf, hau⟩
  · have h : Identifying s tag c := ⟨hreads, hready, hck.trans hk, hck, hz⟩
    exact ⟨fun hd hn => h.unread_goesOn hi hd hn, fun hd hn => h.unread_ends hi hd hn, fun info hd => h.read_ends hi hd⟩

end Sys2Proof.Machine
end

section
/-! PROOF. The repair of erased samples and the output's scaling (chapter 7): a value between two bounds, rounded half up, lies
between them; what a channel repairs in each run state; and what a gain makes of a value (O34). -/

namespace Sys2Proof.Machine

/-! ## The values of a SHORT run (R122) -/

/-- The part `k / m` of `d`, rounded half up, lies between 0 and `d`. -/
theorem fdiv_halfUp_between {d k m : Int} (hk : 0 ≤ k) (hm : k < m) :
    min 0 d ≤ Int.fdiv (2 * d * k + m) (2 * m) ∧ Int.fdiv (2 * d * k + m) (2 * m) ≤ max 0 d := by
  have h2m : 0 < 2 * m := by omega
  rw [Int.fdiv_eq_ediv_of_nonneg _ h2m.le]
  rcases Int.le_total 0 d with hd | hd
  · have hlow : 0 ≤ d * k := Int.mul_nonneg hd hk
    have hhigh : d * k ≤ d * m := Int.mul_le_mul_of_nonneg_left hm.le hd
    rw [min_eq_left hd, max_eq_right hd]
    refine ⟨Int.ediv_nonneg (by linarith) h2m.le, Int.lt_add_one_iff.1 (Int.ediv_lt_of_lt_mul h2m ?_)⟩
    linarith
  · have hlow : d * m ≤ d * k := Int.mul_le_mul_of_nonpos_left hd hm.le
    have hhigh : d * k ≤ 0 := Int.mul_nonpos_of_nonpos_of_nonneg hd hk
    rw [min_eq_right hd, max_eq_left hd]
    refine ⟨(Int.le_ediv_iff_mul_le h2m).2 (by linarith), Int.lt_add_one_iff.1 (Int.ediv_lt_of_lt_mul h2m ?_)⟩
    linarith

/-- The values of a SHORT run lie between its bounds (R122). -/
theorem interpolate_between (g0 g1 : Int) {len k : Nat} (hk : k ≤ len) :
    min g0 g1 ≤ interpolate g0 g1 len k ∧ interpolate g0 g1 len k ≤ max g0 g1 := by
  obtain ⟨hlow, hhigh⟩ := fdiv_halfUp_between (d := g1 - g0) (k := k) (m := (len : Int) + 1) (by omega) (by omega)
  unfold interpolate
  omega

/-! ## What a channel repairs, by its run state (R119, R122, R123) -/

namespace Channel

variable {c : Channel}

/-- A SHORT run that no cut has shortened takes its next value, whatever is drawn (R122). -/
theorem repair_short {g0 g1 : Int} {len k : Nat} (h : c.run = .short g0 g1 len k false) (offset : Nat) (v : Int) (erased : Bool)
    (f : Int → Run) : c.repair offset v erased f = c.shortStep g0 g1 len k false := by
  simp [repair, cutHere, h]

theorem repair_long {g0 : Int} (h : c.run = .long g0) (offset : Nat) (v : Int) (erased : Bool) (f : Int → Run) :
    c.repair offset v erased f = if erased then c.longStep g0 else c.good v := by
  simp [repair, cutHere, h]

theorem repair_none (h : c.run = .none) (offset : Nat) (v : Int) (erased : Bool) (f : Int → Run) :
    c.repair offset v erased f = c.fromNone v erased c.lastGood f := by
  simp [repair, cutHere, h]

/-- A LONG run goes on (R123). -/
theorem longStep_of_long {g0 : Int} (h : c.run = .long g0) : c.longStep g0 = { c with lastRepaired := g0 } := by
  rw [longStep, ← h]

/-- In run state NONE an unerased sample is repaired as itself (R119). -/
theorem good_of_none (h : c.run = .none) (v : Int) : c.good v = { c with lastGood := v, lastRepaired := v } := by
  rw [good, ← h]

end Channel

/-! ## Scaling (R126) -/

theorem natAbs_scale_le {g : Nat} (v : Int) (hg : g ≤ 256) : (scale v g).natAbs ≤ v.natAbs := by
  have hmul : (v * (g : Int)).natAbs ≤ v.natAbs * 256 := by
    rw [Int.natAbs_mul, Int.natAbs_natCast]
    exact Nat.mul_le_mul_left _ hg
  rw [scale, Int.natAbs_tdiv]
  exact Nat.div_le_of_le_mul (hmul.trans_eq (Nat.mul_comm ..))

theorem scale_neg (v : Int) (g : Nat) : scale (-v) g = -scale v g := by
  rw [scale, Int.neg_mul, Int.neg_tdiv, scale]

/-- At full gain a value is output as it is. -/
theorem scale_full (v : Int) : scale v 256 = v := Int.mul_tdiv_cancel v (by decide)

/-- Settles O34, by the run state of the channel. -/
theorem repairsStayBetweenTheBounds : Obligations.RepairsStayBetweenTheBounds := by
  refine ⟨fun c g0 g1 len k offset v erased f hrun _ hk => ?_, fun c g0 offset v f hrun => ⟨?_, ?_⟩, fun c offset v f hrun => ?_,
    fun v g hg => ⟨natAbs_scale_le v hg, scale_neg v g, scale_full v⟩⟩
  · have hlast : len ≤ k ↔ k = len := ⟨hk.antisymm, Eq.ge⟩
    obtain ⟨hlow, hhigh⟩ := interpolate_between g0 g1 hk
    rw [Channel.repair_short hrun]
    exact ⟨rfl, hlow, hhigh, if_congr hlast rfl rfl, rfl, rfl⟩
  · rw [Channel.repair_long hrun]
    exact Channel.longStep_of_long hrun
  · rw [Channel.repair_long hrun]
    rfl
  · rw [Channel.repair_none hrun]
    exact Channel.good_of_none hrun v

end Sys2Proof.Machine
end

section
/-! PROOF. What moves a gain (chapter 7): of a part that stays powered, the frame event of its own zone alone, and by one place;
every other command leaves all four gains (O13). -/

namespace Sys2Proof.Machine

/-- From `s` to `t` all four gains stand. -/
def GainsStand (s t : State) : Prop := ∀ z d, t.gain z d = s.gain z d

namespace GainsStand

variable {s t u : State}

theorem trans (h : GainsStand s t) (k : GainsStand t u) : GainsStand s u := fun z d => (k z d).trans (h z d)

theorem calm (h : Calm s t) : GainsStand s t := h.gain

/-- A calm change after others. -/
theorem next (h : GainsStand s t) (k : Calm t u) : GainsStand s u := h.trans (calm k)

/-- What leaves the outputs alone leaves the gains. -/
theorem of_oc (h : t.oc = s.oc) : GainsStand s t := fun z d => by rw [State.gain_eq, h, State.gain_eq]

theorem link (h : GainsStand s t) (f : Link → Link) : GainsStand s (t.modCl f) := h.trans (of_oc rfl)

theorem power (h : GainsStand s t) (f : Power → Power) : GainsStand s (t.modPc f) := h.trans (of_oc rfl)

theorem beginParking (h : GainsStand s t) : GainsStand s t.beginParking :=
  (h.power _).next (Calm.refl _).parkZone.parkZone.modPc.modSm.reportSilence.askParking

theorem runFalls (h : GainsStand s t) : GainsStand s t.runFalls := by
  unfold State.runFalls
  split
  · split
    · exact h.next (Calm.refl _).modPc
    · exact h.beginParking
  · exact h

/-! ## Requests (R175) -/

section

variable {form : Form} {own : State → List Byte → Answer}

theorem ownCalm (h : OwnerLaw Calm form own) : OwnerLaw GainsStand form own := fun s body hb => by
  have hm := h s body hb
  cases ha : own s body with
  | accepted t b =>
    rw [ha] at hm
    exact calm hm
  | unanswered t =>
    rw [ha] at hm
    exact calm hm
  | rejected r => trivial

theorem ownStandby : OwnerLaw GainsStand form ownStandby := fun s _ _ => (calm (.refl s)).beginParking

theorem ownHush : OwnerLaw GainsStand form ownHush := fun _ _ _ => StepLaw.meets_ite (fun _ => of_oc rfl) fun _ => trivial

theorem ownDeviceStatus : OwnerLaw GainsStand form ownDeviceStatus := fun _ _ _ => of_oc rfl

theorem ownConfigure : OwnerLaw GainsStand form ownConfigure := fun s _ _ => by
  unfold Machine.ownConfigure
  dsimp only
  split
  · trivial
  · next p _ _ =>
    have h1 : GainsStand s (s.modParams fun _ => p) := of_oc rfl
    simp only [Answer.meets]
    split
    · exact h1.next (Calm.refl _).testReady.testReady
    · exact h1

theorem ownSetRotation : OwnerLaw GainsStand form ownSetRotation := fun s _ _ => by
  unfold Machine.ownSetRotation
  split
  · exact of_oc rfl
  · trivial

theorem ownSelect : OwnerLaw GainsStand form ownSelect := fun s _ _ => StepLaw.meets_onZone fun z => by
  unfold State.select
  refine StepLaw.meets_ite (fun _ => trivial) fun _ => StepLaw.meets_ite (fun _ => trivial) fun _ => ?_
  split
  · trivial
  · exact of_oc rfl

theorem takeRequest {k : Byte} {body : List Byte} (h : GainsStand s t) (ho : OwnerLaw GainsStand form own) :
    GainsStand s (t.takeRequest k body form own) := by
  have hanswer {v : State} {a : Answer} (hv : GainsStand s v) (ha : a.meets GainsStand v) : GainsStand s (v.answer k a) := by
    cases a with
    | accepted w b => exact (hv.trans ha).link _
    | unanswered w => exact hv.trans ha
    | rejected r => exact hv.link _
  unfold State.takeRequest
  split
  · exact h
  · split
    · exact h.link _
    · have h1 : GainsStand s (t.openRequest ⟨k, body⟩) := h.link _
      unfold State.handle
      dsimp only
      split
      · exact h1.link _
      · next hlen =>
        split
        · exact h1.link _
        · exact hanswer h1 (ho _ _ fun hs => not_not.1 fun hne => hlen ⟨hs, hne⟩)

end

theorem takeUnknown {k : Byte} {body : List Byte} (h : GainsStand s t) : GainsStand s (t.takeUnknown k body) := by
  unfold State.takeUnknown
  split
  · exact h
  · split
    · exact h.link _
    · exact (h.link _).link _

/-- A completed frame of any kind. -/
theorem takeFrame {f : Frame} (h : GainsStand s t) : GainsStand s (t.takeFrame f) := by
  unfold State.takeFrame
  split
  · exact h.takeRequest (ownCalm Calm.ownEcho)
  · exact h.takeRequest (ownCalm Calm.ownIdentify)
  · exact h.takeRequest ownConfigure
  · exact h.takeRequest (ownCalm Calm.ownQueryParam)
  · exact h.takeRequest (ownCalm Calm.ownReset)
  · exact h.takeRequest ownStandby
  · exact h.takeRequest ownHush
  · exact h.takeRequest ownDeviceStatus
  · exact h.takeRequest ownSetRotation
  · exact h.takeRequest ownSelect
  · exact h.takeRequest (ownCalm Calm.ownPlay)
  · exact h.takeRequest (ownCalm Calm.ownPause)
  · exact h.takeRequest (ownCalm Calm.ownResume)
  · exact h.takeRequest (ownCalm Calm.ownStop)
  · exact h.takeRequest (ownCalm Calm.ownSeek)
  · exact h.takeRequest (ownCalm Calm.ownZoneStatus)
  · exact h.takeRequest (ownCalm Calm.ownHoldPickup)
  · exact h.takeRequest (ownCalm Calm.ownReleasePickup)
  · exact h.takeRequest (ownCalm Calm.ownEject)
  · exact h.takeRequest (ownCalm Calm.ownResetDrive)
  · exact h.takeRequest (ownCalm Calm.ownDiscRecord)
  · exact h.takeRequest (ownCalm Calm.ownDefectList)
  · exact h.takeRequest (ownCalm Calm.ownTrackList)
  · exact h.takeRequest (ownCalm Calm.ownForgetDisc)
  · exact h.takeUnknown

/-! ## Bytes on the line (R174) -/

theorem rxByte {b : RxByte} (h : GainsStand s t) : GainsStand s (t.rxByte b) := by
  unfold State.rxByte
  dsimp only
  split
  · exact (h.link _).takeFrame.next (Calm.refl _).finish
  · exact h.link _

theorem rxBytes {l : List RxByte} (h : GainsStand s t) : GainsStand s (t.rxBytes l) := by
  unfold State.rxBytes
  induction l generalizing t with
  | nil => exact h
  | cons b l ih => exact ih h.rxByte

/-! ## Commands to a part that is powered (R164) -/

theorem whenPowered {f : State → State} (hp : s.pc.state ≠ .parked) (h : s.whenPowered f = .next t) (hf : GainsStand s (f s)) :
    GainsStand s t := by
  rw [State.whenPowered, if_neg hp] at h
  cases h
  exact hf.next (Calm.refl _).finish

theorem orWake {x : WakeSource} {f : State → State} (hp : s.pc.state ≠ .parked) (h : s.orWake x f = .next t)
    (hf : GainsStand s (f s)) : GainsStand s t := by
  rw [State.orWake, if_neg hp] at h
  cases h
  exact hf.next (Calm.refl _).finish

theorem calmly {f : State → State} (hp : s.pc.state ≠ .parked) (h : s.whenPowered f = .next t) (hf : Calm s (f s)) :
    GainsStand s t := whenPowered hp h (calm hf)

theorem completed {n : ServoName} {f : Outstanding → State → State} (hp : s.pc.state ≠ .parked)
    (h : s.whenPowered (fun u => u.complete n f) = .next t)
    (hf : ∀ o u, Calm s u → u.da.state ≠ .held ∧ u.da.state ≠ .fault → Calm s (f o u)) : GainsStand s t :=
  calmly hp h ((Calm.refl s).complete hf)

/-- The command of a request, and that of a frame of an unknown kind, take their frame as any completed frame. -/
theorem frame (f : Frame) (hp : s.pc.state ≠ .parked) (h : s.orWake .link (fun u => u.rxDone.takeFrame f) = .next t) :
    GainsStand s t := orWake hp h (takeFrame (of_oc rfl))

theorem frameDiscarded {l : List RxByte} (hp : s.pc.state ≠ .parked) (h : execFrameDiscarded l s = .next t) : GainsStand s t := by
  unfold execFrameDiscarded at h
  split at h
  · cases h
    exact calm (.refl s)
  · exact orWake hp h (calm (.refl s)).rxBytes

theorem linkGapTimeout {l : List RxByte} (hp : s.pc.state ≠ .parked) (h : execLinkGapTimeout l s = .next t) : GainsStand s t := by
  unfold execLinkGapTimeout at h
  split at h
  · exact whenPowered hp h (of_oc rfl)
  · exact orWake hp h ((calm (.refl s)).rxBytes.link _)

theorem onSwitch {b : Bool} {f : State → State} (hp : s.pc.state ≠ .parked) (h : s.onSwitch b f = .next t)
    (hf : ∀ u, Calm u (f u)) : GainsStand s t := by
  unfold State.onSwitch at h
  split at h
  · cases h
    exact calm (.refl s)
  · dsimp only at h
    cases h
    exact (of_oc rfl : GainsStand s (s.setSwitch b)).next (hf _).finish

/-- A command that sets the level of a pin and does more. -/
theorem levelled {f : Pins → Pins} {v : State} (hp : s.pc.state ≠ .parked)
    (h : (if s.pc.state = .parked then Host.Outcome.next (s.modPins f) else .next (State.finish s v)) =
      (.next t : Host.Outcome State Fault Refusal)) (hv : GainsStand (s.modPins f) v) : GainsStand s t := by
  rw [if_neg hp] at h
  cases h
  exact ((of_oc rfl : GainsStand s (s.modPins f)).trans hv).next (Calm.refl _).finish

theorem transmitFrameDone (hp : s.pc.state ≠ .parked) (h : execTransmitFrameDone s = .next t) : GainsStand s t :=
  whenPowered (f := fun u => u.modCl Link.sent) hp h (of_oc rfl)

theorem runLineRises (hp : s.pc.state ≠ .parked) (h : execRunLineRises s = .next t) : GainsStand s t := by
  unfold execRunLineRises at h
  dsimp only at h
  rw [if_neg hp] at h
  cases h
  exact (of_oc rfl : GainsStand s (s.setRun true)).next (Calm.refl _).runRises.finish

/-- A wake event finds a part that is powered awake (R169). -/
theorem wake {x : WakeSource} {straps : Straps} (hp : s.pc.state ≠ .parked) (h : execWake x straps s = .next t) :
    GainsStand s t := by
  rw [execWake, if_neg hp] at h
  cases h
  exact calm (.refl s)

/-- Every command but frame events and the starts. -/
theorem exec {c : Instr} (hp : s.pc.state ≠ .parked) (h : exec c s = .next t) (hup : ∀ p, c ≠ .powerUp p) (hsoft : c ≠ .softStart)
    (hent : c ≠ .enterParked) (hframe : ∀ z, c ≠ .frameEvent z) : GainsStand s t := by
  have h0 := Calm.refl s
  cases c with
  | echo body => exact frame ⟨0x01, body⟩ hp h
  | identify body => exact frame ⟨0x02, body⟩ hp h
  | configure body => exact frame ⟨0x03, body⟩ hp h
  | queryParam body => exact frame ⟨0x04, body⟩ hp h
  | reset body => exact frame ⟨0x05, body⟩ hp h
  | standby body => exact frame ⟨0x06, body⟩ hp h
  | hush body => exact frame ⟨0x07, body⟩ hp h
  | deviceStatus body => exact frame ⟨0x08, body⟩ hp h
  | setRotation body => exact frame ⟨0x09, body⟩ hp h
  | select body => exact frame ⟨0x10, body⟩ hp h
  | play body => exact frame ⟨0x11, body⟩ hp h
  | pause body => exact frame ⟨0x12, body⟩ hp h
  | resume body => exact frame ⟨0x13, body⟩ hp h
  | stop body => exact frame ⟨0x14, body⟩ hp h
  | seek body => exact frame ⟨0x15, body⟩ hp h
  | zoneStatus body => exact frame ⟨0x16, body⟩ hp h
  | holdPickup body => exact frame ⟨0x20, body⟩ hp h
  | releasePickup body => exact frame ⟨0x21, body⟩ hp h
  | eject body => exact frame ⟨0x22, body⟩ hp h
  | resetDrive body => exact frame ⟨0x23, body⟩ hp h
  | discRecord body => exact frame ⟨0x30, body⟩ hp h
  | defectList body => exact frame ⟨0x31, body⟩ hp h
  | trackList body => exact frame ⟨0x32, body⟩ hp h
  | forgetDisc body => exact frame ⟨0x33, body⟩ hp h
  | unknownKindFrame kind body => exact frame ⟨kind, body⟩ hp h
  | frameDiscarded bytes => exact frameDiscarded hp h
  | linkGapTimeout bytes => exact linkGapTimeout hp h
  | transmitFrameDone => exact transmitFrameDone hp h
  | blockPresented block => exact calmly (f := fun u => u.present block) hp h h0.present
  | frameEvent z => exact absurd rfl (hframe z)
  | loadDone => exact completed hp h fun _ _ k _ => k.loadCompletes
  | unloadDone => exact completed hp h fun _ _ k _ => k.unloadCompletes
  | spinDone => exact completed hp h fun _ _ k _ => k.spinCompletes
  | seekDone => exact completed hp h fun _ _ k _ => k.seekCompletes
  | pauseDone => exact completed hp h fun _ _ k _ => k.pauseCompletes
  | latchOpenDone => exact completed hp h fun _ _ k _ => k.latchCompletes
  | abortDone => exact completed hp h fun _ _ k hs => k.abortCompletes hs
  | commandFailed cmd reason => exact completed hp h fun _ _ k hs => k.failed hs
  | trackLost => exact calmly hp h h0.trackingLost
  | commandTimeout => exact calmly hp h h0.timeout
  | blockTimerExpiry => exact calmly hp h h0.blockTimeout
  | graceTimerExpiry => exact calmly hp h h0.graceExpires
  | idleTimerExpiry => exact calmly hp h h0.idleExpires
  | shockRise => exact levelled hp h (calm (Calm.refl _).modSm.shockCancels)
  | shockFall => exact levelled hp h (calm (Calm.refl _).startSettle)
  | settleTimerExpiry => exact calmly hp h h0.settled
  | windowTimerExpiry => exact calmly hp h h0.windowEnds
  | magazineSwitchCloses => exact onSwitch hp h fun u => (Calm.refl u).switchCloses
  | magazineSwitchOpens => exact onSwitch hp h fun u => (Calm.refl u).switchOpens
  | debounceTimerExpiry => exact calmly hp h h0.debounced
  | slotTimerExpiry => exact calmly hp h h0.slotExpires
  | ejectButton => exact calmly hp h h0.pressButton
  | latchTimerExpiry => exact calmly hp h h0.latchExpires
  | runLineFalls => exact levelled hp h (runFalls (calm (.refl _)))
  | runLineRises => exact runLineRises hp h
  | enterParked => exact absurd rfl hent
  | wake source straps => exact wake hp h
  | softStart => exact absurd rfl hsoft
  | powerUp pins => exact absurd rfl (hup pins)

end GainsStand

/-! ## The frame event (R126) -/

/-- A gain stands, or moves by one place. -/
theorem stepGain_cases (g t : Nat) : stepGain g t = g ∨ stepGain g t = g + 1 ∨ g = stepGain g t + 1 := by
  unfold stepGain
  split
  · exact .inr (.inl rfl)
  · split
    · exact .inr (.inr (by omega))
    · exact .inl rfl

/-- What bounds a gain and its target bounds the gain's next value. -/
theorem stepGain_le {g t n : Nat} (hg : g ≤ n) (ht : t ≤ n) : stepGain g t ≤ n := by
  unfold stepGain
  split
  · omega
  · split <;> omega

/-- The zone's own gains step toward 0 or 256 at its frame event (R126, R127). -/
theorem State.gain_concealed (s : State) (z : ZoneId) (d : Side) :
    ∃ t, t ≤ 256 ∧ ((s.concealed z).side d).gain = stepGain (s.gain z d) t := by
  refine ⟨((s.concealed z).side d).target, ?_, ?_⟩
  · rw [s.concealed_side, Channel.envelope]
    dsimp only
    split <;> decide
  · rw [s.concealed_side, s.gain_eq, ← s.gain_channelValue z d ((s.oc.get z).side d)]
    rfl

/-- A gain after a frame event stands, or is of the zone whose event it is and has stepped toward 0 or 256. -/
theorem State.gain_frameEvent (s : State) (w z : ZoneId) (d : Side) :
    (s.frameEvent w).gain z d = s.gain z d ∨ z = w ∧ ∃ t, t ≤ 256 ∧ (s.frameEvent w).gain z d = stepGain (s.gain z d) t := by
  unfold State.frameEvent
  split
  · exact .inl ((Calm.refl s).modOc.gain z d)
  · rw [s.gain_frame]
    revert z
    refine forall_other (z := w) (.inr ⟨rfl, ?_⟩) (.inl (s.gain_played_other w d))
    rw [s.gain_played]
    exact s.gain_concealed w d

/-- Settles O13: a gain moves by the envelope's step at a frame event of its zone, and stands at every other command. -/
theorem gainsMoveOneStepAtFrameEvents : Obligations.GainsMoveOneStepAtFrameEvents := by
  intro c s t hp h hup hsoft hent z d
  have hstands (k : t.gain z d = s.gain z d) : (t.gain z d ≠ s.gain z d →
      c = .frameEvent z ∧ (t.gain z d = s.gain z d + 1 ∨ s.gain z d = t.gain z d + 1)) ∧
        (s.gain z d ≤ 256 → t.gain z d ≤ 256) := ⟨fun hne => absurd k hne, k.le.trans⟩
  by_cases hc : ∃ w, c = .frameEvent w
  · obtain ⟨w, rfl⟩ := hc
    obtain rfl : State.finish s (s.frameEvent w) = t :=
      Host.Outcome.next.inj ((State.whenPowered_powered (f := fun u => u.frameEvent w) hp rfl).symm.trans h)
    have hfin : (State.finish s (s.frameEvent w)).gain z d = (s.frameEvent w).gain z d := (Calm.refl _).finish.gain z d
    rcases s.gain_frameEvent w z d with hk | ⟨rfl, g, hg, hk⟩
    · exact hstands (hfin.trans hk)
    · rw [hfin, hk]
      exact ⟨fun hne => ⟨rfl, (stepGain_cases _ _).resolve_left hne⟩, fun hle => stepGain_le hle hg⟩
  · exact hstands (GainsStand.exec hp h hup hsoft hent (fun w hw => hc ⟨w, hw⟩) z d)

end Sys2Proof.Machine
end

section
/-! PROOF. What a frame event outputs (chapter 7): an unerased frame that is drawn, the fade of a zone that is not PLAYING, and
AUDIO B in single-zone strap (O32). -/

namespace Sys2Proof.Machine

/-! ## The frame that is drawn (R3, R119) -/

/-- The head block of a chain that is not empty stands at its first position. -/
theorem State.bucketAt_zero {s : State} {z : ZoneId} (h : s.fill z ≠ 0) : s.bucketAt z 0 = (s.bs.chain.get z).head := by
  obtain ⟨n, hn⟩ := Nat.exists_eq_succ_of_ne_zero h
  have hl : (s.bs.chain.get z).length = n + 1 := hn
  simp [State.bucketAt, Store.chainOf, hl, Store.walk]

/-- The sample next to be drawn stands in the head block. -/
theorem State.ahead_head {s : State} {z : ZoneId} (d : Side) (h : s.fill z ≠ 0) (ho : (s.zone z).offset < 480) :
    s.ahead z d 0 = some
      ((s.bs.bucket (s.bs.chain.get z).head).samples.getD (2 * (s.zone z).offset + sideIndex d) 0,
        (s.bs.bucket (s.bs.chain.get z).head).flags.getD (2 * (s.zone z).offset + sideIndex d) true) := by
  simp [State.ahead, Nat.div_eq_of_lt ho, Nat.mod_eq_of_lt ho, Nat.pos_of_ne_zero h, State.bucketAt_zero h]

/-- An unerased sample drawn in run state NONE is repaired as itself (R119). -/
theorem State.drawChannel_unerased {s : State} {z : ZoneId} {d : Side} {c : Channel} {x : Sample}
    (hx : s.ahead z d 0 = some (x, false)) (hr : c.run = .none) : s.drawChannel z d c = c.good x.toInt := by
  simp [State.drawChannel, hx, hr, Channel.repair_none hr, Channel.fromNone]

/-- With no condition of R127 and no LONG run, the gain rises toward 256 (R126). -/
theorem Channel.envelope_sounding (c : Channel) (hr : c.run = .none) (hg : c.gain ≤ 256) :
    c.envelope false = { c with target := 256, gain := min 256 (c.gain + 1) } := by
  have hs : stepGain c.gain 256 = min 256 (c.gain + 1) := by
    unfold stepGain
    split
    · omega
    · split <;> omega
  have hl : c.isLong = false := by simp [Channel.isLong, hr]
  simp [Channel.envelope, hl, hs]

/-- A zone that sounds: PLAYING and drawing, with no condition of R127, within its head block and with no fresh start due. -/
structure State.Sounds (s : State) (z : ZoneId) : Prop where
  play     : (s.zone z).play = .playing
  idle     : (s.zone z).pendingAny = false
  silence  : s.pc.silence = false
  done     : s.pc.silenceDone = false
  fed      : s.starving z = false
  fill     : s.fill z ≠ 0
  within   : (s.zone z).offset < 479
  drawing  : (s.oc.get z).drawing = true
  fresh    : (s.oc.get z).fresh = false

namespace State.Sounds

variable {s : State} {z : ZoneId}

theorem drawingNow (h : s.Sounds z) : s.drawingNow z = true := by
  simp [State.drawingNow, h.play, h.drawing]

theorem draws (h : s.Sounds z) : s.draws z = true := by
  simp [State.draws, h.drawingNow, h.fill, h.done]

theorem not_silenced (h : s.Sounds z) : s.silenced z (s.drawingNow z) = false := by
  simp [State.silenced, h.drawingNow, h.play, h.idle, h.fill, h.fed, h.silence]

/-- A channel that draws an unerased sample outside a run (R119, R126, R127). -/
theorem channel {d : Side} {c : Channel} {x : Sample} (h : s.Sounds z) (hc : (s.oc.get z).side d = c)
    (hx : s.ahead z d 0 = some (x, false)) (hr : c.run = .none) (hg : c.gain ≤ 256) :
    (s.concealed z).side d = ⟨min 256 (c.gain + 1), 256, x.toInt, x.toInt, .none⟩ := by
  have hv : s.channelValue z d c = c.good x.toInt := by
    simp [State.channelValue, h.draws, h.fresh, State.drawChannel_unerased hx hr]
  rw [s.concealed_side, hc, hv, h.not_silenced, (c.good x.toInt).envelope_sounding rfl hg]
  rfl

end State.Sounds

/-! ## What the outputs take -/

/-- A zone's concealer after its frame event, from what its channels come to: each outputs its repaired value at its gain (R126,
R129). -/
theorem State.concealed_eq {s : State} {z : ZoneId} {l r : Channel} (hl : (s.concealed z).side .left = l)
    (hr : (s.concealed z).side .right = r) : s.concealed z = { s.oc.get z with
      left := l, right := r, drawing := s.drawingNow z, fresh := (s.oc.get z).fresh && !s.draws z
      outL := scale l.lastRepaired l.gain, outR := scale r.lastRepaired r.gain } := by
  subst hl hr
  rfl

/-- What a frame event leaves when nothing is pending, silence is not ordered and no block ends: the outputs' values, and the head
frame offset that a frame drawn raises. -/
theorem State.frame_within {s : State} {z : ZoneId} (hi : (s.zone z).pendingAny = false) (hs : s.pc.silence = false)
    (hw : s.draws z = false ∨ (s.zone z).offset < 479) : s.frame z =
      { s with
        zc := s.zc.mod z fun r => { r with offset := if s.draws z then r.offset + 1 else r.offset }
        oc := s.oc.mod z fun _ => s.concealed z } := by
  have hpend : ((s.drawn z).zone z).pendingAny = false := (s.drawn_after z).idle z hi
  have hsil : (s.drawn z).pc.silence = false := (congrArg Power.silence (s.drawn_after z).pc).trans hs
  have hrep : (s.drawn z).reportSilence = s.drawn z := if_neg fun ⟨hb, _⟩ => Bool.noConfusion (hsil.symm.trans hb)
  rw [s.frame_eq, State.reportZero_idle hpend, hrep, State.drawn_within hw]
  rfl

/-- A zone that sounds outputs its frame, and its head frame offset rises (R119, R126). -/
theorem State.Sounds.frame_eq {s : State} {z : ZoneId} {l r : Channel} (h : s.Sounds z) (hl : (s.concealed z).side .left = l)
    (hr : (s.concealed z).side .right = r) : s.frame z = { s with
      zc := s.zc.mod z fun x => { x with offset := (s.zone z).offset + 1 }
      oc := s.oc.mod z fun c => { c with
        left := l, right := r, outL := scale l.lastRepaired l.gain, outR := scale r.lastRepaired r.gain } } := by
  have hzc : (s.zc.mod z fun x => { x with offset := if s.draws z then x.offset + 1 else x.offset }) =
      s.zc.mod z fun x => { x with offset := (s.zone z).offset + 1 } := by
    simp only [h.draws, if_true]
    exact Pair.mod_congr rfl
  have hoc : (s.oc.mod z fun _ => s.concealed z) = s.oc.mod z fun c => { c with
      left := l, right := r, outL := scale l.lastRepaired l.gain, outR := scale r.lastRepaired r.gain } :=
    Pair.mod_congr (by simp [State.concealed_eq hl hr, h.drawingNow, h.drawing, h.fresh])
  rw [State.frame_within h.idle h.silence (.inr h.within), hzc, hoc]

/-- A zone that is not PLAYING draws nothing, and each channel's held value fades (R126, R127, R129). -/
theorem State.frame_fades {s : State} {z : ZoneId} (hplay : (s.zone z).play ≠ .playing) (hi : (s.zone z).pendingAny = false)
    (hs : s.pc.silence = false) : s.frame z = { s with oc := s.oc.mod z fun c => { c with
      left := { c.left with target := 0, gain := c.left.gain - 1 }
      right := { c.right with target := 0, gain := c.right.gain - 1 }
      drawing := false
      outL := scale c.left.lastRepaired (c.left.gain - 1)
      outR := scale c.right.lastRepaired (c.right.gain - 1) } } := by
  have hnow : s.drawingNow z = false := by simp [State.drawingNow, hplay]
  have hdraws : s.draws z = false := by simp [State.draws, hnow]
  have hsil : s.silenced z (s.drawingNow z) = true := by simp [State.silenced, hplay]
  have hside (d : Side) : (s.concealed z).side d = { (s.oc.get z).side d with
      target := 0, gain := ((s.oc.get z).side d).gain - 1 } := by
    rw [s.concealed_side, hsil, Channel.envelope_hushed]
    simp [State.channelValue, hdraws]
  have hzc : (s.zc.mod z fun x => { x with offset := if s.draws z then x.offset + 1 else x.offset }) = s.zc := by
    simp only [hdraws]
    exact Pair.mod_id _ _
  rw [State.frame_within hi hs (.inl hdraws), hzc]
  refine congrArg (fun o => { s with oc := o }) (Pair.mod_congr ?_)
  rw [State.concealed_eq (hside .left) (hside .right), hnow, hdraws]
  simp [Concealer.side]

/-- In single-zone strap AUDIO B carries zero samples (R117, R130). -/
theorem exec_frameEvent_absent {s : State} (hp : s.pc.state ≠ .parked) (h : s.straps.singleZone = true) :
    exec (.frameEvent .b) s = .next (State.finish s (s.modOc .b fun c => { c with outL := 0, outR := 0 })) :=
  State.whenPowered_powered (f := fun t => t.frameEvent .b) hp (if_pos ⟨rfl, h⟩)

/-- Settles O32: a zone that sounds draws and repairs each sample as itself, and one that is not PLAYING fades what it holds. -/
theorem frameEventsOutputAndFade : Obligations.FrameEventsOutputAndFade := by
  refine ⟨fun s z hp hz hplay hi hs hdone hfed hfill ho hdraw hfresh hl hr hgl hgr => ?_,
    fun s z hp => ⟨fun hz hplay hi hs => ?_, ?_⟩⟩
  · intro b n v w g k hvf hwf
    have h : s.Sounds z := ⟨hplay, hi, hs, hdone, hfed, hfill, ho, hdraw, hfresh⟩
    have hv : s.ahead z .left 0 = some (v, false) := by
      rw [← hvf]
      exact State.ahead_head .left hfill (by omega)
    have hw : s.ahead z .right 0 = some (w, false) := by
      rw [← hwf]
      exact State.ahead_head .right hfill (by omega)
    rw [exec_frameEvent hp hz, h.frame_eq (h.channel (d := .left) rfl hv hl hgl) (h.channel (d := .right) rfl hw hr hgr)]
    rfl
  · rw [exec_frameEvent hp hz, State.frame_fades hplay hi hs]
    rfl
  · rintro rfl h
    exact exec_frameEvent_absent hp h

end Sys2Proof.Machine
end

section
/-! PROOF. The records of the Disc Directory as every step keeps them (chapter 8): lawful defect lists, ranks below the sequence value
and distinct fingerprints (O10). -/

namespace Sys2Proof.Machine

/-- What keeps the defect lists lawful and the records ranked is a law of every step: calm changes keep it, and a start either lets
every PRESENT record depart or makes every record FREE. -/
theorem stepLaw_directory : StepLaw fun s t => (s.dd.lawful → t.dd.lawful) ∧ (s.dd.ranked → t.dd.ranked) where
  trans h k := ⟨k.1 ∘ h.1, k.2 ∘ h.2⟩
  calm h := ⟨h.lawful, h.ranked⟩
  queue _ _ := ⟨id, id⟩
  pins _ _ := ⟨id, id⟩
  link _ _ _ := ⟨id, id⟩
  power _ _ := ⟨id, id⟩
  gains _ _ := ⟨id, id⟩
  select _ _ _ := ⟨id, id⟩
  rotation _ _ _ := ⟨id, id⟩
  configure _ _ _ _ _ _ _ := ⟨id, id⟩
  restart _ := ⟨Directory.lawful_departAll, Directory.ranked_departAll⟩
  cold _ _ := ⟨fun _ => Directory.lawful_cold, fun _ => Directory.ranked_cold⟩

/-- Settles O10: both laws of the directory are laws of every step. -/
theorem stepKeepsTheDirectory : Obligations.StepKeepsTheDirectory :=
  ⟨fun _ _ hl h => (stepLaw_directory.step h).1 hl, fun _ _ hk h => (stepLaw_directory.step h).2 hk⟩

end Sys2Proof.Machine
end

section
/-! PROOF. What a defect list covers (chapter 8): no merge and no insertion loses an address (O58). -/

namespace Sys2Proof.Machine

/-- Address `a` lies in region `r`. -/
def spans (r : Region) (a : Nat) : Prop := r.first ≤ a ∧ a ≤ r.last

/-- Address `a` lies in a region of the defect list. -/
def covered (l : List Region) (a : Nat) : Prop := ∃ x ∈ l, spans x a

theorem covered_cons {x : Region} {l : List Region} {a : Nat} : covered (x :: l) a ↔ spans x a ∨ covered l a := by
  simp [covered]

theorem covered_mergeRegions {x y : Region} {a : Nat} (h : spans x a ∨ spans y a) : spans (mergeRegions x y) a := by
  unfold spans mergeRegions at *
  dsimp only
  omega

/-- A region that is placed in a list comes to those that the list holds (R145). -/
theorem covered_placeRegion {r : Region} {l : List Region} {a : Nat} (h : spans r a ∨ covered l a) : covered (placeRegion r l) a := by
  induction l with
  | nil => exact covered_cons.2 h
  | cons x l ih =>
    unfold placeRegion
    split
    · exact covered_cons.2 h
    · rw [covered_cons] at h ⊢
      rcases h with h | h | h
      · exact .inr (ih (.inl h))
      · exact .inl h
      · exact .inr (ih (.inr h))

/-- A region that leaves the list is merged into the growing one (R145). -/
theorem covered_absorb {n : Nat} {r : Region} {l : List Region} {a : Nat} (h : spans r a ∨ covered l a) :
    spans (absorb n r l).1 a ∨ covered (absorb n r l).2 a := by
  induction n generalizing r l with
  | zero => exact h
  | succ n ih =>
    unfold absorb
    split
    · exact h
    · next x _ =>
      refine ih ?_
      rcases h with h | ⟨y, hy, h⟩
      · exact .inl (covered_mergeRegions (.inl h))
      · by_cases e : y = x
        · exact .inl (covered_mergeRegions (.inr (e ▸ h)))
        · exact .inr ⟨y, (List.mem_erase_of_ne e).2 hy, h⟩

theorem covered_insertMerging {l : List Region} {r : Region} {a : Nat} (h : spans r a ∨ covered l a) :
    covered (insertMerging l r) a := covered_placeRegion (covered_absorb h)

/-- A pair merged covers the gap too, and no address less (R146). -/
theorem covered_mergePairAt {l : List Region} (n : Nat) {a : Nat} (h : covered l a) : covered (mergePairAt l n) a := by
  fun_induction mergePairAt l n with
  | case1 x y l =>
    rw [covered_cons, covered_cons, ← or_assoc] at h
    exact covered_cons.2 (h.imp_left covered_mergeRegions)
  | case2 x l n ih => exact covered_cons.2 ((covered_cons.1 h).imp_right ih)
  | case3 => exact h

theorem covered_mergeClosest {l : List Region} {a : Nat} (h : covered l a) : covered (mergeClosest l) a := by
  unfold mergeClosest
  split
  · exact h
  · exact covered_mergePairAt _ h

/-- An insertion into a list that is full merges its closest pair first, which loses nothing (R146). -/
theorem covered_insertRegion {l : List Region} {r : Region} {a : Nat} (h : spans r a ∨ covered l a) :
    covered (insertRegion l r) a := by
  unfold insertRegion
  split
  · exact covered_insertMerging (h.imp_right covered_mergeClosest)
  · exact covered_insertMerging h

/-- Settles O58: each part of an insertion covers what stood before it. -/
theorem insertedRegionsStayCovered : Obligations.InsertedRegionsStayCovered :=
  fun _ _ _ _ _ _ _ h => covered_insertRegion h.symm

end Sys2Proof.Machine
end

section
/-! PROOF. Last-seen ranks (chapter 8): the renumbering keeps their order, and a refresh puts one record above all others (O59). -/

namespace Sys2Proof.Machine

/-- The directory once step 1 of a refresh is done: renumbered where the sequence value stands at 255 (R136). -/
def Directory.renumbered (d : Directory) : Directory :=
  if d.sequence = 255 then
    { d with records := renumber d.records, sequence := d.records.countP fun r => decide (r.state ≠ .free) }
  else d

/-- The rank of record `j`, which is `x`, once step 1 of a refresh is done (R136). -/
def Directory.rankAfter (d : Directory) (j : Nat) (x : DiscRecord) : Nat :=
  if d.sequence = 255 ∧ x.state ≠ .free then ranksBelow d.records j x else x.rank

/-- Step 1 of a refresh changes ranks alone. -/
theorem Directory.renumbered_getElem? (d : Directory) (j : Nat) :
    d.renumbered.records[j]? = d.records[j]?.map fun x => { x with rank := d.rankAfter j x } := by
  unfold Directory.renumbered Directory.rankAfter
  by_cases hs : d.sequence = 255
  · rw [if_pos hs]
    simp only [renumber, List.getElem?_mapIdx, hs, true_and]
    congr 1
    funext x
    by_cases hf : x.state = .free
    · rw [if_pos hf, if_neg (not_not_intro hf)]
    · rw [if_neg hf, if_pos hf]
  · simp [hs]

/-- A refresh: step 1, and then the rank of the record seen is the sequence value, which rises by one (R136). -/
theorem Directory.refresh_eq (d : Directory) (i : Nat) : d.refresh i =
    { d.renumbered.modRecord i fun r => { r with rank := d.renumbered.sequence } with sequence := d.renumbered.sequence + 1 } := rfl

theorem Directory.refresh_getElem?_self (d : Directory) (i : Nat) :
    (d.refresh i).records[i]? = d.records[i]?.map fun x => { x with rank := d.renumbered.sequence } := by
  simp [Directory.refresh_eq, Directory.modRecord, Directory.renumbered_getElem?, Function.comp_def]

theorem Directory.refresh_getElem?_ne (d : Directory) {i j : Nat} (h : j ≠ i) :
    (d.refresh i).records[j]? = d.records[j]?.map fun x => { x with rank := d.rankAfter j x } := by
  simp [Directory.refresh_eq, Directory.modRecord, Directory.renumbered_getElem?, h.symm]

/-- A record that is not FREE ranks below the sequence value, renumbered or not. -/
theorem Directory.rankAfter_lt_sequence {d : Directory} {j : Nat} {x : DiscRecord} (h : d.ranked) (hx : d.records[j]? = some x)
    (hf : x.state ≠ .free) : d.rankAfter j x < d.renumbered.sequence := by
  obtain ⟨-, -, hrank, -⟩ := h
  obtain ⟨hj, rfl⟩ := List.getElem?_eq_some_iff.1 hx
  unfold Directory.rankAfter Directory.renumbered
  by_cases hs : d.sequence = 255
  · rw [if_pos ⟨hs, hf⟩, if_pos hs]
    exact ranksBelow_lt hj hf
  · rw [if_neg fun h => hs h.1, if_neg hs]
    exact hrank _ (List.getElem_mem hj) hf

/-- A record of a higher rank has more records before it, the one of the lower rank among them (R136). -/
theorem ranksBelow_lt_ranksBelow {l : List DiscRecord} {j k : Nat} {x y : DiscRecord} (hx : l[j]? = some x) (hf : x.state ≠ .free)
    (h : x.rank < y.rank) : ranksBelow l j x < ranksBelow l k y := by
  unfold ranksBelow
  rw [← List.countP_eq_length_filter, ← List.countP_eq_length_filter]
  refine countP_lt (a := (x, j)) (List.mk_mem_zipIdx_iff_getElem?.2 hx) (by simp [hf, h]) (by simp) fun z _ hz => ?_
  simp only [Bool.and_eq_true, Bool.or_eq_true, decide_eq_true_eq] at hz ⊢
  exact ⟨hz.1, .inl (by omega)⟩

/-- Step 1 of a refresh keeps the order of the ranks of records that are not FREE. -/
theorem Directory.rankAfter_lt {d : Directory} {j k : Nat} {x y : DiscRecord} (hx : d.records[j]? = some x) (hfx : x.state ≠ .free)
    (hfy : y.state ≠ .free) (h : x.rank < y.rank) : d.rankAfter j x < d.rankAfter k y := by
  unfold Directory.rankAfter
  by_cases hs : d.sequence = 255
  · rw [if_pos ⟨hs, hfx⟩, if_pos ⟨hs, hfy⟩]
    exact ranksBelow_lt_ranksBelow hx hfx h
  · rwa [if_neg fun h => hs h.1, if_neg fun h => hs h.1]

/-- Settles O59: the record seen takes the sequence value as step 1 left it, and the ranks of the others lie below. -/
theorem refreshedRecordRanksHighest : Obligations.RefreshedRecordRanksHighest := by
  intro d i j k x y h hx hy hfx hfy hji hki hi
  obtain ⟨h8, hq, hrank, hp⟩ := id h
  have hr : d.records[i]? = some d.records[i] := List.getElem?_eq_getElem (h8 ▸ hi)
  have hseq : (d.refresh i).sequence ≤ 255 :=
    (Directory.ranked_refresh i h8 hq (fun n hn _ => hrank _ (List.getElem_mem hn)) hp).2.1
  exact ⟨{ x with rank := d.rankAfter j x }, { y with rank := d.rankAfter k y }, { d.records[i] with rank := d.renumbered.sequence },
    by rw [d.refresh_getElem?_ne hji, hx]; rfl, by rw [d.refresh_getElem?_ne hki, hy]; rfl,
    by rw [d.refresh_getElem?_self, hr]; rfl, Directory.rankAfter_lt_sequence h hx hfx, Directory.rankAfter_lt hx hfx hfy,
    Nat.lt_succ_self _, hseq⟩

end Sys2Proof.Machine
end

section
/-! PROOF. The record of an identified disc (chapter 8): what a readable directory makes of the record it matches, and of the FREE
record that is taken for it (O60). -/

namespace Sys2Proof.Machine

/-- A record that is written and seen holds what was written, but for its rank (R136). -/
theorem Directory.renew_getElem? {d : Directory} {i : Nat} {r : DiscRecord} (g : DiscRecord → DiscRecord)
    (h : d.records[i]? = some r) : ∃ n, (d.renew i g).records[i]? = some { g r with rank := n } := by
  refine ⟨(d.modRecord i g).renumbered.sequence, ?_⟩
  rw [Directory.renew, Directory.refresh_getElem?_self]
  simp [Directory.modRecord, h]

/-- The end of an identification leaves the records alone. -/
theorem State.record_identOutcome (s : State) (slot : Nat) (o : IdentOutcome) (rec : Option Nat) (found : Bool) (i : Nat) :
    (s.identOutcome slot o rec found).record i = s.record i := by
  obtain ⟨_, _, _, _, _, he⟩ := s.identOutcome_spec slot o rec found
  rw [he]
  rfl

/-- The DEPARTED record that a fingerprint matches (R140). -/
theorem State.readableDisc_matched {s : State} {info : DiscInfo} {i : Nat} {r : DiscRecord} (slot : Nat)
    (hf : s.dd.find info.print = some i) (hr : s.record i = some r) (hd : r.state = .departed) :
    s.readableDisc slot info =
      (s.modDd (Directory.renew i fun r => { r with state := .present, slot := some slot, lastSlot := some slot })).identOutcome slot
        .matched (some i) true := by
  simp only [State.readableDisc, hf, hr, if_pos hd]
  rfl

/-- The record that is taken for a disc whose fingerprint matches none (R141). -/
theorem State.readableDisc_new {s : State} {info : DiscInfo} {i : Nat} (slot : Nat) (hf : s.dd.find info.print = none)
    (hn : s.recordForNew = some i) :
    s.readableDisc slot info = (s.modDd (Directory.renew i fun _ => newRecord slot info)).identOutcome slot .new (some i) false := by
  simp only [State.readableDisc, hf, hn]
  rfl

/-- The FREE record with the lowest index is the one that a NEW disc takes (R141). -/
theorem State.recordForNew_free {s : State} {i : Nat} {r : DiscRecord} (hr : s.record i = some r) (hfree : r.state = .free)
    (hlow : ∀ j x, j < i → s.record j = some x → x.state ≠ .free) : s.recordForNew = some i := by
  obtain ⟨hi, rfl⟩ := List.getElem?_eq_some_iff.1 hr
  have hfirst : (s.dd.records.findIdx? fun r => decide (r.state = .free)) = some i :=
    List.findIdx?_eq_some_iff_getElem.2 ⟨hi, by simpa using hfree, fun j hj => by
      simpa using hlow j _ hj (List.getElem?_eq_getElem (hj.trans hi))⟩
  simp [State.recordForNew, hfirst]

/-- Settles O60: the record found or taken is written and seen, and the end of the identification leaves it. -/
theorem identifiedDiscTakesItsRecord : Obligations.IdentifiedDiscTakesItsRecord := by
  intro s slot info i r hr
  refine ⟨fun hf hd => ?_, fun hf hfree hlow => ?_⟩
  · obtain ⟨n, hn⟩ := Directory.renew_getElem?
      (fun r => { r with state := .present, slot := some slot, lastSlot := some slot }) hr
    rw [State.readableDisc_matched slot hf hr hd, State.record_identOutcome]
    exact ⟨_, hn, rfl, rfl, rfl, rfl, rfl, rfl, rfl⟩
  · obtain ⟨n, hn⟩ := Directory.renew_getElem? (fun _ => newRecord slot info) hr
    rw [State.readableDisc_new slot hf (State.recordForNew_free hr hfree hlow), State.record_identOutcome]
    exact ⟨_, hn, rfl, rfl, rfl, rfl, rfl, rfl, rfl⟩

end Sys2Proof.Machine
end

section
/-! PROOF. The directory requests (chapter 8): DISC-RECORD, DEFECT-LIST and TRACK-LIST answer from the record named, and FORGET-DISC
clears it (O56, O57). -/

namespace Sys2Proof.Machine

/-! ## The record that a request names (R149 to R151) -/

theorem State.onRecord_bad {s : State} {i : Byte} {l : List Byte} {f : Nat → DiscRecord → Answer} (h : 7 < i.toNat) :
    s.onRecord (i :: l) f = .rejected .badValue := if_pos h

theorem State.onRecord_named {s : State} {i : Byte} {l : List Byte} {f : Nat → DiscRecord → Answer} {r : DiscRecord}
    (h : i.toNat ≤ 7) (hr : s.record i.toNat = some r) : s.onRecord (i :: l) f = f i.toNat r := by
  simp [State.onRecord, bodyAt, Nat.not_lt.2 h, hr]

theorem byte_toNat (b : Byte) : byte b.toNat = b := by simp [byte]

/-! ## DISC-RECORD, DEFECT-LIST and TRACK-LIST (R149, R150) -/

section

variable {s : State} {i start : Byte} {r : DiscRecord}

/-- DISC-RECORD of a record: a missing start sum uses a free value (R149, log entry 4). -/
theorem ownDiscRecord_named (h : i.toNat ≤ 7) (hr : s.record i.toNat = some r) : ownDiscRecord s [i] =
    .accepted (if r.print = none then { s with free := s.free + 1 } else s) (s.recordBody i.toNat r) :=
  State.onRecord_named h hr

theorem ownDefectList_badStart (h : i.toNat ≤ 7) (hr : s.record i.toNat = some r) (hs : 31 < start.toNat) :
    ownDefectList s [i, start] = .rejected .badValue := (State.onRecord_named h hr).trans (if_pos hs)

theorem ownDefectList_named (h : i.toNat ≤ 7) (hr : s.record i.toNat = some r) (hs : start.toNat ≤ 31) :
    ownDefectList s [i, start] = .accepted s (defectBody i.toNat start.toNat r) :=
  (State.onRecord_named h hr).trans (if_neg (Nat.not_lt.2 hs))

theorem ownTrackList_badStart (h : i.toNat ≤ 7) (hr : s.record i.toNat = some r) (hs : 98 < start.toNat) :
    ownTrackList s [i, start] = .rejected .badValue := (State.onRecord_named h hr).trans (if_pos hs)

theorem ownTrackList_named (h : i.toNat ≤ 7) (hr : s.record i.toNat = some r) (hs : start.toNat ≤ 98) :
    ownTrackList s [i, start] = .accepted s (trackBody i.toNat start.toNat r) :=
  (State.onRecord_named h hr).trans (if_neg (Nat.not_lt.2 hs))

end

/-- The record, its lists and its references stand in the reply as the request names them. -/
theorem State.recordBody_byte (s : State) (i : Byte) (r : DiscRecord) : s.recordBody i.toNat r =
    [i, recStateCode r.state, optByte r.slot, optByte r.lastSlot] ++ printBytes (Config.freeWord s.free) r.print ++
      ([byte r.defects.length] ++ optResume r.resume ++
        [if (s.zone .a).selected = some i.toNat then 1 else 0, if (s.zone .b).selected = some i.toNat then 1 else 0]) := by
  simp [State.recordBody, byte_toNat, State.references, flagByte]

section

variable {s t : State} {kind : Byte} {body b : List Byte} {n : Nat} {own : State → List Byte → Answer}

/-- A query that PARKING does not refuse, of the required length, and that its owner accepts. -/
theorem State.request_queried {u : State} (hp : s.pc.state ≠ .parked) (hr : s.cl.request = none)
    (h : own (s.asked ⟨kind, body⟩) body = .accepted t b) (hu : t.reply kind b = u) (hn : body.length = n := by rfl)
    (hb : body.length ≤ 63 := by exact Nat.le_of_ble_eq_true rfl) :
    s.request kind body ⟨some n, false⟩ own = .next (State.finish s u) :=
  hu ▸ State.request_accepted hp hr hb (fun _ e => hn.trans (Option.some.inj e)) nofun h

/-- A query that PARKING does not refuse, of the required length, and that its owner refuses. -/
theorem State.request_badQuery {r : Reason} (hp : s.pc.state ≠ .parked) (hr : s.cl.request = none)
    (h : own (s.asked ⟨kind, body⟩) body = .rejected r) (hn : body.length = n := by rfl)
    (hb : body.length ≤ 63 := by exact Nat.le_of_ble_eq_true rfl) :
    s.request kind body ⟨some n, false⟩ own = .next (State.finish s { s with cl := s.afterRefusal ⟨kind, body⟩ r }) :=
  State.request_rejected hp hr hb (fun _ e => hn.trans (Option.some.inj e)) nofun h

end

/-- Settles O56: by the tests of each request, in their order. -/
theorem directoryRequestsAnswerTheRecord : Obligations.DirectoryRequestsAnswerTheRecord := by
  intro s i start r hp hq
  refine ⟨fun h => ⟨State.request_badQuery hp hq (State.onRecord_bad h), State.request_badQuery hp hq (State.onRecord_bad h),
    State.request_badQuery hp hq (State.onRecord_bad h)⟩, fun hi hr => ⟨?_, fun h => ?_, ?_, fun h => ?_, ?_⟩⟩
  · intro refs head tail
    refine ⟨fun p hpr => ?_, fun hpr => ?_⟩
    · refine State.request_queried hp hq (ownDiscRecord_named hi hr) ?_
      rw [State.recordBody_byte, hpr, if_neg nofun]
      simp only [printBytes, ← List.append_assoc]
      rfl
    · refine State.request_queried hp hq (ownDiscRecord_named hi hr) ?_
      rw [State.recordBody_byte, hpr, if_pos rfl]
      simp only [printBytes, ← List.append_assoc]
      rfl
  · exact State.request_badQuery hp hq (ownDefectList_badStart hi hr h)
  · intro l regions h
    refine State.request_queried hp hq (ownDefectList_named hi hr h) ?_
    simp only [defectBody, byte_toNat]
    rfl
  · exact State.request_badQuery hp hq (ownTrackList_badStart hi hr h)
  · intro l h
    refine State.request_queried hp hq (ownTrackList_named hi hr h) ?_
    simp only [trackBody, byte_toNat]
    rfl

/-! ## FORGET-DISC (R151) -/

theorem State.referenced_iff {s : State} {i : Nat} : s.referenced i = true ↔ ∃ z, (s.zone z).selected = some i := by
  simp only [State.referenced, State.references, Bool.or_eq_true, decide_eq_true_eq]
  constructor
  · rintro (h | h)
    · exact ⟨.a, h⟩
    · exact ⟨.b, h⟩
  · rintro ⟨z, h⟩
    cases z with
    | a => exact .inl h
    | b => exact .inr h

theorem State.not_referenced {s : State} {i : Nat} (h : ∀ z, (s.zone z).selected ≠ some i) : ¬ s.referenced i = true :=
  fun e => (State.referenced_iff.1 e).elim h

section

variable {s : State} {i : Byte} {r : DiscRecord}

theorem ownForgetDisc_referenced (h : i.toNat ≤ 7) (hr : s.record i.toNat = some r) (hs : ∃ z, (s.zone z).selected = some i.toNat) :
    ownForgetDisc s [i] = .rejected .wrongState := (State.onRecord_named h hr).trans (if_pos (State.referenced_iff.2 hs))

theorem ownForgetDisc_free (h : i.toNat ≤ 7) (hr : s.record i.toNat = some r) (hs : ∀ z, (s.zone z).selected ≠ some i.toNat)
    (hf : r.state = .free) : ownForgetDisc s [i] = .accepted s [i, 1] := by
  refine (State.onRecord_named h hr).trans ((if_neg (State.not_referenced hs)).trans ((if_pos hf).trans ?_))
  rw [byte_toNat]

theorem ownForgetDisc_cleared (h : i.toNat ≤ 7) (hr : s.record i.toNat = some r) (hs : ∀ z, (s.zone z).selected ≠ some i.toNat)
    (hf : r.state ≠ .free) : ownForgetDisc s [i] =
      .accepted (s.modDd fun d => { d with records := d.records.set i.toNat .blank }) [i, 0] := by
  refine (State.onRecord_named h hr).trans ((if_neg (State.not_referenced hs)).trans ((if_neg hf).trans ?_))
  simp only [byte_toNat, Directory.modRecord, List.set_eq_modify]

end

/-- Settles O57: by the tests of FORGET-DISC, in their order. -/
theorem forgetDiscClearsARecord : Obligations.ForgetDiscClearsARecord := by
  intro s i r hs
  refine ⟨fun h => hs.refuses (State.onRecord_bad h), fun hi hr => ⟨fun h => ?_, fun h hf => ?_, fun h hf => ?_⟩⟩
  · exact hs.refuses (ownForgetDisc_referenced hi hr h)
  · exact hs.acceptsAs (ownForgetDisc_free hi hr h hf) rfl
  · exact hs.acceptsAs (ownForgetDisc_cleared hi hr h hf) rfl

end Sys2Proof.Machine
end

section
/-! PROOF. A claim that is over, whatever the drive was doing (chapter 4); zones that all leave a supply state together; and the events of
the magazine (chapter 9): EJECT, the eject button and the loader's timers (O36). -/

namespace Sys2Proof.Machine

/-! ## A LIVE claim is over (R70, R71, R155) -/

/-- The drive once claim `c` is over in the standing `st`: with a command outstanding the claim is kept until it completes, and with none
it is gone, with PAUSE sent if the drive was READING. -/
def Drive.claimOver (d : Drive) (c : Claim) (st : Standing) : Drive :=
  if d.out = none then
    if d.state = .reading then { d.sending .pause 300000000 .stopping with claim := none }
    else { d with claim := none, blockTimer := .stopped }
  else { d with claim := some { c with standing := st }, blockTimer := .stopped }

/-- The drive keeps the claim for a command outstanding alone. -/
theorem Drive.claimOver_claim (d : Drive) (c : Claim) (st : Standing) :
    (d.claimOver c st).claim = if d.out = none then none else some { c with standing := st } := by
  unfold Drive.claimOver
  split
  · split <;> rfl
  · rfl

/-- The loader once a claim of kind `k` is over: an identification's slot timer stands still (R155). -/
def Loader.claimOver (l : Loader) (k : ClaimKind) : Loader :=
  { l with slotTimer := if k = .ident ∧ l.slotTimer = .running then .standing else l.slotTimer }

/-- The state once claim `c` is over in the standing `st`, with the link-up contexts `x`. -/
def State.claimOver (s : State) (c : Claim) (st : Standing) (x : Pair (Option LinkCtx)) : State := { s with
  da := s.da.claimOver c st, bi := s.bi.close st, lm := s.lm.claimOver c.kind, lu := { s.lu with ctx := x } }

theorem Loader.claimOver_ident (l : Loader) : l.claimOver .ident = l.standStill := by
  obtain ⟨_, _, _, _, _, _, t, _⟩ := l
  cases t <;> rfl

theorem Loader.claimOver_other (l : Loader) {k : ClaimKind} (h : k ≠ .ident) : l.claimOver k = l := by
  unfold Loader.claimOver
  rw [if_neg fun hk => h hk.1]

/-- A claim takes a final standing: beside it, the tag and the block timer, a context and an identification's slot timer may change. -/
theorem State.markClaim_eq (s : State) (c : Claim) (st : Standing) : ∃ x, s.markClaim c st =
    { s.claimMarked c st with lm := s.lm.claimOver c.kind, lu := { s.lu with ctx := x } } := by
  have hlm (hk : c.kind ≠ .ident) : s.lm.claimOver c.kind = s.lm := s.lm.claimOver_other hk
  have waits (hk : c.kind ≠ .ident) (z : ZoneId) : ∃ x,
      (if st = .cancelled then (s.claimMarked c st).ctxWait z else s.claimMarked c st) =
      { s.claimMarked c st with lm := s.lm.claimOver c.kind, lu := { s.lu with ctx := x } } := by
    rw [hlm hk, State.ctxWait_eq]
    split <;> exact ⟨_, rfl⟩
  unfold State.markClaim
  dsimp only
  split
  · next hk =>
    have hstill : s.lm.claimOver c.kind = s.lm.standStill := by rw [hk, Loader.claimOver_ident]
    rw [hstill]
    exact ⟨s.lu.ctx, rfl⟩
  · next z hk _ => exact waits (by rw [hk]; nofun) z
  · next z hk _ => exact waits (by rw [hk]; nofun) z
  · next hk _ _ =>
    rw [hlm hk]
    exact ⟨s.lu.ctx, rfl⟩

/-- A LIVE claim other than HOLD that ends or is cancelled is over. -/
theorem State.closeClaim_over {s : State} {c : Claim} (st : Standing) (hc : s.liveClaim = some c) (hk : c.kind ≠ .hold) :
    ∃ x, s.closeClaim st = s.claimOver c st x := by
  obtain ⟨x, hx⟩ := s.markClaim_eq c st
  have hclose : s.closeClaim st = (s.markClaim c st).releasePickup := by simp [State.closeClaim, hc, hk]
  refine ⟨x, ?_⟩
  rw [hclose, hx, State.claimOver, Drive.claimOver]
  by_cases ho : s.da.out = none
  · rw [if_pos ho]
    by_cases hr : s.da.state = .reading
    · rw [if_pos hr]
      exact State.releasePickup_reading ho hr
    · rw [if_neg hr]
      simp only [State.releasePickup, State.claimMarked, State.modDa, State.modBi, ho, hr, if_false]
      rfl
  · obtain ⟨o, ho'⟩ := Option.ne_none_iff_exists'.1 ho
    rw [if_neg ho]
    simp only [State.releasePickup, State.claimMarked, State.modDa, State.modBi, ho']

/-- A claim that is closed changes nothing, or is over. -/
theorem State.closeClaim_cases (s : State) (st : Standing) : s.closeClaim st = s ∨
    ∃ c x, s.closeClaim st = s.claimOver c st x := by
  cases hc : s.liveClaim with
  | none => exact .inl (State.closeClaim_none hc st)
  | some c =>
    by_cases hk : c.kind = .hold
    · exact .inl (by simp [State.closeClaim, hc, hk])
    · exact .inr ⟨c, State.closeClaim_over st hc hk⟩

theorem State.liveClaim_some {s : State} {c : Claim} (hc : s.da.claim = some c) (hl : c.standing = .live) : s.liveClaim = some c := by
  simp [State.liveClaim, hc, hl]

theorem State.standing_of_liveClaim {s : State} {c : Claim} (h : s.liveClaim = some c) : c.standing = .live := by
  unfold State.liveClaim at h
  split at h
  · split at h
    · next hl =>
      cases h
      exact hl
    · cases h
  · cases h

/-- The claim `c` of `s` is over in `e`: no claim is LIVE, nor is the tag; the claim is gone, with PAUSE sent if the drive was READING, or
it is kept for the command outstanding; and the idle timer stands at `idle` where no PAUSE has stopped it. -/
def State.claimClosed (s e : State) (c : Claim) (idle : Timer) : Prop :=
  e.liveClaim = none ∧ e.tagLive = false ∧
  (s.da.out = none → s.da.state = .reading → e.da = { s.da with
    claim := none, out := some ⟨.pause, false, .running 300000000, none⟩, state := .stopping, idleTimer := .stopped,
    blockTimer := .stopped }) ∧
  (s.da.out = none → s.da.state ≠ .reading →
    e.da = { s.da with claim := none, idleTimer := idle, blockTimer := .stopped }) ∧
  (s.da.out ≠ none → e.da = { s.da with claim := e.da.claim, idleTimer := idle, blockTimer := .stopped } ∧
    ∃ st, e.da.claim = some { c with standing := st } ∧ st ≠ .live)

theorem State.claimClosed_of_over {s e : State} {c : Claim} {st : Standing} {idle : Timer} (hst : st ≠ .live)
    (hda : e.da = ({ s.da with idleTimer := idle } : Drive).claimOver c st) (hbi : e.bi = s.bi.close st) :
    s.claimClosed e c idle := by
  refine ⟨?_, State.tagLive_closed hst hbi, fun ho hr => ?_, fun ho hr => ?_, fun ho => ?_⟩
  · rw [State.liveClaim, hda, Drive.claimOver_claim]
    by_cases ho : s.da.out = none <;> simp [ho, hst]
  · rw [hda, Drive.claimOver, if_pos ho, if_pos hr]
    rfl
  · rw [hda, Drive.claimOver, if_pos ho, if_neg hr]
  · rw [hda, Drive.claimOver, if_neg ho]
    exact ⟨rfl, st, rfl, hst⟩

/-! ## Zones that leave a supply state together (R42, R79) -/

/-- Zone `z` comes to supply state `v` with cause `c`, if its supply state meets `p`. -/
def State.resupply (p : Supply → Prop) [DecidablePred p] (v : Supply) (c : ZoneCause) (s : State) (z : ZoneId) : State :=
  if p (s.zone z).supply then s.setSupply z v c else s

section

variable {p : Supply → Prop} [DecidablePred p] {v : Supply}

theorem State.resupply_spec (c : ZoneCause) (hv : dropsCtx v = true) (hp : ¬ p v) (s : State) (z : ZoneId) :
    ∃ r x oc cl n, s.resupply p v c z = { s with
      zc := s.zc.set z r, lu := { s.lu with ctx := s.lu.ctx.set z x }, oc := oc, cl := cl, free := n } ∧
      (p (s.zone z).supply → r.supply = v ∧ x = none) ∧ (¬ p (s.zone z).supply → r = s.zone z) := by
  unfold State.resupply
  split
  · next h =>
    obtain ⟨q, oc, cl, n, hs⟩ := State.setSupply_drops c hv fun he => hp (he ▸ h)
    exact ⟨{ s.zone z with supply := v, play := q }, none, oc, cl, n, by rw [hs]; cases z <;> rfl, fun _ => ⟨rfl, rfl⟩, absurd h⟩
  · next h => exact ⟨s.zone z, s.lu.ctx.get z, s.oc, s.cl, s.free, by cases z <;> rfl, fun k => absurd k h, fun _ => rfl⟩

/-- Both zones are tested, and each that meets `p` comes to `v` and drops its context. -/
theorem State.resupplies_spec (c : ZoneCause) (hv : dropsCtx v = true) (hp : ¬ p v) (s : State) :
    ∃ r x oc cl n, (s.resupply p v c .a).resupply p v c .b = { s with
      zc := r, lu := { s.lu with ctx := x }, oc := oc, cl := cl, free := n } ∧
      ∀ z, (p (s.zone z).supply → (r.get z).supply = v ∧ x.get z = none) ∧ (¬ p (s.zone z).supply → r.get z = s.zone z) := by
  obtain ⟨ra, xa, oc, cl, n, ha, hga, hsa⟩ := State.resupply_spec c hv hp s .a
  obtain ⟨rb, xb, oc', cl', n', hb, hgb, hsb⟩ := State.resupply_spec c hv hp (s.resupply p v c .a) .b
  rw [ha] at hb hgb hsb
  rw [ha]
  exact ⟨⟨ra, rb⟩, ⟨xa, xb⟩, oc', cl', n', hb, forall_zones ⟨⟨hga, hsa⟩, hgb, hsb⟩⟩

end

/-! ## The queue has emptied (R156) -/

theorem State.discNotFound_eq (s : State) (z : ZoneId) : s.discNotFound z = s.resupply (· = .absent) .lost .discNotFound z := rfl

/-- ABSENT zones become LOST. -/
theorem State.discsNotFound_spec (s : State) : ∃ r x oc cl n, (s.discNotFound .a).discNotFound .b = { s with
    zc := r, lu := { s.lu with ctx := x }, oc := oc, cl := cl, free := n } ∧
    ∀ z, ((s.zone z).supply = .absent → (r.get z).supply = .lost ∧ x.get z = none) ∧
      ((s.zone z).supply ≠ .absent → r.get z = s.zone z) :=
  State.resupplies_spec (p := (· = .absent)) .discNotFound rfl (by decide) s

/-- The link with the notice that zone `z` of `s` is LOST, if it was ABSENT. -/
def State.lostNotice (s : State) (l : Link) (z : ZoneId) : Link :=
  if (s.zone z).supply = .absent then l.notice ⟨0x70, [zoneCode z, playCode (s.zone z).play, 5, 14]⟩ else l

/-- An ABSENT zone that waits for no readiness test places its own notice alone. -/
theorem State.cl_discNotFound {s : State} {z : ZoneId}
    (h : (s.zone z).supply = .absent → (s.zone z).play ≠ .priming ∧ (s.zone z).play ≠ .starved) :
    (s.discNotFound z).cl = s.lostNotice s.cl z := by
  unfold State.discNotFound State.lostNotice
  split
  · next ha =>
    obtain ⟨hprime, hstarve⟩ := h ha
    have hzone : (s.putSupply z .lost).zone z = { s.zone z with supply := .lost } := Pair.get_mod_self _ _ _
    have hset : s.setSupply z .lost .discNotFound = (s.putSupply z .lost).supplyChanged z .discNotFound :=
      (if_neg (by rw [ha]; nofun)).trans (if_neg fun k => nomatch k.1)
    have hnotice : (s.putSupply z .lost).supplyChanged z .discNotFound = (s.putSupply z .lost).zoneNotice z .discNotFound := by
      unfold State.supplyChanged
      rw [hzone, if_neg fun k => hprime k.1, if_neg fun k => hstarve k.1]
    rw [hset, hnotice, State.zoneNotice, hzone]
    rfl
  · rfl

theorem State.cl_discsNotFound {s : State}
    (h : ∀ z, (s.zone z).supply = .absent → (s.zone z).play ≠ .priming ∧ (s.zone z).play ≠ .starved) :
    ((s.discNotFound .a).discNotFound .b).cl = s.lostNotice (s.lostNotice s.cl .a) .b := by
  obtain ⟨r, x, oc, cl, n, ha, -⟩ :=
    State.resupply_spec (p := (· = .absent)) (v := .lost) .discNotFound rfl (by decide) s .a
  have hb : (s.discNotFound .a).zone .b = s.zone .b := by rw [State.discNotFound_eq, ha]; rfl
  rw [State.cl_discNotFound (by rw [hb]; exact h .b), State.cl_discNotFound (h .a), State.lostNotice, hb]
  rfl

/-- The state once a slot's identification has ended with outcome `o` and no record, before the queue is tested (R156, step 1). -/
def State.slotOver (s : State) (slot : Nat) (o : IdentOutcome) : State := { s with
  dd := { s.dd with ident := none }, lm := s.lm.nextSlot, cl := s.cl.notice ⟨0x73, [byte slot, identCode o, 0xFF]⟩ }

theorem State.identOutcome_waits {s : State} (slot : Nat) (o : IdentOutcome) (h : s.lm.queue.tail ≠ []) :
    s.identOutcome slot o none false = s.slotOver slot o := if_neg h

theorem State.identOutcome_last {s : State} (slot : Nat) (o : IdentOutcome) (h : s.lm.queue.tail = []) :
    s.identOutcome slot o none false = (((s.slotOver slot o).discNotFound .a).discNotFound .b).magNotice .scanDone := if_pos h

/-! ## An eject that is taken (R71, R76, R157, R158) -/

/-- The loader with an eject taken (R157). -/
def Loader.ejectTaken (l : Loader) : Loader :=
  { l with magazine := .ejecting, debounce := .stopped, fromSettling := decide (l.magazine = .settling) }

/-- What an eject that is taken makes of `s`, with `link` placed meanwhile: it waits for a hold that is granted or being revoked, and
otherwise its sequence begins, with the LIVE claim cancelled. -/
def State.ejectsTo (s e : State) (link : Link) : Prop :=
  (s.da.hold = .granted → e = { s with
    lm := { s.lm.ejectTaken with ejectStage := .waitingHold }
    da := { s.da with hold := .revoking, graceTimer := .running (s.params.holdGrace * 100 * 1000000) }
    cl := link.notice ⟨0x75, [2]⟩ }) ∧
  (s.da.hold = .revoking → e = { s with lm := { s.lm.ejectTaken with ejectStage := .waitingHold }, cl := link }) ∧
  (s.da.hold = .none ∨ s.da.hold = .queued ∨ s.da.hold = .lapsed →
    (s.liveClaim = none → e = { s with
      lm := { s.lm.ejectTaken with ejectStage := .unloading }, da := { s.da with idleTimer := .stopped }, cl := link }) ∧
    ∀ c, s.da.claim = some c → c.standing = .live → c.kind ≠ .hold →
      s.claimClosed e c .stopped ∧ e.cl = link ∧
      e.lm = { s.lm.ejectTaken with
        ejectStage := .unloading,
        slotTimer := if c.kind = .ident ∧ s.lm.slotTimer = .running then .standing else s.lm.slotTimer } ∧
      e.zc = s.zc ∧ e.bs = s.bs ∧ e.ru = s.ru ∧ e.lu.audit = s.lu.audit ∧ e.oc = s.oc ∧ e.dd = s.dd ∧ e.sm = s.sm ∧
      e.pc = s.pc ∧ e.params = s.params ∧ e.straps = s.straps ∧ e.pins = s.pins ∧ e.pending = s.pending)

theorem State.ejectOrWait_granted {s : State} (h : s.da.hold = .granted) :
    s.ejectOrWait = (s.modLm fun l => { l with ejectStage := .waitingHold }).revokeHold := by simp only [State.ejectOrWait, h]

theorem State.ejectOrWait_revoking {s : State} (h : s.da.hold = .revoking) :
    s.ejectOrWait = s.modLm fun l => { l with ejectStage := .waitingHold } := by simp only [State.ejectOrWait, h]

theorem State.ejectOrWait_begins {s : State} (h : s.da.hold = .none ∨ s.da.hold = .queued ∨ s.da.hold = .lapsed) :
    s.ejectOrWait = s.beginEject := by rcases h with h | h | h <;> simp only [State.ejectOrWait, h]

/-- With no LIVE claim the eject sequence begins alone. -/
theorem State.beginEject_idle {s : State} (h : s.liveClaim = none) : s.beginEject = { s with
    lm := { s.lm with ejectStage := .unloading }, da := { s.da with idleTimer := .stopped } } := by
  rw [State.beginEject, State.closeClaim_none h]
  rfl

theorem Drive.claimOver_idle (d : Drive) (c : Claim) (st : Standing) :
    { d.claimOver c st with idleTimer := .stopped } = ({ d with idleTimer := .stopped } : Drive).claimOver c st := by
  unfold Drive.claimOver
  dsimp only
  split
  · split <;> rfl
  · rfl

/-- The eject sequence begins, and the LIVE claim is over. -/
theorem State.beginEject_over {s : State} {c : Claim} (hc : s.liveClaim = some c) (hk : c.kind ≠ .hold) :
    ∃ x, s.beginEject = { s.claimOver c .cancelled x with
      lm := { s.lm.claimOver c.kind with ejectStage := .unloading }
      da := ({ s.da with idleTimer := .stopped } : Drive).claimOver c .cancelled } := by
  obtain ⟨x, hx⟩ := State.closeClaim_over .cancelled hc hk
  refine ⟨x, ?_⟩
  rw [State.beginEject, hx, ← Drive.claimOver_idle]
  rfl

/-- An eject is taken with the link at `link`. -/
theorem State.ejectsTo_taken (s : State) (link : Link) :
    s.ejectsTo (State.ejectOrWait { s with lm := s.lm.ejectTaken, cl := link }) link := by
  refine ⟨fun h => State.ejectOrWait_granted h, fun h => State.ejectOrWait_revoking h, fun h => ?_⟩
  rw [State.ejectOrWait_begins (s := { s with lm := s.lm.ejectTaken, cl := link }) h]
  refine ⟨fun hl => State.beginEject_idle hl, fun c hc hl hk => ?_⟩
  obtain ⟨x, hx⟩ := State.beginEject_over (s := { s with lm := s.lm.ejectTaken, cl := link }) (State.liveClaim_some hc hl) hk
  rw [hx]
  exact ⟨State.claimClosed_of_over (st := .cancelled) nofun rfl rfl, rfl, rfl, rfl, rfl, rfl, rfl, rfl, rfl, rfl, rfl, rfl, rfl,
    rfl, rfl⟩

theorem State.canEject_iff (s : State) : s.canEject = true ↔
    (s.lm.magazine = .present ∨ s.lm.magazine = .settling) ∧ s.da.state ≠ .fault ∧ s.pc.state = .active := by
  simp only [State.canEject, Bool.and_eq_true, Bool.or_eq_true, decide_eq_true_iff, and_assoc]

theorem ejectReply_eq (h : Hold) : ejectReply h = if h = .granted ∨ h = .revoking then 2 else 1 := by cases h <;> rfl

theorem ownEject_taken {s : State} (h : s.canEject = true) (body : List Byte) : ownEject s body =
    .accepted s.takeEject.ejectOrWait [if s.da.hold = .granted ∨ s.da.hold = .revoking then 2 else 1] := by
  rw [← ejectReply_eq]
  exact if_pos h

/-! ## The identification queue (R154) -/

/-- Zone `z` seeks slot `n` of the magazine first: its selected record is DEPARTED with `n` as its last slot. -/
def State.seeks (s : State) (z : ZoneId) (n : Nat) : Prop :=
  n ∈ magazineSlots s.straps ∧ ∃ r, s.selRec z = some r ∧ r.state = .departed ∧ r.lastSlot = some n

/-- The slot of the magazine that zone `z` seeks first, if there is one. -/
def State.firstSought (s : State) (z : ZoneId) : List Nat := (s.soughtSlot z).filter fun n => (magazineSlots s.straps).contains n

theorem State.mem_soughtSlot {s : State} {z : ZoneId} {n : Nat} :
    n ∈ s.soughtSlot z ↔ ∃ r, s.selRec z = some r ∧ r.state = .departed ∧ r.lastSlot = some n := by
  unfold State.soughtSlot
  cases s.selRec z with
  | none => simp
  | some r => by_cases h : r.state = .departed <;> simp [h]

theorem State.mem_firstSought {s : State} {z : ZoneId} {n : Nat} : n ∈ s.firstSought z ↔ s.seeks z n := by
  rw [State.firstSought, List.mem_filter, State.mem_soughtSlot, List.contains_iff_mem, and_comm]
  rfl

theorem State.firstSought_none {s : State} {z : ZoneId} (h : ∀ n, ¬ s.seeks z n) : s.firstSought z = [] :=
  List.eq_nil_iff_forall_not_mem.2 fun n hn => h n (State.mem_firstSought.1 hn)

theorem State.firstSought_some {s : State} {z : ZoneId} {n : Nat} (h : s.seeks z n) : s.firstSought z = [n] := by
  obtain ⟨hn, r, hr, hd, hl⟩ := h
  have hs : s.soughtSlot z = [n] := by simp [State.soughtSlot, hr, hd, hl]
  simp [State.firstSought, hs, hn]

/-- Duplicates may be erased before a filter or after it. -/
theorem filter_eraseDups (p : Nat → Bool) (l : List Nat) : l.eraseDups.filter p = (l.filter p).eraseDups := by
  match l with
  | [] => rfl
  | a :: l =>
    have ih := filter_eraseDups p (l.filter fun b => !b == a)
    rw [List.eraseDups_cons, List.filter_cons, List.filter_cons, ih, List.filter_filter]
    by_cases ha : p a = true
    · rw [if_pos ha, if_pos ha, List.eraseDups_cons, List.filter_filter]
      simp only [Bool.and_comm]
    · rw [if_neg ha, if_neg ha]
      refine congrArg List.eraseDups (List.filter_congr fun b _ => ?_)
      by_cases hb : b = a
      · simp [hb, ha]
      · simp [hb]
termination_by l.length
decreasing_by exact Nat.lt_succ_of_le (List.length_filter_le _ l)

/-- The queue begins with the slots that the zones seek first, and the others follow. -/
theorem State.identQueue_eq {s : State} {first : List Nat} (h : (s.firstSought .a ++ s.firstSought .b).eraseDups = first) :
    s.identQueue = first ++ (magazineSlots s.straps).filter fun n => !first.contains n := by
  rw [← h, State.firstSought, State.firstSought, ← List.filter_append, ← filter_eraseDups]
  rfl

theorem State.identQueue_plain {s : State} (h : ∀ z n, ¬ s.seeks z n) : s.identQueue = magazineSlots s.straps := by
  rw [State.identQueue_eq (first := []) (by rw [State.firstSought_none (h .a), State.firstSought_none (h .b)]; rfl)]
  simp

theorem State.identQueue_one {s : State} {z : ZoneId} {n : Nat} (h : s.seeks z n) (ho : ∀ m, s.seeks z.other m → m = n) :
    s.identQueue = n :: (magazineSlots s.straps).filter fun x => decide (x ≠ n) := by
  have hz := State.firstSought_some h
  have hother : s.firstSought z.other = [] ∨ s.firstSought z.other = [n] := by
    by_cases hm : ∃ m, s.seeks z.other m
    · obtain ⟨m, hm⟩ := hm
      exact .inr (ho m hm ▸ State.firstSought_some hm)
    · exact .inl (State.firstSought_none fun m k => hm ⟨m, k⟩)
  have hfirst : (s.firstSought .a ++ s.firstSought .b).eraseDups = [n] := by
    cases z with
    | a => rcases hother with hb | hb <;> rw [hz, show s.firstSought .b = _ from hb] <;> simp [List.eraseDups_cons]
    | b => rcases hother with ha | ha <;> rw [hz, show s.firstSought .a = _ from ha] <;> simp [List.eraseDups_cons]
  rw [State.identQueue_eq hfirst]
  simp

theorem State.identQueue_two {s : State} {n m : Nat} (ha : s.seeks .a n) (hb : s.seeks .b m) (h : n ≠ m) :
    s.identQueue = n :: m :: (magazineSlots s.straps).filter fun x => decide (x ≠ n) && decide (x ≠ m) := by
  rw [State.identQueue_eq (first := [n, m]) (by
    rw [State.firstSought_some ha, State.firstSought_some hb]
    simp [List.eraseDups_cons, h.symm])]
  simp

/-! ## The slot timer (R155) -/

/-- The slot timer ends the head slot's LIVE identification claim. -/
theorem State.endIdent_over {s : State} {c : Claim} (hc : s.liveClaim = some c) (hk : c.kind = .ident) :
    ∃ x, s.endIdent = s.claimOver c .ended x := by
  simp only [State.endIdent, hc, if_pos hk]
  exact State.closeClaim_over .ended hc (by rw [hk]; nofun)

theorem State.endIdent_other {s : State} (h : ∀ c, s.liveClaim = some c → c.kind ≠ .ident) : s.endIdent = s := by
  unfold State.endIdent
  split
  · next c hc => exact if_neg (h c hc)
  · rfl

theorem State.endIdent_spec (s : State) : ∃ da bi lm x, s.endIdent = { s with
    da := da, bi := bi, lm := { s.lm with slotTimer := lm }, lu := { s.lu with ctx := x } } := by
  by_cases h : ∃ c, s.liveClaim = some c ∧ c.kind = .ident
  · obtain ⟨c, hc, hk⟩ := h
    obtain ⟨x, hx⟩ := State.endIdent_over hc hk
    exact ⟨_, _, _, x, hx⟩
  · exact ⟨s.da, s.bi, s.lm.slotTimer, s.lu.ctx, State.endIdent_other fun c hc hk => h ⟨c, hc, hk⟩⟩

/-- A slot whose identification ends without a record: while the queue holds another slot, the IDENT notice is placed alone; and when it
has emptied, ABSENT zones become LOST, and the notice SCAN-DONE comes last (R142, R156). -/
theorem State.identOutcome_none (s : State) (slot : Nat) (o : IdentOutcome) :
    let e := s.identOutcome slot o none false
    let told := s.cl.notice ⟨0x73, [byte slot, identCode o, 0xFF]⟩
    let scanDone : Frame := ⟨0x74, [magazineCode s.lm.magazine, 7]⟩
    (s.lm.queue.tail ≠ [] → e.cl = told ∧ e.zc = s.zc) ∧
    (s.lm.queue.tail = [] → (∃ l : Link, e.cl = l.notice scanDone) ∧
      ((∀ z, (s.zone z).supply = .absent → (s.zone z).play ≠ .priming ∧ (s.zone z).play ≠ .starved) →
        e.cl = (s.lostNotice (s.lostNotice told .a) .b).notice scanDone) ∧
      ∀ z, ((s.zone z).supply = .absent → (e.zone z).supply = .lost ∧ e.ctx z = none) ∧
        ((s.zone z).supply ≠ .absent → e.zone z = s.zone z)) := by
  intro e told scanDone
  refine ⟨fun h => ?_, fun h => ?_⟩
  · rw [show e = _ from State.identOutcome_waits slot o h]
    exact ⟨rfl, rfl⟩
  · obtain ⟨r, x, oc, cl, n, he, hz⟩ := (s.slotOver slot o).discsNotFound_spec
    have hcl := State.cl_discsNotFound (s := s.slotOver slot o)
    rw [he] at hcl
    rw [show e = _ from State.identOutcome_last slot o h, he]
    exact ⟨⟨cl, rfl⟩, fun hq => congrArg (Link.notice · scanDone) (hcl hq), hz⟩

theorem State.slotExpires_idle {s : State} (h : s.lm.slotTimer ≠ .running ∨ s.lm.queue = []) : s.slotExpires = s := by
  unfold State.slotExpires
  split
  · next ht hq => exact absurd h (by simp [ht, hq])
  · rfl

theorem State.slotExpires_head {s : State} {slot : Nat} {rest : List Nat} (ht : s.lm.slotTimer = .running)
    (hq : s.lm.queue = slot :: rest) : s.slotExpires = s.endIdent.identOutcome slot .unreadable none false := by
  simp only [State.slotExpires, ht, hq]

/-- The slot's LIVE identification claim is over with its slot, and any other claim stands. -/
theorem State.slotClaim_spec (s : State) (slot : Nat) :
    let e := s.endIdent.identOutcome slot .unreadable none false
    (∀ c, s.da.claim = some c → c.standing = .live → c.kind = .ident → s.claimClosed e c s.da.idleTimer) ∧
    ((∀ c, s.da.claim = some c → c.standing = .live → c.kind ≠ .ident) → e.da = s.da ∧ e.bi = s.bi) := by
  intro e
  obtain ⟨zc, lu, oc, cl, n, he⟩ := s.endIdent.identOutcome_spec slot .unreadable none false
  have hda : e.da = s.endIdent.da := by rw [show e = _ from he]
  have hbi : e.bi = s.endIdent.bi := by rw [show e = _ from he]
  refine ⟨fun c hc hl hk => ?_, fun h => ?_⟩
  · obtain ⟨x, hx⟩ := State.endIdent_over (State.liveClaim_some hc hl) hk
    rw [hx] at hda hbi
    exact State.claimClosed_of_over (st := .ended) nofun hda hbi
  · have hx : s.endIdent = s := State.endIdent_other fun c hc =>
      h c (State.claim_of_liveClaim hc) (State.standing_of_liveClaim hc)
    rw [hx] at hda hbi
    exact ⟨hda, hbi⟩

/-! ## The latch timer (R159) -/

theorem State.inserted_eq (s : State) : s.inserted = { s with
    lm := { s.lm with magazine := .present, debounce := .stopped, queue := s.identQueue, slotTimer := .zero, failedStarts := 0 }
    cl := s.cl.notice ⟨0x74, [2, 1]⟩ } := rfl

/-- The queue is a matter of the straps, the zones and the records alone. -/
theorem State.identQueue_seated (s : State) (l : Loader) (k : Link) : ({ s with lm := l, cl := k } : State).identQueue = s.identQueue :=
  rfl

/-- An eject that was taken in SETTLING is over: the magazine is counted as seated. -/
theorem State.ejectOver_seats {s : State} (c : MagCause) (h : s.lm.fromSettling = true) : s.ejectOver c = { s with
    lm := { s.lm with
      magazine := .present, debounce := .stopped, ejectStage := .none, fromSettling := false, latchTimer := .stopped
      queue := s.identQueue, slotTimer := .zero, failedStarts := 0 }
    cl := (s.cl.notice ⟨0x74, [2, magCauseCode c]⟩).notice ⟨0x74, [2, 1]⟩ } := by
  have hseats : s.ejectOver c = State.inserted { s with
      lm := { s.lm with magazine := .present, ejectStage := .none, latchTimer := .stopped, fromSettling := false }
      cl := s.cl.notice ⟨0x74, [2, magCauseCode c]⟩ } := if_pos h
  rw [hseats, State.inserted_eq, State.identQueue_seated]

/-- Settles O36: the eject by the hold state and the LIVE claim, the queue by what the zones seek, and each timer by whether it runs. -/
theorem ejectsAndLoaderTimers : Obligations.EjectsAndLoaderTimers := by
  refine ⟨⟨fun s hs hc => ?_, fun s hs hc => ?_, fun s hp hc => ?_, fun s hp hc => ?_, State.canEject_iff⟩,
    fun s => ⟨State.identQueue_plain, fun _ _ => State.identQueue_one, fun _ _ => State.identQueue_two⟩,
    fun s hp => ⟨fun hm ht => ?_, fun h => ?_, fun he ht => ⟨fun hf => ?_, fun hf => ?_⟩, fun h => ?_, fun h => ?_,
      fun slot rest ht hq => ?_⟩⟩
  · exact ⟨_, hs.accepts (ownEject_taken (s := s.asked _) hc _), s.ejectsTo_taken _⟩
  · exact hs.refuses (if_neg (ne_true_of_eq_false hc))
  · exact ⟨_, State.whenPowered_powered hp (if_pos hc), s.ejectsTo_taken _⟩
  · exact State.whenPowered_powered hp (if_neg (ne_true_of_eq_false hc))
  · exact State.whenPowered_powered hp (if_pos ⟨hm, ht⟩)
  · exact State.whenPowered_powered hp (if_neg fun ⟨hm, ht⟩ => h.elim (· hm) ht)
  · exact State.whenPowered_powered hp ((if_pos ⟨he, ht⟩).trans (if_neg (ne_true_of_eq_false hf)))
  · exact State.whenPowered_powered hp ((if_pos ⟨he, ht⟩).trans (State.ejectOver_seats _ hf))
  · exact State.whenPowered_powered hp (if_neg fun ⟨he, ht⟩ => h.elim (· he) ht)
  · exact State.whenPowered_powered hp (State.slotExpires_idle h)
  · obtain ⟨hclosed, hstands⟩ := s.slotClaim_spec slot
    obtain ⟨zc, lu, oc, cl, n, he⟩ := s.endIdent.identOutcome_spec slot .unreadable none false
    obtain ⟨hwaits, hlast⟩ := s.endIdent.identOutcome_none slot .unreadable
    obtain ⟨da, bi, t, x, hu⟩ := s.endIdent_spec
    have htail : s.endIdent.lm.queue.tail = rest := by simp [hu, hq]
    refine ⟨_, State.whenPowered_powered hp (State.slotExpires_head ht hq), ?_, ?_, hclosed, hstands, ?_⟩
    · rw [he, ← htail, hu]
      rfl
    · rw [he, hu]
    · rw [hu] at he hwaits hlast htail ⊢
      refine ⟨⟨fun h => hwaits (htail ▸ h), fun h => hlast (htail.trans h)⟩, ?_⟩
      rw [he]
      exact ⟨rfl, rfl, rfl, rfl, rfl, rfl, rfl⟩

end Sys2Proof.Machine
end

section
/-! PROOF. The magazine switch (chapter 9): what its two events make of the magazine, and the effects of a removal (O47). -/

namespace Sys2Proof.Machine

/-! ## The claim of a magazine that is removed (R71) -/

/-- A claim that is over leaves the removal mark, and the drive state as it was or STOPPING. -/
theorem Drive.claimOver_fields (d : Drive) (c : Claim) (st : Standing) :
    (d.claimOver c st).removalDue = d.removalDue ∧
    ((d.claimOver c st).state = d.state ∨ (d.claimOver c st).state = .stopping) := by
  unfold Drive.claimOver
  split
  · split
    · exact ⟨rfl, .inr rfl⟩
    · exact ⟨rfl, .inl rfl⟩
  · exact ⟨rfl, .inl rfl⟩

theorem State.da_closeClaim (s : State) (st : Standing) :
    (s.closeClaim st).da.removalDue = s.da.removalDue ∧
    ((s.closeClaim st).da.state = s.da.state ∨ (s.closeClaim st).da.state = .stopping) := by
  rcases s.closeClaim_cases st with h | ⟨c, x, h⟩
  · rw [h]
    exact ⟨rfl, .inl rfl⟩
  · rw [h]
    exact s.da.claimOver_fields c st

/-- With no command outstanding, a LIVE claim other than HOLD is gone once it is closed. -/
theorem State.claim_closeClaim {s : State} {c : Claim} (st : Standing) (hc : s.da.claim = some c) (hl : c.standing = .live)
    (hk : c.kind ≠ .hold) (ho : s.da.out = none) : (s.closeClaim st).da.claim = none := by
  obtain ⟨x, hx⟩ := State.closeClaim_over st (State.liveClaim_some hc hl) hk
  rw [hx]
  exact (s.da.claimOver_claim c st).trans (if_pos ho)

/-- A claim that is closed changes the drive, the tag, the slot timer and the link-up contexts alone. -/
theorem State.closeClaim_frame (s : State) (st : Standing) : ∃ bi t x, s.closeClaim st = { s with
    da := (s.closeClaim st).da, bi := bi, lm := { s.lm with slotTimer := t }, lu := { s.lu with ctx := x } } := by
  rcases s.closeClaim_cases st with h | ⟨c, x, h⟩
  · rw [h]
    exact ⟨s.bi, s.lm.slotTimer, s.lu.ctx, rfl⟩
  · rw [h]
    exact ⟨_, _, x, rfl⟩

/-! ## The removal effects (R160, R161) -/

/-- The disc of a zone that feeds, rejoins or waits for RESYNC leaves with the magazine (R161, step 3). -/
def Supply.leaves (v : Supply) : Prop := v = .feeding ∨ v = .rejoining ∨ v = .resync

/-- Both zones hear of the removal. -/
theorem State.zonesOut_spec (s : State) : ∃ r x oc cl n, (s.zoneOut .a).zoneOut .b = { s with
    zc := r, lu := { s.lu with ctx := x }, oc := oc, cl := cl, free := n } ∧
    ∀ z, ((s.zone z).supply.leaves → (r.get z).supply = .absent ∧ x.get z = none) ∧
      (¬ (s.zone z).supply.leaves → r.get z = s.zone z) :=
  State.resupplies_spec (p := fun v => v = .feeding ∨ v = .rejoining ∨ v = .resync) .magazineOut rfl (by decide) s

/-- The audit target of a zone is dropped, and its misses stand. -/
def Audit.untargeted (u : Audit) : Audit := { u with target := none }

/-- What a removal leaves: the drive of a claim that is cancelled, the zones whose discs have left ABSENT, the PRESENT records DEPARTED,
the queue empty and both audit targets dropped. -/
theorem State.removalEffects_spec (s : State) (c : MagCause) : ∃ bi r x oc cl n, s.removalEffects c = { s with
    da := (s.closeClaim .cancelled).da, bi := bi, zc := r
    lu := { s.lu with ctx := x, audit := ⟨s.lu.audit.a.untargeted, s.lu.audit.b.untargeted⟩ }, oc := oc, dd := s.dd.departAll
    lm := { s.lm with queue := [], slotTimer := .zero, failedStarts := 0 }, cl := cl, free := n } ∧
    ∀ z, ((s.zone z).supply.leaves → (r.get z).supply = .absent ∧ x.get z = none) ∧
      (¬ (s.zone z).supply.leaves → r.get z = s.zone z) := by
  obtain ⟨bi, t, x, hclose⟩ := s.closeClaim_frame .cancelled
  obtain ⟨r, y, oc, cl, n, hout, hz⟩ := ((s.closeClaim .cancelled).magNotice c).zonesOut_spec
  unfold State.removalEffects
  dsimp only
  rw [hout]
  generalize s.closeClaim .cancelled = u at hclose hz ⊢
  generalize u.da = d at hclose ⊢
  subst hclose
  exact ⟨bi, r, y, oc, cl, n, rfl, hz⟩

theorem Drive.removed_due {d : Drive} (hh : d.state ≠ .held) (hf : d.state ≠ .fault) : d.removed.removalDue = true := by
  unfold Drive.removed
  rw [if_neg fun h => h.elim hh hf]

theorem Drive.removed_leaves (d : Drive) : d.removed.hold = d.hold ∧ d.removed.claim = d.claim := by
  unfold Drive.removed
  split <;> exact ⟨rfl, rfl⟩

/-! ## The events of the switch (R153, R169) -/

theorem State.onSwitch_stands {s : State} {closed : Bool} (f : State → State) (h : s.pins.magClosed = closed) :
    s.onSwitch closed f = .next s := if_pos h

theorem State.onSwitch_wakes {s : State} (closed : Bool) (f : State → State) (h : s.pins.magClosed = !closed)
    (hp : s.pc.state = .parked) : s.onSwitch closed f = .next (State.finish s ((s.setSwitch closed).wakeUp .magazine)) :=
  (if_neg (by rw [h]; exact Bool.not_ne_self closed)).trans (if_pos hp)

theorem State.onSwitch_moves {s t : State} (closed : Bool) {f : State → State} (h : s.pins.magClosed = !closed)
    (hp : s.pc.state ≠ .parked) (hf : f (s.setSwitch closed) = t) : s.onSwitch closed f = .next (State.finish s t) := by
  rw [← hf]
  exact (if_neg (by rw [h]; exact Bool.not_ne_self closed)).trans (if_neg hp)

theorem State.modDa_id (s : State) : s.modDa id = s := rfl

/-- A magazine that was seated is removed: its removal effects, and then what becomes of the drive, which a completed eject leaves. -/
theorem State.switchOpens_removes {s : State} (h : s.lm.magazine = .present ∨ s.lm.magazine = .ejecting) :
    ∃ c f, s.switchOpens = (s.magazineGone.removalEffects c).modDa f ∧ (f = id ∨ f = Drive.removed) ∧
      (s.lm.magazine = .present → f = Drive.removed) ∧
      (s.lm.magazine = .ejecting → s.lm.ejectStage = .latchWait → f = id) := by
  unfold State.switchOpens
  rcases h with h | h
  · rw [h]
    exact ⟨_, _, rfl, .inr rfl, fun _ => rfl, nofun⟩
  · rw [h]
    dsimp only
    by_cases he : s.lm.ejectStage = .latchWait
    · rw [if_pos he]
      exact ⟨.ejected, id, (State.modDa_id _).symm, .inl rfl, nofun, fun _ _ => rfl⟩
    · rw [if_neg he]
      exact ⟨.removed, Drive.removed, rfl, .inr rfl, nofun, fun _ k => absurd k he⟩

/-- Settles O47: the switch by the level it leaves and the power state, and an opening by the magazine state. -/
theorem theSwitchMovesTheMagazine : Obligations.TheSwitchMovesTheMagazine := by
  intro s shut opened
  refine ⟨State.onSwitch_stands _, State.onSwitch_stands _, State.onSwitch_wakes true _, State.onSwitch_wakes false _,
    fun hs hp => ⟨fun hm => State.onSwitch_moves true hs hp (if_pos hm), fun hm => State.onSwitch_moves true hs hp (if_neg hm)⟩,
    fun hs hp => ⟨fun hm => State.onSwitch_moves false hs hp ?_, fun hm => State.onSwitch_moves false hs hp ?_, fun hm => ?_⟩⟩
  · simp only [State.switchOpens, State.setSwitch, State.modPins_lm, hm]
    rfl
  · simp only [State.switchOpens, State.setSwitch, State.modPins_lm, hm]
    rfl
  · obtain ⟨c, f, hopen, hf, hpresent, heject⟩ := State.switchOpens_removes (s := s.setSwitch false) hm
    obtain ⟨bi, r, x, oc, cl, n, he, hz⟩ := (s.setSwitch false).magazineGone.removalEffects_spec c
    have hhold := (s.setSwitch false).magazineGone.hold_closeClaim .cancelled
    obtain ⟨hdue, hstate⟩ := (s.setSwitch false).magazineGone.da_closeClaim .cancelled
    have hclaim (k : Claim) := State.claim_closeClaim (s := (s.setSwitch false).magazineGone) (c := k) .cancelled
    have hleaves (d : Drive) : (f d).hold = d.hold ∧ (f d).claim = d.claim := by
      rcases hf with rfl | rfl
      · exact ⟨rfl, rfl⟩
      · exact d.removed_leaves
    rw [he] at hopen
    generalize ((s.setSwitch false).magazineGone.closeClaim .cancelled).da = d at hopen hhold hdue hstate hclaim
    obtain ⟨hfhold, hfclaim⟩ := hleaves d
    refine ⟨_, State.onSwitch_moves false hs hp hopen, rfl, fun z => ⟨(hz z).1, fun h1 h2 h3 => ?_, ?_⟩, rfl, rfl, rfl, rfl, rfl,
      hfhold.trans hhold, fun hm hh hft => ?_, fun hm hl => ?_, fun k hc hl hk ho => ?_, rfl, rfl, rfl, rfl, rfl⟩
    · exact (hz z).2 fun h => h.elim h1 fun h => h.elim h2 h3
    · cases z <;> exact ⟨rfl, rfl⟩
    · rw [hpresent hm]
      refine Drive.removed_due ?_ ?_
      · rcases hstate with h | h <;> rw [h]
        · exact hh
        · nofun
      · rcases hstate with h | h <;> rw [h]
        · exact hft
        · nofun
    · rw [heject hm hl]
      exact hdue
    · exact hfclaim.trans (hclaim k hc hl hk ho)

end Sys2Proof.Machine
end

section
/-! PROOF. Power (chapter 10): what a cold start makes of every block (O3); what a warm and a cold start have in common, and which of
them a wake is (O6); and the run line, the entry to PARKED, and the frames that wake a PARKED part (O48). -/

namespace Sys2Proof.Machine

/-! ## Power is applied (R171) -/

/-- Settles O3: the cold start gives every block its start values, zone by zone; only the magazine's depend on a pin. -/
theorem powerUpIsAColdStart : Obligations.PowerUpIsAColdStart := by
  intro p s
  have hmag : (Loader.start p.magClosed debounceDefault).magazine = (if p.magClosed then .settling else .absent) ∧
      (Loader.start p.magClosed debounceDefault).queue = [] := by
    cases p.magClosed <;> exact ⟨rfl, rfl⟩
  obtain ⟨hmagazine, hqueue⟩ := hmag
  have hzone : ∀ z, (Pair.both (⟨0, 0, 0⟩ : Chain)).get z = ⟨0, 0, 0⟩ ∧ (Pair.both 0).get z = 0 ∧
      (Pair.both Zone.cold).get z = .cold ∧ (Pair.both Concealer.start).get z = .start ∧ LinkUp.start.ctx.get z = none ∧
      Reread.start.lists.get z = [] := forall_zones (by decide)
  exact ⟨_, rfl, rfl, rfl, rfl, fun _ => rfl, rfl, rfl, hzone, rfl, rfl, rfl, rfl, rfl, rfl, hmagazine, hqueue, rfl, rfl, rfl⟩

/-! ## The two starts of a wake (R168, R169, R171) -/

/-- What a wake makes of `s` whether it starts warm or cold: `t` is ACTIVE with the drive DOWN and nothing known of the slot; no
bucket is in a zone or in the intake; every gain is 0; the link is at its start; and the pins and the queue are those of `s`. -/
structure State.Started (s t : State) : Prop where
  power   : t.pc.state = .active
  drive   : t.da.state = .down ∧ t.da.slot = .unknown
  intake  : t.bs.intake = 0
  store   : ∀ z, t.bs.chain.get z = ⟨0, 0, 0⟩ ∧ t.bs.anchor.get z = 0
  gains   : ∀ z d, t.gain z d = 0
  pins    : t.pins = s.pins
  link    : t.cl = .start
  pending : t.pending = s.pending

/-- The gains of the concealers' start values are 0 (R118). -/
theorem State.gain_start {s : State} (h : s.oc = .both .start) (z : ZoneId) (d : Side) : s.gain z d = 0 := by
  unfold State.gain
  rw [h]
  cases z <;> cases d <;> rfl

/-- A warm start, block by block. -/
theorem State.warmStart_eq (s : State) : s.warmStart = { s with
    bs := s.bs.returnAll
    bi := ⟨none, 1, none⟩
    zc := ⟨s.zc.a.restart, s.zc.b.restart⟩
    da := { Drive.cold with rotation := s.da.rotation, rotPtr := s.da.rotPtr }
    lu := .start
    sm := .start
    ru := .start
    oc := .both .start
    dd := s.dd.departAll
    lm := .start s.pins.magClosed (ms (8 * s.params.magDebounce))
    pc := { Power.cold with checkSum := s.pc.checkSum }
    cl := .start } := by
  simp only [State.warmStart, State.restartBlocks, State.modDa, State.modCl, Drive.restart]

theorem State.started_warmStart (s : State) : s.Started s.warmStart := by
  obtain ⟨hstore, hintake⟩ := s.bs.returnAll_empty
  rw [s.warmStart_eq]
  exact ⟨rfl, ⟨rfl, rfl⟩, hintake, hstore, State.gain_start rfl, rfl, rfl, rfl⟩

theorem State.started_coldStart (s : State) : s.Started s.coldStart where
  power   := rfl
  drive   := ⟨rfl, rfl⟩
  intake  := rfl
  store   := forall_zones ⟨⟨rfl, rfl⟩, ⟨rfl, rfl⟩⟩
  gains   := State.gain_start rfl
  pins    := rfl
  link    := rfl
  pending := rfl

/-- A notice on a link at its start goes out at once (R176). -/
theorem Link.notice_start (f : Frame) : Link.start.notice f = { Link.start with transmitter := some (.notice f) } := rfl

/-- The WAKE notice after either start is being sent, and no request is pending (R169, R173). -/
theorem State.Started.cl_wakeNotice {s t : State} (h : s.Started t) (src : WakeSource) (n : Byte) :
    (t.wakeNotice src n).cl = { Link.start with transmitter := some (.notice ⟨0x79, [wakeCode src, n]⟩) } := by
  show t.cl.notice _ = _
  rw [h.link, Link.notice_start]

/-- A wake is one of the two starts, with its WAKE notice. -/
theorem State.wakeUp_started (s : State) (src : WakeSource) : ∃ t n, s.Started t ∧ s.wakeUp src = t.wakeNotice src n := by
  by_cases h : s.checkSum = s.pc.checkSum
  · exact ⟨_, 1, s.started_warmStart, if_pos h⟩
  · exact ⟨_, 2, s.started_coldStart, if_neg h⟩

/-- Whatever wakes the part, the strap pins are as presented (R171). -/
theorem wokenPins_straps (p : Pins) (src : WakeSource) (straps : Straps) : (wokenPins p src straps).straps = straps := by
  cases src <;> rfl

/-- Settles O6: the check sum decides between the two starts, and the rest is what they have in common. -/
theorem wakeIsWarmOrCold : Obligations.WakeIsWarmOrCold := by
  intro src straps s hp p old
  obtain ⟨t, n, ht, hwake⟩ := old.wakeUp_started src
  refine ⟨old.wakeUp src, if_pos hp, fun hsum => ?warm, fun hsum => ?cold, ?common⟩
  case warm =>
    have hw : old.wakeUp src = old.warmStart.wakeNotice src 1 := if_pos hsum
    rw [hw, old.warmStart_eq]
    exact ⟨rfl, rfl, rfl, rfl, rfl, rfl, forall_zones ⟨rfl, rfl⟩⟩
  case cold =>
    have hc : old.wakeUp src = old.coldStart.wakeNotice src 2 := if_neg hsum
    rw [hc]
    exact ⟨rfl, wokenPins_straps s.pins src straps, rfl, rfl, forall_zones ⟨rfl, rfl⟩⟩
  case common =>
    obtain ⟨hdrive, hslot⟩ := ht.drive
    have hcl := ht.cl_wakeNotice src n
    rw [hwake]
    exact ⟨ht.power, hdrive, hslot, ht.intake, fun z => ⟨(ht.store z).1, (ht.store z).2, ht.gains z⟩, ht.pins,
      congrArg Link.request hcl, ⟨n, congrArg Link.transmitter hcl⟩, ht.pending⟩

/-! ## The run line and the entry to PARKED (R164, R167, R168) -/

theorem State.runRises_marks {s : State} (hp : s.pc.state = .parking) (hw : s.pc.wakePending = none) :
    s.runRises = { s with pc := { s.pc with wakePending := some .run } } := if_pos ⟨hp, hw⟩

theorem State.runRises_stands {s : State} (h : s.pc.state = .active ∨ s.pc.state = .parking ∧ s.pc.wakePending ≠ none) :
    s.runRises = s := by
  refine if_neg fun ⟨hp, hw⟩ => ?_
  rcases h with ha | ⟨-, hset⟩
  · rw [ha] at hp
    cases hp
  · exact hset hw

theorem execRunLineRises_powered {s : State} (h : s.pc.state ≠ .parked) :
    exec .runLineRises s = .next (State.finish s (s.setRun true).runRises) := if_neg h

/-- The conditions for entering PARKED, one by one (R168). -/
theorem State.canPark_iff (s : State) : s.canPark = true ↔ s.pc.state = .parking ∧ s.pc.driveDone = true ∧
    s.pc.silenceDone = true ∧ s.cl.transmitter = none ∧ s.cl.notices = [] := by
  simp only [State.canPark, Bool.and_eq_true, decide_eq_true_eq, and_assoc]

theorem execEnterParked_parks {s : State} (h : s.canPark = true) : exec .enterParked s = .next s.parkOrWake := if_pos h

theorem execEnterParked_stands {s : State} (h : ¬ s.canPark = true) : exec .enterParked s = .next s := if_neg h

theorem State.parkOrWake_stays {s : State} (h : s.pc.wakePending = none) : s.parkOrWake = s.park := by
  unfold State.parkOrWake
  rw [h]

theorem State.parkOrWake_wakes {s : State} {src : WakeSource} (h : s.pc.wakePending = some src) :
    s.parkOrWake = State.finish s (s.park.wakeUp src) := by
  unfold State.parkOrWake
  rw [h]

/-! ## Frames in PARKED (R169, R173) -/

/-- The commands of the table of request kinds are the requests of R175, with the forms of the table. -/
theorem exec_requestTable : ∀ row ∈ requestTable, ∃ own, ∀ body s,
    exec (row.2.2.2 body) s = s.request row.1 body ⟨row.2.1, row.2.2.1⟩ own := by
  simp only [requestTable, List.forall_mem_cons]
  exact ⟨⟨ownEcho, fun _ _ => rfl⟩, ⟨ownIdentify, fun _ _ => rfl⟩, ⟨ownConfigure, fun _ _ => rfl⟩,
    ⟨ownQueryParam, fun _ _ => rfl⟩, ⟨ownReset, fun _ _ => rfl⟩, ⟨ownStandby, fun _ _ => rfl⟩, ⟨ownHush, fun _ _ => rfl⟩,
    ⟨ownDeviceStatus, fun _ _ => rfl⟩, ⟨ownSetRotation, fun _ _ => rfl⟩, ⟨ownSelect, fun _ _ => rfl⟩, ⟨ownPlay, fun _ _ => rfl⟩,
    ⟨ownPause, fun _ _ => rfl⟩, ⟨ownResume, fun _ _ => rfl⟩, ⟨ownStop, fun _ _ => rfl⟩, ⟨ownSeek, fun _ _ => rfl⟩,
    ⟨ownZoneStatus, fun _ _ => rfl⟩, ⟨ownHoldPickup, fun _ _ => rfl⟩, ⟨ownReleasePickup, fun _ _ => rfl⟩,
    ⟨ownEject, fun _ _ => rfl⟩, ⟨ownResetDrive, fun _ _ => rfl⟩, ⟨ownDiscRecord, fun _ _ => rfl⟩,
    ⟨ownDefectList, fun _ _ => rfl⟩, ⟨ownTrackList, fun _ _ => rfl⟩, ⟨ownForgetDisc, fun _ _ => rfl⟩, nofun⟩

/-- In PARKED a wake event does nothing of its own. -/
theorem State.orWake_parked {s : State} {src : WakeSource} (f : State → State) (hp : s.pc.state = .parked) :
    s.orWake src f = .next (State.finish s (s.wakeUp src)) := if_pos hp

/-- A frame of an unknown kind is a wake event of the link, and so are bytes that complete no frame. -/
theorem exec_unknownKindFrame (k : Byte) (body : List Byte) (s : State) : exec (.unknownKindFrame k body) s =
    s.orWake .link fun t => t.rxDone.takeFrame ⟨k, body⟩ := rfl

theorem exec_frameDiscarded_cons (b : RxByte) (l : List RxByte) (s : State) : exec (.frameDiscarded (b :: l)) s =
    s.orWake .link fun t => t.rxBytes (b :: l) := rfl

theorem exec_linkGapTimeout_cons (b : RxByte) (l : List RxByte) (s : State) : exec (.linkGapTimeout (b :: l)) s =
    s.orWake .link fun t => (t.rxBytes (b :: l)).gapExpires := rfl

/-- Settles O48: the run line by the power state, the entry to PARKED by its conditions and the wake pending mark, and every frame
in PARKED as a wake event. -/
theorem partParksAndWakes : Obligations.PartParksAndWakes := by
  refine ⟨fun s => ?_, fun s body hp => ⟨fun row hrow => ?_, fun k => ?_, fun b l => ⟨?_, ?_⟩⟩⟩
  · intro up parked ready
    have hready : s.canPark = true ↔ ready := s.canPark_iff
    have hpark : s.park = parked := rfl
    refine ⟨fun hp => if_pos hp, fun hp hw => ?marked, fun h => ?stands, fun h => execEnterParked_stands (mt hready.mp h),
      fun h hw => ?parks, fun src h hw => ?wakes⟩
    case marked =>
      have hrise : (s.setRun true).runRises = { up with pc := { s.pc with wakePending := some .run } } :=
        State.runRises_marks hp hw
      rw [execRunLineRises_powered (by rw [hp]; nofun), hrise]
    case stands =>
      have hpow : s.pc.state ≠ .parked := by
        rcases h with ha | ⟨hp, -⟩
        · rw [ha]
          nofun
        · rw [hp]
          nofun
      have hrise : (s.setRun true).runRises = up := State.runRises_stands h
      rw [execRunLineRises_powered hpow, hrise]
    case parks => rw [execEnterParked_parks (hready.mpr h), State.parkOrWake_stays hw, hpark]
    case wakes => rw [execEnterParked_parks (hready.mpr h), State.parkOrWake_wakes hw, hpark]
  · obtain ⟨own, hown⟩ := exec_requestTable row hrow
    rw [hown]
    exact State.orWake_parked _ hp
  · rw [exec_unknownKindFrame, State.orWake_parked _ hp]
  · rw [exec_frameDiscarded_cons, State.orWake_parked _ hp]
  · rw [exec_linkGapTimeout_cons, State.orWake_parked _ hp]

end Sys2Proof.Machine
end

section
/-! PROOF. The bounds of the Control Link's queues (chapter 11): every step keeps them (O9). -/

namespace Sys2Proof.Machine

/-- What keeps the link's queues in their bounds is a law of every step: calm changes and the link's own keep it, and a cold start
begins with empty queues. -/
theorem stepLaw_linkBounded : StepLaw fun s t => s.cl.bounded → t.cl.bounded where
  trans h k x := k (h x)
  calm h := h.bounded
  queue _ _ := id
  pins _ _ := id
  link s _ hf := hf s.cl
  power _ _ := id
  gains _ _ := id
  select _ _ _ := id
  rotation _ _ _ := id
  configure _ _ _ _ _ _ _ := id
  restart _ := id
  cold _ _ _ := Link.bounded_start

/-- Settles O9: the bounds are a law of every step. -/
theorem stepKeepsTheLinkBounds : Obligations.StepKeepsTheLinkBounds := fun _ _ hb h => stepLaw_linkBounded.step h hb

end Sys2Proof.Machine
end

section
/-! PROOF. The transmitter and the notices (chapter 11): which frame goes out next, what becomes of a notice, and how a reply is formed
(O49). -/

namespace Sys2Proof.Machine

section

variable {l : Link} {f g : Frame} {q : Frame} {gs : List Frame} {n : Nat}

/-! ## What the transmitter begins (R176) -/

/-- A transmitter that is sending goes on with its frame. -/
theorem Link.pump_sending {x : Sending} (h : l.transmitter = some x) : l.pump = l := by
  rw [Link.pump, h]

/-- A reply with no refusal formed before it goes out. -/
theorem Link.pump_reply (ht : l.transmitter = none) (hq : l.request = some ⟨q, some f, 0⟩) :
    l.pump = { l with transmitter := some (.reply f) } := by
  simp [Link.pump, ht, hq]

/-- A refusal formed before the reply goes out first. -/
theorem Link.pump_refusalAhead (ht : l.transmitter = none) (hq : l.request = some ⟨q, some f, n + 1⟩) (hg : l.refusals = g :: gs) :
    l.pump = { l with transmitter := some (.refusal g), refusals := gs, request := some ⟨q, some f, n⟩ } := by
  simp [Link.pump, ht, hq, hg]

/-- While a request is not answered yet and no refusal waits, the transmitter stays idle. -/
theorem Link.pump_waits (ht : l.transmitter = none) (hq : l.request = some ⟨q, none, n⟩) (hg : l.refusals = []) : l.pump = l := by
  simp [Link.pump, ht, hq, hg]

/-- With no request unanswered, the first refusal goes out. -/
theorem Link.pump_refusal (ht : l.transmitter = none) (hq : l.request = none) (hg : l.refusals = g :: gs) :
    l.pump = { l with transmitter := some (.refusal g), refusals := gs } := by
  simp [Link.pump, ht, hq, hg]

/-- With no request unanswered and no refusal, the first notice goes out. -/
theorem Link.pump_notice (ht : l.transmitter = none) (hq : l.request = none) (hr : l.refusals = []) (hg : l.notices = g :: gs) :
    l.pump = { l with transmitter := some (.notice g), notices := gs } := by
  simp [Link.pump, ht, hq, hr, hg]

/-- With nothing to send, the transmitter stays idle. -/
theorem Link.pump_empty (ht : l.transmitter = none) (hq : l.request = none) (hr : l.refusals = []) (hg : l.notices = []) :
    l.pump = l := by
  simp [Link.pump, ht, hq, hr, hg]

/-- No request becomes pending by the pump. -/
theorem Link.pump_unasked (hq : l.request = none) : l.pump.request = none := by
  have h := l.asked_pump
  rw [Link.asked, Link.asked, hq] at h
  exact Option.map_eq_none_iff.1 h

/-- No notice goes out while a request is unanswered. -/
theorem Link.pump_holdsNotices {r : PendingReq} (hq : l.request = some r) : l.pump.notices = l.notices := by
  unfold Link.pump
  split
  · rfl
  · split
    · rfl
    · rfl
    · rfl
    · next h _ => simp [h] at hq
    · next h _ => simp [h] at hq

/-! ## The end of a frame (R176) -/

theorem Link.sent_idle (h : l.transmitter = none) : l.sent = l := by
  rw [Link.sent, h]

/-- The end of a reply answers the pending request, and the next frame begins. -/
theorem Link.sent_reply (h : l.transmitter = some (.reply f)) :
    l.sent = Link.pump { l with transmitter := none, request := none } := by
  rw [Link.sent, h]

theorem Link.sent_notice (h : l.transmitter = some (.notice f)) : l.sent = Link.pump { l with transmitter := none } := by
  rw [Link.sent, h]

theorem Link.sent_lastReply (h : l.transmitter = some (.reply f)) (hr : l.refusals = []) (hn : l.notices = []) :
    l.sent = { l with transmitter := none, request := none } := (Link.sent_reply h).trans (Link.pump_empty rfl rfl hr hn)

theorem Link.sent_reply_refusal (h : l.transmitter = some (.reply f)) (hr : l.refusals = g :: gs) :
    l.sent = { l with transmitter := some (.refusal g), refusals := gs, request := none } :=
  (Link.sent_reply h).trans (Link.pump_refusal rfl rfl hr)

theorem Link.sent_reply_notice (h : l.transmitter = some (.reply f)) (hr : l.refusals = []) (hn : l.notices = g :: gs) :
    l.sent = { l with transmitter := some (.notice g), notices := gs, request := none } :=
  (Link.sent_reply h).trans (Link.pump_notice rfl rfl hr hn)

theorem Link.sent_notice_reply (h : l.transmitter = some (.notice f)) (hq : l.request = some ⟨q, some g, 0⟩) :
    l.sent = { l with transmitter := some (.reply g) } := (Link.sent_notice h).trans (Link.pump_reply rfl hq)

theorem Link.sent_notice_refusal {r : Frame} (h : l.transmitter = some (.notice f)) (hq : l.request = some ⟨q, some r, n + 1⟩)
    (hr : l.refusals = g :: gs) :
    l.sent = { l with transmitter := some (.refusal g), refusals := gs, request := some ⟨q, some r, n⟩ } :=
  (Link.sent_notice h).trans (Link.pump_refusalAhead rfl hq hr)

theorem Link.sent_notice_waits (h : l.transmitter = some (.notice f)) (hq : l.request = some ⟨q, none, n⟩) (hr : l.refusals = []) :
    l.sent = { l with transmitter := none } :=
  (Link.sent_notice h).trans (Link.pump_waits (l := { l with transmitter := none }) rfl hq hr)

/-! ## What becomes of a notice (R177) -/

theorem Link.notice_hushed (f : Frame) (h : l.hush = true) : l.notice f = l := if_pos h

theorem Link.notice_lost (f : Frame) (h : l.hush = false) (hn : 16 ≤ l.notices.length) : l.notice f = { l with lost := true } := by
  rw [Link.notice, h, if_neg nofun, if_neg (Nat.not_lt.2 hn)]

theorem Link.notice_joins (f : Frame) (h : l.hush = false) (hn : l.notices.length < 16) :
    l.notice f = Link.pump { l with notices := l.notices ++ [f] } := by
  rw [Link.notice, h, if_neg nofun, if_pos hn]

/-- A notice made on an idle link goes out at once. -/
theorem Link.notice_goesOut (f : Frame) (h : l.hush = false) (hn : l.notices = []) (ht : l.transmitter = none)
    (hq : l.request = none) (hr : l.refusals = []) : l.notice f = { l with transmitter := some (.notice f) } := by
  have hout : Link.pump { l with notices := [f] } = { l with transmitter := some (.notice f), notices := [] } :=
    Link.pump_notice ht hq hr rfl
  rw [Link.notice_joins f h (by rw [hn]; decide), hn, List.nil_append, hout, ← hn]

/-! ## Forming a reply (R175, R176) -/

/-- The pending request takes its reply, behind the refusals formed before it, and an idle transmitter may begin a frame. -/
theorem Link.formReply_asked {r : PendingReq} (f : Frame) (hq : l.request = some r) : l.formReply f =
    Link.pump { l with request := some { r with reply := some f, ahead := l.refusals.length } } := by
  rw [Link.formReply, hq]

/-- With no refusal waiting, an idle transmitter begins the reply at once. -/
theorem Link.formReply_goesOut {r : PendingReq} (f : Frame) (hq : l.request = some r) (ht : l.transmitter = none)
    (hr : l.refusals = []) : (l.formReply f).transmitter = some (.reply f) := by
  have hahead : some (⟨r.frame, some f, l.refusals.length⟩ : PendingReq) = some ⟨r.frame, some f, 0⟩ := by rw [hr]; rfl
  exact congrArg Link.transmitter ((Link.formReply_asked f hq).trans (Link.pump_reply ht hahead))

/-- A busy transmitter goes on with its frame. -/
theorem Link.formReply_busy {r : PendingReq} {x : Sending} (f : Frame) (hq : l.request = some r) (hx : l.transmitter = some x) :
    l.formReply f = { l with request := some { r with reply := some f, ahead := l.refusals.length } } :=
  (Link.formReply_asked f hq).trans (Link.pump_sending hx)

/-- The pending request keeps its frame and has that reply. -/
theorem Link.formReply_request {r : PendingReq} (f : Frame) (hq : l.request = some r) :
    ∃ n, (l.formReply f).request = some ⟨r.frame, some f, n⟩ := by
  have h := l.asked_formReply f
  simp only [Link.asked, hq, Option.map_some, Option.map_eq_some_iff, Prod.mk.injEq] at h
  obtain ⟨⟨_, _, n⟩, hn, rfl, rfl⟩ := h
  exact ⟨n, hn⟩

end

/-- Settles O49: by what the transmitter was sending and what waits, by the notice queue, and by the transmitter as the reply is
formed. -/
theorem framesQueueAndGoOutInOrder : Obligations.FramesQueueAndGoOutInOrder := by
  refine ⟨⟨fun s hp => State.whenPowered_powered (f := fun t => t.modCl Link.sent) hp rfl, fun l => ⟨Link.sent_idle,
      fun f ht => ?reply, fun f q g ht hq => ?next, fun f q g n h hs ht hq hr => ?ahead, fun f q n ht hq hr => ?waits⟩⟩,
    fun l f => ⟨Link.notice_hushed f, Link.notice_lost f, fun x h hn hx => ?joins, Link.notice_goesOut f⟩,
    fun l q f hq => ?forms⟩
  case reply =>
    refine ⟨?_, ?_, ?_, fun hr hn => ?_, fun g gs hr => ?_, fun g gs hr hn => ?_⟩
    · rw [Link.sent_reply ht, Link.pump_unasked rfl]
    · rw [Link.sent_reply ht, Link.pump_hush]
    · rw [Link.sent_reply ht, Link.pump_lost]
    · rw [Link.sent_lastReply ht hr hn]
    · rw [Link.sent_reply_refusal ht hr]
      exact ⟨rfl, rfl, rfl⟩
    · rw [Link.sent_reply_notice ht hr hn]
      exact ⟨rfl, rfl⟩
  case next =>
    rw [Link.sent_notice_reply ht hq]
    exact ⟨rfl, rfl, rfl⟩
  case ahead =>
    rw [Link.sent_notice_refusal ht hq hr]
    exact ⟨rfl, rfl, rfl⟩
  case waits =>
    rw [Link.sent_notice_waits ht hq hr]
    exact ⟨rfl, rfl⟩
  case joins =>
    rw [Link.notice_joins f h hn]
    exact Link.pump_sending hx
  case forms =>
    refine ⟨Link.formReply_request f hq, Link.formReply_goesOut f hq, fun x hx => ?_, ?_⟩
    · rw [Link.formReply_busy f hq hx]
      exact ⟨hx, rfl⟩
    · rw [Link.formReply_asked f hq]
      exact ⟨Link.pump_holdsNotices rfl, Link.pump_hush _, Link.pump_lost _, Link.pump_rx _⟩

end Sys2Proof.Machine
end

section
/-! PROOF. The receive assembler on the line (chapter 11): it reads back every frame as it is laid out (O17), and bytes that complete
no frame change nothing but its own state (O18). -/

namespace Sys2Proof.Machine

/-! ## One byte, by the assembler's stage (R174) -/

section

variable (gap : Timer) (b : Byte)

theorem Assembler.feed_cons (a : Assembler) (x : RxByte) (l : List RxByte) : a.feed gap (x :: l) =
    ((Assembler.feed (a.take gap x).1 gap l).1, (a.take gap x).2.toList ++ (Assembler.feed (a.take gap x).1 gap l).2) := rfl

/-- In HUNT a byte other than SYNC is passed over, well framed or not. -/
theorem Assembler.take_hunting_other {x : RxByte} (h : x.value ≠ 0xC3) : Assembler.hunting.take gap x = (.hunting, none) := by
  obtain ⟨v, framed⟩ := x
  cases framed with
  | false => rfl
  | true => exact if_neg fun hv => h (BitVec.eq_of_toNat_eq hv)

/-- The assembler between a frame's LEN byte and its KIND byte, with the LEN `n`. -/
def Assembler.named (n : Nat) : Assembler := ⟨.kind, n, n - 1, n, gap, 0, []⟩

/-- The assembler after the KIND byte of a frame: `due` bytes of the body are still due, `acc` is what has come of it, and `sum` is
the sum of the bytes from LEN on. -/
def Assembler.collecting (len due : Nat) (sum kind : Byte) (acc : List Byte) : Assembler :=
  ⟨if due = 0 then .check else .body, len, due, sum.toNat, gap, kind, acc⟩

/-- A LEN of 1 to 64 is taken, and any other sends the assembler back to HUNT. -/
theorem Assembler.take_length : ((Assembler.hunting.take gap ⟨0xC3, true⟩).1.take gap ⟨b, true⟩) =
    if 1 ≤ b.toNat ∧ b.toNat ≤ 64 then (.named gap b.toNat, none) else (.hunting, none) := rfl

theorem Assembler.take_kind (n : Byte) (h : 1 ≤ n.toNat) :
    (Assembler.named gap n.toNat).take gap ⟨b, true⟩ = (.collecting gap n.toNat (n.toNat - 1) (n + b) b [], none) := by
  by_cases hn : 1 < n.toNat
  · have hdue : n.toNat - 1 ≠ 0 := by omega
    simp [Assembler.take, Assembler.named, Assembler.collecting, hn, hdue, BitVec.toNat_add]
  · have hdue : n.toNat - 1 = 0 := by omega
    simp [Assembler.take, Assembler.named, Assembler.collecting, hn, hdue, BitVec.toNat_add]

theorem Assembler.take_body (len due : Nat) (sum kind : Byte) (acc : List Byte) :
    (Assembler.collecting gap len (due + 1) sum kind acc).take gap ⟨b, true⟩ =
      (.collecting gap len due (sum + b) kind (acc ++ [b]), none) := by
  simp [Assembler.take, Assembler.collecting, BitVec.toNat_add]

theorem Assembler.take_check (len : Nat) (sum kind : Byte) (acc : List Byte) :
    (Assembler.collecting gap len 0 sum kind acc).take gap ⟨b, true⟩ =
      (.hunting, if sum + b = 0 then some ⟨kind, acc⟩ else none) := by
  simp [Assembler.take, Assembler.collecting, ← BitVec.toNat_inj, BitVec.toNat_add]

end

/-! ## A whole frame (R172, R174) -/

theorem lineBytes_cons (b : Byte) (l : List Byte) : lineBytes (b :: l) = ⟨b, true⟩ :: lineBytes l := rfl

/-- The body and the last byte of a frame: the frame is complete when the bytes from LEN on add up to 0. -/
theorem Assembler.feed_collecting (gap : Timer) (len : Nat) (sum kind : Byte) (acc body : List Byte) (x : Byte) :
    Assembler.feed (.collecting gap len body.length sum kind acc) gap (lineBytes (body ++ [x])) =
      (.hunting, if sum + body.sum + x = 0 then [⟨kind, acc ++ body⟩] else []) := by
  induction body generalizing sum acc with
  | nil =>
    rw [List.nil_append, lineBytes_cons, Assembler.feed_cons, List.length_nil, Assembler.take_check]
    simp only [List.sum_nil, add_zero, List.append_nil]
    split <;> rfl
  | cons b body ih =>
    rw [List.cons_append, lineBytes_cons, Assembler.feed_cons, List.length_cons, Assembler.take_body]
    dsimp only
    rw [ih, List.sum_cons, ← BitVec.add_assoc, List.append_assoc]
    rfl

/-- The CHECK byte is the one byte that brings the sum of a frame's bytes from LEN on to 0 (R172). -/
theorem eq_checkByte_iff {k x : Byte} {body : List Byte} :
    byte (body.length + 1) + k + body.sum + x = 0 ↔ x = checkByte k body := by
  rw [checkByte, eq_neg_iff_add_eq_zero, add_comm]

/-- The LEN byte of a frame is the length of its body plus 1 (R172). -/
theorem toNat_lenByte {body : List Byte} (h : body.length ≤ 63) : (byte (body.length + 1)).toNat = body.length + 1 := by
  simp only [byte, BitVec.toNat_ofNat]
  omega

/-- The bytes of a frame, with `x` as the last: the assembler comes to HUNT again, and the frame is complete when `x` is its CHECK
byte. -/
theorem Assembler.feed_frame (f : Frame) (gap : Timer) (x : Byte) (h : f.body.length ≤ 63) :
    Assembler.feed .hunting gap (lineBytes ([0xC3, byte (f.body.length + 1), f.kind] ++ f.body ++ [x])) =
      (.hunting, if x = checkByte f.kind f.body then [f] else []) := by
  have hn : (byte (f.body.length + 1)).toNat = f.body.length + 1 := toNat_lenByte h
  have hlen := Assembler.take_length gap (byte (f.body.length + 1))
  have hkind := Assembler.take_kind gap f.kind (byte (f.body.length + 1)) (by omega)
  have hbody := Assembler.feed_collecting gap (f.body.length + 1) (byte (f.body.length + 1) + f.kind) f.kind [] f.body x
  rw [if_pos ⟨by omega, by omega⟩, hn] at hlen
  rw [hn, Nat.add_sub_cancel] at hkind
  simp only [eq_checkByte_iff, List.nil_append] at hbody
  simp only [List.cons_append, List.nil_append, lineBytes_cons, Assembler.feed_cons, hlen, hkind, hbody]
  rfl

/-- Settles O17: the last byte of a frame's layout is its CHECK byte. -/
theorem assemblerReadsEveryFrameBack : Obligations.AssemblerReadsEveryFrameBack := fun f gap h =>
  (Assembler.feed_frame f gap (checkByte f.kind f.body) h).trans (by rw [if_pos rfl])

/-! ## Bytes that complete no frame (R174) -/

theorem Assembler.feed_badLength {n : Byte} (gap : Timer) (h : n.toNat = 0 ∨ 64 < n.toNat) :
    Assembler.feed .hunting gap (lineBytes [0xC3, n]) = (.hunting, []) := by
  have hlen := Assembler.take_length gap n
  rw [if_neg (by omega)] at hlen
  simp only [lineBytes_cons, Assembler.feed_cons, hlen]
  rfl

theorem Assembler.feed_stray {l : List RxByte} (gap : Timer) (h : ∀ b ∈ l, b.value ≠ 0xC3) :
    Assembler.feed .hunting gap l = (.hunting, []) := by
  induction l with
  | nil => rfl
  | cons b l ih =>
    obtain ⟨hb, hl⟩ := List.forall_mem_cons.1 h
    rw [Assembler.feed_cons, Assembler.take_hunting_other gap hb, ih hl]
    rfl

/-- A byte that completes no frame changes the assembler only. -/
theorem State.rxByte_incomplete {s : State} {b : RxByte} (h : (s.cl.rx.take (gapTime s.straps) b).2 = none) :
    s.rxByte b = { s with cl := { s.cl with rx := (s.cl.rx.take (gapTime s.straps) b).1 } } := by
  unfold State.rxByte
  simp only [h]
  rfl

/-- Bytes that complete no frame change the assembler only. -/
theorem State.rxBytes_incomplete {s : State} {l : List RxByte} (h : (Assembler.feed s.cl.rx (gapTime s.straps) l).2 = []) :
    s.rxBytes l = { s with cl := { s.cl with rx := (Assembler.feed s.cl.rx (gapTime s.straps) l).1 } } := by
  induction l generalizing s with
  | nil => rfl
  | cons b l ih =>
    rw [Assembler.feed_cons] at h ⊢
    obtain ⟨hb, hl⟩ := List.append_eq_nil_iff.1 h
    have hbyte := State.rxByte_incomplete (Option.toList_eq_nil_iff.1 hb)
    have hrest : s.rxBytes (b :: l) = (s.rxByte b).rxBytes l := rfl
    rw [hrest, hbyte, ih hl]

/-- A powered part takes a wake event as its own command. -/
theorem State.orWake_powered {s t : State} {src : WakeSource} {f : State → State} (hp : s.pc.state ≠ .parked) (h : f s = t) :
    s.orWake src f = .next (State.finish s t) := by
  rw [State.orWake, if_neg hp, h]

/-- Settles O18: by the stage in which each byte is discarded, and the assembler's state after bytes that complete no frame. -/
theorem badFramesAreDiscarded : Obligations.BadFramesAreDiscarded := by
  refine ⟨⟨fun f gap x h hx => ?_, fun n gap => Assembler.feed_badLength gap, fun l gap => Assembler.feed_stray gap⟩,
    fun s l hp h => ⟨fun hne => ?_, ?_⟩⟩
  · rw [Assembler.feed_frame f gap x h, if_neg hx]
  · cases l with
    | nil => exact absurd rfl hne
    | cons b l => exact (exec_frameDiscarded_cons b l s).trans (State.orWake_powered hp (State.rxBytes_incomplete h))
  · cases l with
    | nil => exact State.whenPowered_powered (f := State.gapExpires) hp rfl
    | cons b l =>
      refine (exec_linkGapTimeout_cons b l s).trans (State.orWake_powered hp ?_)
      rw [State.rxBytes_incomplete h]
      rfl

end Sys2Proof.Machine
end

section
/-! PROOF. The tests of a received frame, in their order (chapter 11): BUSY, UNKNOWN-KIND, BAD-LENGTH and WRONG-STATE (O19). -/

namespace Sys2Proof.Machine

section

variable {s : State} {kind : Byte} {body : List Byte} {form : Form} {own : State → List Byte → Answer}

/-- Test 1 of R175, on a request. -/
theorem State.request_busy {q : PendingReq} (hp : s.pc.state ≠ .parked) (hq : s.cl.request = some q) (hb : body.length ≤ 63) :
    s.request kind body form own =
      .next (State.finish s { s with cl := ({ s.cl with rx := .hunting } : Link).busy kind }) := by
  have hq' : s.rxDone.cl.request = some q := hq
  refine State.orWake_powered hp ?_
  rw [State.takeRequest, if_neg (Nat.not_lt.2 hb), hq']
  rfl

/-- With no request unanswered, the frame is tested further. -/
theorem State.takeRequest_opens (hq : s.cl.request = none) (hb : body.length ≤ 63) :
    s.takeRequest kind body form own = s.handle kind body form own := by
  rw [State.takeRequest, if_neg (Nat.not_lt.2 hb), hq]

/-- Test 3 of R175. -/
theorem State.request_badLength {n : Nat} (hp : s.pc.state ≠ .parked) (hq : s.cl.request = none) (hb : body.length ≤ 63)
    (hf : form.length = some n) (hn : body.length ≠ n) :
    s.request kind body form own = .next (State.finish s { s with cl := s.afterRefusal ⟨kind, body⟩ .badLength }) := by
  refine State.orWake_powered hp ((State.takeRequest_opens (s := s.rxDone) hq hb).trans (if_pos ⟨?_, ?_⟩))
  · rw [hf]
    rfl
  · rw [hf]
    exact fun e => hn (Option.some.inj e).symm

/-- Test 4 of R175. -/
theorem State.request_wrongState (hp : s.pc.state = .parking) (hq : s.cl.request = none) (hb : body.length ≤ 63)
    (hl : ∀ n, form.length = some n → body.length = n) (hf : form.refused = true) :
    s.request kind body form own = .next (State.finish s { s with cl := s.afterRefusal ⟨kind, body⟩ .wrongState }) := by
  have hlen : ¬ (form.length.isSome = true ∧ form.length ≠ some body.length) := fun ⟨h, hne⟩ => by
    obtain ⟨n, hn⟩ := Option.isSome_iff_exists.1 h
    exact hne (by rw [hn, hl n hn])
  refine State.orWake_powered (by rw [hp]; nofun) ((State.takeRequest_opens (s := s.rxDone) hq hb).trans ?_)
  exact (if_neg hlen).trans (if_pos ⟨hf, hp⟩)

/-- A frame of an unknown kind, to a powered part. -/
theorem exec_unknownKindFrame_powered (hp : s.pc.state ≠ .parked) (hk : kind.toNat ∉ requestKinds) :
    exec (.unknownKindFrame kind body) s = .next (State.finish s (s.rxDone.takeUnknown kind body)) :=
  (exec_unknownKindFrame kind body s).trans (State.orWake_powered hp (State.takeFrame_unknown hk))

/-- Test 1 of R175, on a frame of an unknown kind. -/
theorem exec_unknownKindFrame_busy {q : PendingReq} (hp : s.pc.state ≠ .parked) (hq : s.cl.request = some q)
    (hb : body.length ≤ 63) (hk : kind.toNat ∉ requestKinds) : exec (.unknownKindFrame kind body) s =
      .next (State.finish s { s with cl := ({ s.cl with rx := .hunting } : Link).busy kind }) := by
  have hq' : s.rxDone.cl.request = some q := hq
  rw [exec_unknownKindFrame_powered hp hk, State.takeUnknown, if_neg (Nat.not_lt.2 hb), hq']
  rfl

/-- Test 2 of R175. -/
theorem exec_unknownKindFrame_refused (hp : s.pc.state ≠ .parked) (hq : s.cl.request = none) (hb : body.length ≤ 63)
    (hk : kind.toNat ∉ requestKinds) : exec (.unknownKindFrame kind body) s =
      .next (State.finish s { s with cl := s.afterRefusal ⟨kind, body⟩ .unknownKind }) := by
  have hq' : s.rxDone.cl.request = none := hq
  rw [exec_unknownKindFrame_powered hp hk, State.takeUnknown, if_neg (Nat.not_lt.2 hb), hq']
  rfl

/-- A BUSY refusal waits while the transmitter is sending (R175). -/
theorem Link.busy_waits {l : Link} {x : Sending} (k : Byte) (hx : l.transmitter = some x) (h : l.refusals.length < 4) :
    l.busy k = { l with refusals := l.refusals ++ [⟨0x7F, [k, 5]⟩] } := by
  rw [Link.busy, if_pos h]
  exact Link.pump_sending hx

/-- A full refusal list takes no BUSY refusal (R175). -/
theorem Link.busy_full {l : Link} (k : Byte) (h : 4 ≤ l.refusals.length) : l.busy k = l := if_neg (Nat.not_lt.2 h)

end

/-- Settles O19: each request of the table is tested as any other, and a frame of another kind stops at the second test. -/
theorem framesAreTestedInOrder : Obligations.FramesAreTestedInOrder := by
  refine ⟨fun s q body hp hq hb => ⟨fun row hrow => ?busy, fun k => exec_unknownKindFrame_busy hp hq hb,
      fun k x => Link.busy_waits k, fun k => Link.busy_full k⟩,
    fun s k body => exec_unknownKindFrame_refused, fun row hrow s n body hp hq hb hf hn => ?badLength,
    fun row hrow s body hp hq hb hl hf => ?wrongState⟩
  all_goals
    obtain ⟨own, hown⟩ := exec_requestTable row hrow
    rw [hown]
  case busy => exact State.request_busy hp hq hb
  case badLength => exact State.request_badLength hp hq hb hf hn
  case wrongState => exact State.request_wrongState hp hq hb hl hf

end Sys2Proof.Machine
end

section
/-! PROOF. The device-wide requests (chapter 11): the queries answer and change nothing (O21), HUSH sets and clears its flag (O22),
and SET-ROTATION replaces the table whole (O25). -/

namespace Sys2Proof.Machine

/-! ## The queries (R55, R179, R181, R182) -/

section

variable {s : State}

theorem identifyBody_eq (straps : Straps) : identifyBody straps =
    [0x43, 0x58, 0x32, 0x36, 0x01, if straps.rate = .r57600 then 1 else 2, if straps.singleZone then 1 else 2,
      if straps.singleSlot then 1 else 6] := by
  cases h : straps.rate <;> simp [identifyBody, h, Config.revision, byte]

/-- QUERY-PARAM of a parameter in force (R181). -/
theorem ownQueryParam_inForce {id zone : Byte} {v : Nat} (h : s.queryParam id.toNat zone = some v) :
    ownQueryParam s [id, zone] = .accepted s ([id, zone] ++ be2 v) := by
  simp [ownQueryParam, bodyAt, h]

/-- A per-zone parameter of the zone named (R181). -/
theorem State.queryParam_zone {zone : Byte} {z : ZoneId} (hz : zoneOf s.straps zone = some z) :
    s.queryParam 3 zone = some (s.params.lowWater.get z) ∧ s.queryParam 4 zone = some (s.params.startThr.get z) ∧
      s.queryParam 5 zone = some (s.params.restartThr.get z) := by
  simp [State.queryParam, hz]

/-- A parameter that is not per zone is in force for every zone byte (R181). -/
theorem State.queryParam_single {id v : Nat} (zone : Byte) (h : singleParam s.params id = some v) :
    s.queryParam id zone = some v := by
  unfold State.queryParam
  split
  case h_6 => exact h
  all_goals cases h

/-- The count of failed attempts is that of the zone's context, 0 with none (R55). -/
theorem State.attempts_eq (s : State) (z : ZoneId) : s.attempts z = ((s.ctx z).map (·.failed)).getD 0 := by
  unfold State.attempts
  cases s.ctx z <;> rfl

end

/-- Settles O21: each query passes the tests of R175, and its owner accepts it with the state as it stands. -/
theorem queriesAnswerAndChangeNothing : Obligations.QueriesAnswerAndChangeNothing := by
  refine ⟨fun s hp hq => ⟨fun body hb => ?echo, ?identify⟩, fun s hp hq => ?status, fun s zone hp hq => ?param,
    fun s zb z hp hq hz => ?zone⟩
  case echo =>
    have hown : ownEcho (s.asked ⟨0x01, body⟩) body = .accepted (s.asked ⟨0x01, body⟩) body := rfl
    have hdone := State.request_accepted (form := ⟨none, false⟩) hp hq hb nofun nofun hown
    exact hdone
  case identify =>
    intro body
    have hown : ownIdentify (s.asked ⟨0x02, []⟩) [] = .accepted (s.asked ⟨0x02, []⟩) body :=
      congrArg (Answer.accepted _) (identifyBody_eq s.straps)
    exact State.request_queried hp hq hown rfl
  case status => exact State.request_queried (own := ownDeviceStatus) hp hq rfl rfl
  case param =>
    intro done
    have inForce {id : Byte} {v : Nat} (h : s.queryParam id.toNat zone = some v) :
        exec (.queryParam [id, zone]) s = .next (done id v) :=
      State.request_queried (own := ownQueryParam) hp hq (ownQueryParam_inForce h) rfl
    refine ⟨inForce rfl, fun h => inForce (by simp [State.queryParam, h]), fun z hz => ?_,
      fun id v h => inForce (State.queryParam_single zone h)⟩
    obtain ⟨hlow, hstart, hrestart⟩ := State.queryParam_zone hz
    exact ⟨inForce hlow, inForce hstart, inForce hrestart⟩
  case zone =>
    intro r u body
    have hbody : s.zoneStatusBody z = body := by
      simp only [State.zoneStatusBody, zoneCode_zoneOf hz, State.attempts_eq]
      rfl
    exact hbody ▸ State.request_queried (own := ownZoneStatus) hp hq (State.onZone_named hz) rfl

/-! ## HUSH (R178) -/

/-- A flag already as asked stands (R178). -/
theorem Link.setHush_same {l : Link} {on : Bool} (h : l.hush = on) : l.setHush on = l := if_pos h

theorem Link.setHush_sets {l : Link} (h : l.hush = false) : l.setHush true = { l with hush := true, notices := [] } := by
  simp [Link.setHush, h]

theorem Link.setHush_clears (l : Link) : l.setHush false = { l with hush := false } := by
  obtain ⟨rx, request, refusals, notices, hush, lost, transmitter⟩ := l
  cases hush <;> rfl

/-- Settles O22: by the value asked for and the flag as it stands. -/
theorem hushSetsAndClears : Obligations.HushSetsAndClears := by
  intro s hp hq
  have sets {l : Link} (h : (s.cl.asking ⟨0x07, [1]⟩).setHush true = l) :
      exec (.hush [1]) s = .next (State.finish s { s with cl := l.formReply ⟨0x47, [1]⟩ }) :=
    h ▸ State.request_queried (own := ownHush) hp hq rfl rfl
  refine ⟨fun h => sets (Link.setHush_sets h), fun h => sets (Link.setHush_same h), ?clears, fun v h0 h1 => ?_⟩
  case clears =>
    rw [← Link.setHush_clears]
    exact State.request_queried (own := ownHush) hp hq rfl rfl
  · exact State.request_badQuery (own := ownHush) hp hq (if_neg (not_or.2 ⟨h0, h1⟩))

/-! ## SET-ROTATION (R65, R184) -/

/-- A byte that codes an entry is that entry's code. -/
theorem rotOf_coded {straps : Straps} {b : Byte} (h : b.toNat ≤ 2 ∧ (b = 1 → straps.singleZone = false)) :
    ∃ e, rotOf straps b = some e ∧ rotCode e = b := by
  obtain ⟨hb, hz⟩ := h
  have hcases : b = 0 ∨ b = 1 ∨ b = 2 := by
    have hnat : b.toNat = 0 ∨ b.toNat = 1 ∨ b.toNat = 2 := by omega
    exact hnat.imp BitVec.eq_of_toNat_eq (Or.imp BitVec.eq_of_toNat_eq BitVec.eq_of_toNat_eq)
  rcases hcases with rfl | rfl | rfl
  · exact ⟨.a, rfl, rfl⟩
  · exact ⟨.b, by simp [rotOf, hz rfl], rfl⟩
  · exact ⟨.any, by simp [rotOf], rfl⟩

/-- A byte above 2 codes no entry, and neither does 1 in single-zone strap. -/
theorem rotOf_bad {straps : Straps} {b : Byte} (h : 2 < b.toNat ∨ b = 1 ∧ straps.singleZone = true) : rotOf straps b = none := by
  rcases h with h | ⟨rfl, hz⟩
  · have hne (c : Byte) (hc : c.toNat ≤ 2) : b ≠ c := fun e => absurd (e ▸ h) (Nat.not_lt.2 hc)
    rw [rotOf, if_neg (hne 0 (by decide)), if_neg fun e => hne 1 (by decide) e.1, if_neg (hne 2 (by decide))]
  · simp [rotOf, hz]

/-- A body whose bytes each code an entry is the codes of its entries. -/
theorem rotEntries_coded {straps : Straps} {body : List Byte}
    (h : ∀ b ∈ body, b.toNat ≤ 2 ∧ (b = 1 → straps.singleZone = false)) :
    ∃ table, rotEntries straps body = some table ∧ table.map rotCode = body := by
  induction body with
  | nil => exact ⟨[], rfl, rfl⟩
  | cons b body ih =>
    obtain ⟨hb, hbody⟩ := List.forall_mem_cons.1 h
    obtain ⟨e, he, hcode⟩ := rotOf_coded hb
    obtain ⟨table, ht, hcodes⟩ := ih hbody
    exact ⟨e :: table, by simp [rotEntries, he, ht], by rw [List.map_cons, hcode, hcodes]⟩

/-- One byte that codes no entry spoils the whole body. -/
theorem rotEntries_bad {straps : Straps} {body : List Byte} {b : Byte} (hb : b ∈ body) (h : rotOf straps b = none) :
    rotEntries straps body = none := by
  induction body with
  | nil => cases hb
  | cons c body ih =>
    unfold rotEntries
    rcases List.mem_cons.1 hb with rfl | hb
    · rw [h]
    · rw [ih hb]
      cases rotOf straps c <;> rfl

theorem ownSetRotation_coded {s : State} {body : List Byte} {table : List RotEntry} (h : rotEntries s.straps body = some table) :
    ownSetRotation s body = .accepted (s.modDa fun d => { d with rotation := table, rotPtr := 0 }) (table.map rotCode) := by
  rw [ownSetRotation, h]

theorem ownSetRotation_bad {s : State} {body : List Byte} (h : rotEntries s.straps body = none) :
    ownSetRotation s body = .rejected .badValue := by
  rw [ownSetRotation, h]

/-- Settles O25: by the length of the body and then by what its bytes code. -/
theorem setRotationReplacesTheTable : Obligations.SetRotationReplacesTheTable := by
  intro s body hs
  have hfit (h16 : body.length = 16) : body.length ≤ 63 := by omega
  refine ⟨fun hne hb => ?_, fun h16 hgood => ?_, fun h16 ⟨b, hb, hbad⟩ => ?_⟩
  · obtain ⟨hp, hq⟩ := hs
    exact State.request_badLength (by rw [hp]; nofun) hq hb rfl hne
  · obtain ⟨table, htable, hcodes⟩ := rotEntries_coded hgood
    refine ⟨table, hcodes, ?_⟩
    refine hs.acceptsAs (own := ownSetRotation) (ownSetRotation_coded htable) ?_ (congrArg some h16.symm) (hfit h16)
    rw [hcodes]
    rfl
  · exact hs.refuses (ownSetRotation_bad (rotEntries_bad hb (rotOf_bad hbad))) (congrArg some h16.symm) (hfit h16)

end Sys2Proof.Machine
end

section
/-! PROOF. The queue: what a step does by what waits in it (O1, O2), and that no word puts a command there (O2). -/

namespace Sys2Proof.Machine

theorem step_of_pending_cons {c : Instr} {s : State} {rest : List Instr} (h : s.pending = c :: rest) :
    step s = exec c { s with pending := rest } := by
  rw [step, h]

theorem step_of_pending_nil {s : State} (h : s.pending = []) : step s = .next s := by
  rw [step, h]

/-- A word that spells no command puts none in the queue. -/
theorem State.withFetchWord_of_none {nbits w : Nat} (s : State) (h : decodeTableWord nbits w = none) :
    s.withFetchWord nbits w = s := by
  rw [State.withFetchWord, h]

/-- No row of the table gives bits (log entry 11). -/
theorem decodeTableWord_eq_none (nbits w : Nat) : decodeTableWord nbits w = none := rfl

/-- Settles O1: the branch of a step for a queue with a front. -/
theorem stepRunsFrontCommand : Obligations.StepRunsFrontCommand := fun _ _ _ h => step_of_pending_cons h

/-- Settles O2: the branch of a step for the empty queue, and the decoder that answers none for every word. -/
theorem emptyQueueIdlesAndNoWordIsACommand : Obligations.EmptyQueueIdlesAndNoWordIsACommand :=
  ⟨fun _ h => step_of_pending_nil h, fun nbits w =>
    ⟨decodeTableWord_eq_none nbits w, fun s => s.withFetchWord_of_none (decodeTableWord_eq_none nbits w)⟩⟩

end Sys2Proof.Machine
end
